-- ==== Sys2Proof/Word.lean ====
section
/-! DEFINITION. The word types of the Cajkel 880: a byte of Performance Memory, the 16-bit memory word,
and the 32-bit plan-time instants and line numbers that wrap (00_scope.md, "Memory words"; R46, R47). -/

namespace Sys2Proof

/-- A byte of Performance Memory. -/
abbrev Byte := BitVec 8

/-- A 16-bit word of Performance Memory or of a register (00_scope.md, "Memory words"). -/
abbrev Word := BitVec 16

/-- A 32-bit value that wraps: a plan-time instant (R47) or a roll line number (R10). -/
abbrev Word32 := BitVec 32

/-- A key of the keyboard as an index: index `i` is key `i + 1`, so that key 1 is A0 (00_scope.md,
"Numbering of keys, tracks and pedals"). -/
abbrev Key := Fin 88

end Sys2Proof
end

