-- ==== Sys2Proof/Syntax.lean ====
section
/-! DEFINITION. The commands of the part: one constructor for each row of spec/opcode_table.json. A command is a host
access at the memory port, or an event that reaches the part (its drive or plan time coming to an instant, a sample
of an input, a movement of RESET_N). -/

namespace Sys2Proof

/-- The three pedals (00_scope.md, "Numbering of keys, tracks and pedals"). -/
inductive Pedal where
  | damper
  | shift
  | middle
  deriving DecidableEq, Repr

/-- One command. Key numbers are the manual's, 1 to 88. -/
inductive Instr where
  /-- POWER_ON (R187): RESET_N rises. -/
  | powerOn
  /-- RESTART_ENGINE (R186): 0x7E01 is written to CMD. -/
  | restartEngine
  /-- FULL_RESET (R187): 0x7E0F is written to CMD. -/
  | fullReset
  /-- CLEAR_COUNTERS (R198): 0x7E20 is written to CMD. -/
  | clearCounters
  /-- SNAPSHOT (R190): 0x7E40 is written to CMD. -/
  | snapshot
  /-- CMD_REJECT (R186): the word is written to CMD while BUSY is set, or is no code. -/
  | cmdReject (code : Word)
  /-- STATUS_READ (R185). -/
  | statusRead
  /-- NSTAT_READ (R189). -/
  | nstatRead
  /-- NSTAT_WRITE (R189). -/
  | nstatWrite (value : Word)
  /-- NMASK_WRITE (R188). -/
  | nmaskWrite (value : Word)
  /-- NCFG_WRITE (R189). -/
  | ncfgWrite (value : Word)
  /-- REGISTER_WRITE_IGNORED (R179): a write to register position 1, 5, 6 or 7. -/
  | registerWriteIgnored (position : BitVec 3) (value : Word)
  /-- FILL_MARK_WRITE (R3): the host writes the Fill Mark word. -/
  | fillMarkWrite (value : Word)
  /-- SWEEP (R183): drive time comes to the sweep instant. -/
  | sweep
  /-- LOOKAHEAD_INSTANT (R50): the Performance Clock reaches the next line's lookahead instant. -/
  | lookaheadInstant
  /-- GUARD_INSTANT (R51): the Performance Clock reaches the next line's Guard instant. -/
  | guardInstant
  /-- WHEEL_SLOT (R106): the Performance Clock reaches the wheel position. -/
  | wheelSlot
  /-- PULSE_END (R118): the drive timer of a key in DRIVE runs out. -/
  | pulseEnd (key : Nat)
  /-- RELIEF_DELAY_END (R119): the ReliefDelay of a key in HOLD ends. -/
  | reliefDelayEnd (key : Nat)
  /-- DEPRESS_END (R126): the drive timer of a key in DEPRESSING runs out. -/
  | depressEnd (key : Nat)
  /-- GAP_END (R124): the repeat gap of a key in LIFTING ends. -/
  | gapEnd (key : Nat)
  /-- HEAT_UPDATE (R127). -/
  | heatUpdate
  /-- RAIL_SAMPLE (R134): a conversion of the rail channel gives `sample`. -/
  | railSample (sample : BitVec 10)
  /-- PEDAL_POSITION_SAMPLE (R155): a conversion of a pedal's channel gives `sample`. -/
  | pedalPositionSample (pedal : Pedal) (sample : BitVec 10)
  /-- TRAVEL_TIMEOUT (R156): a pedal's travel timer runs out. -/
  | travelTimeout (pedal : Pedal)
  /-- SENSE_SCAN (R167): the 88 inputs are read; bit `k - 1` of `levels` is the level of key `k`'s input. -/
  | senseScan (levels : BitVec 88)
  /-- HOST_MEMORY_WRITE (R179): the host writes the Performance Memory word at byte offset `2 * address`. -/
  | hostMemoryWrite (address : BitVec 15) (value : Word)
  /-- BUSY_CLEAR (R186): the operation that BUSY shows completes. -/
  | busyClear
  /-- RESET_ASSERTED (R179): RESET_N falls. -/
  | resetAsserted
  deriving DecidableEq, Repr

end Sys2Proof
end

