-- ==== Sys2Proof/Config.lean ====
section
/-! DEFINITION. The fixed quantities of the part: memory map, capacities and codes that the manual fixes and no
register changes. The manual leaves no value open, so there is no free value here. -/

namespace Sys2Proof.Config

/-- Part code, written at byte offset 0x000 (R187, Table 10-2). -/
def partCode : Word := 0x0880
/-- Revision, written at byte offset 0x002 (R187, Table 10-2). -/
def revision : Word := 0x0103

/-- Byte offset just past the Control Page (Table 10-1). -/
def controlPageEnd : Nat := 0x400
/-- Engine state word (Table 10-2). -/
def engineStateOffset : Nat := 0x004
/-- Fill Mark word (Table 10-2). -/
def fillMarkOffset : Nat := 0x008
/-- Take Mark word (Table 10-2). -/
def takeMarkOffset : Nat := 0x00A
/-- Log Read Mark word (Table 10-2). -/
def logReadMarkOffset : Nat := 0x00C
/-- Log Write Mark word (Table 10-2). -/
def logWriteMarkOffset : Nat := 0x00E
/-- Setup Block, 14 words (Table 10-3). -/
def setupOffset : Nat := 0x020
/-- Snapshot, 18 words (Table 10-8). -/
def snapshotOffset : Nat := 0x040
/-- Leader Record, 18 words (Table 10-4). -/
def leaderRecordOffset : Nat := 0x080
/-- Request Slot 0 (Table 10-6). -/
def requestOffset : Nat := 0x100
/-- Format Area (Table 10-1). -/
def formatOffset : Nat := 0x400
/-- Voicing Area (Table 10-1). -/
def voicingOffset : Nat := 0x800
/-- Strip Ring (R1). -/
def stripOffset : Nat := 0x1000
/-- Bytes of one Strip Ring slot (R1). -/
def stripSlotBytes : Nat := 66
/-- Start of the free area, the least LogBase (R191). -/
def freeAreaOffset : Nat := 0x5200

/-- Entries of the Action Pool (R104). -/
def poolEntries : Nat := 1024
/-- Free entries that a line's taking asks for (R50). -/
def poolForLine : Nat := 320
/-- Slots of the Launch Wheel (R104). -/
def wheelSlots : Nat := 4096
/-- Plan time of one wheel slot, in µs (R104). -/
def slotTime : Nat := 100

/-- Drive time between sweeps (R183). -/
def sweepPeriod : Nat := 1000
/-- Drive time between heat updates (R127). -/
def heatPeriod : Nat := 10000
/-- Drive time between two samples of one analog channel (R132). -/
def samplePeriod : Nat := 1000
/-- Drive time between two channels of the sampling turn (R132). -/
def channelPeriod : Nat := 250
/-- Drive time between sense scans (R167). -/
def scanPeriod : Nat := 50

/-- CMD code of RESTART_ENGINE (R186). -/
def cmdRestart : Word := 0x7E01
/-- CMD code of FULL_RESET (R186). -/
def cmdFullReset : Word := 0x7E0F
/-- CMD code of CLEAR_COUNTERS (R186). -/
def cmdClearCounters : Word := 0x7E20
/-- CMD code of SNAPSHOT (R186). -/
def cmdSnapshot : Word := 0x7E40

end Sys2Proof.Config
end

