-- ==== Sys2Proof/Machine/State.lean ====
section
/-! DEFINITION. The state of the part as plain data: the queue of waiting commands, and one record per block of
Table 0-1 with every piece of state its chapter gives it, and its values after reset. -/

namespace Sys2Proof.Machine

/-- A vector built from a function of the index. -/
def tabulate {α : Type} (n : Nat) (f : Nat → α) : Vector α n :=
  ⟨((List.range n).map f).toArray, by simp⟩

/-! ## Strip Reader (Chapter 1) -/

/-- Tracking state (R13). -/
inductive Tracking where
  | locked
  | coasting
  | lost
  deriving DecidableEq, Repr

/-- State of a Track record (R17). -/
inductive TrackState where
  | closed
  | opening
  | opened
  | closing
  deriving DecidableEq, Repr

/-- A Track record (R17), with the track's last sample (R16) beside it. -/
structure TrackRec where
  state : TrackState
  /-- Run count, 0 to 8. -/
  run : Nat
  /-- First line of the run. -/
  firstLine : Word32
  /-- Struck key, present from a mapped onset to the matching offset. -/
  struckKey : Option Key
  /-- Last sample, `true` for open. -/
  lastSample : Bool
  deriving DecidableEq, Repr

/-- A slot held back by SKIP (R7): the copy read at the take (R5) and the synthetic lines remaining. -/
structure HeldSlot where
  /-- Bit `p` is pixel `p`; 1 is clear (R1). -/
  pixels : BitVec 512
  /-- BLANK of the Line Word. -/
  blank : Bool
  /-- Synthetic lines remaining. -/
  remaining : Nat
  deriving DecidableEq, Repr

/-- The Strip Reader. -/
structure Strip where
  /-- Take Mark (R2). -/
  takeMark : Word
  /-- Drift estimate D in 1/16 pixel (R12). -/
  drift : Int
  tracking : Tracking
  /-- Run of consecutive invalid edge lines (R13). -/
  invalidRun : Nat
  /-- Run of consecutive valid edge lines (R14). -/
  validRun : Nat
  /-- Track records of tracks 0 to 103 (R17). -/
  tracks : Vector TrackRec 104
  /-- Slot held under SKIP (R7). -/
  held : Option HeldSlot
  /-- Transposition in force, -12 to +12 (R24). -/
  transpose : Int
  deriving DecidableEq, Repr

/-! ## Format Table (Chapter 2) -/

/-- Shading Map actions (Table 2-2). -/
inductive MapAction where
  | step
  | rise
  | fall
  | latchSet
  | latchClear
  | latchToggle
  | accent
  | sustain
  | soft
  | middle
  | endRoll
  deriving DecidableEq, Repr

/-- Half of a Shading Map entry (R27). -/
inductive MapHalf where
  | bass
  | treble
  | both
  | neither
  deriving DecidableEq, Repr

/-- One entry of the Shading Map (R27). -/
structure MapEntry where
  track : Nat
  half : MapHalf
  action : MapAction
  value : Nat
  deriving DecidableEq, Repr

/-- A loaded Format (Table 2-1) with its Shading Map. -/
structure Format where
  formatId : Nat
  trackCount : Nat
  trackOrigin : Nat
  trackPitch : Nat
  apertureHalf : Nat
  apertureThreshold : Nat
  onsetLines : Nat
  offsetLines : Nat
  nominalCentre : Nat
  nominalWidth : Nat
  widthTolerance : Nat
  edgeRun : Nat
  driftSmoothing : Nat
  driftMax : Nat
  coastLimit : Nat
  relockLines : Nat
  linePitch : Nat
  defaultTempo : Nat
  spoolInterval : Nat
  spoolStep : Int
  firstNoteTrack : Nat
  noteTrackCount : Nat
  firstNoteKey : Nat
  splitKey : Nat
  floor : Nat
  midCap : Nat
  ceiling : Nat
  rampMax : Nat
  restRate : Nat
  restLevel : Nat
  softOffset : Nat
  map : List MapEntry
  deriving DecidableEq, Repr

/-- The Format Table (R31). -/
structure FormatTable where
  /-- The four internal slots. -/
  slots : Vector (Option Format) 4
  /-- The slot in use, absent outside a performance. -/
  inUse : Option (Fin 4)
  deriving DecidableEq, Repr

/-! ## Leader Decoder (Chapter 2) -/

/-- Sequence state (R32). -/
inductive LeaderSeq where
  | inactive
  | awaitingFirst
  | reading
  | decided
  deriving DecidableEq, Repr

/-- Leader outcome (R38, R40). -/
inductive LeaderOutcome where
  | none
  | matched
  | noMatch
  | noLeader
  | fault
  deriving DecidableEq, Repr

/-- Leader fault reasons (Table 2-5). -/
inductive LeaderFault where
  | firstToggle
  | tooMany
  | twoFormats
  | noFormatPage
  deriving DecidableEq, Repr

/-- The Leader Decoder (R32), and the items of the Leader Record that it hands on (R40). -/
structure Leader where
  seq : LeaderSeq
  /-- START's LeaderLines. -/
  lines : Nat
  /-- Window count. -/
  windowCount : Nat
  prevToggle : Option Bool
  pages : Nat
  formatIdRead : Option Nat
  tempoRead : Option Nat
  spoolRead : Option Int
  texts : List Nat
  repeats : Nat
  unknowns : Nat
  fault : Option LeaderFault
  /-- Outcome, slot used, tempo and spool step as the Leader Record shows them (R40). -/
  outcome : LeaderOutcome
  slotUsed : Nat
  tempoHanded : Nat
  spoolHanded : Int
  /-- The first music line, once an outcome has been decided (R42). -/
  firstMusicLine : Option Word32
  /-- Music lines processed since the outcome: how far back the leader window lies (R42). -/
  musicLines : Nat
  deriving DecidableEq, Repr

/-! ## Timebase Unit and Playback Controller (Chapter 3) -/

/-- Engine state (Table 3-1). -/
inductive EngineState where
  | idle
  | leader
  | running
  | paused
  | starved
  | draining
  deriving DecidableEq, Repr

/-- Cause reported for a line that is not takeable (R50). -/
inductive Cause where
  | lines
  | pool
  | mark
  deriving DecidableEq, Repr

/-- The Timebase Unit and the Playback Controller. -/
structure Timebase where
  engine : EngineState
  /-- State recorded for the return from PAUSED or STARVED (R51, R61). -/
  returnState : Option EngineState
  /-- Cause last reported for the waiting line (R50). -/
  lastCause : Option Cause
  /-- Cause recorded at the entry into STARVED (R51). -/
  starveCause : Option Cause
  /-- Performance Clock (R48). -/
  clock : Word32
  /-- Next line number (R46). -/
  nextLine : Word32
  /-- Due time of the next line, 32.16 (R46). -/
  due : BitVec 48
  /-- The next line has been reported as wanted (R50). -/
  wanted : Bool
  /-- Tempo in force (R44). -/
  tempo : Nat
  /-- START's tempo override, 0 for none (R39). -/
  tempoOverride : Nat
  /-- SET_TEMPO has been taken since START (R64). -/
  setTempoTaken : Bool
  /-- Base period P16 in 1/65,536 µs (R44). -/
  p16 : Nat
  /-- Interval count c (R45). -/
  intervals : Nat
  /-- Interval line count j (R45). -/
  intervalLines : Nat
  /-- SpoolInterval in force (R45). -/
  spoolInterval : Nat
  /-- SpoolStep in force (R45). -/
  spoolStep : Int
  /-- Lookahead in force in µs (R49). -/
  lookahead : Nat
  /-- START's end line, 0 for none (R57). -/
  endLine : Word32
  /-- Integer part of the due time of the last line taken since START (R58). -/
  lastTakenDue : Option Word32
  deriving DecidableEq, Repr

/-! ## Shading Unit (Chapter 4) -/

/-- A half of the keyboard and of the roll's shading. -/
inductive Half where
  | bass
  | treble
  deriving DecidableEq, Repr

/-- Shading state of one half (R68). -/
structure HalfShade where
  latch : Bool
  /-- Ramp R in 1/65,536 shade. -/
  ramp : Nat
  stepSum : Nat
  accent : Nat
  shade : Nat
  deriving DecidableEq, Repr

/-- A Shade History entry (Table 4-4). -/
structure HistoryEntry where
  line : Word32
  due : Word32
  shadeBass : Nat
  shadeTreble : Nat
  accentBass : Nat
  accentTreble : Nat
  shiftPlanned : Bool
  deriving DecidableEq, Repr

/-- The Shading Unit. -/
structure Shading where
  bass : HalfShade
  treble : HalfShade
  shiftPlanned : Bool
  /-- Shade History, oldest entry first, at most eight (R79). -/
  history : List HistoryEntry
  deriving DecidableEq, Repr

/-! ## Strike Calculator (Chapter 5) -/

/-- Key class fields (Table 5-1). -/
structure KeyClass where
  curve : Fin 8
  ifull : Nat
  holdDuty : Nat
  minHold : Nat
  repeatGap : Nat
  repeatSteal : Nat
  releaseAdvance : Nat
  velFloor : Nat
  depressDuty : Nat
  depressTime : Nat
  deriving DecidableEq, Repr

/-- A drive curve point (R86). -/
structure CurvePoint where
  w : Nat
  d : Nat
  u : Nat
  deriving DecidableEq, Repr

/-- Pedal fields of the Voicing (Table 5-2). -/
structure PedalVoicing where
  ifull : Nat
  moveDuty : Nat
  holdBase : Nat
  holdSlope : Nat
  /-- TravelMax in ms. -/
  travelMax : Nat
  tol : Nat
  pedalLead : Nat
  deriving DecidableEq, Repr

/-- A Voicing (R85 to R87). -/
structure Voicing where
  classes : Vector KeyClass 8
  curves : Vector (Vector CurvePoint 17) 8
  /-- Class of each key. -/
  keyClass : Vector (Fin 8) 88
  /-- Strike trim of each key. -/
  strikeTrim : Vector Int 88
  warmLimit : Nat
  resumeLimit : Nat
  cutLimit : Nat
  heatShift : Nat
  missLimit : Nat
  adapt : Bool
  /-- Sense polarity 1: a falling edge is the sense edge. -/
  fallingEdge : Bool
  /-- DAMPER, SHIFT and MIDDLE. -/
  pedals : Vector PedalVoicing 3
  freeLevel : Nat
  engageLevel : Nat
  damperTop : Nat
  deriving DecidableEq, Repr

/-- The Strike Calculator. -/
structure StrikeCalc where
  /-- Voicing in force (R90). -/
  voicing : Voicing
  /-- The Guard in µs (R91). -/
  guardTime : Nat
  /-- Strike tag counter (R93). -/
  tagCounter : Word
  /-- Volumes in force (R96). -/
  volBass : Nat
  volTreble : Nat
  deriving DecidableEq, Repr

/-! ## Launch Wheel and Key Driver (Chapter 6) -/

/-- Action kinds (Table 6-1). -/
inductive ActionKind where
  | launch (key : Key) (tag : Word)
  | expire (key : Key) (tag : Word)
  | release (key : Key) (tag : Word)
  | releaseAll
  | depress (key : Key) (tag : Word) (claim : Nat)
  | pedal (pedal : Pedal) (target : Nat) (source : Word32) (drop : Bool)
  | pedalRest
  deriving DecidableEq, Repr

/-- An action of the Launch Wheel: its kind, the instant it was given, and the slot in whose chain it stands (R105). -/
structure Action where
  kind : ActionKind
  instant : Word32
  slot : Nat
  deriving DecidableEq, Repr

/-- The Launch Wheel (R104). -/
structure Wheel where
  /-- All actions in the order in which they were appended; the chain of slot `x` is the sublist with `slot = x`. -/
  actions : List Action
  /-- Wheel position. -/
  position : Word32
  /-- Free count of the Action Pool. -/
  free : Nat
  deriving DecidableEq, Repr

/-- A strike (Table 5-6), with its release instant (R109). -/
structure Strike where
  tag : Word
  key : Key
  cls : Fin 8
  half : Half
  datedLine : Word32
  due : Word32
  /-- Strike code V after stage 3. -/
  v : Nat
  w : Nat
  d : Nat
  u : Nat
  /-- Lead L. -/
  lead : Nat
  /-- Launch instant as planned in stage 5. -/
  planned : Word32
  /-- Launch instant at which the LAUNCH was placed (R113). -/
  launchAt : Word32
  iLaunch : Nat
  iHold : Nat
  wEff : Option Nat
  late : Bool
  derated : Bool
  deferred : Bool
  stolen : Bool
  compensated : Bool
  lateness : Nat
  /-- Release instant, absent until a release is planned (R114). -/
  release : Option Word32
  /-- The strike's RELEASE has been taken from the wheel (R112). -/
  releaseTaken : Bool
  deriving DecidableEq, Repr

/-- A queued strike with its launch-taken flag (R109). -/
structure Queued where
  strike : Strike
  launchTaken : Bool
  deriving DecidableEq, Repr

/-- Kind of a key's claim (R138). -/
inductive ClaimKind where
  | launch
  | depress
  deriving DecidableEq, Repr

/-- Key states (Table 6-3). WAITING names the claim the key waits for. -/
inductive KeyState where
  | idle
  | armed
  | waiting (claim : ClaimKind)
  | drive
  | hold
  | relieved
  | depressing
  | lifting
  deriving DecidableEq, Repr

/-- Sense window of a key (R168). -/
inductive WindowState where
  | closed
  | opened
  | heard
  | cut
  deriving DecidableEq, Repr

/-- A Key record (Table 6-2) with the key's drive output and held claim (Table 6-3). -/
structure KeyRec where
  state : KeyState
  current : Option Strike
  queued : Option Queued
  releasePending : Bool
  gapEnd : Option Nat
  lastRelease : Option Word32
  reliefReady : Bool
  coverDamper : Bool
  coverMiddle : Bool
  heat : Nat
  cut : Bool
  /-- Lead trim T. -/
  trim : Int
  depressTrim : Int
  /-- Sense state: `true` for DEAF. -/
  deaf : Bool
  missCount : Nat
  /-- Drive timer. -/
  timer : Option Nat
  /-- Drive output: the duty, or off. -/
  output : Option Nat
  /-- Claim held, 0 where none is. -/
  claim : Nat
  deriving DecidableEq, Repr

/-- A sense record (R168). -/
structure SenseRec where
  window : WindowState
  launchTime : Option Nat
  lead : Nat
  windowEnd : Nat
  recovery : Nat
  depressHeard : Bool
  deriving DecidableEq, Repr

/-! ## Budget Arbiter and Analog Monitor (Chapter 7) -/

/-- Rail state (R134). -/
inductive RailState where
  | normal
  | sag
  | low
  deriving DecidableEq, Repr

/-- Pedal states (Table 8-2). -/
inductive PedalState where
  | rest
  | raising
  | settled
  | lowering
  | stuck
  | off
  deriving DecidableEq, Repr

/-- An entry of the BASS or TREBLE queue (R138). -/
structure KeyClaim where
  key : Key
  kind : ClaimKind
  amount : Nat
  deriving DecidableEq, Repr

/-- An entry of the PEDAL queue (R138), with the state judged at the ask (R154). -/
structure PedalClaim where
  pedal : Pedal
  amount : Nat
  judged : PedalState
  deriving DecidableEq, Repr

/-- The Budget Arbiter. -/
structure Budget where
  /-- Committed current (R130). -/
  committed : Nat
  /-- Budget in force (R136). -/
  inForce : Nat
  /-- The host's budget Ibud (R143). -/
  ibud : Nat
  pedalQ : List PedalClaim
  bassQ : List KeyClaim
  trebleQ : List KeyClaim
  /-- Priority Pattern position (R140); the pattern itself is the Setup Block copy's. -/
  patternPos : Fin 16
  /-- A cause for serving (R139) that has come and has not been served; clear between commands. -/
  serveCause : Bool
  deriving DecidableEq, Repr

/-- The Analog Monitor; the three positions stand in the Pedal records (R146). -/
structure Analog where
  /-- Latest rail voltage in 0.1 V (R132). -/
  vrail : Nat
  rail : RailState
  /-- SagLevel and LowLevel under which the rail state was last judged (R136). -/
  judgedSag : Nat
  judgedLow : Nat
  deriving DecidableEq, Repr

/-! ## Pedal Driver (Chapter 8) -/

/-- Override of a pedal (R158). -/
inductive Override where
  | follow
  | force (value : Nat)
  | off
  deriving DecidableEq, Repr

/-- A Pedal record (Table 8-1) with its planned target, drive output and held claim. -/
structure PedalRec where
  state : PedalState
  target : Nat
  wanted : Option Nat
  rollTarget : Nat
  override : Override
  position : Nat
  dropPending : Option Word32
  /-- Travel timer. -/
  timer : Option Nat
  plannedTarget : Nat
  /-- Drive output: enable off, or on with this duty. -/
  output : Option Nat
  /-- Claim held, 0 where none is. -/
  claim : Nat
  deriving DecidableEq, Repr

/-- The Pedal Driver's Capture Set (R159). -/
structure Capture where
  keys : List Key
  engaged : Bool
  deriving DecidableEq, Repr

/-! ## Window Unit (Chapter 10) -/

/-- The copy of the Setup Block (Table 10-3). -/
structure Setup where
  lookahead : Nat
  maxLate : Nat
  ibud : Nat
  vnom : Nat
  sagLevel : Nat
  lowLevel : Nat
  railHyst : Nat
  priorityPattern : Word
  reliefDamper : Bool
  reliefMiddle : Bool
  reliefDelay : Nat
  depressMargin : Nat
  volBass : Nat
  volTreble : Nat
  sustainScale : Nat
  deriving DecidableEq, Repr

/-- The operation that BUSY shows (R186, R187). -/
inductive BusyOp where
  | powerOn
  | fullReset
  | restart
  | clearCounters
  | snapshot
  deriving DecidableEq, Repr

/-- The Window Unit's registers and its Setup Block copy. -/
structure Window where
  nstat : BitVec 9
  nmask : BitVec 9
  ncfg : BitVec 8
  /-- Notice pending set (R188). -/
  pendingSet : BitVec 9
  /-- BUSY, with the operation it shows. -/
  busy : Option BusyOp
  resetSeen : Bool
  trackOk : Bool
  cmdReject : Bool
  /-- A sweep instant has fallen during BUSY and waits for its end (R183). -/
  sweepDeferred : Bool
  /-- Log Read Mark value that the latest sweep read (R183, R191). -/
  sweptReadMark : Word
  snapshotCount : Word
  setup : Setup
  deriving DecidableEq, Repr

/-! ## Log Writer (Chapter 11) -/

/-- The counters of the Counter Block (Table 11-3). -/
inductive Counter where
  | linesTaken
  | strikesMade
  | repeatLines
  | skippedLines
  | blankLines
  | spuriousRuns
  | trackLosses
  | driftClamps
  | starvations
  | strikesLate
  | deferrals
  | derates
  | earlyDamps
  | depresses
  | senseMisses
  | senseOutliers
  | manualStrikes
  | logDropped
  | pedalStuck
  | suppressedLate
  | suppressedRepeat
  | suppressedHot
  | suppressedRange
  | suppressedShort
  | suppressedSuperseded
  | suppressedStop
  deriving DecidableEq, Repr

/-- The Log Writer (R192). -/
structure LogWriter where
  configured : Bool
  base : Nat
  slots : Nat
  filter : Word
  notify : Nat
  writeMark : Word
  /-- Read mark in force. -/
  readMark : Word
  dropped : Nat
  /-- Dropped-kind set: bit `k - 1` for kind `k`. -/
  droppedKinds : Word
  /-- The counters, in the order of Table 11-3. -/
  counters : Vector Nat 26
  deriving DecidableEq, Repr

/-! ## Time and pins -/

/-- Drive time and the drive-time instants of the part's own periodic events. -/
structure Clocks where
  /-- Drive time in µs since the end of the power-on work (R187). -/
  drive : Nat
  /-- Next sweep (R183). -/
  nextSweep : Nat
  /-- Next heat update (R127). -/
  nextHeat : Nat
  /-- Next rail sample, and the next sample of each pedal's channel (R132). -/
  nextRail : Nat
  nextPedal : Vector Nat 3
  /-- Next sense scan (R167). -/
  nextScan : Nat
  deriving DecidableEq, Repr

/-- Pins of the part (Table 0-5). NOTICE_N follows from the notice registers, the drives stand in the Key and Pedal
records. -/
structure Pins where
  /-- RESET_N is low. -/
  resetLow : Bool
  /-- D0 to D15 as the latest register read that this model commands left them. -/
  readData : Word
  /-- Analog inputs as the latest conversion found them. -/
  rail : BitVec 10
  pedals : Vector (BitVec 10) 3
  /-- Hammer-sense inputs as the latest scan found them. -/
  sense : BitVec 88
  deriving DecidableEq, Repr

/-- The part: the state of all its blocks. -/
structure Part where
  /-- Performance Memory (Table 10-1): the bytes that are not 0, by rising address. -/
  mem : List Host.Cell
  clocks : Clocks
  window : Window
  strip : Strip
  leader : Leader
  formats : FormatTable
  time : Timebase
  shading : Shading
  strikes : StrikeCalc
  wheel : Wheel
  keys : Vector KeyRec 88
  sense : Vector SenseRec 88
  /-- Levels that the previous scan read, absent before the first scan (R167). -/
  senseLevels : Option (BitVec 88)
  budget : Budget
  analog : Analog
  pedals : Vector PedalRec 3
  capture : Capture
  log : LogWriter
  pins : Pins
  deriving DecidableEq, Repr

/-- The machine: the waiting commands, first in first out, and the part. -/
structure State where
  /-- Commands that wait, the next one first. -/
  pending : List Instr
  part : Part
  deriving DecidableEq, Repr

/-- Faults. The manual gives the part no fault: every condition it detects is a notice, a record, a result or a count,
and the part goes on. No command raises a fault, so the type has no constructor. -/
inductive Fault where
  deriving DecidableEq, Repr

/-- Refusals. -/
inductive Refusal where
  /-- Raised by `exec` for a command that has no meaning yet; safe, for nothing is claimed of such a command. No arm
  raises it: every command of the table has its meaning. -/
  | notModelled (mnemonic : String)
  deriving DecidableEq, Repr

/-! ## Values after power-on and FULL_RESET -/

/-- A Track record after reset (R17, R16). -/
def TrackRec.reset : TrackRec :=
  { state := .closed, run := 0, firstLine := 0, struckKey := none, lastSample := false }

/-- The Strip Reader after power-on and FULL_RESET (Table 1-5). -/
def Strip.reset : Strip :=
  { takeMark := 0, drift := 0, tracking := .locked, invalidRun := 0, validRun := 0,
    tracks := Vector.replicate 104 TrackRec.reset, held := none, transpose := 0 }

/-- The Format Table after power-on and FULL_RESET (R31). -/
def FormatTable.reset : FormatTable :=
  { slots := Vector.replicate 4 none, inUse := none }

/-- The Leader Decoder after power-on and FULL_RESET (R32, R40). -/
def Leader.reset : Leader :=
  { seq := .inactive, lines := 0, windowCount := 0, prevToggle := none, pages := 0, formatIdRead := none,
    tempoRead := none, spoolRead := none, texts := [], repeats := 0, unknowns := 0, fault := none, outcome := .none,
    slotUsed := 0, tempoHanded := 0, spoolHanded := 0, firstMusicLine := none,
    musicLines := 0 }

/-- The Timebase Unit and Playback Controller after power-on and FULL_RESET (R65). -/
def Timebase.reset : Timebase :=
  { engine := .idle, returnState := none, lastCause := none, starveCause := none, clock := 0, nextLine := 0, due := 0,
    wanted := false, tempo := 0, tempoOverride := 0, setTempoTaken := false, p16 := 0, intervals := 0,
    intervalLines := 0, spoolInterval := 0, spoolStep := 0, lookahead := 0, endLine := 0, lastTakenDue := none }

/-- One half of the Shading Unit, cleared (R68). -/
def HalfShade.reset : HalfShade := { latch := false, ramp := 0, stepSum := 0, accent := 0, shade := 0 }

/-- The Shading Unit, cleared (R68). -/
def Shading.reset : Shading :=
  { bass := HalfShade.reset, treble := HalfShade.reset, shiftPlanned := false, history := [] }

/-- The built-in Voicing (Table 5-4). -/
def Voicing.builtIn : Voicing :=
  { classes := Vector.replicate 8
      { curve := 0, ifull := 250, holdDuty := 80, minHold := 20000, repeatGap := 30000, repeatSteal := 10000,
        releaseAdvance := 5000, velFloor := 40, depressDuty := 60, depressTime := 40000 },
    curves := Vector.replicate 8
      (tabulate 17 fun j => { w := 1200 + 400 * j, d := 64000 - 3500 * j, u := min 255 (128 + 8 * j) }),
    keyClass := Vector.replicate 88 0,
    strikeTrim := Vector.replicate 88 0,
    warmLimit := 24000, resumeLimit := 28000, cutLimit := 32000, heatShift := 8,
    missLimit := 4, adapt := true, fallingEdge := false,
    pedals := Vector.replicate 3
      { ifull := 300, moveDuty := 200, holdBase := 60, holdSlope := 60, travelMax := 200, tol := 4, pedalLead := 30000 },
    freeLevel := 160, engageLevel := 160, damperTop := 66 }

/-- The Strike Calculator after power-on and FULL_RESET (R90, R91, R93, R96). -/
def StrikeCalc.reset : StrikeCalc :=
  { voicing := Voicing.builtIn, guardTime := 69000, tagCounter := 0, volBass := 128, volTreble := 128 }

/-- The Launch Wheel after power-on and FULL_RESET (R104). -/
def Wheel.reset : Wheel := { actions := [], position := 0, free := Config.poolEntries }

/-- A Key record after power-on and FULL_RESET (Table 6-2). -/
def KeyRec.reset : KeyRec :=
  { state := .idle, current := none, queued := none, releasePending := false, gapEnd := none, lastRelease := none,
    reliefReady := false, coverDamper := false, coverMiddle := false, heat := 0, cut := false, trim := 0,
    depressTrim := 0, deaf := false, missCount := 0, timer := none, output := none, claim := 0 }

/-- A sense record after power-on and FULL_RESET (R168). -/
def SenseRec.reset : SenseRec :=
  { window := .closed, launchTime := none, lead := 0, windowEnd := 0, recovery := 0, depressHeard := false }

/-- The Budget Arbiter after power-on and FULL_RESET (Table 7-4). -/
def Budget.reset : Budget :=
  { committed := 0, inForce := 0, ibud := 800, pedalQ := [], bassQ := [], trebleQ := [], patternPos := 0,
    serveCause := false }

/-- The Analog Monitor after power-on and FULL_RESET (Table 7-4). -/
def Analog.reset : Analog := { vrail := 0, rail := .low, judgedSag := 200, judgedLow := 160 }

/-- A Pedal record after power-on and FULL_RESET (Table 8-1, R166). -/
def PedalRec.reset : PedalRec :=
  { state := .rest, target := 0, wanted := none, rollTarget := 0, override := .follow, position := 0,
    dropPending := none, timer := none, plannedTarget := 0, output := none, claim := 0 }

/-- The Capture Set after power-on and FULL_RESET (R159). -/
def Capture.reset : Capture := { keys := [], engaged := false }

/-- The Setup Block copy after power-on and FULL_RESET (Table 10-3). -/
def Setup.reset : Setup :=
  { lookahead := 120, maxLate := 10, ibud := 800, vnom := 240, sagLevel := 200, lowLevel := 160, railHyst := 5,
    priorityPattern := 0x5555, reliefDamper := false, reliefMiddle := false, reliefDelay := 100, depressMargin := 10,
    volBass := 128, volTreble := 128, sustainScale := 255 }

/-- The Window Unit after power-on and FULL_RESET (R185, R187), the work of the reset done and BUSY clear. -/
def Window.reset : Window :=
  { nstat := 0, nmask := 0x1FF, ncfg := 0, pendingSet := 0, busy := none, resetSeen := true, trackOk := true,
    cmdReject := false, sweepDeferred := false, sweptReadMark := 0, snapshotCount := 0, setup := Setup.reset }

/-- The Log Writer after power-on and FULL_RESET (R192, R198). -/
def LogWriter.reset : LogWriter :=
  { configured := false, base := 0, slots := 0, filter := 0, notify := 0, writeMark := 0, readMark := 0, dropped := 0,
    droppedKinds := 0, counters := Vector.replicate 26 0 }

/-- Drive time and the schedules at the end of the power-on work (R183, R187). DESIGN CHOICE: the first instants of the
sampling turn and of the sense scan (notes/assumptions/6.md). -/
def Clocks.reset : Clocks :=
  { drive := 0, nextSweep := 1000, nextHeat := 10000, nextRail := 250, nextPedal := #v[500, 750, 1000], nextScan := 50 }

/-- The pins at the end of the power-on work. DESIGN CHOICE: input levels and the data lines (notes/assumptions/5.md). -/
def Pins.reset : Pins :=
  { resetLow := false, readData := 0, rail := 0, pedals := Vector.replicate 3 0, sense := 0 }

/-- Performance Memory after power-on: all 0 but the identity words (R187). -/
def memoryReset : List Host.Cell :=
  [(0x000, 0x80), (0x001, 0x08), (0x002, 0x03), (0x003, 0x01)]

/-- The part at the end of the power-on work. -/
def Part.reset : Part :=
  { mem := memoryReset, clocks := Clocks.reset, window := Window.reset, strip := Strip.reset, leader := Leader.reset,
    formats := FormatTable.reset, time := Timebase.reset, shading := Shading.reset, strikes := StrikeCalc.reset,
    wheel := Wheel.reset, keys := Vector.replicate 88 KeyRec.reset, sense := Vector.replicate 88 SenseRec.reset,
    senseLevels := none, budget := Budget.reset, analog := Analog.reset, pedals := Vector.replicate 3 PedalRec.reset,
    capture := Capture.reset, log := LogWriter.reset, pins := Pins.reset }

/-- The machine right after reset: the part at the end of the power-on work, no command waiting. -/
def State.reset : State := { pending := [], part := Part.reset }

end Sys2Proof.Machine
end

