-- ==== Sys2Proof/Machine/Ops.lean ====
section
/-! DEFINITION. The shared operations: Performance Memory by bytes and words, plan and drive time, the counters of the
Counter Block, and reading and writing the records of one key, pedal or sense unit. -/

namespace Sys2Proof.Machine

/-! ## Performance Memory (R179, R180) -/

/-- Performance Memory as the list of its nonzero bytes by rising address. -/
abbrev Memory := List Host.Cell

/-- What a byte that is not listed reads as: power-on clears all of Performance Memory (R187). -/
def Memory.unlisted : Byte := 0

/-- The canonical form: addresses rise strictly and no listed byte equals what an unlisted one reads as. -/
def Memory.wf : Memory → Bool
  | [] => true
  | [c] => c.2 != Memory.unlisted
  | c :: c' :: rest => c.2 != Memory.unlisted && decide (c.1 < c'.1) && Memory.wf (c' :: rest)

/-- One byte of Performance Memory. -/
def Memory.read : Memory → Nat → Byte
  | [], _ => Memory.unlisted
  | (b, v) :: rest, a => if b = a then v else Memory.read rest a

/-- Performance Memory with one byte written, in canonical form. -/
def Memory.write : Memory → Nat → Byte → Memory
  | [], a, v => if v = Memory.unlisted then [] else [(a, v)]
  | (b, w) :: rest, a, v =>
    if a < b then (if v = Memory.unlisted then (b, w) :: rest else (a, v) :: (b, w) :: rest)
    else if a = b then (if v = Memory.unlisted then rest else (a, v) :: rest)
    else (b, w) :: Memory.write rest a v

/-- The 16-bit little-endian word at a byte offset (00_scope.md, "Memory words"). -/
def Memory.readWord (m : Memory) (off : Nat) : Word := Memory.read m (off + 1) ++ Memory.read m off

/-- Performance Memory with a 16-bit little-endian word written at a byte offset. -/
def Memory.writeWord (m : Memory) (off : Nat) (v : Word) : Memory :=
  Memory.write (Memory.write m off (v.extractLsb' 0 8)) (off + 1) (v.extractLsb' 8 8)

/-- Performance Memory with consecutive words written from a byte offset on, the first at the lowest offset. -/
def Memory.writeWords (m : Memory) (off : Nat) : List Word → Memory
  | [] => m
  | v :: rest => Memory.writeWords (Memory.writeWord m off v) (off + 2) rest

/-- Performance Memory with every byte of the Control Page cleared (R187). -/
def Memory.clearControlPage (m : Memory) : Memory := m.filter fun c => decide (Config.controlPageEnd ≤ c.1)

/-- The low word of a 32-bit item. -/
def lowWord (x : Word32) : Word := x.extractLsb' 0 16
/-- The high word of a 32-bit item. -/
def highWord (x : Word32) : Word := x.extractLsb' 16 16
/-- A 32-bit item from its low and high words. -/
def wordPair (low high : Word) : Word32 := high ++ low
/-- A natural number as a word. -/
def natWord (n : Nat) : Word := BitVec.ofNat 16 n
/-- A signed number as a two's complement word. -/
def intWord (i : Int) : Word := BitVec.ofInt 16 i

/-- The word of the part's memory at a byte offset. -/
def wordAt (off : Nat) (p : Part) : Word := Memory.readWord p.mem off

/-- The part with one memory word written. -/
def putWord (off : Nat) (v : Word) (p : Part) : Part := { p with mem := Memory.writeWord p.mem off v }

/-- The part with consecutive memory words written. -/
def putWords (off : Nat) (vs : List Word) (p : Part) : Part := { p with mem := Memory.writeWords p.mem off vs }

/-! ## Plan time and drive time (R47, R48) -/

/-- Instant `a` is at or after instant `b` (R47). -/
def atOrAfter (a b : Word32) : Bool := decide ((a - b).toNat < 2 ^ 31)

/-- Instant `a` is before instant `b` (R47). -/
def isBefore (a b : Word32) : Bool := !atOrAfter a b

/-- The later of two instants (R47). -/
def laterOf (a b : Word32) : Word32 := if atOrAfter a b then a else b

/-- The difference `a - b` of two instants, signed (R47). -/
def planDiff (a b : Word32) : Int := (a - b).toInt

/-- An instant moved by a number of µs. -/
def plusTime (a : Word32) (n : Nat) : Word32 := a + BitVec.ofNat 32 n
/-- An instant moved back by a number of µs. -/
def minusTime (a : Word32) (n : Nat) : Word32 := a - BitVec.ofNat 32 n

/-- The integer part of a 32.16 due time (R46). -/
def dueInt (d : BitVec 48) : Word32 := d.extractLsb' 16 32

/-- The Performance Clock advances with drive time: in LEADER, RUNNING and DRAINING, and in STARVED while fewer than
320 entries of the Action Pool are free (R48). -/
def clockRuns (p : Part) : Bool :=
  match p.time.engine with
  | .leader | .running | .draining => true
  | .starved => decide (p.wheel.free < Config.poolForLine)
  | .idle | .paused => false

/-- `n` µs of drive time pass, and of plan time with it where the clock advances (R48). -/
def passTime (n : Nat) (p : Part) : Part :=
  { p with
    clocks := { p.clocks with drive := p.clocks.drive + n }
    time := { p.time with clock := if clockRuns p then plusTime p.time.clock n else p.time.clock } }

/-- Drive time comes to instant `t`; an instant already past changes nothing. -/
def driveTo (t : Nat) (p : Part) : Part := passTime (t - p.clocks.drive) p

/-- The Performance Clock comes to instant `i`; an instant already reached changes nothing. -/
def planTo (i : Word32) (p : Part) : Part :=
  if atOrAfter p.time.clock i then p else passTime (i - p.time.clock).toNat p

/-- Drive time stands until the power-on work ends (R187). -/
def timeStands (p : Part) : Bool := decide (p.window.busy = some .powerOn)

/-! ## Counters (R198) -/

/-- Place of a counter in Table 11-3. -/
def Counter.index : Counter → Fin 26
  | .linesTaken => 0
  | .strikesMade => 1
  | .repeatLines => 2
  | .skippedLines => 3
  | .blankLines => 4
  | .spuriousRuns => 5
  | .trackLosses => 6
  | .driftClamps => 7
  | .starvations => 8
  | .strikesLate => 9
  | .deferrals => 10
  | .derates => 11
  | .earlyDamps => 12
  | .depresses => 13
  | .senseMisses => 14
  | .senseOutliers => 15
  | .manualStrikes => 16
  | .logDropped => 17
  | .pedalStuck => 18
  | .suppressedLate => 19
  | .suppressedRepeat => 20
  | .suppressedHot => 21
  | .suppressedRange => 22
  | .suppressedShort => 23
  | .suppressedSuperseded => 24
  | .suppressedStop => 25

/-- A 32-bit counter, which wraps (R198). -/
def Counter.wide (c : Counter) : Bool := decide (c.index.val < 2)

/-- Byte offset of a counter (Table 11-3). -/
def Counter.offset (c : Counter) : Nat :=
  if c.wide then 0x200 + 4 * c.index.val else 0x204 + 2 * c.index.val

/-- The value of a counter after `n` more events: a 32-bit counter wraps, a 16-bit one stays at 65,535 (R198). -/
def Counter.add (c : Counter) (old n : Nat) : Nat :=
  if c.wide then (old + n) % 2 ^ 32 else min 65535 (old + n)

/-- The words of a counter's value as the Counter Block shows it (R198). -/
def Counter.words (c : Counter) (v : Nat) : List Word :=
  if c.wide then [natWord v, natWord (v / 2 ^ 16)] else [natWord v]

/-- A counter's value. -/
def counterOf (c : Counter) (p : Part) : Nat := p.log.counters[c.index]

/-- A counter is incremented `n` times, and its words are written where its value changes (R198). A 16-bit counter at 65,535
does not change, and its word is not written again (notes/assumptions/35.md). -/
def bumpBy (c : Counter) (n : Nat) (p : Part) : Part :=
  let v := c.add (counterOf c p) n
  let q := { p with log := { p.log with counters := p.log.counters.set c.index v } }
  if v = counterOf c p then q else putWords c.offset (c.words v) q

/-- A counter is incremented. -/
def bump (c : Counter) (p : Part) : Part := bumpBy c 1 p

/-- Every counter becomes 0 and every word of the Counter Block is written (R198). -/
def clearCounters (p : Part) : Part :=
  putWords 0x200 (List.replicate 28 0) { p with log := { p.log with counters := Vector.replicate 26 0 } }

/-! ## Records of keys, sense units and pedals -/

/-- The manual's number of a key. -/
def keyNumber (k : Key) : Nat := k.val + 1

/-- The key that a number names, if one does. -/
def keyOfNumber (n : Nat) : Option Key :=
  if h : 1 ≤ n ∧ n ≤ 88 then some ⟨n - 1, by omega⟩ else none

/-- The keys in ascending order. -/
def allKeys : List Key := List.finRange 88

/-- An operation carried out for every key in ascending order. -/
def forKeys (f : Key → Part → Part) (p : Part) : Part := allKeys.foldl (fun q k => f k q) p

/-- The Key record of a key. -/
def keyRec (k : Key) (p : Part) : KeyRec := p.keys[k]
/-- The part with a key's record replaced. -/
def putKey (k : Key) (r : KeyRec) (p : Part) : Part := { p with keys := p.keys.set k r }

/-- The sense record of a key. -/
def senseRec (k : Key) (p : Part) : SenseRec := p.sense[k]
/-- The part with a key's sense record replaced. -/
def putSense (k : Key) (r : SenseRec) (p : Part) : Part := { p with sense := p.sense.set k r }

/-- Place of a pedal (R87, R132). -/
def pedalIndex : Pedal → Fin 3
  | .damper => 0
  | .shift => 1
  | .middle => 2

/-- The pedals in order. -/
def allPedals : List Pedal := [.damper, .shift, .middle]

/-- An operation carried out for every pedal in order. -/
def forPedals (f : Pedal → Part → Part) (p : Part) : Part := allPedals.foldl (fun q d => f d q) p

/-- The Pedal record of a pedal. -/
def pedalRec (d : Pedal) (p : Part) : PedalRec := p.pedals[pedalIndex d]
/-- The part with a pedal's record replaced. -/
def putPedal (d : Pedal) (r : PedalRec) (p : Part) : Part := { p with pedals := p.pedals.set (pedalIndex d) r }

/-- The Voicing in force (R90). -/
def voicing (p : Part) : Voicing := p.strikes.voicing
/-- The class number of a key. -/
def classNumber (k : Key) (p : Part) : Fin 8 := (voicing p).keyClass[k]
/-- The key class of a key (R85, R87). -/
def classOf (k : Key) (p : Part) : KeyClass := (voicing p).classes[classNumber k p]
/-- The Voicing fields of a pedal (R87). -/
def pedalVoicing (d : Pedal) (p : Part) : PedalVoicing := (voicing p).pedals[pedalIndex d]

/-- The effective depress duty of a key: its class's DepressDuty plus its depress duty trim, raised to 16 (R126, R178). -/
def depressDuty (k : Key) (p : Part) : Nat :=
  (max 16 ((classOf k p).depressDuty + (keyRec k p).depressTrim)).toNat

end Sys2Proof.Machine
end

