-- ==== Sys2Proof/Machine/Flags.lean ====
section
/-! DEFINITION. The flags of the part: the codes of its states, the STATUS register, and the notices with NSTAT, NMASK,
NCFG, the pending set and NOTICE_N (Chapter 10). -/

namespace Sys2Proof.Machine

/-! ## Codes -/

/-- Code of an engine state (Table 3-1). -/
def engineCode : EngineState → Nat
  | .idle => 0
  | .leader => 1
  | .running => 2
  | .paused => 3
  | .starved => 4
  | .draining => 5

/-- Code of a rail state (R135). -/
def railCode : RailState → Nat
  | .normal => 0
  | .sag => 1
  | .low => 2

/-- Code of a key state (R195). -/
def keyStateCode : KeyState → Nat
  | .idle => 0
  | .armed => 1
  | .waiting _ => 2
  | .drive => 3
  | .hold => 4
  | .relieved => 5
  | .depressing => 6
  | .lifting => 7

/-- Code of a pedal state (R195). -/
def pedalStateCode : PedalState → Nat
  | .rest => 0
  | .raising => 1
  | .settled => 2
  | .lowering => 3
  | .stuck => 4
  | .off => 5

/-- Code of a starvation cause (Table 11-2). -/
def causeCode : Cause → Nat
  | .lines => 1
  | .pool => 2
  | .mark => 3

/-- Code of a leader outcome (R40). -/
def outcomeCode : LeaderOutcome → Nat
  | .none => 0
  | .matched => 1
  | .noMatch => 2
  | .noLeader => 3
  | .fault => 4

/-- Code of a leader fault reason (Table 2-5). -/
def leaderFaultCode : LeaderFault → Nat
  | .firstToggle => 1
  | .tooMany => 2
  | .twoFormats => 3
  | .noFormatPage => 4

/-! ## STATUS (R185, Table 10-9) -/

/-- The STATUS register as a read returns it. -/
def statusWord (p : Part) : Word :=
  natWord ((if p.window.busy = none then 0 else 1) + (if p.window.resetSeen then 2 else 0)
    + (if p.window.trackOk then 4 else 0) + (if p.window.cmdReject then 8 else 0)
    + 16 * engineCode p.time.engine + 256 * railCode p.analog.rail)

/-- The changes that a STATUS read makes: RESET_SEEN and CMD_REJECT are cleared, TRACK_OK is set if the tracking state is
LOCKED (R185). -/
def afterStatusRead (p : Part) : Part :=
  { p with window := { p.window with
      resetSeen := false, cmdReject := false
      trackOk := p.window.trackOk || decide (p.strip.tracking = .locked) } }

/-! ## Notices (R188, R189) -/

/-- The nine notices, by their bits (Table 10-9). -/
inductive Notice where
  | req
  | engine
  | starve
  | track
  | rail
  | pedal
  | sense
  | log
  | leader
  deriving DecidableEq, Repr

/-- The bit of a notice in NSTAT and NMASK. -/
def Notice.bit : Notice → BitVec 9
  | .req => 0x001
  | .engine => 0x002
  | .starve => 0x004
  | .track => 0x008
  | .rail => 0x010
  | .pedal => 0x020
  | .sense => 0x040
  | .log => 0x080
  | .leader => 0x100

/-- COR of NCFG. -/
def corSet (p : Part) : Bool := p.window.ncfg.getLsbD 6
/-- HOLDOFF of NCFG. -/
def holdoffSet (p : Part) : Bool := p.window.ncfg.getLsbD 7

/-- The bits of NSTAT that NMASK leaves unmasked (R188). -/
def unmaskedBits (w : Window) : BitVec 9 := w.nstat &&& ~~~w.nmask

/-- NOTICE_N is driven low (R188). -/
def noticeAsserted (p : Part) : Bool := decide (unmaskedBits p.window ≠ 0)

/-- Edges that an NCFG field can select. -/
inductive Edge where
  | entry
  | leave
  deriving DecidableEq, Repr

/-- The lower bit of the NCFG field of a notice that has one (Table 10-9). -/
def edgeField : Notice → Option Nat
  | .starve => some 0
  | .track => some 2
  | .rail => some 4
  | .req | .engine | .pedal | .sense | .log | .leader => none

/-- NCFG selects this edge of the notice: bit 0 of the field selects entry edges and bit 1 leave edges, so that code 3
selects both (R188). -/
def edgeSelected (n : Notice) (e : Edge) (p : Part) : Bool :=
  match edgeField n with
  | none => true
  | some b => p.window.ncfg.getLsbD (match e with | .entry => b | .leave => b + 1)

/-- A notice is raised: it joins the pending set if HOLDOFF is set and NOTICE_N is asserted, and NSTAT otherwise (R188). -/
def raise (n : Notice) (p : Part) : Part :=
  if holdoffSet p && noticeAsserted p then
    { p with window := { p.window with pendingSet := p.window.pendingSet ||| n.bit } }
  else
    { p with window := { p.window with nstat := p.window.nstat ||| n.bit } }

/-- A notice with edge selection is raised where NCFG selects the edge (R188). -/
def raiseEdge (n : Notice) (e : Edge) (p : Part) : Part := if edgeSelected n e p then raise n p else p

/-- The whole pending set enters NSTAT (R189). -/
def enterPending (p : Part) : Part :=
  { p with window := { p.window with nstat := p.window.nstat ||| p.window.pendingSet, pendingSet := 0 } }

/-- The pending set enters NSTAT when no unmasked bit of NSTAT is left (R189). -/
def settlePending (p : Part) : Part := if noticeAsserted p then p else enterPending p

/-- NSTAT bits are cleared (R189). -/
def clearNotices (bits : BitVec 9) (p : Part) : Part :=
  settlePending { p with window := { p.window with nstat := p.window.nstat &&& ~~~bits } }

end Sys2Proof.Machine
end

