-- ==== Sys2Proof/Machine/Log.lean ====
section
/-! DEFINITION. The Log Writer: records, the Log Ring and its marks, dropped records and the GAP record (Chapter 11). -/

namespace Sys2Proof.Machine

/-- A log record as a block hands it over (R195). -/
structure Record where
  /-- Kind code (Table 11-2). -/
  kind : Nat
  /-- Flags of a STRIKE, reason of a SUPPRESS, else 0. -/
  high : Nat
  /-- Word 1. -/
  item : Word
  /-- The roll line that Table 11-2 names, absent where it names none. -/
  line : Option Word32
  valueA : Word
  valueB : Word
  /-- The extension slot of a STRIKE (R197). -/
  extension : Option (List Word)
  deriving DecidableEq, Repr

/-- The words of a record's first slot, stamped with the Performance Clock; where the kind names no line, the next line
number stands (R195). -/
def recordWords (r : Record) (p : Part) : List Word :=
  let line := r.line.getD p.time.nextLine
  [natWord (r.kind + 256 * r.high), r.item, lowWord line, highWord line, lowWord p.time.clock, highWord p.time.clock,
    r.valueA, r.valueB]

/-- Log slots that a record needs (R193). -/
def recordSlots (r : Record) : Nat := if r.extension = none then 1 else 2

/-- The fill of the log (R192). -/
def logFill (p : Part) : Nat := (p.log.writeMark - p.log.readMark).toNat

/-- Byte offset of the slot that a mark names (R192). -/
def logSlotOffset (l : LogWriter) (mark : Word) : Nat := l.base + 16 * (mark.toNat % l.slots)

/-- A record's words go to the slots from the Log Write Mark on, the extension to the second (R192, R193, R197). -/
def storeRecord (r : Record) (p : Part) : Part :=
  let mark := p.log.writeMark
  let q := putWords (logSlotOffset p.log mark) (recordWords r p) p
  match r.extension with
  | none => q
  | some ws => putWords (logSlotOffset p.log (mark + 1)) ws q

/-- The Log Write Mark advances by a number of slots, and LOG is raised where the fill crosses the notify level (R193). -/
def advanceWriteMark (n : Nat) (p : Part) : Part :=
  let mark := p.log.writeMark + natWord n
  let q := putWord Config.logWriteMarkOffset mark { p with log := { p.log with writeMark := mark } }
  if 0 < q.log.notify ∧ logFill p < q.log.notify ∧ q.log.notify ≤ logFill q then raise .log q else q

/-- A record that has room is written (R193). -/
def writeRecord (r : Record) (p : Part) : Part := advanceWriteMark (recordSlots r) (storeRecord r p)

/-- A record is dropped for want of room (R194). -/
def dropRecord (r : Record) (p : Part) : Part :=
  bump .logDropped { p with log := { p.log with
      dropped := min 65535 (p.log.dropped + 1)
      droppedKinds := p.log.droppedKinds ||| (1#16 <<< (r.kind - 1)) } }

/-- The filter keeps a record: bit `kind - 1` of the filter, and GAP always (R193). -/
def filterKeeps (r : Record) (p : Part) : Bool := decide (r.kind = 14) || p.log.filter.getLsbD (r.kind - 1)

/-- A block hands the Log Writer a record (R192, R193, R194). A record that has room is kept also where an earlier, longer one
was dropped and its GAP is still to come (notes/assumptions/36.md). -/
def logRecord (r : Record) (p : Part) : Part :=
  if p.log.configured && filterKeeps r p then
    if p.log.slots < logFill p + recordSlots r then dropRecord r p else writeRecord r p
  else p

/-- A sweep hands the Log Writer the Log Read Mark word: it becomes the read mark in force if it describes the ring
(R192). -/
def takeReadMark (value : Word) (p : Part) : Part :=
  if p.log.configured ∧ (p.log.writeMark - value).toNat ≤ p.log.slots then
    { p with log := { p.log with readMark := value } }
  else p

/-- The GAP record of a log with dropped records (Table 11-2). -/
def gapRecord (p : Part) : Record :=
  { kind := 14, high := 0, item := 0, line := none, valueA := natWord p.log.dropped, valueB := p.log.droppedKinds,
    extension := none }

/-- At a sweep, a log with dropped records and room writes its GAP record (R194). -/
def writeGap (p : Part) : Part :=
  if p.log.configured ∧ 0 < p.log.dropped ∧ logFill p < p.log.slots then
    let q := writeRecord (gapRecord p) p
    { q with log := { q.log with dropped := 0, droppedKinds := 0 } }
  else p

/-! ## The records of Table 11-2 -/

/-- Reasons for a suppression (R195). -/
inductive SuppressReason where
  | late
  | repeated
  | hot
  | range
  | short
  | superseded
  | stop
  deriving DecidableEq, Repr

/-- Code of a suppression reason (R195). -/
def suppressCode : SuppressReason → Nat
  | .late => 1
  | .repeated => 2
  | .hot => 3
  | .range => 4
  | .short => 5
  | .superseded => 6
  | .stop => 7

/-- Counter of a suppression reason (Table 11-3). -/
def suppressCounter : SuppressReason → Counter
  | .late => .suppressedLate
  | .repeated => .suppressedRepeat
  | .hot => .suppressedHot
  | .range => .suppressedRange
  | .short => .suppressedShort
  | .superseded => .suppressedSuperseded
  | .stop => .suppressedStop

/-- A plain record: no flags, no extension. -/
def plainRecord (kind : Nat) (item : Nat) (line : Option Word32) (a b : Word) : Record :=
  { kind, high := 0, item := natWord item, line, valueA := a, valueB := b, extension := none }

/-- A suppression is recorded and counted (R110, R196). -/
def reportSuppress (reason : SuppressReason) (item : Nat) (line : Word32) (a b : Word) (p : Part) : Part :=
  bump (suppressCounter reason)
    (logRecord { plainRecord 2 item (some line) a b with high := suppressCode reason } p)

/-- A strike is suppressed with a reason (R110). -/
def reportSuppressedStrike (reason : SuppressReason) (st : Strike) (p : Part) : Part :=
  reportSuppress reason (keyNumber st.key) st.datedLine st.tag 0 p

/-- The flags of a STRIKE record, bit 8 of word 0 first (R195). -/
def strikeFlags (st : Strike) : Nat :=
  (if st.late then 1 else 0) + (if st.derated then 2 else 0) + (if st.deferred then 4 else 0)
    + (if st.stolen then 8 else 0) + (if st.compensated then 16 else 0)

/-- The STRIKE record with its extension (R195, R197). -/
def strikeRecord (st : Strike) : Record :=
  { kind := 1, high := strikeFlags st, item := natWord (keyNumber st.key), line := some st.datedLine, valueA := st.tag,
    valueB := natWord st.v
    extension := some [0x00FF, st.tag, lowWord (BitVec.ofNat 32 st.lead), highWord (BitVec.ofNat 32 st.lead),
      lowWord st.planned, highWord st.planned, natWord (st.wEff.getD 0), natWord (min 65535 st.lateness)] }

/-- The RELEASE record (Table 11-2). -/
def releaseRecord (k : Key) (tag : Word) : Record := plainRecord 3 (keyNumber k) none tag 0

/-- The PEDAL record (R164). -/
def pedalRecord (d : Pedal) (previous : PedalState) (r : PedalRec) : Record :=
  plainRecord 4 (pedalIndex d).val none (natWord (pedalStateCode previous + 256 * pedalStateCode r.state))
    (natWord (r.target + 256 * r.position))

/-- The EARLY_DAMP record (R162). -/
def earlyDampRecord (k : Key) (tag : Word) (d : Pedal) : Record :=
  plainRecord 5 (keyNumber k) none tag (natWord (pedalIndex d).val)

/-- The MANUAL record (R175). -/
def manualRecord (k : Key) (r : KeyRec) : Record :=
  plainRecord 6 (keyNumber k) none (natWord (keyStateCode r.state)) (natWord (if r.deaf then 1 else 0))

/-- The DEPRESS_HEARD record (R174). -/
def depressHeardRecord (k : Key) (tag : Word) (duty : Nat) : Record :=
  plainRecord 7 (keyNumber k) none tag (natWord duty)

/-- The TRACK record: 0 for LOCKED, 2 for LOST (R14, R15). -/
def trackRecord (lost : Bool) (line : Word32) (drift : Int) : Record :=
  plainRecord 8 (if lost then 2 else 0) (some line) (intWord drift) 0

/-- The STARVE record (R51). -/
def starveRecord (cause : Nat) (line due : Word32) : Record :=
  plainRecord 9 cause (some line) (lowWord due) (highWord due)

/-- The LEADER record (R41). -/
def leaderRecordLog (outcome : LeaderOutcome) (line : Word32) (formatId slot : Nat) : Record :=
  plainRecord 10 (outcomeCode outcome) (some line) (natWord formatId) (natWord slot)

/-- The ENGINE record (R53). -/
def engineRecord (new previous : EngineState) (cause : Nat) (line : Word32) : Record :=
  plainRecord 11 (engineCode new) (some line) (natWord (engineCode previous)) (natWord cause)

/-- The SENSE record (R172, R173). -/
def senseRecord (k : Key) (r : KeyRec) : Record :=
  plainRecord 12 (keyNumber k) none (natWord ((if r.deaf then 1 else 0) + 256 * r.missCount)) (intWord r.trim)

/-- The RAIL record (R135). -/
def railRecord (previous new : RailState) (vrail budget : Nat) : Record :=
  plainRecord 13 (railCode previous + 256 * railCode new) none (natWord vrail) (natWord budget)

end Sys2Proof.Machine
end

