-- ==== Sys2Proof/Machine/Wheel.lean ====
section
/-! DEFINITION. The Launch Wheel: placing, moving and removing actions, and the entries of the Action Pool (R104 to
R107). -/

namespace Sys2Proof.Machine

/-- The slot of a plan-time instant (R104). -/
def slotOf (i : Word32) : Nat := i.toNat / Config.slotTime % Config.wheelSlots

/-- The slot to whose chain an action with instant `i` is appended: its own slot if the instant is at or after the wheel
position, and the slot at the wheel position otherwise (R105). -/
def slotFor (i : Word32) (w : Wheel) : Nat := if atOrAfter i w.position then slotOf i else slotOf w.position

/-- An action is appended to the tail of its chain (R105). -/
def appendAction (kind : ActionKind) (i : Word32) (w : Wheel) : Wheel :=
  { w with actions := w.actions ++ [{ kind, instant := i, slot := slotFor i w }] }

/-- An owner places an action: it takes a free entry and is appended (R105). -/
def placeAction (kind : ActionKind) (i : Word32) (p : Part) : Part :=
  { p with wheel := { appendAction kind i p.wheel with free := p.wheel.free - 1 } }

/-- An owner moves the action of this kind that it has placed: it keeps its entry and is appended as if newly placed
(R107). -/
def moveAction (kind : ActionKind) (i : Word32) (p : Part) : Part :=
  match p.wheel.actions.find? (fun a => decide (a.kind = kind)) with
  | none => p
  | some a => { p with wheel := appendAction kind i { p.wheel with actions := p.wheel.actions.erase a } }

/-- The action leaves its chain to be handed to its owner; its entry stays in use (R106). -/
def removeAction (a : Action) (p : Part) : Part :=
  { p with wheel := { p.wheel with actions := p.wheel.actions.erase a } }

/-- An entry is returned to the Action Pool (R106). -/
def returnEntry (p : Part) : Part := { p with wheel := { p.wheel with free := p.wheel.free + 1 } }

/-- Every chain is emptied and every entry freed; the wheel position stays (R104). -/
def emptyWheel (p : Part) : Part := { p with wheel := { p.wheel with actions := [], free := Config.poolEntries } }

/-- The next multiple of 100 after a wheel position; after 4,294,967,200 comes 0 (R106). -/
def nextPosition (i : Word32) : Word32 := if i = 4294967200 then 0 else plusTime i Config.slotTime

end Sys2Proof.Machine
end

