-- ==== Sys2Proof/Machine/Engine.lean ====
section
/-! DEFINITION. The Playback Controller: changes of engine state, STARVED, the DRAINING test, and STOP FINISH (Chapter 3). -/

namespace Sys2Proof.Machine

/-- The engine enters a state: the engine state word is written, notice ENGINE raised and an ENGINE record handed over
(R53). `cause` is the cause for an entry into STARVED and 0 else. -/
def enterEngine (new : EngineState) (cause : Nat) (p : Part) : Part :=
  let previous := p.time.engine
  let q := putWord Config.engineStateOffset (natWord (engineCode new)) { p with time := { p.time with engine := new } }
  logRecord (engineRecord new previous cause q.time.nextLine) (raise .engine q)

/-- A key counts as at rest for the DRAINING test (R59). -/
def keyAtRest (r : KeyRec) : Bool := decide (r.state = .idle ∨ r.state = .lifting)

/-- A pedal counts as at rest for the DRAINING test (R59). -/
def pedalAtRest (r : PedalRec) : Bool := decide (r.state = .rest ∨ r.state = .off ∨ r.state = .stuck)

/-- The three conditions for leaving DRAINING (R59). An action handed to its owner is no longer held by the wheel, though its
entry is still to be returned (R106; notes/assumptions/38.md). -/
def drained (p : Part) : Bool :=
  p.wheel.actions.isEmpty && allKeys.all (fun k => keyAtRest (keyRec k p))
    && allPedals.all (fun d => pedalAtRest (pedalRec d p))

/-- The engine enters IDLE, and no slot is in use any more (R31, R59, R60). -/
def enterIdleEngine (p : Part) : Part :=
  let q := enterEngine .idle 0 p
  { q with formats := { q.formats with inUse := none } }

/-- The DRAINING test (R59). -/
def drainTest (p : Part) : Part := if p.time.engine = .draining ∧ drained p then enterIdleEngine p else p

/-- A leader that has not reached its outcome is abandoned (R43). -/
def abandonLeader (p : Part) : Part :=
  if p.leader.seq = .decided then p else { p with leader := { p.leader with seq := .inactive } }

/-- STOP FINISH, and an end test that holds: RELEASE_ALL and PEDAL_REST are placed at the due time of the last line taken,
and the engine enters DRAINING (R57, R58). -/
def stopFinish (p : Part) : Part :=
  let at_ := p.time.lastTakenDue.getD p.time.clock
  let q := abandonLeader p
  let q := placeAction .pedalRest at_ (placeAction .releaseAll at_ q)
  drainTest (enterEngine .draining 0 { q with time := { q.time with returnState := none } })

/-- The lookahead instant of the next line (R49). -/
def lookaheadInstant (p : Part) : Word32 := minusTime (dueInt p.time.due) p.time.lookahead

/-- The Guard instant of the next line (R49). -/
def guardInstant (p : Part) : Word32 := minusTime (dueInt p.time.due) p.strikes.guardTime

/-- The engine takes lines of its own accord: LEADER or RUNNING. -/
def engineTakesLines (p : Part) : Bool := decide (p.time.engine = .leader ∨ p.time.engine = .running)

/-- Entry into STARVED for the next line, with notices, records and count (R51). -/
def enterStarved (p : Part) : Part :=
  let cause := match p.time.lastCause with
    | some c => causeCode c
    | none => 0
  let q := { p with time := { p.time with returnState := some p.time.engine, starveCause := p.time.lastCause } }
  let q := raiseEdge .starve .entry q
  let q := enterEngine .starved cause q
  bump .starvations (logRecord (starveRecord cause q.time.nextLine (dueInt q.time.due)) q)

/-- The engine is starved if the clock has reached the Guard instant of the untaken next line (R51). -/
def starveTest (p : Part) : Part :=
  if engineTakesLines p && atOrAfter p.time.clock (guardInstant p) then enterStarved p else p

/-- Return from STARVED to the recorded state (R52). -/
def leaveStarved (p : Part) : Part :=
  let q := enterEngine (p.time.returnState.getD .running) 0 (raiseEdge .starve .leave p)
  { q with time := { q.time with returnState := none, starveCause := none } }

end Sys2Proof.Machine
end

