-- ==== Sys2Proof/Machine/Shading.lean ====
section
/-! DEFINITION. The Shading Unit: the close of a line through latch, ramp, step sum, accent and shade, and the Shade History
(Chapter 4). -/

namespace Sys2Proof.Machine

/-- A confirmed event of a line (R20): the track, onset or offset, and the line it is dated to. -/
structure TrackEvent where
  track : Nat
  onset : Bool
  dated : Word32
  deriving DecidableEq, Repr

/-- The Track record of a track number. -/
def trackRec (t : Nat) (p : Part) : TrackRec := p.strip.tracks[t]?.getD TrackRec.reset

/-- A Track record is confirmed open (R17). -/
def confirmedOpen (r : TrackRec) : Bool := decide (r.state = .opened ∨ r.state = .closing)

/-- The track is confirmed open after the line's transitions (R66). -/
def trackOpen (t : Nat) (p : Part) : Bool := confirmedOpen (trackRec t p)

/-- An entry acts on a half (R66). -/
def actsOn (e : MapEntry) (h : Half) : Bool :=
  match e.half, h with
  | .bass, .bass => true
  | .bass, .treble => false
  | .treble, .bass => false
  | .treble, .treble => true
  | .both, _ => true
  | .neither, _ => false

/-- The values of the open entries of an action for a half (R66). -/
def openValues (a : MapAction) (h : Half) (f : Format) (p : Part) : List Nat :=
  (f.map.filter fun e => decide (e.action = a) && actsOn e h && trackOpen e.track p).map MapEntry.value

/-- The largest of a list of values, 0 for none. -/
def largest (vs : List Nat) : Nat := vs.foldl max 0

/-- An onset was confirmed at the line on the track (R66). -/
def onsetOn (t : Nat) (events : List TrackEvent) : Bool := events.any fun e => e.onset && decide (e.track = t)

/-- The latch entries of a half whose tracks had an onset confirmed at the line, in entry order (R71). -/
def latchOnsets (h : Half) (f : Format) (events : List TrackEvent) : List MapAction :=
  (f.map.filter fun e =>
    decide (e.action = .latchSet ∨ e.action = .latchClear ∨ e.action = .latchToggle) && actsOn e h
      && onsetOn e.track events).map MapEntry.action

/-- One latch onset (R71). -/
def latchStep (latch : Bool) (a : MapAction) : Bool :=
  if a = .latchSet then true else if a = .latchClear then false else if a = .latchToggle then !latch else latch

/-- Stage 1: the latch after the line's onsets (R71). -/
def latchAfter (latch : Bool) (onsets : List MapAction) : Bool :=
  if onsets.contains .latchSet && onsets.contains .latchClear then true else onsets.foldl latchStep latch

/-- The ramp step of a rate over a period in 1/65,536 µs (R72). -/
def rampStep (rate period : Nat) : Nat := rate * period / 1000000

/-- Stage 2: the ramp after a line of the given period (R73, R74). -/
def rampAfter (ramp : Nat) (rises falls : List Nat) (f : Format) (period : Nat) : Nat :=
  if rises.isEmpty then
    if falls.isEmpty then
      let target := f.restLevel * 65536
      if ramp < target then min (ramp + rampStep f.restRate period) target
      else max (ramp - rampStep f.restRate period) target
    else ramp - rampStep (largest falls) period
  else
    if falls.isEmpty then min (ramp + rampStep (largest rises) period) (f.rampMax * 65536) else ramp

/-- Stage 4: the shade (R77). -/
def shadeOf (f : Format) (latch : Bool) (ramp stepSum : Nat) : Nat :=
  let cap := if latch then f.midCap else f.ceiling
  let sum := f.floor + stepSum + ramp / 65536
  if sum < f.floor then f.floor else min sum cap

/-- Stages 1 to 4 of the close of a line for one half (R70). -/
def closeHalf (h : Half) (f : Format) (period : Nat) (events : List TrackEvent) (p : Part) (s : HalfShade) : HalfShade :=
  let latch := latchAfter s.latch (latchOnsets h f events)
  let ramp := rampAfter s.ramp (openValues .rise h f p) (openValues .fall h f p) f period
  let stepSum := (openValues .step h f p).sum
  { latch := latch, ramp := ramp, stepSum := stepSum, accent := largest (openValues .accent h f p), shade := shadeOf f latch ramp stepSum }

/-- At least one entry of the action has its track confirmed open (R78, R148). -/
def anyOpen (a : MapAction) (f : Format) (p : Part) : Bool :=
  f.map.any fun e => decide (e.action = a) && trackOpen e.track p

/-- The planned shift state of a line (R78). -/
def shiftPlan (f : Format) (p : Part) : Bool :=
  match (pedalRec .shift p).override with
  | .follow => anyOpen .soft f p
  | .force v => decide (128 ≤ v)
  | .off => false

/-- The Shade History with an entry written; a ninth replaces the oldest (R79). -/
def pushHistory (h : List HistoryEntry) (e : HistoryEntry) : List HistoryEntry :=
  if h.length < 8 then h ++ [e] else h.tail ++ [e]

/-- The Shade History entry of a line (R80). -/
def historyOf (line : Word32) (p : Part) : Option HistoryEntry :=
  p.shading.history.find? fun e => decide (e.line = line)

/-- The close of line `n`, due at `due`, with the period of that line (R69, R70, R79). -/
def closeLine (f : Format) (n due : Word32) (period : Nat) (events : List TrackEvent) (p : Part) : Part :=
  let bass := closeHalf .bass f period events p p.shading.bass
  let treble := closeHalf .treble f period events p p.shading.treble
  let shift := shiftPlan f p
  let entry : HistoryEntry :=
    { line := n, due := due, shadeBass := bass.shade, shadeTreble := treble.shade, accentBass := bass.accent,
      accentTreble := treble.accent, shiftPlanned := shift }
  { p with shading := { bass := bass, treble := treble, shiftPlanned := shift, history := pushHistory p.shading.history entry } }

end Sys2Proof.Machine
end

