-- ==== Sys2Proof/Machine/Strip.lean ====
section
/-! DEFINITION. The Strip Reader: the marks and slots of the Strip Ring, edges, drift and tracking state, aperture samples
and track transitions (Chapter 1). -/

namespace Sys2Proof.Machine

/-! ## The format in force (R21, R31) -/

/-- What stands for the format in force where no loaded slot is in use. No rule reads it: lines are processed only while
a loaded slot is in use (R31, R54). -/
def emptyFormat : Format :=
  { formatId := 0, trackCount := 0, trackOrigin := 0, trackPitch := 0, apertureHalf := 0, apertureThreshold := 0,
    onsetLines := 0, offsetLines := 0, nominalCentre := 0, nominalWidth := 0, widthTolerance := 0, edgeRun := 0,
    driftSmoothing := 0, driftMax := 0, coastLimit := 0, relockLines := 0, linePitch := 0, defaultTempo := 0,
    spoolInterval := 0, spoolStep := 0, firstNoteTrack := 0, noteTrackCount := 0, firstNoteKey := 0, splitKey := 0,
    floor := 0, midCap := 0, ceiling := 0, rampMax := 0, restRate := 0, restLevel := 0, softOffset := 0, map := [] }

/-- The Format of a slot of the Format Table, empty slots as `emptyFormat`. -/
def formatAt (i : Fin 4) (p : Part) : Format := p.formats.slots[i].getD emptyFormat

/-- The format in force: that of the slot in use (R21, R31). -/
def formatInForce (p : Part) : Format :=
  match p.formats.inUse with
  | some i => formatAt i p
  | none => emptyFormat

/-! ## Marks and slots (R1, R2, R4) -/

/-- The Fill Mark word. -/
def fillMark (p : Part) : Word := wordAt Config.fillMarkOffset p

/-- The filled span (R2). -/
def stripSpan (p : Part) : Nat := (fillMark p - p.strip.takeMark).toNat

/-- A mark fault exists: the span is 257 or more (R4). -/
def markFault (p : Part) : Bool := decide (257 ≤ stripSpan p)

/-- Byte offset of the slot that a mark names (R1, R2). -/
def stripSlotOffset (mark : Word) : Nat := Config.stripOffset + Config.stripSlotBytes * (mark.toNat % 256)

/-- The number that `n` bytes from an offset on hold, the first the least significant. -/
def bytesValue (m : Memory) (off : Nat) : Nat → Nat
  | 0 => 0
  | n + 1 => (Memory.read m off).toNat + 256 * bytesValue m (off + 1) n

/-- The 512 pixels of the slot that a mark names: bit `x` is pixel `x`, 1 for clear (R1). -/
def slotPixels (mark : Word) (p : Part) : BitVec 512 := BitVec.ofNat 512 (bytesValue p.mem (stripSlotOffset mark) 64)

/-- The Line Word of the slot that a mark names (R1). -/
def lineWord (mark : Word) (p : Part) : Word := wordAt (stripSlotOffset mark + 64) p

/-- REPEAT of a Line Word (Table 1-1). -/
def lineRepeat (w : Word) : Bool := w.getLsbD 0
/-- BLANK of a Line Word (Table 1-1). -/
def lineBlank (w : Word) : Bool := w.getLsbD 1
/-- SKIP of a Line Word (Table 1-1). -/
def lineSkip (w : Word) : Nat := (w.extractLsb' 8 8).toNat

/-- The Take Mark takes a value, and its word is written (R2, R10). -/
def putTakeMark (mark : Word) (p : Part) : Part :=
  putWord Config.takeMarkOffset mark { p with strip := { p.strip with takeMark := mark } }

/-- The Take Mark advances by one (R6, R10). -/
def advanceTakeMark (p : Part) : Part := putTakeMark (p.strip.takeMark + 1) p

/-- The Strip Reader is prepared for a new roll (R25). -/
def prepareStrip (p : Part) : Part :=
  { p with strip :=
    { p.strip with
      drift := 0, tracking := .locked, invalidRun := 0, validRun := 0, held := none
      tracks := Vector.replicate 104 TrackRec.reset } }

/-! ## Paper edges and drift (R11, R12) -/

/-- The pixels at which a run of `n + 1` opaque pixels starts. -/
def runStarts (opaqueBits : BitVec 512) : Nat → BitVec 512
  | 0 => opaqueBits
  | n + 1 => opaqueBits &&& (runStarts opaqueBits n >>> 1)

/-- The pixel numbers, from 0 upward. -/
def pixelNumbers : List Nat := List.range 512

/-- The measured edges Le and Re of an image, if a run of at least `edgeRun` opaque pixels exists (R11). -/
def paperEdges (edgeRun : Nat) (pixels : BitVec 512) : Option (Nat × Nat) :=
  let starts := runStarts (~~~pixels) (edgeRun - 1)
  match pixelNumbers.find? starts.getLsbD, pixelNumbers.reverse.find? starts.getLsbD with
  | some le, some start => some (le, start + edgeRun - 1)
  | _, _ => none

/-- The edges of a valid edge line: found, and with a width within the tolerance (R11). -/
def validEdges (f : Format) (pixels : BitVec 512) : Option (Nat × Nat) :=
  match paperEdges f.edgeRun pixels with
  | none => none
  | some (le, re) =>
    if ((re : Int) - le + 1 - f.nominalWidth).natAbs ≤ f.widthTolerance then some (le, re) else none

/-- D after step 3 of R12, from D, the measured edges and the format. -/
def smoothedDrift (f : Format) (d : Int) (le re : Nat) : Int :=
  let e : Int := ((le + re) * 8 : Nat) - (f.nominalCentre : Int)
  d + Int.fdiv (e - d) (2 ^ f.driftSmoothing)

/-- D is updated from a valid edge line, clamped to the limits of the format, and a clamp is counted (R12). -/
def updateDrift (f : Format) (edges : Nat × Nat) (p : Part) : Part :=
  let d := smoothedDrift f p.strip.drift edges.1 edges.2
  let clamped := max (-(f.driftMax : Int)) (min (f.driftMax : Int) d)
  let q := { p with strip := { p.strip with drift := clamped } }
  if clamped = d then q else bump .driftClamps q

/-! ## Tracking state (R13 to R15) -/

/-- The tracking state becomes LOST at line `n` (R14). -/
def enterLost (n : Word32) (p : Part) : Part :=
  let q := { p with
    strip := { p.strip with tracking := .lost, validRun := 0 }
    window := { p.window with trackOk := false } }
  bump .trackLosses (logRecord (trackRecord true n q.strip.drift) (raiseEdge .track .entry q))

/-- An invalid edge line (R13, R14). A run already at or above the CoastLimit of a format newly in force becomes LOST at the
next such line (notes/assumptions/32.md). -/
def invalidEdgeLine (f : Format) (n : Word32) (p : Part) : Part :=
  match p.strip.tracking with
  | .locked =>
    let q := { p with strip := { p.strip with tracking := .coasting, invalidRun := 1 } }
    if f.coastLimit ≤ 1 then enterLost n q else q
  | .coasting =>
    let run := p.strip.invalidRun + 1
    let q := { p with strip := { p.strip with invalidRun := run } }
    if f.coastLimit ≤ run then enterLost n q else q
  | .lost => { p with strip := { p.strip with validRun := 0 } }

/-- LOST ends at line `n` (R15). -/
def relock (f : Format) (n : Word32) (edges : Nat × Nat) (p : Part) : Part :=
  let q := updateDrift f edges { p with strip := { p.strip with tracking := .locked, invalidRun := 0, validRun := 0 } }
  logRecord (trackRecord false n q.strip.drift) (raiseEdge .track .leave q)

/-- A valid edge line (R12, R13, R15). A run already at or above the RelockLines of a format newly in force relocks at the
next such line (notes/assumptions/32.md). -/
def validEdgeLine (f : Format) (n : Word32) (edges : Nat × Nat) (p : Part) : Part :=
  match p.strip.tracking with
  | .locked => updateDrift f edges p
  | .coasting => updateDrift f edges { p with strip := { p.strip with tracking := .locked, invalidRun := 0 } }
  | .lost =>
    let run := p.strip.validRun + 1
    if f.relockLines ≤ run then relock f n edges p else { p with strip := { p.strip with validRun := run } }

/-- What a roll line shows: an image, no usable image, or nothing (R5, R7). -/
inductive LineKind where
  | imaged (pixels : BitVec 512)
  | blank
  | synthetic
  deriving DecidableEq, Repr

/-- Edge tracking at line `n` (R8, R9, R11 to R15). -/
def trackEdges (f : Format) (n : Word32) (kind : LineKind) (p : Part) : Part :=
  match kind with
  | .imaged pixels =>
    match validEdges f pixels with
    | some edges => validEdgeLine f n edges p
    | none => invalidEdgeLine f n p
  | .blank => invalidEdgeLine f n p
  | .synthetic => p

/-! ## Samples and transitions (R16 to R19) -/

/-- A pixel of an aperture is clear; one outside the image counts as opaque (R16). -/
def pixelClear (pixels : BitVec 512) (x : Int) : Bool := decide (0 ≤ x) && pixels.getLsbD x.toNat

/-- The aperture centre of a track (R16). -/
def apertureCentre (f : Format) (d : Int) (t : Nat) : Int :=
  Int.fdiv (((f.trackOrigin + t * f.trackPitch : Nat) : Int) + d + 8) 16

/-- The sample of a track on an imaged line, `true` for open (R16). -/
def sampleTrack (f : Format) (d : Int) (pixels : BitVec 512) (t : Nat) : Bool :=
  let first := apertureCentre f d t - f.apertureHalf
  let clear := (List.range (2 * f.apertureHalf + 1)).countP fun i => pixelClear pixels (first + i)
  decide (f.apertureThreshold ≤ clear)

/-- The sample of a track at a line: from the image, or that of the line before (R8, R9, R16). -/
def lineSample (f : Format) (d : Int) (kind : LineKind) (t : Nat) (r : TrackRec) : Bool :=
  match kind with
  | .imaged pixels => sampleTrack f d pixels t
  | .blank => r.lastSample
  | .synthetic => r.lastSample

/-- What one sample does to a track: its record after, the event confirmed, if any, and whether a run was spurious. -/
structure TrackStep where
  record : TrackRec
  /-- Onset (`true`) or offset, and the line it is dated to. -/
  event : Option (Bool × Word32)
  spurious : Bool
  deriving DecidableEq, Repr

/-- A step that only changes the record. -/
def quietStep (r : TrackRec) : TrackStep := { record := r, event := none, spurious := false }

/-- A step that confirms an event. -/
def confirmStep (r : TrackRec) (s : TrackState) (onset : Bool) (dated : Word32) : TrackStep :=
  { record := { r with state := s, run := 0 }, event := some (onset, dated), spurious := false }

/-- A step that returns a run before its confirmation. -/
def spuriousStep (r : TrackRec) (s : TrackState) : TrackStep :=
  { record := { r with state := s, run := 0 }, event := none, spurious := true }

/-- The transition of a track on a sample at line `n` (R18, R19, Table 1-3). -/
def stepTrack (f : Format) (n : Word32) (sample : Bool) (r : TrackRec) : TrackStep :=
  let r := { r with lastSample := sample }
  match r.state, sample with
  | .closed, true =>
    if f.onsetLines ≤ 1 then confirmStep { r with firstLine := n } .opened true n
    else quietStep { r with state := .opening, run := 1, firstLine := n }
  | .closed, false => quietStep r
  | .opening, true =>
    if f.onsetLines ≤ r.run + 1 then confirmStep r .opened true r.firstLine else quietStep { r with run := r.run + 1 }
  | .opening, false => spuriousStep r .closed
  | .opened, true => quietStep r
  | .opened, false =>
    if f.offsetLines ≤ 1 then confirmStep { r with firstLine := n } .closed false n
    else quietStep { r with state := .closing, run := 1, firstLine := n }
  | .closing, true => spuriousStep r .opened
  | .closing, false =>
    if f.offsetLines ≤ r.run + 1 then confirmStep r .closed false r.firstLine else quietStep { r with run := r.run + 1 }

/-- The part with a track's record replaced. -/
def putTrack (t : Fin 104) (r : TrackRec) (p : Part) : Part :=
  { p with strip := { p.strip with tracks := p.strip.tracks.set t r } }

/-- The tracks of a format in ascending order. -/
def tracksBelow (count : Nat) : List (Fin 104) := (List.finRange 104).filter fun t => decide (t.val < count)

/-- One track's sample and transition at line `n`, its event appended to those of the tracks before (R16 to R20). -/
def runTrack (f : Format) (n : Word32) (kind : LineKind) (acc : Part × List TrackEvent) (t : Fin 104) :
    Part × List TrackEvent :=
  let p := acc.1
  let r := p.strip.tracks[t]
  let step := stepTrack f n (lineSample f p.strip.drift kind t.val r) r
  let q := putTrack t step.record p
  let q := if step.spurious then bump .spuriousRuns q else q
  match step.event with
  | none => (q, acc.2)
  | some (onset, dated) => (q, acc.2 ++ [{ track := t.val, onset := onset, dated := dated }])

/-- The samples and transitions of every track of the format at line `n`, with the confirmed events in ascending track
order (R16 to R20). -/
def runTracks (f : Format) (n : Word32) (kind : LineKind) (p : Part) : Part × List TrackEvent :=
  (tracksBelow f.trackCount).foldl (runTrack f n kind) (p, [])

/-- A Track record that a change of format leaves above the new TrackCount (R21). -/
def closedRecord (r : TrackRec) : TrackRec := { r with state := .closed, run := 0, struckKey := none }

/-- The records of tracks at or above a new TrackCount are closed (R21). -/
def closeTracksFrom (count : Nat) (p : Part) : Part :=
  ((List.finRange 104).filter fun t => decide (count ≤ t.val)).foldl
    (fun q t => putTrack t (closedRecord q.strip.tracks[t]) q) p

end Sys2Proof.Machine
end

