-- ==== Sys2Proof/Machine/Timebase.lean ====
section
/-! DEFINITION. The Timebase Unit: the base period, the line period with its spool correction, and the advance from line to
line (R44 to R46). -/

namespace Sys2Proof.Machine

/-- The base period P16 of a line pitch and a tempo (R44). -/
def basePeriod (linePitch tempo : Nat) : Nat := 50000000 * 65536 / (linePitch * tempo)

/-- The period of the next line, in 1/65,536 µs (R45, steps 1 and 2). -/
def linePeriod (t : Timebase) : Nat :=
  if t.spoolInterval = 0 then t.p16
  else
    (max ((t.p16 / 2 : Nat) : Int) (min ((2 * t.p16 : Nat) : Int) ((t.p16 : Int) + t.intervals * t.spoolStep))).toNat

/-- The interval counts after an advance (R45, step 3). -/
def countInterval (t : Timebase) : Timebase :=
  let j := min 65535 (t.intervalLines + 1)
  if 0 < t.spoolInterval ∧ t.spoolInterval ≤ j then
    { t with intervals := min 16777215 (t.intervals + 1), intervalLines := 0 }
  else { t with intervalLines := j }

/-- The advance that follows a line (R46): the due time rises by the line's period and the line number by one. The next
line has not been reported as wanted, and no cause has been reported for it. -/
def advanceLine (p : Part) : Part :=
  let t := p.time
  let t' := countInterval t
  { p with time :=
    { t' with
      due := t.due + BitVec.ofNat 48 (linePeriod t), nextLine := t.nextLine + 1
      lastTakenDue := some (dueInt t.due), wanted := false, lastCause := none } }

end Sys2Proof.Machine
end

