-- ==== Sys2Proof/Machine/Leader.lean ====
section
/-! DEFINITION. The Leader Decoder: reading pages, judging them, the outcome, and the Leader Record (R32 to R43). -/

namespace Sys2Proof.Machine

/-! ## The Leader Record (R40, Table 10-4) -/

/-- The words of the Leader Record after its outcome word. -/
def leaderWords (l : Leader) : List Word :=
  [natWord (l.formatIdRead.getD 0), natWord l.slotUsed, natWord l.tempoHanded, intWord l.spoolHanded,
    natWord (match l.fault with
      | some x => leaderFaultCode x
      | none => 0),
    natWord l.pages, natWord l.repeats, natWord l.unknowns, natWord l.texts.length]
    ++ ((l.texts.map natWord) ++ List.replicate (8 - l.texts.length) 0)

/-- The Leader Record is written, its outcome word last (R40). -/
def writeLeaderRecord (p : Part) : Part :=
  putWord Config.leaderRecordOffset (natWord (outcomeCode p.leader.outcome))
    (putWords (Config.leaderRecordOffset + 2) (leaderWords p.leader) p)

/-- The Leader Decoder at a START with this many leader lines, default slot, tempo and spool step (R32, R40). -/
def preparedLeader (lines slot tempo : Nat) (spool : Int) : Leader :=
  { Leader.reset with
    seq := if lines = 0 then .inactive else .awaitingFirst
    lines := lines, slotUsed := slot, tempoHanded := tempo, spoolHanded := spool }

/-! ## Reading a page (R34) -/

/-- The page word: bit `i` is 1 where track `2 + i` is confirmed open (R34). -/
def pageWord (p : Part) : Word :=
  (List.range 16).foldl (fun w i => if trackOpen (2 + i) p then w ||| (1#16 <<< i) else w) 0

/-- The page read at a line of the leader, if one is (R34). -/
def readPage (f : Format) (events : List TrackEvent) (p : Part) : Option Word :=
  let last := f.trackCount - 1
  if trackOpen 0 p && trackOpen last p && (onsetOn 0 events || onsetOn last events) then some (pageWord p) else none

/-- The payload of a page word. -/
def pagePayload (w : Word) : Nat := (w.extractLsb' 0 11).toNat
/-- The toggle of a page word. -/
def pageToggle (w : Word) : Bool := w.getLsbD 11
/-- The more bit of a page word. -/
def pageMore (w : Word) : Bool := w.getLsbD 12
/-- The kind of a page word. -/
def pageKind (w : Word) : Nat := (w.extractLsb' 13 3).toNat

/-- The payload of a SPOOL page as a spool step: 16 times its signed 11-bit value (R36). -/
def spoolOfPage (w : Word) : Int := 16 * (w.extractLsb' 0 11).toInt

/-- A page's kind is acted on (R36). -/
def actOnKind (w : Word) (l : Leader) : Leader :=
  let payload := pagePayload w
  match pageKind w with
  | 0 =>
    match l.formatIdRead with
    | none => { l with formatIdRead := some payload }
    | some x => if x = payload then l else { l with fault := some .twoFormats }
  | 1 => { l with tempoRead := some (max 20 (min 200 payload)) }
  | 2 => { l with spoolRead := some (spoolOfPage w) }
  | 3 => if l.texts.length < 8 then { l with texts := l.texts ++ [payload] } else l
  | _ => { l with unknowns := min 65535 (l.unknowns + 1) }

/-- How a line leaves the page sequence. -/
inductive PageResult where
  | goesOn
  | lastPage
  | fault
  deriving DecidableEq, Repr

/-- The sequence ends in the fault that the decoder holds, or at a last page, or goes on. -/
def resultOf (l : Leader) (more : Bool) : PageResult :=
  if l.fault.isSome then .fault else if more then .goesOn else .lastPage

/-- An accepted page (R36, R37). -/
def acceptPage (w : Word) (l : Leader) : Leader × PageResult :=
  let l := { l with prevToggle := some (pageToggle w), seq := .reading, pages := l.pages + 1 }
  if 16 < l.pages then ({ l with fault := some .tooMany }, .fault)
  else
    let l := actOnKind w l
    let l := if l.fault.isNone && !pageMore w && l.formatIdRead.isNone then { l with fault := some .noFormatPage } else l
    (l, resultOf l (pageMore w))

/-- A page is judged by its toggle, then acted on (R35 to R37). -/
def judgePage (w : Word) (l : Leader) : Leader × PageResult :=
  match l.seq with
  | .awaitingFirst =>
    if pageToggle w then ({ l with fault := some .firstToggle }, .fault) else acceptPage w l
  | .reading =>
    if l.prevToggle = some (pageToggle w) then ({ l with repeats := min 65535 (l.repeats + 1) }, .goesOn)
    else acceptPage w l
  | .inactive => (l, .goesOn)
  | .decided => (l, .goesOn)

/-! ## The outcome (R38, R39, R41, R56) -/

/-- The slots of the Format Table in ascending order. -/
def allSlots : List (Fin 4) := [0, 1, 2, 3]

/-- The slot holds a Format with this FormatId. -/
def slotHolds (id : Nat) (p : Part) (i : Fin 4) : Bool :=
  match p.formats.slots[i] with
  | some f => decide (f.formatId = id)
  | none => false

/-- The lowest-numbered slot that holds a Format with the FormatId read (R38). -/
def matchedSlot (p : Part) : Option (Fin 4) :=
  match p.leader.formatIdRead with
  | some id => allSlots.find? (slotHolds id p)
  | none => none

/-- The default slot of the performance in hand: the slot in use until the outcome (R31). -/
def defaultSlot (p : Part) : Fin 4 := p.formats.inUse.getD 0

/-- The outcome with the slot it selects (R38). -/
def chooseOutcome (r : PageResult) (p : Part) : LeaderOutcome × Fin 4 :=
  match r with
  | .fault => (.fault, defaultSlot p)
  | .goesOn => (.noLeader, defaultSlot p)
  | .lastPage =>
    match matchedSlot p with
    | some i => (.matched, i)
    | none => (.noMatch, defaultSlot p)

/-- The tempo handed to the Timebase Unit (R39). -/
def handedTempo (f : Format) (p : Part) : Nat :=
  if p.time.tempoOverride ≠ 0 ∨ p.time.setTempoTaken then p.time.tempo else p.leader.tempoRead.getD f.defaultTempo

/-- An outcome is decided at the present line: the slot in use, the tempo and spool values, the Leader Record, the notice
and record, and the engine's change to RUNNING (R38 to R42, R56). -/
def decideOutcome (r : PageResult) (p : Part) : Part :=
  let (outcome, slot) := chooseOutcome r p
  let f := formatAt slot p
  let tempo := handedTempo f p
  let spool := p.leader.spoolRead.getD f.spoolStep
  let n := p.time.nextLine
  let q := { p with
    formats := { p.formats with inUse := some slot }
    time := { p.time with
      tempo := tempo, p16 := basePeriod f.linePitch tempo, spoolStep := spool, spoolInterval := f.spoolInterval }
    leader := { p.leader with
      seq := .decided, outcome := outcome, slotUsed := slot.val, tempoHanded := tempo, spoolHanded := spool
      firstMusicLine := some (n + 1), musicLines := 0 } }
  let q := raise .leader (writeLeaderRecord q)
  let q := logRecord (leaderRecordLog outcome n (p.leader.formatIdRead.getD 0) slot.val) q
  closeTracksFrom f.trackCount (enterEngine .running 0 q)

/-- The Leader Decoder at a line of the leader (R33). -/
def leaderLine (f : Format) (events : List TrackEvent) (p : Part) : Part :=
  let counted := { p.leader with windowCount := p.leader.windowCount + 1 }
  let (l, r) := match readPage f events p with
    | some w => judgePage w counted
    | none => (counted, PageResult.goesOn)
  let q := { p with leader := l }
  if r ≠ .goesOn ∨ l.lines ≤ l.windowCount then decideOutcome r q else q

end Sys2Proof.Machine
end

