-- ==== Sys2Proof/Machine/Budget.lean ====
section
/-! DEFINITION. The Budget Arbiter without its serving: the committed current, the queues, admission, changes of claims, and
the budget in force (Chapter 7). -/

namespace Sys2Proof.Machine

/-- All three deferral queues are empty. -/
def queuesEmpty (b : Budget) : Bool := b.pedalQ.isEmpty && b.bassQ.isEmpty && b.trebleQ.isEmpty

/-- A cause for serving comes; while all queues are empty it starts nothing (R139). -/
def noteCause (p : Part) : Part :=
  if queuesEmpty p.budget then p else { p with budget := { p.budget with serveCause := true } }

/-- The queue of a half (R138). -/
def halfQueue (h : Half) (b : Budget) : List KeyClaim :=
  match h with
  | .bass => b.bassQ
  | .treble => b.trebleQ

/-- The budget with a half's queue replaced. -/
def putHalfQueue (h : Half) (q : List KeyClaim) (b : Budget) : Budget :=
  match h with
  | .bass => { b with bassQ := q }
  | .treble => { b with trebleQ := q }

/-- The half by whose queue a key's claims wait: that of its current strike (R94, R115, R126). -/
def halfOf (r : KeyRec) : Half :=
  match r.current with
  | some st => st.half
  | none => .bass

/-- The claim fits: committed current plus the claim does not exceed the budget in force (R137). -/
def fits (amount : Nat) (b : Budget) : Bool := decide (b.committed + amount ≤ b.inForce)

/-- A key's new claim, or an increase of its claim, would be granted at once (R131, R137). -/
def keyClaimPasses (h : Half) (amount : Nat) (b : Budget) : Bool :=
  (halfQueue h b).isEmpty && b.pedalQ.isEmpty && fits amount b

/-- A pedal's new claim, or an increase of its claim, would be granted at once (R131, R137). -/
def pedalClaimPasses (amount : Nat) (b : Budget) : Bool := b.pedalQ.isEmpty && fits amount b

/-! ## The claims held (R130, R131) -/

/-- A key comes to hold the claim `amount` in place of what it held: the committed current changes with it, and a fall is a
cause for serving (R130, R131, R139). -/
def setKeyClaim (k : Key) (amount : Nat) (p : Part) : Part :=
  let r := keyRec k p
  let q := putKey k { r with claim := amount } p
  let q := { q with budget := { q.budget with committed := q.budget.committed - r.claim + amount } }
  if amount < r.claim then noteCause q else q

/-- A pedal comes to hold the claim `amount` in place of what it held (R130, R131, R139). -/
def setPedalClaim (d : Pedal) (amount : Nat) (p : Part) : Part :=
  let r := pedalRec d p
  let q := putPedal d { r with claim := amount } p
  let q := { q with budget := { q.budget with committed := q.budget.committed - r.claim + amount } }
  if amount < r.claim then noteCause q else q

/-! ## Joining and leaving the queues (R137, R138) -/

/-- A key's claim is deferred: the key joins the tail of its half's queue, and Deferrals counts (R137). -/
def deferKey (k : Key) (kind : ClaimKind) (amount : Nat) (p : Part) : Part :=
  let h := halfOf (keyRec k p)
  bump .deferrals
    { p with budget := putHalfQueue h (halfQueue h p.budget ++ [{ key := k, kind, amount }]) p.budget }

/-- A pedal's claim is deferred: the pedal joins the tail of PEDAL, and Deferrals counts (R137). -/
def deferPedal (d : Pedal) (amount : Nat) (judged : PedalState) (p : Part) : Part :=
  bump .deferrals
    { p with budget := { p.budget with pedalQ := p.budget.pedalQ ++ [{ pedal := d, amount, judged }] } }

/-- The queue without a key's entry. -/
def dropKeyEntry (k : Key) (q : List KeyClaim) : List KeyClaim := q.filter fun e => decide (e.key ≠ k)

/-- The entry at the head of a key queue is this key's. -/
def headIsKey (k : Key) (q : List KeyClaim) : Bool :=
  match q with
  | [] => false
  | e :: _ => decide (e.key = k)

/-- A key is withdrawn from its deferral queue; withdrawing a head is a cause for serving (R138). -/
def withdrawKey (k : Key) (p : Part) : Part :=
  let b := p.budget
  let q := { p with budget := { b with bassQ := dropKeyEntry k b.bassQ, trebleQ := dropKeyEntry k b.trebleQ } }
  if headIsKey k b.bassQ || headIsKey k b.trebleQ then noteCause q else q

/-- A pedal's entry in the PEDAL queue. -/
def pedalEntry (d : Pedal) (b : Budget) : Option PedalClaim := b.pedalQ.find? fun e => decide (e.pedal = d)

/-- The pedal stands in the PEDAL queue. -/
def pedalQueued (d : Pedal) (p : Part) : Bool := (pedalEntry d p.budget).isSome

/-- The entry at the head of the PEDAL queue is this pedal's. -/
def headIsPedal (d : Pedal) (q : List PedalClaim) : Bool :=
  match q with
  | [] => false
  | e :: _ => decide (e.pedal = d)

/-- A pedal is withdrawn from the PEDAL queue; withdrawing the head is a cause for serving (R138). -/
def withdrawPedal (d : Pedal) (p : Part) : Part :=
  let b := p.budget
  let q := { p with budget := { b with pedalQ := b.pedalQ.filter fun e => decide (e.pedal ≠ d) } }
  if headIsPedal d b.pedalQ then noteCause q else q

/-! ## The budget in force (R136) -/

/-- The budget in force for a rail state (Table 7-3). -/
def budgetFor (ibud : Nat) (a : Analog) : Nat :=
  match a.rail with
  | .normal => ibud
  | .sag => min ibud (ibud * (a.vrail - a.judgedLow) / (a.judgedSag - a.judgedLow))
  | .low => 0

/-- The budget in force is formed anew; a rise is a cause for serving (R136). -/
def formBudget (p : Part) : Part :=
  let new := budgetFor p.budget.ibud p.analog
  let q := { p with budget := { p.budget with inForce := new } }
  if p.budget.inForce < new then noteCause q else q

/-- The rail state after a rail sample (Table 7-2). -/
def railAfter (before : RailState) (v : Nat) (s : Setup) : RailState :=
  if v < s.lowLevel then .low
  else if s.sagLevel + s.railHyst ≤ v then .normal
  else match before with
    | .normal => if v < s.sagLevel then .sag else .normal
    | .sag => .sag
    | .low => if v < s.lowLevel + s.railHyst then .low else .sag

/-- A change of rail state from `a` to `b` is an entry edge: it goes to a lower state (R135). -/
def railFalls (a b : RailState) : Bool := decide (railCode a < railCode b)

/-- A rail sample: Vrail, the rail state, the budget in force, and the report of a change (R132, R134 to R136). -/
def railConversion (sample : Nat) (p : Part) : Part :=
  let before := p.analog.rail
  let after := railAfter before sample p.window.setup
  let q := { p with analog :=
    { vrail := sample, rail := after, judgedSag := p.window.setup.sagLevel, judgedLow := p.window.setup.lowLevel } }
  let q := formBudget q
  if after = before then q
  else
    logRecord (railRecord before after sample q.budget.inForce)
      (raiseEdge .rail (if railFalls before after then .entry else .leave) q)

end Sys2Proof.Machine
end

