-- ==== Sys2Proof/Machine/Sense.lean ====
section
/-! DEFINITION. The Hammer Sense Unit: windows, misses, flights, depress edges and manual strikes (Chapter 9). -/

namespace Sys2Proof.Machine

/-- The launch of an OPEN window has had no flight edge: a miss, which may make the key DEAF (R172). -/
def judgeMiss (k : Key) (p : Part) : Part :=
  let q := bump .senseMisses p
  let r := keyRec k q
  let miss := min 15 (r.missCount + 1)
  let becomesDeaf := !r.deaf && decide ((voicing q).missLimit ≤ miss)
  let r' := { r with missCount := miss, deaf := r.deaf || becomesDeaf }
  let q := putKey k r' q
  let q := if r'.deaf then putSense k { senseRec k q with recovery := 0 } q else q
  if becomesDeaf then logRecord (senseRecord k r') (raise .sense q) else q

/-- A DRIVE entry with lead `lead` opens the key's window; an OPEN window before it is judged a miss (R169). -/
def openWindow (k : Key) (lead : Nat) (p : Part) : Part :=
  let q := if (senseRec k p).window = .opened then judgeMiss k p else p
  let now := q.clocks.drive
  putSense k { senseRec k q with
    window := .opened, launchTime := some now, lead := lead, windowEnd := now + 2 * lead } q

/-- The windows that a scan closes: those past their end, an OPEN one judged a miss (R172). -/
def closeWindow (k : Key) (p : Part) : Part :=
  let s := senseRec k p
  if s.window ≠ .closed ∧ s.windowEnd < p.clocks.drive then
    let q := if s.window = .opened then judgeMiss k p else p
    putSense k { senseRec k q with window := .closed } q
  else p

/-- The lead trim after an in-range flight `f` of a window with lead `lead` (R171). -/
def adaptedTrim (trim : Int) (f lead : Nat) : Int :=
  max (-5000) (min 5000 (trim + Int.tdiv ((f : Int) - (lead : Int)) 8))

/-- A flight is in range of its window's lead (R170). -/
def flightInRange (f lead : Nat) : Bool := decide (lead / 2 ≤ f ∧ f ≤ 2 * lead)

/-- An in-range flight of a key (R170, R171, R173). -/
def inRangeFlight (k : Key) (f : Nat) (p : Part) : Part :=
  let r := keyRec k p
  let s := senseRec k p
  if r.deaf then
    if 2 ≤ s.recovery + 1 then
      let r' := { r with deaf := false, missCount := 0 }
      logRecord (senseRecord k r') (putSense k { s with recovery := 0 } (putKey k r' p))
    else putSense k { s with recovery := s.recovery + 1 } p
  else
    putKey k { r with
      missCount := 0
      trim := if (voicing p).adapt then adaptedTrim r.trim f s.lead else r.trim } p

/-- An outlier flight of a key (R170). -/
def outlierFlight (k : Key) (p : Part) : Part :=
  let q := bump .senseOutliers p
  if (keyRec k q).deaf then putSense k { senseRec k q with recovery := 0 } q else q

/-- A sense edge in an OPEN window: the flight edge (R170). -/
def flightEdge (k : Key) (p : Part) : Part :=
  let s := senseRec k p
  let f := p.clocks.drive - s.launchTime.getD p.clocks.drive
  let q := putSense k { s with window := .heard } p
  if flightInRange f s.lead then inRangeFlight k f q else outlierFlight k q

/-- The depress duty trim lowered by 4, but not below the floor of the key's class (R174). -/
def loweredDepressTrim (trim : Int) (classDuty : Nat) : Int := max (trim - 4) (16 - (classDuty : Int))

/-- A sense edge outside a window during a depress: the depress edge (R174). -/
def depressEdge (k : Key) (p : Part) : Part :=
  let r := keyRec k p
  let s := senseRec k p
  let q := if s.depressHeard then p
    else putSense k { s with depressHeard := true }
      (putKey k { r with depressTrim := loweredDepressTrim r.depressTrim (classOf k p).depressDuty } p)
  let tag := match r.current with
    | some st => st.tag
    | none => 0
  logRecord (depressHeardRecord k tag (depressDuty k q)) q

/-- A sense edge outside a window in any other state: a manual strike (R175). -/
def manualStrike (k : Key) (p : Part) : Part := bump .manualStrikes (logRecord (manualRecord k (keyRec k p)) p)

/-- A sense edge of a key, by the key's window (Table 9-1). -/
def senseEdge (k : Key) (p : Part) : Part :=
  match (senseRec k p).window with
  | .opened => flightEdge k p
  | .heard => p
  | .cut => p
  | .closed => if (keyRec k p).state = .depressing then depressEdge k p else manualStrike k p

/-- The scan finds a sense edge for a key: a change toward the active level since the scan before (R167). -/
def edgeFound (fallingEdge : Bool) (before now : BitVec 88) (k : Key) : Bool :=
  if fallingEdge then before.getLsbD k.val && !now.getLsbD k.val else !before.getLsbD k.val && now.getLsbD k.val

/-- One sense scan at the present drive time: windows are judged, then the edges found are handled in ascending key order
(R167). The windows are judged in ascending key order too (notes/assumptions/41.md). -/
def scanInputs (levels : BitVec 88) (p : Part) : Part :=
  let falling := (voicing p).fallingEdge
  let before := p.senseLevels
  let q := forKeys closeWindow p
  let q := match before with
    | none => q
    | some old => forKeys (fun k x => if edgeFound falling old levels k then senseEdge k x else x) q
  { q with senseLevels := some levels, pins := { q.pins with sense := levels } }

/-- SENSE_RESET of one key (R177). -/
def senseResetKey (zero : Bool) (k : Key) (p : Part) : Part :=
  let r := keyRec k p
  let q := if r.deaf then
      let r' := { r with deaf := false, missCount := 0 }
      logRecord (senseRecord k r') (putKey k r' p)
    else p
  let q := putSense k { senseRec k q with recovery := 0 } q
  let r := keyRec k q
  putKey k { r with
    missCount := 0
    trim := if zero then 0 else r.trim
    depressTrim := if zero then 0 else r.depressTrim } q

/-- A restart cuts the OPEN window of a key in DRIVE (R176). -/
def cutWindow (k : Key) (p : Part) : Part :=
  let s := senseRec k p
  if (keyRec k p).state = .drive ∧ s.window = .opened then putSense k { s with window := .cut } p else p

end Sys2Proof.Machine
end

