-- ==== Sys2Proof/Machine/Keys.lean ====
section
/-! DEFINITION. The Key Driver: claims asked, DRIVE, HOLD, DEPRESSING and IDLE entries, releases and heat (Chapter 6). -/

namespace Sys2Proof.Machine

/-- The strike of the key's present work, with a change made to it. -/
def mapCurrent (f : Strike → Strike) (r : KeyRec) : KeyRec := { r with current := r.current.map f }

/-! ## Heat (R127, R128) -/

/-- CUT after a change of heat: set at CutLimit, cleared below ResumeLimit, else as it was (R128). -/
def judgedCut (heat : Nat) (cut : Bool) (v : Voicing) : Bool :=
  if v.cutLimit ≤ heat then true else if heat < v.resumeLimit then false else cut

/-- The duty that a heat update adds for a key's state (R127). -/
def heatingDuty (r : KeyRec) : Nat :=
  match r.state with
  | .hold | .depressing => r.output.getD 0
  | .idle | .armed | .waiting _ | .drive | .relieved | .lifting => 0

/-- One key's heat update (R127). -/
def heatKey (k : Key) (p : Part) : Part :=
  let r := keyRec k p
  let v := voicing p
  let heat := min 65535 (r.heat - r.heat / 2 ^ v.heatShift + heatingDuty r)
  putKey k { r with heat, cut := judgedCut heat r.cut v } p

/-- The heat that a launch adds (R128). -/
def launchHeat (wEff u : Nat) : Nat := wEff * u / 2550

/-! ## Entry into DRIVE (R103, R116) -/

/-- The effective pulse width (R103). -/
def effectiveWidth (w vnom vrail : Nat) : Nat :=
  let upper := min (2 * w) 25000
  if vrail = 0 then upper else max (w / 2) (min upper (w * vnom / vrail))

/-- The strike as the grant of its launch claim leaves it: W_eff, COMPENSATED and the lateness (R103, R116). -/
def grantedStrike (p : Part) (st : Strike) : Strike :=
  let wEff := effectiveWidth st.w p.window.setup.vnom p.analog.vrail
  let behind := planDiff p.time.clock st.planned
  { st with
    wEff := some wEff
    compensated := st.compensated || decide (wEff ≠ st.w)
    lateness := if 0 < behind then behind.toNat else st.lateness }

/-- The key enters DRIVE with its current strike, whose launch claim has been granted and is held (R116). -/
def enterDrive (k : Key) (p : Part) : Part :=
  let r := keyRec k p
  match r.current with
  | none => p
  | some st =>
    let st := grantedStrike p st
    let wEff := st.wEff.getD 0
    let heat := min 65535 (r.heat + launchHeat wEff st.u)
    let q := putKey k { r with
      state := .drive, current := some st, releasePending := false
      output := some st.u, timer := some (p.clocks.drive + wEff)
      heat := heat, cut := judgedCut heat r.cut (voicing p) } p
    let q := openWindow k st.lead q
    bump .strikesMade (logRecord (strikeRecord st) q)

/-- A key asks for the launch claim of its current strike: DRIVE if it is granted at once, WAITING if it is deferred
(R115, R137). -/
def askLaunch (k : Key) (p : Part) : Part :=
  match (keyRec k p).current with
  | none => p
  | some st =>
    if keyClaimPasses st.half st.iLaunch p.budget then enterDrive k (setKeyClaim k st.iLaunch p)
    else
      let q := deferKey k .launch st.iLaunch p
      let r := keyRec k q
      putKey k (mapCurrent (fun s => { s with deferred := true }) { r with state := .waiting .launch }) q

/-! ## Entry into IDLE and LIFTING (R124) -/

/-- The key enters IDLE; a queued strike becomes the current one at once and is armed or asks for its claim (R124). -/
def enterIdle (k : Key) (p : Part) : Part :=
  let r := keyRec k p
  match r.queued with
  | none => drainTest (putKey k { r with state := .idle, current := none, timer := none } p)
  | some qd =>
    let q := putKey k { r with state := .armed, current := some qd.strike, queued := none, timer := none } p
    if qd.launchTaken then askLaunch k q else q

/-- The key enters LIFTING if its gap end lies after the present drive time, and IDLE otherwise (R120, R124, R125). -/
def liftOrIdle (k : Key) (p : Part) : Part :=
  let r := keyRec k p
  match r.gapEnd with
  | some t => if p.clocks.drive < t then drainTest (putKey k { r with state := .lifting, timer := some t } p)
      else enterIdle k p
  | none => enterIdle k p

/-! ## Release (R120) -/

/-- The key's drive output is on (R120). -/
def driveOn (r : KeyRec) : Bool := decide (r.state = .drive ∨ r.state = .hold ∨ r.state = .depressing)

/-- A key is released (R120). -/
def releaseKey (k : Key) (p : Part) : Part :=
  let wasOn := driveOn (keyRec k p)
  let q := setKeyClaim k 0 p
  let r := keyRec k q
  let gapEnd := if wasOn then some (q.clocks.drive + (classOf k q).repeatGap) else r.gapEnd
  let q := putKey k { r with
    output := none, gapEnd := gapEnd, timer := gapEnd, lastRelease := some q.time.clock, current := none
    coverDamper := false, coverMiddle := false, releasePending := false, reliefReady := false } q
  let q := match r.current with
    | some st => logRecord (releaseRecord k st.tag) q
    | none => q
  liftOrIdle k q

/-! ## HOLD (R118, R119) -/

/-- The key enters HOLD; with ReliefDelay 0 it is relief-ready at once (R119). -/
def enterHold (k : Key) (p : Part) : Part :=
  let r := keyRec k p
  let delay := p.window.setup.reliefDelay * 1000
  putKey k { r with
    state := .hold, output := some (classOf k p).holdDuty
    reliefReady := decide (delay = 0)
    timer := if delay = 0 then none else some (p.clocks.drive + delay) } p

/-- The end of a pulse or of a depress: the claim becomes the hold claim and the key enters HOLD, or, where an increase is
refused, the key is released (R118, R126, R131). -/
def passToHold (k : Key) (p : Part) : Part :=
  let r := keyRec k p
  match r.current with
  | none => p
  | some st =>
    if st.iHold ≤ r.claim ∨ keyClaimPasses st.half (st.iHold - r.claim) p.budget then
      enterHold k (setKeyClaim k st.iHold p)
    else releaseKey k p

/-- The drive timer of a key in DRIVE has run out (R118). -/
def endPulse (k : Key) (p : Part) : Part :=
  if (keyRec k p).releasePending then releaseKey k p else passToHold k p

/-! ## DEPRESSING (R126) -/

/-- The key enters DEPRESSING, its depress claim granted and held (R126, R174). -/
def enterDepressing (k : Key) (p : Part) : Part :=
  let r := keyRec k p
  let q := putKey k { r with
    state := .depressing, output := some (depressDuty k p), coverDamper := false, coverMiddle := false
    timer := some (p.clocks.drive + (classOf k p).depressTime) } p
  bump .depresses (putSense k { senseRec k q with depressHeard := false } q)

/-- A relieved key asks for the depress claim: DEPRESSING if it is granted at once, WAITING if it is deferred (R126). -/
def askDepress (k : Key) (amount : Nat) (p : Part) : Part :=
  if keyClaimPasses (halfOf (keyRec k p)) amount p.budget then enterDepressing k (setKeyClaim k amount p)
  else
    let q := deferKey k .depress amount p
    putKey k { keyRec k q with state := .waiting .depress } q

/-! ## Ends of strikes that have not started (R110, R120, R121, R122) -/

/-- The queued strike is suppressed with a reason (R110). -/
def suppressQueued (reason : SuppressReason) (k : Key) (p : Part) : Part :=
  let r := keyRec k p
  match r.queued with
  | none => p
  | some qd => reportSuppressedStrike reason qd.strike (putKey k { r with queued := none } p)

/-- The current strike of a key in ARMED or WAITING for launch is suppressed, the key is withdrawn from its queue, and it
enters IDLE (R120 to R122). -/
def suppressCurrent (reason : SuppressReason) (k : Key) (p : Part) : Part :=
  let q := withdrawKey k p
  let r := keyRec k q
  match r.current with
  | none => q
  | some st => enterIdle k (reportSuppressedStrike reason st (putKey k { r with current := none } q))

/-- The tag is that of the key's current strike (R108). -/
def isCurrentTag (tag : Word) (r : KeyRec) : Bool :=
  match r.current with
  | some st => decide (st.tag = tag)
  | none => false

/-- The tag is that of the key's queued strike (R108). -/
def isQueuedTag (tag : Word) (r : KeyRec) : Bool :=
  match r.queued with
  | some qd => decide (qd.strike.tag = tag)
  | none => false

/-! ## Actions taken from the wheel -/

/-- A LAUNCH action (R115). -/
def takeLaunch (k : Key) (tag : Word) (p : Part) : Part :=
  let r := keyRec k p
  if isCurrentTag tag r then
    if r.state = .armed then askLaunch k p else p
  else if isQueuedTag tag r then
    putKey k { r with queued := r.queued.map fun qd => { qd with launchTaken := true } } p
  else p

/-- An EXPIRE action (R121). -/
def takeExpire (k : Key) (tag : Word) (p : Part) : Part :=
  let r := keyRec k p
  if isCurrentTag tag r then
    if r.state = .armed ∨ r.state = .waiting .launch then suppressCurrent .late k p else p
  else if isQueuedTag tag r then suppressQueued .late k p
  else p

/-- The current strike's RELEASE is taken, by the key's state (Table 6-4). -/
def releaseCurrent (k : Key) (p : Part) : Part :=
  match (keyRec k p).state with
  | .armed => suppressCurrent .short k p
  | .waiting .launch => suppressCurrent .short k p
  | .waiting .depress => releaseKey k (withdrawKey k p)
  | .drive =>
    let r := keyRec k p
    putKey k (mapCurrent (fun s => { s with releaseTaken := true }) { r with releasePending := true }) p
  | .hold => releaseKey k p
  | .depressing => releaseKey k p
  | .relieved => releaseKey k p
  | .idle => p
  | .lifting => p

/-- A RELEASE action (R120). -/
def takeRelease (k : Key) (tag : Word) (p : Part) : Part :=
  let r := keyRec k p
  if isCurrentTag tag r then releaseCurrent k p
  else if isQueuedTag tag r then suppressQueued .short k p
  else p

/-- A DEPRESS action (R126). -/
def takeDepress (k : Key) (tag : Word) (amount : Nat) (p : Part) : Part :=
  let r := keyRec k p
  if isCurrentTag tag r ∧ r.state = .relieved then askDepress k amount p else p

/-- RELEASE_ALL at one key (R122). -/
def releaseAllKey (k : Key) (p : Part) : Part :=
  let q := suppressQueued .stop k p
  match (keyRec k q).state with
  | .armed => suppressCurrent .stop k q
  | .waiting .launch => suppressCurrent .stop k q
  | .drive => putKey k { keyRec k q with releasePending := true } q
  | .hold => releaseKey k q
  | .depressing => releaseKey k q
  | .relieved => releaseKey k q
  | .waiting .depress => releaseKey k (withdrawKey k q)
  | .idle => q
  | .lifting => q

end Sys2Proof.Machine
end

