-- ==== Sys2Proof/Machine/Relief.lean ====
section
/-! DEFINITION. The Pedal Driver's cover, relief and Capture Set: which pedal covers which key, the relief test, the cover
update and early damps (R159 to R162, R125). -/

namespace Sys2Proof.Machine

/-- The level of a pedal: FreeLevel for DAMPER, EngageLevel for MIDDLE, none for SHIFT (R146). -/
def pedalLevel (d : Pedal) (p : Part) : Option Nat :=
  match d with
  | .damper => some (voicing p).freeLevel
  | .shift => none
  | .middle => some (voicing p).engageLevel

/-- ReliefEnable of the Setup Block copy for a pedal (Table 10-3). -/
def reliefEnabled (d : Pedal) (p : Part) : Bool :=
  match d with
  | .damper => p.window.setup.reliefDamper
  | .shift => false
  | .middle => p.window.setup.reliefMiddle

/-- The pedal's state lets it cover keys: RAISING, SETTLED, or LOWERING to a target at or above its level (R160). -/
def stateCovers (r : PedalRec) (level : Nat) : Bool :=
  match r.state with
  | .raising => true
  | .settled => true
  | .lowering => decide (level ≤ r.target)
  | .rest => false
  | .stuck => false
  | .off => false

/-- Pedal `d` covers key `k` (R160). -/
def covers (d : Pedal) (k : Key) (p : Part) : Bool :=
  match pedalLevel d p with
  | none => false
  | some level =>
    reliefEnabled d p && stateCovers (pedalRec d p) level && decide (level ≤ (pedalRec d p).position)
      && (decide (d ≠ .middle) || p.capture.keys.contains k)

/-- Pedal `d` may relieve key `k` (R160). -/
def mayRelieve (d : Pedal) (k : Key) (p : Part) : Bool :=
  covers d k p && decide ((pedalRec d p).state = .settled) && (pedalRec d p).dropPending.isNone

/-- The key enters RELIEVED (R125, R161). -/
def relieveKey (k : Key) (p : Part) : Part :=
  let q := setKeyClaim k 0 p
  let r := keyRec k q
  putKey k { r with
    state := .relieved, output := none, reliefReady := false
    gapEnd := some (q.clocks.drive + (classOf k q).repeatGap), timer := none
    coverDamper := covers .damper k q, coverMiddle := covers .middle k q } q

/-- The relief test of one key (R161). -/
def reliefTest (k : Key) (p : Part) : Part :=
  let r := keyRec k p
  if r.state = .hold ∧ r.reliefReady ∧ (mayRelieve .damper k p || mayRelieve .middle k p) then relieveKey k p else p

/-- The relief test of every key, in ascending key order (R161). -/
def reliefTestAll (p : Part) : Part := forKeys reliefTest p

/-- The pedal stands in the key's relief cover. -/
def inCover (d : Pedal) (r : KeyRec) : Bool :=
  match d with
  | .damper => r.coverDamper
  | .shift => false
  | .middle => r.coverMiddle

/-- The relief cover with one pedal's place in it set. -/
def setCover (d : Pedal) (b : Bool) (r : KeyRec) : KeyRec :=
  match d with
  | .damper => { r with coverDamper := b }
  | .shift => r
  | .middle => { r with coverMiddle := b }

/-- The key's relief ends with an early damp: withdrawn from its queue, strike removed without a RELEASE record, then the
EARLY_DAMP record and its count (R125, R162). -/
def earlyDamp (d : Pedal) (k : Key) (p : Part) : Part :=
  let q := withdrawKey k p
  let r := keyRec k q
  let tag := match r.current with
    | some st => st.tag
    | none => 0
  let q := putKey k { r with current := none, coverDamper := false, coverMiddle := false } q
  let q := liftOrIdle k q
  bump .earlyDamps (logRecord (earlyDampRecord k tag d) q)

/-- The key's relief cover is kept: it is RELIEVED or WAITING for depress (R162). -/
def keepsCover (r : KeyRec) : Bool := decide (r.state = .relieved ∨ r.state = .waiting .depress)

/-- The cover update of one key for one pedal; a removal that empties the cover damps the key early (R162). -/
def updateCover (d : Pedal) (k : Key) (p : Part) : Part :=
  let r := keyRec k p
  if keepsCover r then
    let r' := setCover d (covers d k p) r
    let q := putKey k r' p
    if inCover d r && !inCover d r' && !r'.coverDamper && !r'.coverMiddle then earlyDamp d k q else q
  else p

/-- The cover update for one pedal, in ascending key order (R162). -/
def coverUpdate (d : Pedal) (p : Part) : Part := forKeys (updateCover d) p

/-- A key that a filling of the Capture Set takes by its state (R159). -/
def keyIsDown (r : KeyRec) : Bool :=
  decide (r.state = .drive ∨ r.state = .hold ∨ r.state = .depressing ∨ r.state = .relieved)

/-- The keys that a filling of the Capture Set takes (R159). -/
def keysToCapture (p : Part) : List Key :=
  let damperUp := decide ((voicing p).freeLevel ≤ (pedalRec .damper p).position)
  allKeys.filter fun k => keyIsDown (keyRec k p) || (damperUp && decide (keyNumber k ≤ (voicing p).damperTop))

/-- The Capture Set is to be filled: it is not engaged, and MIDDLE is SETTLED at or above EngageLevel (R159). -/
def fillsCapture (p : Part) : Bool :=
  !p.capture.engaged && decide ((pedalRec .middle p).state = .settled)
    && decide ((voicing p).engageLevel ≤ (pedalRec .middle p).position)

/-- The Capture Set is filled, with the cover update that this causes (R159, R162). -/
def fillCapture (p : Part) : Part := coverUpdate .middle { p with capture := { keys := keysToCapture p, engaged := true } }

/-- The test for filling the Capture Set, with the cover update and relief test that a filling causes (R159). -/
def captureTest (p : Part) : Part := if fillsCapture p then reliefTestAll (fillCapture p) else p

/-- A MIDDLE sample below EngageLevel empties the Capture Set (R159). -/
def emptyCapture (p : Part) : Part := coverUpdate .middle { p with capture := { keys := [], engaged := false } }

end Sys2Proof.Machine
end

