-- ==== Sys2Proof/Machine/Serve.lean ====
section
/-! DEFINITION. A pedal's entry into a state that its claim allows, and the serving of the deferral queues (R139 to R141,
R147, R153 to R155). -/

namespace Sys2Proof.Machine

/-- The move claim of a pedal (R147). -/
def moveClaim (v : PedalVoicing) : Nat := v.ifull * v.moveDuty / 255

/-- HoldDuty_p for a target (R147). -/
def pedalHoldDuty (v : PedalVoicing) (target : Nat) : Nat := min 255 (v.holdBase + v.holdSlope * target / 255)

/-- The hold claim of a pedal for a target (R147). -/
def holdClaim (v : PedalVoicing) (target : Nat) : Nat := v.ifull * pedalHoldDuty v target / 255

/-- The claim of a state that draws one, for a target (Table 8-2). -/
def stateClaim (v : PedalVoicing) (s : PedalState) (target : Nat) : Nat :=
  match s with
  | .raising => moveClaim v
  | .settled => holdClaim v target
  | .lowering => if target = 0 then 0 else holdClaim v target
  | .rest => 0
  | .stuck => 0
  | .off => 0

/-- The drive output of a state for a target (Table 8-2). -/
def stateOutput (v : PedalVoicing) (s : PedalState) (target : Nat) : Option Nat :=
  match s with
  | .raising => some v.moveDuty
  | .settled => some (pedalHoldDuty v target)
  | .lowering => if target = 0 then none else some (pedalHoldDuty v target)
  | .rest => none
  | .stuck => none
  | .off => none

/-- Judging a target against the latest position (R151). -/
def judgeTarget (w position tol : Nat) : PedalState :=
  if position + tol < w then .raising
  else if w + tol < position then .lowering
  else if 0 < w then .settled else .rest

/-- The travel timer of a state entered now: TravelMax later in RAISING and LOWERING, stopped else (R153). -/
def travelTimer (s : PedalState) (travelMax now : Nat) : Option Nat :=
  match s with
  | .raising => some (now + travelMax * 1000)
  | .lowering => some (now + travelMax * 1000)
  | .rest => none
  | .settled => none
  | .stuck => none
  | .off => none

/-- A change of a pedal's state is reported by a PEDAL record (R164). -/
def reportPedal (d : Pedal) (previous : PedalState) (p : Part) : Part :=
  let r := pedalRec d p
  if r.state = previous then p else logRecord (pedalRecord d previous r) p

/-- The pedal has entered SETTLED from another state. -/
def hasSettled (d : Pedal) (previous : PedalState) (p : Part) : Bool :=
  decide ((pedalRec d p).state = .settled ∧ previous ≠ .settled)

/-- What a pedal's entry into a state brings at once: the PEDAL record, the DRAINING test, the cover update, and for MIDDLE
in SETTLED the filling of the Capture Set (R59, R159, R162, R164). -/
def pedalArrives (d : Pedal) (previous : PedalState) (p : Part) : Part :=
  let q := coverUpdate d (drainTest (reportPedal d previous p))
  if d = .middle ∧ hasSettled d previous p ∧ fillsCapture q then fillCapture q else q

/-- What follows a pedal's entry into a state, with the relief test at an entry into SETTLED (R161). -/
def pedalEntered (d : Pedal) (previous : PedalState) (p : Part) : Part :=
  let q := pedalArrives d previous p
  if hasSettled d previous p then reliefTestAll q else q

/-- A pedal's record in a judged state with a target, its claim held: drive output and travel timer as the state gives them
(R153, Table 8-2). -/
def putDriving (d : Pedal) (judged : PedalState) (target : Nat) (p : Part) : Part :=
  let v := pedalVoicing d p
  putPedal d { pedalRec d p with
    state := judged, target := target, wanted := none, output := stateOutput v judged target
    timer := travelTimer judged v.travelMax p.clocks.drive } p

/-- A pedal whose claim is held enters a judged state with a target (R153, R154). -/
def pedalDrives (d : Pedal) (judged : PedalState) (target : Nat) (p : Part) : Part :=
  pedalEntered d (pedalRec d p).state (putDriving d judged target p)

/-! ## Serving (R140, R141) -/

/-- A grant to the head of a half's queue is handed to its key, and the pattern position advances by one, from 15 to 0
(R140, R141). -/
def grantKey (h : Half) (e : KeyClaim) (p : Part) : Part :=
  let b := p.budget
  let q := { p with budget :=
    { putHalfQueue h (halfQueue h b).tail b with patternPos := b.patternPos + 1 } }
  let q := setKeyClaim e.key e.amount q
  match e.kind with
  | .launch => enterDrive e.key q
  | .depress => enterDepressing e.key q

/-- A grant to the head of PEDAL is handed to its pedal, which enters the state judged at the ask that the entry stands for
(R141, R154; notes/assumptions/33.md), at the duty and travel time of the Voicing in force (37.md). The relief test of an
entry into SETTLED frees claims, so it follows the serving (R139). -/
def grantPedal (e : PedalClaim) (p : Part) : Part :=
  let q := { p with budget := { p.budget with pedalQ := p.budget.pedalQ.tail } }
  let q := setPedalClaim e.pedal e.amount q
  let r := pedalRec e.pedal q
  pedalArrives e.pedal r.state (putDriving e.pedal e.judged (r.wanted.getD r.target) q)

/-- The half that the Priority Pattern prefers at the present position (R140). -/
def preferredHalf (p : Part) : Half :=
  if p.window.setup.priorityPattern.getLsbD p.budget.patternPos.val then .bass else .treble

/-- The other half. -/
def otherHalf : Half → Half
  | .bass => .treble
  | .treble => .bass

/-- The head of a half's queue, if there is one and its claim fits (R140). -/
def fittingHead (h : Half) (b : Budget) : Option KeyClaim :=
  match halfQueue h b with
  | [] => none
  | e :: _ => if fits e.amount b then some e else none

/-- The head of PEDAL, if there is one and its claim fits (R140). -/
def fittingPedal (b : Budget) : Option PedalClaim :=
  match b.pedalQ with
  | [] => none
  | e :: _ => if fits e.amount b then some e else none

/-- One round of serving, or nothing where no head fits (R140). -/
def serveRound (p : Part) : Option Part :=
  match fittingPedal p.budget with
  | some e => some (grantPedal e p)
  | none =>
    let h := preferredHalf p
    match fittingHead h p.budget with
    | some e => some (grantKey h e p)
    | none =>
      match fittingHead (otherHalf h) p.budget with
      | some e => some (grantKey (otherHalf h) e p)
      | none => none

/-- Rounds of serving until a round grants nothing (R140); `fuel` bounds their number. -/
def serveRounds : Nat → Part → Part
  | 0, p => p
  | fuel + 1, p =>
    match serveRound p with
    | none => p
    | some q => serveRounds fuel q

/-- More rounds than one serving can grant: every entry of the queues, and one more for each holder that may join. -/
def serveFuel (b : Budget) : Nat := b.pedalQ.length + b.bassQ.length + b.trebleQ.length + 91

/-- One serving from its start to its end, with the cause it answers put away (R139, R140). -/
def serveOnce (p : Part) : Part :=
  let q := serveRounds (serveFuel p.budget) p
  { q with budget := { q.budget with serveCause := false } }

/-- A pedal that was not SETTLED in `p` is SETTLED in `q`. -/
def pedalSettled (p q : Part) : Bool :=
  allPedals.any fun d => decide ((pedalRec d q).state = .settled ∧ (pedalRec d p).state ≠ .settled)

/-- Servings as long as causes come: the relief test of the pedals that a serving brought to SETTLED comes after it, and what
that test frees starts a serving of its own (R139, R161; notes/assumptions/10.md). `fuel` bounds the servings. -/
def servings : Nat → Part → Part
  | 0, p => p
  | fuel + 1, p =>
    if p.budget.serveCause then
      let q := serveOnce p
      if pedalSettled p q then servings fuel (reliefTestAll q) else q
    else p

/-- The queues are served if a cause has come (R139). Each serving but the last brings one of the three pedals to SETTLED. -/
def serve (p : Part) : Part := servings 4 p

end Sys2Proof.Machine
end

