-- ==== Sys2Proof/Machine/Pedals.lean ====
section
/-! DEFINITION. The Pedal Driver: targets applied to pedals, position samples, travel timeouts, the actions from the wheel, and
overrides (R151 to R158). Each rule ends by serving the queues if it gave a cause. -/

namespace Sys2Proof.Machine

/-- A pedal out of service takes no target (R151). -/
def outOfService (r : PedalRec) : Bool := decide (r.state = .stuck ∨ r.state = .off)

/-- A pedal falls to rest with target 0: REST if its position is at most Tol, else LOWERING with its travel timer set
(R152, R158). -/
def fallToRest (v : PedalVoicing) (now : Nat) (r : PedalRec) : PedalRec :=
  let s := if r.position ≤ v.tol then PedalState.rest else PedalState.lowering
  { r with state := s, target := 0, output := none, timer := travelTimer s v.travelMax now }

/-- A wanted target is dropped, and the pedal is withdrawn from PEDAL (R152, R158). -/
def dropWanted (d : Pedal) (p : Part) : Part :=
  let q := if pedalQueued d p then withdrawPedal d p else p
  putPedal d { pedalRec d q with wanted := none } q

/-- A target of 0 is applied (R152). -/
def applyZero (d : Pedal) (p : Part) : Part :=
  let q := dropWanted d p
  let r := pedalRec d q
  let moves := match r.state with
    | .raising => true
    | .settled => true
    | .lowering => decide (r.target ≠ 0)
    | .rest => false
    | .stuck => false
    | .off => false
  if moves then
    let x := putPedal d (fallToRest (pedalVoicing d q) q.clocks.drive r) q
    setPedalClaim d 0 (pedalEntered d r.state x)
  else q

/-- A target above 0 is applied to a pedal that holds a claim: its claim changes, or the target is kept as wanted (R153). -/
def applyChange (d : Pedal) (w : Nat) (p : Part) : Part :=
  let r := pedalRec d p
  let v := pedalVoicing d p
  let judged := judgeTarget w r.position v.tol
  if judged = r.state ∧ w = r.target then putPedal d { r with wanted := none } p
  else
    let claim := stateClaim v judged w
    if claim ≤ r.claim ∨ pedalClaimPasses (claim - r.claim) p.budget then
      pedalDrives d judged w (setPedalClaim d claim p)
    else putPedal d { r with wanted := some w } p

/-- A target above 0 asks a new claim (R154). -/
def askPedal (d : Pedal) (w : Nat) (p : Part) : Part :=
  let r := pedalRec d p
  let v := pedalVoicing d p
  let judged := judgeTarget w r.position v.tol
  let claim := stateClaim v judged w
  if pedalClaimPasses claim p.budget then pedalDrives d judged w (setPedalClaim d claim p)
  else
    let q := deferPedal d claim judged p
    putPedal d { pedalRec d q with wanted := some w } q

/-- A target above 0 is applied to a pedal in REST or LOWERING to 0: a queued claim that is equal keeps its place, and any
other is asked anew (R154). The entry that keeps its place keeps the state judged when it joined
(notes/assumptions/33.md). -/
def applyAsk (d : Pedal) (w : Nat) (p : Part) : Part :=
  let r := pedalRec d p
  let v := pedalVoicing d p
  let claim := stateClaim v (judgeTarget w r.position v.tol) w
  match pedalEntry d p.budget with
  | some e =>
    if e.amount = claim then putPedal d { r with wanted := some w } p
    else askPedal d w (withdrawPedal d p)
  | none => askPedal d w p

/-- An effective target is applied to a pedal in service (R151 to R154). -/
def applyTarget (d : Pedal) (w : Nat) (p : Part) : Part :=
  let r := pedalRec d p
  let q :=
    if outOfService r then p
    else if w = 0 then applyZero d p
    else
      match r.state with
      | .raising => applyChange d w p
      | .settled => applyChange d w p
      | .lowering => if r.target = 0 then applyAsk d w p else applyChange d w p
      | .rest => applyAsk d w p
      | .stuck => p
      | .off => p
  serve q

/-- The effective target of a pedal, absent under OFF (R151). -/
def effectiveTarget (r : PedalRec) : Option Nat :=
  match r.override with
  | .follow => some r.rollTarget
  | .force v => some v
  | .off => none

/-! ## Position samples (R155) -/

/-- Arrival at a position sample (R155). A pedal that was moving when LOAD_VOICING replaced the Voicing is judged with the Tol
of the Voicing in force (notes/assumptions/37.md). -/
def judgeArrival (d : Pedal) (p : Part) : Part :=
  let r := pedalRec d p
  let v := pedalVoicing d p
  match r.state with
  | .raising =>
    if r.target ≤ r.position + v.tol then
      let claim := holdClaim v r.target
      if claim ≤ r.claim ∨ pedalClaimPasses (claim - r.claim) p.budget then
        let q := setPedalClaim d claim p
        let q := putPedal d { pedalRec d q with
          state := .settled, output := stateOutput v .settled r.target, timer := none } q
        serve (pedalEntered d .raising q)
      else putPedal d { r with timer := none } p
    else p
  | .lowering =>
    if r.target = 0 then
      if r.position ≤ v.tol then
        serve (pedalEntered d .lowering (putPedal d { r with state := .rest, timer := none } p))
      else p
    else if r.position ≤ r.target + v.tol then
      serve (pedalEntered d .lowering (putPedal d { r with state := .settled, timer := none } p))
    else p
  | .rest => p
  | .settled => p
  | .stuck => p
  | .off => p

/-- A wanted target outside the PEDAL queue is applied again (R151, R153). -/
def retryWanted (d : Pedal) (p : Part) : Part :=
  match (pedalRec d p).wanted with
  | some w => if pedalQueued d p then p else applyTarget d w p
  | none => p

/-- The sample lifts a SETTLED pedal to or above its level (R161). -/
def sampleLifts (d : Pedal) (before : Nat) (p : Part) : Bool :=
  match pedalLevel d p with
  | none => false
  | some level =>
    decide ((pedalRec d p).state = .settled) && decide (before < level) && decide (level ≤ (pedalRec d p).position)

/-- The Capture Set at a MIDDLE position sample (R159). -/
def sampleCapture (d : Pedal) (p : Part) : Part :=
  if d = .middle then
    if (pedalRec .middle p).position < (voicing p).engageLevel then emptyCapture p else captureTest p
  else p

/-- A position sample of a pedal's channel: the position, arrival, the wanted target, cover, capture and relief (R132, R155,
R159 to R162). -/
def pedalConversion (d : Pedal) (sample : BitVec 10) (p : Part) : Part :=
  let r := pedalRec d p
  let before := r.position
  let q := putPedal d { r with position := sample.toNat / 4 } p
  let q := retryWanted d (judgeArrival d q)
  let q := sampleCapture d (coverUpdate d q)
  serve (if sampleLifts d before q then reliefTestAll q else q)

/-! ## Travel timeout (R156) -/

/-- The travel timer of a pedal in RAISING or LOWERING has run out: the pedal becomes STUCK (R156). -/
def becomeStuck (d : Pedal) (p : Part) : Part :=
  let r := pedalRec d p
  let q := putPedal d { r with state := .stuck, output := none, wanted := none, timer := none } p
  let q := if pedalQueued d q then withdrawPedal d q else q
  let q := setPedalClaim d 0 (coverUpdate d q)
  let q := reportPedal d r.state (raise .pedal q)
  serve (drainTest (bump .pedalStuck q))

/-! ## Actions from the wheel (R157) -/

/-- The pedal follows the roll and takes targets. -/
def followsRoll (r : PedalRec) : Bool := decide (r.override = .follow) && !outOfService r

/-- A PEDAL action: the roll target, the drop mark, and the target applied under FOLLOW (R157). -/
def takePedal (d : Pedal) (target : Nat) (drop : Bool) (instant : Word32) (p : Part) : Part :=
  let r := pedalRec d p
  let clears := drop && decide (r.dropPending = some instant)
  let r := { r with rollTarget := target, dropPending := if clears then none else r.dropPending }
  let q := putPedal d r p
  let q := if followsRoll r then applyTarget d target q else q
  if clears ∧ (pedalRec d q).state = .settled then serve (reliefTestAll q) else q

/-- PEDAL_REST at one pedal (R157). -/
def restPedal (d : Pedal) (p : Part) : Part :=
  let r := { pedalRec d p with rollTarget := 0, dropPending := none }
  let q := putPedal d r p
  if followsRoll r then applyTarget d 0 q else q

/-! ## Overrides (R158) -/

/-- Override OFF takes effect (R158). -/
def overrideOff (d : Pedal) (p : Part) : Part :=
  let q := dropWanted d p
  let r := pedalRec d q
  let q := putPedal d { r with state := .off, target := 0, output := none, timer := none, override := .off } q
  let q := setPedalClaim d 0 (coverUpdate d q)
  serve (drainTest (reportPedal d r.state q))

/-- Override FOLLOW or FORCE takes effect (R158). -/
def overrideOn (d : Pedal) (o : Override) (p : Part) : Part :=
  let r := { pedalRec d p with override := o }
  let q := putPedal d r p
  let q := if outOfService r then
      pedalEntered d r.state (putPedal d (fallToRest (pedalVoicing d q) q.clocks.drive r) q)
    else q
  match effectiveTarget r with
  | some w => applyTarget d w q
  | none => serve q

end Sys2Proof.Machine
end

