-- ==== Sys2Proof/Machine/Strike.lean ====
section
/-! DEFINITION. The Strike Calculator and the scheduling of strikes and releases at the keys (Chapters 5 and 6). -/

namespace Sys2Proof.Machine

/-- The half of a key in a format (R94). -/
def halfOfKey (f : Format) (k : Key) : Half := if keyNumber k ≤ f.splitKey then .bass else .treble

/-- The shade of a half in a history entry. -/
def entryShade (h : Half) (e : HistoryEntry) : Nat :=
  match h with
  | .bass => e.shadeBass
  | .treble => e.shadeTreble

/-- The accent of a half in a history entry. -/
def entryAccent (h : Half) (e : HistoryEntry) : Nat :=
  match h with
  | .bass => e.accentBass
  | .treble => e.accentTreble

/-- The volume in force of a half (R96). -/
def volumeOf (h : Half) (p : Part) : Nat :=
  match h with
  | .bass => p.strikes.volBass
  | .treble => p.strikes.volTreble

/-- Stage 1: S (R94). -/
def strikeShade (h : Half) (e : HistoryEntry) : Nat := min 1023 (entryShade h e + entryAccent h e)

/-- Stage 2: the strike code V (R95). -/
def strikeCode (s volume : Nat) (trim : Int) (softOffset : Nat) (shift : Bool) (velFloor : Nat) : Nat :=
  let scaled : Int := ((s * volume + 64) / 128 : Nat)
  let lowered := scaled + trim - (if shift then (softOffset : Int) else 0)
  max velFloor (max 0 (min 1023 lowered)).toNat

/-- The derating factor (R97). -/
def deratingFactor (q : Nat) (v : Voicing) : Nat :=
  max 64 (min 256 ((v.cutLimit - q) * 256 / (v.cutLimit - v.warmLimit)))

/-- Stage 3 suppresses the strike: CUT is set or the heat is at CutLimit (R97). -/
def tooHot (r : KeyRec) (v : Voicing) : Bool := r.cut || decide (v.cutLimit ≤ r.heat)

/-- The derated strike code (R97). -/
def deratedCode (code heat velFloor : Nat) (v : Voicing) : Nat :=
  max velFloor (code * deratingFactor heat v / 256)

/-- Interpolation of one field between two points (R98). -/
def interpolate (x0 x1 f : Nat) : Nat := ((x0 : Int) + Int.tdiv (((x1 : Int) - (x0 : Int)) * (f : Int)) 64).toNat

/-- A point of a drive curve. -/
def curvePoint (pts : Vector CurvePoint 17) (j : Nat) : CurvePoint := pts[j]?.getD { w := 0, d := 0, u := 0 }

/-- Stage 4: pulse width, flight and duty at a strike code (R98). -/
def curveAt (pts : Vector CurvePoint 17) (code : Nat) : CurvePoint :=
  let a := curvePoint pts (code / 64)
  let b := curvePoint pts (code / 64 + 1)
  let f := code % 64
  { w := interpolate a.w b.w f, d := interpolate a.d b.d f, u := interpolate a.u b.u f }

/-- Stage 5: the lead (R99). -/
def leadOf (d : Nat) (trim : Int) : Nat := (max 1000 (min 155000 ((d : Int) + trim))).toNat

/-- A claim from a current at full duty (R100). -/
def claimOf (ifull duty : Nat) : Nat := ifull * duty / 255

/-- The strike record of stages 1 to 6 for a key that stage 3 does not suppress (R94 to R101). -/
def computeStrike (f : Format) (k : Key) (dated : Word32) (tag : Word) (e : HistoryEntry) (p : Part) : Strike :=
  let h := halfOfKey f k
  let c := classOf k p
  let r := keyRec k p
  let v := voicing p
  let code := strikeCode (strikeShade h e) (volumeOf h p) v.strikeTrim[k] f.softOffset e.shiftPlanned c.velFloor
  let derated := decide (v.warmLimit < r.heat)
  let code := if derated then deratedCode code r.heat c.velFloor v else code
  let point := curveAt v.curves[c.curve] code
  let lead := leadOf point.d r.trim
  let planned := minusTime e.due lead
  { tag := tag, key := k, cls := classNumber k p, half := h, datedLine := dated, due := e.due, v := code
    w := point.w, d := point.d, u := point.u, lead := lead, planned := planned, launchAt := planned
    iLaunch := claimOf c.ifull point.u, iHold := claimOf c.ifull c.holdDuty, wEff := none
    late := false, derated := derated, deferred := false, stolen := false, compensated := false, lateness := 0
    release := none, releaseTaken := false }

/-! ## Scheduling (R111 to R113) -/

/-- The reference release of the repetition decision, and whether its RELEASE can still be moved (R112). -/
def referenceRelease (r : KeyRec) : Option (Word32 × Bool) :=
  match r.current with
  | some st =>
    match st.release with
    | some i => if st.releaseTaken then none else some (i, true)
    | none => none
  | none =>
    if r.state = .lifting then
      match r.lastRelease with
      | some i => some (i, false)
      | none => none
    else none

/-- The outcome of the repetition decision (R112, R113). -/
structure Repetition where
  /-- The instant to which the earlier RELEASE is moved, if there is a steal. -/
  steal : Option Word32
  /-- The launch instant. -/
  launch : Word32
  /-- The delay, if the launch instant was moved. -/
  delay : Option Nat
  deriving DecidableEq, Repr

/-- The repetition decision for a strike planned at `tL` (R112, R113). -/
def decideRepetition (r : KeyRec) (c : KeyClass) (clock tL : Word32) : Repetition :=
  match referenceRelease r with
  | none => { steal := none, launch := tL, delay := none }
  | some (i, movable) =>
    let tE := plusTime i c.repeatGap
    if atOrAfter tL tE then { steal := none, launch := tL, delay := none }
    else
      let launchAt := match r.current with
        | some st => st.launchAt
        | none => i
      let s := min (tE - tL).toNat c.repeatSteal
      let r' := laterOf (minusTime i s) (laterOf clock (plusTime launchAt c.minHold))
      let steals := movable && isBefore r' i
      let release := if steals then r' else i
      let earliest := plusTime release c.repeatGap
      { steal := if steals then some r' else none
        launch := if isBefore tL earliest then earliest else tL
        delay := if isBefore tL earliest then some (earliest - tL).toNat else none }

/-- MaxLate of the Setup Block copy in µs (R111). -/
def maxLate (p : Part) : Nat := p.window.setup.maxLate * 1000

/-- The earlier strike's RELEASE is moved to the stolen instant (R113). -/
def carrySteal (k : Key) (i : Word32) (p : Part) : Part :=
  let r := keyRec k p
  match r.current with
  | none => p
  | some st => putKey k (mapCurrent (fun x => { x with release := some i }) r) (moveAction (.release k st.tag) i p)

/-- A surviving strike becomes the current or the queued strike, an older queued one being superseded (R111). -/
def seatStrike (st : Strike) (p : Part) : Part :=
  let k := st.key
  let r := keyRec k p
  if r.state = .idle then putKey k { r with state := .armed, current := some st } p
  else
    let q := suppressQueued .superseded k p
    putKey k { keyRec k q with queued := some { strike := st, launchTaken := false } } q

/-- A strike arrives at its key: the repetition decision, its place at the key, and its LAUNCH and EXPIRE actions (R111 to
R113). -/
def scheduleStrike (st : Strike) (p : Part) : Part :=
  let k := st.key
  let d := decideRepetition (keyRec k p) (classOf k p) p.time.clock st.planned
  if maxLate p < d.delay.getD 0 then reportSuppressedStrike .repeated st p
  else
    let st := { st with
      launchAt := d.launch, stolen := d.steal.isSome, late := d.delay.isSome, lateness := d.delay.getD 0 }
    let q := match d.steal with
      | some i => carrySteal k i p
      | none => p
    let q := if d.delay.isSome then bump .strikesLate q else q
    let q := seatStrike st q
    let q := placeAction (.launch k st.tag) st.launchAt q
    placeAction (.expire k st.tag) (plusTime st.planned (maxLate q)) q

/-- A note onset handed to the Strike Calculator: tag, stages 1 to 6, and the hand-on to the Key Driver (R92 to R101). -/
def strikeOnset (f : Format) (k : Key) (dated : Word32) (p : Part) : Part :=
  match historyOf dated p with
  | none => p
  | some e =>
    let tag := p.strikes.tagCounter
    let q := { p with strikes := { p.strikes with tagCounter := tag + 1 } }
    let r := keyRec k q
    if tooHot r (voicing q) then reportSuppress .hot (keyNumber k) dated tag (natWord r.heat) q
    else
      let st := computeStrike f k dated tag e q
      scheduleStrike st (if st.derated then bump .derates q else q)

/-! ## Release planning (R102, R114) -/

/-- The release instant of a strike for an offset due at `due` (R114). -/
def releaseInstant (st : Strike) (c : KeyClass) (due : Word32) : Word32 :=
  laterOf (minusTime due c.releaseAdvance) (plusTime st.launchAt c.minHold)

/-- A release handed on for a key, dated to a line (R102, R114). -/
def planRelease (k : Key) (dated : Word32) (p : Part) : Part :=
  match historyOf dated p with
  | none => p
  | some e =>
    let r := keyRec k p
    let c := classOf k p
    let bindQueued : Part :=
      match r.queued with
      | none => p
      | some qd =>
        if qd.strike.release.isSome then p
        else
          let i := releaseInstant qd.strike c e.due
          placeAction (.release k qd.strike.tag) i
            (putKey k { r with queued := some { qd with strike := { qd.strike with release := some i } } } p)
    match r.current with
    | none => bindQueued
    | some st =>
      if st.release.isSome then bindQueued
      else
        let i := releaseInstant st c e.due
        placeAction (.release k st.tag) i (putKey k (mapCurrent (fun x => { x with release := some i }) r) p)

/-- A key event of a line (R92). -/
inductive KeyEvent where
  | onset (key : Key) (dated : Word32)
  | release (key : Key) (dated : Word32)
  deriving DecidableEq, Repr

/-- One key event of a line (R92). -/
def keyEvent (f : Format) (p : Part) (e : KeyEvent) : Part :=
  match e with
  | .onset k dated => strikeOnset f k dated p
  | .release k dated => planRelease k dated p

/-! ## Pedal planning (R148 to R150) -/

/-- The Shading Map action that moves a pedal (R67). -/
def pedalAction : Pedal → MapAction
  | .damper => .sustain
  | .shift => .soft
  | .middle => .middle

/-- The roll plan of a pedal at a line (R148). -/
def rollPlan (d : Pedal) (f : Format) (p : Part) : Nat :=
  match d with
  | .damper =>
    largest ((f.map.filter fun e => decide (e.action = .sustain) && trackOpen e.track p).map MapEntry.value)
      * p.window.setup.sustainScale / 255
  | .shift => if anyOpen .soft f p then 255 else 0
  | .middle => if anyOpen .middle f p then 255 else 0

/-- The earliest dated line among the events of the line on the pedal's tracks, or the line itself where there is none
(R149). -/
def pedalSource (d : Pedal) (f : Format) (n : Word32) (events : List TrackEvent) : Word32 :=
  let tracks := (f.map.filter fun e => decide (e.action = pedalAction d)).map MapEntry.track
  let dated := (events.filter fun e => tracks.contains e.track).map TrackEvent.dated
  match dated with
  | [] => n
  | i :: rest => rest.foldl (fun a b => if isBefore b a then b else a) i

/-- The change is a drop (R149). -/
def isDrop (d : Pedal) (target planned : Nat) (p : Part) : Bool :=
  match pedalLevel d p with
  | none => false
  | some level => decide (target < level) && decide (level ≤ planned)

/-- The pedal has a drop-pending instant. -/
def dropPending (d : Pedal) (p : Part) : Bool := (pedalRec d p).dropPending.isSome

/-- A key's silent re-depress for a drop of pedal `d` at instant `t`: placed where the key is RELIEVED under `d` and under no
pedal that lacks a drop-pending instant (R150). -/
def placeDepress (d : Pedal) (t : Word32) (k : Key) (p : Part) : Part :=
  let r := keyRec k p
  let c := classOf k p
  let dropsAll := (!r.coverDamper || dropPending .damper p) && (!r.coverMiddle || dropPending .middle p)
  match r.current with
  | none => p
  | some st =>
    if r.state = .relieved ∧ inCover d r ∧ dropsAll then
      placeAction (.depress k st.tag (claimOf c.ifull (depressDuty k p)))
        (minusTime (minusTime t c.depressTime) (p.window.setup.depressMargin * 1000)) p
    else p

/-- The drop-pending instant after a drop is placed: the action's, or the present one if it is later (R149). -/
def dropInstant (present : Option Word32) (i : Word32) : Word32 :=
  match present with
  | none => i
  | some x => if isBefore i x then x else i

/-- The planner at one pedal for line `n` (R148, R149). -/
def planPedal (f : Format) (n : Word32) (events : List TrackEvent) (d : Pedal) (p : Part) : Part :=
  let plan := rollPlan d f p
  let r := pedalRec d p
  if plan = r.plannedTarget then p
  else
    let source := pedalSource d f n events
    let due := match historyOf source p with
      | some e => e.due
      | none => p.time.clock
    let i := minusTime due (pedalVoicing d p).pedalLead
    let drop := isDrop d plan r.plannedTarget p
    let q := placeAction (.pedal d plan source drop) i
      (putPedal d { r with
        plannedTarget := plan
        dropPending := if drop then some (dropInstant r.dropPending i) else r.dropPending } p)
    if drop then forKeys (placeDepress d i) q else q

/-- The planner for line `n` (R148). -/
def planPedals (f : Format) (n : Word32) (events : List TrackEvent) (p : Part) : Part :=
  forPedals (planPedal f n events) p

end Sys2Proof.Machine
end

