-- ==== Sys2Proof/Machine/Lines.lean ====
section
/-! DEFINITION. A roll line from its slot to its last action, and the consideration of the next line (R3 to R10, R20 to R23,
R42, R50 to R52, R57, R69, R92). -/

namespace Sys2Proof.Machine

/-! ## Events of a music line (R20, R22, R23, R42) -/

/-- A line as many lines before the present music line lies in the leader window: before the first music line, and no
further back than the window is long (R42). -/
def inLeaderWindow (l : Leader) (age : Nat) : Bool := decide (l.musicLines < age ∧ age ≤ l.musicLines + l.windowCount)

/-- An event confirmed at music line `n` whose dated line lies within the leader window is dated to the first music line
(R42). -/
def redate (l : Leader) (n : Word32) (e : TrackEvent) : TrackEvent :=
  match l.firstMusicLine with
  | some m => if inLeaderWindow l (n - e.dated).toNat then { e with dated := m } else e
  | none => e

/-- One more music line has been processed since the leader's outcome (R42). -/
def countMusicLine (p : Part) : Part := { p with leader := { p.leader with musicLines := p.leader.musicLines + 1 } }

/-- The track is a note track of the format (Table 1-4). -/
def isNoteTrack (f : Format) (t : Nat) : Bool :=
  decide (f.firstNoteTrack ≤ t ∧ t < f.firstNoteTrack + f.noteTrackCount)

/-- The key number to which a note track is mapped (R22). -/
def mappedKey (f : Format) (t : Nat) (transpose : Int) : Int :=
  (f.firstNoteKey : Int) + ((t : Int) - f.firstNoteTrack) + transpose

/-- The key that a mapped number names, if it lies from 1 to 88 (R22). -/
def keyOfInt (i : Int) : Option Key := if 0 < i then keyOfNumber i.toNat else none

/-- The struck key of a track is set or removed (R22, R23). -/
def putStruckKey (t : Nat) (k : Option Key) (p : Part) : Part :=
  if h : t < 104 then putTrack ⟨t, h⟩ { p.strip.tracks[t] with struckKey := k } p else p

/-- An onset on a note track confirmed at line `n`: mapped to a key, or dropped as RANGE (R22, R196). -/
def noteOnset (f : Format) (n : Word32) (e : TrackEvent) (acc : Part × List KeyEvent) : Part × List KeyEvent :=
  match keyOfInt (mappedKey f e.track acc.1.strip.transpose) with
  | some k => (putStruckKey e.track (some k) acc.1, acc.2 ++ [.onset k e.dated])
  | none => (reportSuppress .range e.track e.dated (lowWord (n - e.dated)) 0 acc.1, acc.2)

/-- An offset on a note track: the recorded key is released (R23). -/
def noteOffset (e : TrackEvent) (acc : Part × List KeyEvent) : Part × List KeyEvent :=
  match (trackRec e.track acc.1).struckKey with
  | some k => (putStruckKey e.track none acc.1, acc.2 ++ [.release k e.dated])
  | none => acc

/-- One event of a music line handed to the Strike Calculator where its track is a note track (R20, R22, R23). -/
def noteEvent (f : Format) (n : Word32) (acc : Part × List KeyEvent) (e : TrackEvent) : Part × List KeyEvent :=
  if isNoteTrack f e.track then (if e.onset then noteOnset f n e acc else noteOffset e acc) else acc

/-- The key events of a music line, in ascending track order (R20, R92). -/
def noteEvents (f : Format) (n : Word32) (events : List TrackEvent) (p : Part) : Part × List KeyEvent :=
  events.foldl (noteEvent f n) (p, [])

/-! ## End tests (R57) -/

/-- The line's number is START's nonzero end line (R57). -/
def endLineReached (n : Word32) (p : Part) : Bool := decide (p.time.endLine ≠ 0 ∧ n = p.time.endLine)

/-- An onset was confirmed at the line on the track of the END entry (R57). -/
def endTrackHeard (f : Format) (events : List TrackEvent) : Bool :=
  f.map.any fun e => decide (e.action = .endRoll) && onsetOn e.track events

/-- The end tests of a line that was read with format `f` (R57). -/
def endTests (f : Format) (n : Word32) (events : List TrackEvent) (p : Part) : Part :=
  if engineTakesLines p && (endLineReached n p || endTrackHeard f events) then stopFinish p else p

/-! ## One roll line (R8 to R10, R20, R21) -/

/-- A line of the leader window: the Leader Decoder, then the advance (R33, R56). -/
def leaderWork (f : Format) (events : List TrackEvent) (p : Part) : Part := advanceLine (leaderLine f events p)

/-- A music line: its note events are mapped, the line is closed together with its advance, then its key events and its
pedal plan follow (R20, R69, R92, R148), the key events first (notes/assumptions/39.md). -/
def musicWork (f : Format) (n : Word32) (events : List TrackEvent) (p : Part) : Part :=
  let due := dueInt p.time.due
  let events := events.map (redate p.leader n)
  let (q, keyEvents) := noteEvents f n events (countMusicLine p)
  let q := advanceLine (closeLine f n due (linePeriod q.time) events q)
  planPedals f n events (keyEvents.foldl (keyEvent f) q)

/-- The Take Mark and the counters after the track transitions of a line (R7, R9, R10). -/
def lineTaken (kind : LineKind) (p : Part) : Part :=
  match kind with
  | .imaged _ => bump .linesTaken (advanceTakeMark p)
  | .blank => bump .blankLines (bump .linesTaken (advanceTakeMark p))
  | .synthetic => bump .skippedLines p

/-- A roll line is processed (R8 to R10, R20, R21, R33, R57, R69). -/
def processLine (kind : LineKind) (p : Part) : Part :=
  let f := formatInForce p
  let n := p.time.nextLine
  let (q, events) := runTracks f n kind (trackEdges f n kind p)
  let q := lineTaken kind q
  let q := if q.time.engine = .leader then leaderWork f events q else musicWork f n events q
  endTests f n events q

/-! ## Taking (R5 to R7) -/

/-- The slot held under SKIP is put away, or kept with one synthetic line fewer. -/
def putHeld (h : Option HeldSlot) (p : Part) : Part := { p with strip := { p.strip with held := h } }

/-- The next line of a held slot (R7). -/
def takeHeld (h : HeldSlot) (p : Part) : Part :=
  if h.remaining = 0 then processLine (if h.blank then .blank else .imaged h.pixels) (putHeld none p)
  else processLine .synthetic (putHeld (some { h with remaining := h.remaining - 1 }) p)

/-- A takeable line is taken: from the slot in hand, or from the slot that the Take Mark names, by its Line Word (R5 to
R7). -/
def takeOne (p : Part) : Part :=
  match p.strip.held with
  | some h => takeHeld h p
  | none =>
    let mark := p.strip.takeMark
    let w := lineWord mark p
    if lineRepeat w then bump .repeatLines (advanceTakeMark p)
    else takeHeld { pixels := slotPixels mark p, blank := lineBlank w, remaining := lineSkip w } p

/-! ## Considering the next line (R3, R4, R50, R52) -/

/-- The engine states in which the Strip Reader considers the next line (R3). -/
def engineConsiders (p : Part) : Bool := engineTakesLines p || decide (p.time.engine = .starved)

/-- The clock is at or after the lookahead instant of the next line (R50). -/
def lookaheadReached (p : Part) : Bool := atOrAfter p.time.clock (lookaheadInstant p)

/-- A line can be had: no mark fault, and a slot filled or held (R50). -/
def lineAtHand (p : Part) : Bool := !markFault p && (decide (0 < stripSpan p) || p.strip.held.isSome)

/-- The next line is takeable (R50). -/
def takeable (p : Part) : Bool := lookaheadReached p && lineAtHand p && decide (Config.poolForLine ≤ p.wheel.free)

/-- The cause reported for a line that is not takeable (R50). -/
def waitingCause (p : Part) : Cause :=
  if markFault p then .mark else if stripSpan p = 0 ∧ p.strip.held = none then .lines else .pool

/-- The next line is reported as wanted (R50). -/
def reportWanted (p : Part) : Part := { p with time := { p.time with wanted := true } }

/-- The cause is reported to the Playback Controller (R50). -/
def reportCause (c : Cause) (p : Part) : Part := { p with time := { p.time with lastCause := some c } }

/-- The engine is in the state in which the waiting line is taken: STARVED is left first, at the first consideration at which
the line is takeable, be the slot that makes it so a REPEAT slot (R50, R52; notes/assumptions/12.md). -/
def readyToTake (p : Part) : Part := if p.time.engine = .starved then leaveStarved p else p

/-- A consideration of the next line, and of the lines after it as long as lines are taken; `fuel` bounds the takes (R3,
R50, R52). -/
def considerLines : Nat → Part → Part
  | 0, p => p
  | fuel + 1, p =>
    if engineConsiders p && lookaheadReached p then
      let q := reportWanted p
      if takeable q then considerLines fuel (takeOne (readyToTake q)) else reportCause (waitingCause q) q
    else p

/-- More takes than one consideration can make: the 256 slots of the ring as REPEAT slots, and every line whose lookahead
instant can have been reached. -/
def takeFuel : Nat := 4352

/-- The Strip Reader considers the next line (R3). -/
def consider (p : Part) : Part := considerLines takeFuel p

end Sys2Proof.Machine
end

