-- ==== Sys2Proof/Machine/Operands.lean ====
section
/-! DEFINITION. What requests read from Performance Memory: the parameters of a Request Slot, the Setup Block and its
clamping (R181), Format records and their validation (R26 to R30), and the Voicing Area and its validation (R85 to
R91). -/

namespace Sys2Proof.Machine

/-- A value clamped to a range. -/
def clampTo (low high v : Nat) : Nat := max low (min high v)

/-- Where a check of a word fails, its reason; a value within a range passes. -/
def rangeCheck {ρ : Type} (reason : ρ) (low high v : Nat) : Option ρ := if low ≤ v ∧ v ≤ high then none else some reason

/-- A condition that must hold. -/
def condCheck {ρ : Type} (reason : ρ) (ok : Bool) : Option ρ := if ok then none else some reason

/-- The first check that fails, with its word index. -/
def firstFailure {ρ : Type} : List (Nat × Option ρ) → Option (Nat × ρ)
  | [] => none
  | (i, some r) :: _ => some (i, r)
  | (_, none) :: rest => firstFailure rest

/-! ## Request Slots (Table 10-6) -/

/-- Byte offset of word `i` of Request Slot `slot`. -/
def slotWordOffset (slot i : Nat) : Nat := Config.requestOffset + 32 * slot + 2 * i

/-- Word `i` of Request Slot `slot`. -/
def slotWord (slot i : Nat) (p : Part) : Word := wordAt (slotWordOffset slot i) p

/-- Parameter word `i`, from 1 to 12, of Request Slot `slot`. -/
def param (slot i : Nat) (p : Part) : Word := slotWord slot (i + 1) p

/-! ## The Setup Block (Table 10-3, R181) -/

/-- Word `i` of the Setup Block. -/
def setupWord (i : Nat) (p : Part) : Nat := (wordAt (Config.setupOffset + 2 * i) p).toNat

/-- The clamped copy of the Setup Block (R181). -/
def readSetup (p : Part) : Setup :=
  let vnom := clampTo 100 600 (setupWord 3 p)
  let sag := clampTo 1 vnom (setupWord 4 p)
  { lookahead := clampTo 20 300 (setupWord 0 p)
    maxLate := clampTo 0 50 (setupWord 1 p)
    ibud := clampTo 0 4000 (setupWord 2 p)
    vnom := vnom
    sagLevel := sag
    lowLevel := if sag ≤ setupWord 5 p then sag - 1 else setupWord 5 p
    railHyst := clampTo 0 50 (setupWord 6 p)
    priorityPattern := natWord (setupWord 7 p)
    reliefDamper := (natWord (setupWord 8 p)).getLsbD 0
    reliefMiddle := (natWord (setupWord 8 p)).getLsbD 1
    reliefDelay := clampTo 0 500 (setupWord 9 p)
    depressMargin := clampTo 0 50 (setupWord 10 p)
    volBass := clampTo 0 255 (setupWord 11 p)
    volTreble := clampTo 0 255 (setupWord 12 p)
    sustainScale := clampTo 0 255 (setupWord 13 p) }

/-- The lookahead in force in µs: the field times 1,000, raised to the Guard (R49). -/
def lookaheadOf (s : Setup) (guardTime : Nat) : Nat := max (s.lookahead * 1000) guardTime

/-- A bit of a detail word, set where an item was changed. -/
def detailBit (bit : Nat) (changed : Bool) : Word := if changed then 1#16 <<< bit else 0

/-- Bits 2 to 15 of START's detail word: the fields of the Setup Block that clamping or the Guard changed (R54, R181). -/
def setupDetail (s : Setup) (guardTime : Nat) (p : Part) : Word :=
  detailBit 2 (decide (s.lookahead ≠ setupWord 0 p ∨ s.lookahead * 1000 < guardTime))
    ||| detailBit 3 (decide (s.maxLate ≠ setupWord 1 p)) ||| detailBit 4 (decide (s.ibud ≠ setupWord 2 p))
    ||| detailBit 5 (decide (s.vnom ≠ setupWord 3 p)) ||| detailBit 6 (decide (s.sagLevel ≠ setupWord 4 p))
    ||| detailBit 7 (decide (s.lowLevel ≠ setupWord 5 p)) ||| detailBit 8 (decide (s.railHyst ≠ setupWord 6 p))
    ||| detailBit 11 (decide (s.reliefDelay ≠ setupWord 9 p)) ||| detailBit 12 (decide (s.depressMargin ≠ setupWord 10 p))
    ||| detailBit 13 (decide (s.volBass ≠ setupWord 11 p)) ||| detailBit 14 (decide (s.volTreble ≠ setupWord 12 p))
    ||| detailBit 15 (decide (s.sustainScale ≠ setupWord 13 p))

/-! ## Format records (Table 2-1, R26 to R30) -/

/-- Reasons of a LOAD_FORMAT failure (Table 2-3). -/
inductive FormatReason where
  | fieldRange
  | order
  | noteSpan
  | mapTrack
  | mapAction
  | mapHalf
  | mapEnd
  | spoolStep
  deriving DecidableEq, Repr

/-- Code of a LOAD_FORMAT reason (Table 2-3). -/
def formatReasonCode : FormatReason → Nat
  | .fieldRange => 1
  | .order => 2
  | .noteSpan => 3
  | .mapTrack => 4
  | .mapAction => 5
  | .mapHalf => 6
  | .mapEnd => 7
  | .spoolStep => 8

/-- Word `i` of Format Area record `slot`. -/
def formatWord (slot i : Nat) (p : Part) : Word := wordAt (Config.formatOffset + 256 * slot + 2 * i) p

/-- The first of two checks that fails. -/
def orCheck {ρ : Type} (a b : Option ρ) : Option ρ :=
  match a with
  | some r => some r
  | none => b

/-- The checks of words 0 to 31 of a Format record, in word order (R29). `w` reads a word as an unsigned value. -/
def formatFieldChecks (w : Nat → Nat) : List (Option FormatReason) :=
  let range := rangeCheck FormatReason.fieldRange
  [range 1 2047 (w 0), range 20 104 (w 1), range 0 8191 (w 2), range 32 255 (w 3), range 0 3 (w 4),
    range 1 (2 * w 4 + 1) (w 5), range 1 8 (w 6), range 1 8 (w 7), range 0 8191 (w 8), range 64 512 (w 9),
    range 0 64 (w 10), range 1 16 (w 11), range 0 7 (w 12), range 0 256 (w 13), range 1 255 (w 14), range 1 64 (w 15),
    range 100 600 (w 16), range 20 200 (w 17),
    condCheck .fieldRange (decide (w 18 = 0 ∨ 256 ≤ w 18)),
    condCheck .spoolStep (decide (w 19 ≠ 0x8000)),
    condCheck .fieldRange (decide (w 20 < w 1)),
    orCheck (range 1 88 (w 21)) (condCheck .noteSpan (decide (w 20 + w 21 ≤ w 1))),
    orCheck (range 1 88 (w 22)) (condCheck .noteSpan (decide (w 22 + w 21 ≤ 89))),
    range 1 87 (w 23), range 0 1023 (w 24),
    orCheck (range 0 1023 (w 25)) (condCheck .order (decide (w 24 ≤ w 25))),
    orCheck (range 0 1023 (w 26)) (condCheck .order (decide (w 25 ≤ w 26))),
    range 0 1023 (w 27), range 0 4000 (w 28), range 0 (w 27) (w 29), range 0 255 (w 30), range 0 16 (w 31)]

/-- An action code is a shade action (Table 2-2). -/
def isShadeCode (a : Nat) : Bool := decide (1 ≤ a ∧ a ≤ 7)

/-- The check of an entry's action word (R30). -/
def actionCheck (w : Nat → Nat) (e : Nat) : Option FormatReason :=
  let half := w (33 + 4 * e)
  let action := w (34 + 4 * e)
  if action = 0 ∨ 11 < action then some .mapAction
  else if isShadeCode action ∧ half = 3 then some .mapHalf
  else if ¬ isShadeCode action ∧ half ≠ 3 then some .mapHalf
  else if action = 11 ∧ (List.range e).any (fun i => decide (w (34 + 4 * i) = 11)) then some .mapEnd
  else none

/-- The check of an entry's value word (R30, Table 2-2). -/
def valueCheck (action v : Nat) : Option FormatReason :=
  match action with
  | 1 => rangeCheck .fieldRange 0 1023 v
  | 2 => rangeCheck .fieldRange 1 4000 v
  | 3 => rangeCheck .fieldRange 1 4000 v
  | 7 => rangeCheck .fieldRange 0 255 v
  | 8 => rangeCheck .fieldRange 1 255 v
  | _ => none

/-- The checks of Shading Map entry `e`, in word order (R30). -/
def entryChecks (w : Nat → Nat) (e : Nat) : List (Nat × Option FormatReason) :=
  let t := w (32 + 4 * e)
  [(32 + 4 * e, condCheck .mapTrack (decide (t < w 1 ∧ ¬ (w 20 ≤ t ∧ t < w 20 + w 21)))),
    (33 + 4 * e, rangeCheck .mapHalf 0 3 (w (33 + 4 * e))),
    (34 + 4 * e, actionCheck w e),
    (35 + 4 * e, valueCheck (w (34 + 4 * e)) (w (35 + 4 * e)))]

/-- The first check of a Format record that fails, with its word index (R29, R30). -/
def formatFailure (w : Nat → Nat) : Option (Nat × FormatReason) :=
  match firstFailure ((List.range 32).zip (formatFieldChecks w)) with
  | some x => some x
  | none => firstFailure ((List.range (w 31)).flatMap (entryChecks w))

/-- The half that a code names (R27). -/
def mapHalfOf (code : Nat) : MapHalf :=
  match code with
  | 0 => .bass
  | 1 => .treble
  | 2 => .both
  | _ => .neither

/-- The action that a code names (Table 2-2). -/
def mapActionOf (code : Nat) : MapAction :=
  match code with
  | 1 => .step
  | 2 => .rise
  | 3 => .fall
  | 4 => .latchSet
  | 5 => .latchClear
  | 6 => .latchToggle
  | 7 => .accent
  | 8 => .sustain
  | 9 => .soft
  | 10 => .middle
  | _ => .endRoll

/-- Entry `e` of the Shading Map (R27). -/
def mapEntryOf (w : Nat → Nat) (e : Nat) : MapEntry :=
  { track := w (32 + 4 * e), half := mapHalfOf (w (33 + 4 * e)), action := mapActionOf (w (34 + 4 * e)),
    value := w (35 + 4 * e) }

/-- The Format that a record holds (R26, R27). -/
def formatOf (w : Nat → Nat) : Format :=
  { formatId := w 0, trackCount := w 1, trackOrigin := w 2, trackPitch := w 3, apertureHalf := w 4,
    apertureThreshold := w 5, onsetLines := w 6, offsetLines := w 7, nominalCentre := w 8, nominalWidth := w 9,
    widthTolerance := w 10, edgeRun := w 11, driftSmoothing := w 12, driftMax := w 13, coastLimit := w 14,
    relockLines := w 15, linePitch := w 16, defaultTempo := w 17, spoolInterval := w 18,
    spoolStep := (natWord (w 19)).toInt, firstNoteTrack := w 20, noteTrackCount := w 21, firstNoteKey := w 22,
    splitKey := w 23, floor := w 24, midCap := w 25, ceiling := w 26, rampMax := w 27, restRate := w 28,
    restLevel := w 29, softOffset := w 30, map := (List.range (w 31)).map (mapEntryOf w) }

/-! ## The Voicing Area (Tables 5-1 to 5-3, R85 to R91) -/

/-- Reasons of a LOAD_VOICING failure (Table 5-3). -/
inductive VoicingReason where
  | fieldRange
  | order
  deriving DecidableEq, Repr

/-- Code of a LOAD_VOICING reason (Table 5-3). -/
def voicingReasonCode : VoicingReason → Nat
  | .fieldRange => 1
  | .order => 2

/-- Word `i` of the Voicing Area as an unsigned value. -/
def voicingWord (p : Part) (i : Nat) : Nat := (wordAt (Config.voicingOffset + 2 * i) p).toNat

/-- A two-word field at words `i` and `i + 1` (R85). -/
def longField (w : Nat → Nat) (i : Nat) : Nat := w i + 65536 * w (i + 1)

/-- A word read as a signed 16-bit value (R85). -/
def signedField (w : Nat → Nat) (i : Nat) : Int := (natWord (w i)).toInt

/-- The check of a field at word `i` against a range. -/
def fieldCheck (i low high v : Nat) : Nat × Option VoicingReason := (i, rangeCheck .fieldRange low high v)

/-- The checks of a key class (Table 5-1). -/
def classChecks (w : Nat → Nat) (c : Nat) : List (Nat × Option VoicingReason) :=
  let b := 12 * c
  [fieldCheck b 0 7 (w b), fieldCheck (b + 1) 1 500 (w (b + 1)), fieldCheck (b + 2) 0 255 (w (b + 2)),
    fieldCheck (b + 3) 0 50000 (w (b + 3)), fieldCheck (b + 4) 5000 100000 (longField w (b + 4)),
    fieldCheck (b + 6) 0 50000 (w (b + 6)), fieldCheck (b + 7) 0 30000 (w (b + 7)),
    fieldCheck (b + 8) 0 512 (w (b + 8)), fieldCheck (b + 9) 16 255 (w (b + 9)),
    fieldCheck (b + 10) 5000 100000 (longField w (b + 10))]

/-- Word index of point `j` of drive curve `q` (R86). -/
def pointWord (q j : Nat) : Nat := 96 + 68 * q + 4 * j

/-- The checks of a drive curve point (R86). -/
def pointChecks (w : Nat → Nat) (q j : Nat) : List (Nat × Option VoicingReason) :=
  let b := pointWord q j
  [fieldCheck b 200 20000 (w b), fieldCheck (b + 1) 1000 150000 (longField w (b + 1)), fieldCheck (b + 3) 0 255 (w (b + 3))]

/-- The checks of the key map entry of key `i + 1` (R87). -/
def keyMapChecks (w : Nat → Nat) (i : Nat) : List (Nat × Option VoicingReason) :=
  let b := 640 + 2 * i
  [fieldCheck b 0 7 (w b),
    (b + 1, condCheck .fieldRange (decide (-64 ≤ signedField w (b + 1) ∧ signedField w (b + 1) ≤ 63)))]

/-- The checks of the heat and sense groups (R87, R89). -/
def heatSenseChecks (w : Nat → Nat) : List (Nat × Option VoicingReason) :=
  [(817, condCheck .order (decide (w 816 < w 817))), (818, condCheck .order (decide (w 817 < w 818))),
    fieldCheck 819 1 12 (w 819), fieldCheck 820 1 15 (w 820), fieldCheck 821 0 1 (w 821), fieldCheck 822 0 1 (w 822)]

/-- The checks of the fields of pedal `x` (Table 5-2). -/
def pedalChecks (w : Nat → Nat) (x : Nat) : List (Nat × Option VoicingReason) :=
  let b := 824 + 8 * x
  [fieldCheck b 1 500 (w b), fieldCheck (b + 1) 0 255 (w (b + 1)), fieldCheck (b + 2) 0 255 (w (b + 2)),
    fieldCheck (b + 3) 0 255 (w (b + 3)), fieldCheck (b + 4) 20 1000 (w (b + 4)), fieldCheck (b + 5) 1 16 (w (b + 5)),
    fieldCheck (b + 6) 0 200000 (longField w (b + 6))]

/-- The checks of the pedal globals (Table 5-2). -/
def globalChecks (w : Nat → Nat) : List (Nat × Option VoicingReason) :=
  [fieldCheck 848 0 255 (w 848), fieldCheck 849 0 255 (w 849), fieldCheck 850 1 88 (w 850)]

/-- The first check of the Voicing Area that fails, with its word index, in ascending word order (R89). -/
def voicingFailure (w : Nat → Nat) : Option (Nat × VoicingReason) :=
  firstFailure
    ((List.range 8).flatMap (classChecks w)
      ++ (List.range 8).flatMap (fun q => (List.range 17).flatMap (pointChecks w q))
      ++ (List.range 88).flatMap (keyMapChecks w) ++ heatSenseChecks w
      ++ (List.range 3).flatMap (pedalChecks w) ++ globalChecks w)

/-- Key class `c` of the Voicing Area (Table 5-1). -/
def keyClassOf (w : Nat → Nat) (c : Nat) : KeyClass :=
  let b := 12 * c
  { curve := Fin.ofNat 8 (w b), ifull := w (b + 1), holdDuty := w (b + 2), minHold := w (b + 3),
    repeatGap := longField w (b + 4), repeatSteal := w (b + 6), releaseAdvance := w (b + 7), velFloor := w (b + 8),
    depressDuty := w (b + 9), depressTime := longField w (b + 10) }

/-- Point `j` of drive curve `q` of the Voicing Area (R86). -/
def pointOf (w : Nat → Nat) (q j : Nat) : CurvePoint :=
  let b := pointWord q j
  { w := w b, d := longField w (b + 1), u := w (b + 3) }

/-- The fields of pedal `x` of the Voicing Area (Table 5-2). -/
def pedalVoicingOf (w : Nat → Nat) (x : Nat) : PedalVoicing :=
  let b := 824 + 8 * x
  { ifull := w b, moveDuty := w (b + 1), holdBase := w (b + 2), holdSlope := w (b + 3), travelMax := w (b + 4),
    tol := w (b + 5), pedalLead := longField w (b + 6) }

/-- The Voicing that the Voicing Area holds (R85 to R87). -/
def voicingOf (w : Nat → Nat) : Voicing :=
  { classes := tabulate 8 (keyClassOf w)
    curves := tabulate 8 (fun q => tabulate 17 (pointOf w q))
    keyClass := tabulate 88 (fun i => Fin.ofNat 8 (w (640 + 2 * i)))
    strikeTrim := tabulate 88 (fun i => signedField w (641 + 2 * i))
    warmLimit := w 816, resumeLimit := w 817, cutLimit := w 818, heatShift := w 819, missLimit := w 820
    adapt := decide (w 821 = 1), fallingEdge := decide (w 822 = 1)
    pedals := tabulate 3 (pedalVoicingOf w)
    freeLevel := w 848, engageLevel := w 849, damperTop := w 850 }

/-- The Guard of a Voicing: the largest D of any point of any curve, plus 5,000 µs (R91). -/
def guardOf (v : Voicing) : Nat :=
  v.curves.toList.foldl (fun m curve => curve.toList.foldl (fun m' pt => max m' pt.d) m) 0 + 5000

end Sys2Proof.Machine
end

