-- ==== Sys2Proof/Machine/Restart.lean ====
section
/-! DEFINITION. What RESTART_ENGINE and STOP IMMEDIATE do in every block (R60, R25, R43, R68, R104, R129, R138, R144, R165,
R176). -/

namespace Sys2Proof.Machine

/-- The state, gap end, timer and last release instant in which a restart leaves a key (R129). -/
def restartRest (p : Part) (k : Key) (r : KeyRec) : KeyRec :=
  let now := p.clocks.drive
  let cutGap := now + (classOf k p).repeatGap
  let lifted := { r with state := .lifting, gapEnd := some cutGap, timer := some cutGap, lastRelease := some p.time.clock }
  let relieved := match r.gapEnd with
    | some t => if now < t then { r with state := .lifting, timer := some t } else { r with state := .idle, timer := none }
    | none => { r with state := .idle, timer := none }
  match r.state with
  | .drive => lifted
  | .hold => lifted
  | .depressing => lifted
  | .relieved => relieved
  | .waiting .depress => relieved
  | .lifting => r
  | .armed => { r with state := .idle, timer := none }
  | .waiting .launch => { r with state := .idle, timer := none }
  | .idle => { r with timer := none }

/-- What a restart ends in every key: strikes, marks, cover, output and claim (R129). -/
def restartKey (k : Key) (p : Part) : Part :=
  putKey k { restartRest p k (keyRec k p) with
    current := none, queued := none, releasePending := false, reliefReady := false, coverDamper := false
    coverMiddle := false, output := none, claim := 0 } p

/-- What a restart does to a pedal (R165). -/
def restartPedal (d : Pedal) (p : Part) : Part :=
  let r := pedalRec d p
  putPedal d { r with
    state := if r.override = .off then .off else .rest
    target := 0, rollTarget := 0, plannedTarget := 0, wanted := none, dropPending := none, timer := none
    output := none, claim := 0 } p

/-- After a restart a pedal under FORCE with a value above 0 asks for its claim from REST; the change of state it may make
writes no PEDAL record (R164, R165). -/
def reapplyForce (d : Pedal) (p : Part) : Part :=
  match (pedalRec d p).override with
  | .follow => p
  | .off => p
  | .force w =>
    if w = 0 then p
    else
      let v := pedalVoicing d p
      let judged := judgeTarget w (pedalRec d p).position v.tol
      let claim := stateClaim v judged w
      if pedalClaimPasses claim p.budget then
        let q := putDriving d judged w (setPedalClaim d claim p)
        if d = .middle ∧ judged = .settled then captureTest q else q
      else
        let q := deferPedal d claim judged p
        putPedal d { pedalRec d q with wanted := some w } q

/-- The queues are emptied and nothing is committed (R130, R138, R144). -/
def restartBudget (p : Part) : Part :=
  { p with budget :=
    { p.budget with committed := 0, pedalQ := [], bassQ := [], trebleQ := [], serveCause := false } }

/-- The engine enters IDLE, reported where it was in another state; the recorded return state is cleared, and no slot is in
use (R60, R65). Its ENGINE record may raise LOG (notes/assumptions/34.md). -/
def restartEngineState (p : Part) : Part :=
  let q := { p with
    time := { p.time with returnState := none, starveCause := none, wanted := false }
    leader := { p.leader with seq := .inactive }
    formats := { p.formats with inUse := none } }
  if q.time.engine = .idle then q else enterEngine .idle 0 q

/-- RESTART_ENGINE's work, which STOP IMMEDIATE shares (R60, R186). It resets the Track records, as R17 and R25 say and R23
does not (notes/assumptions/31.md). Pedals under FORCE ask their claims in the order DAMPER, SHIFT, MIDDLE
(notes/assumptions/40.md). -/
def restart (p : Part) : Part :=
  let q := forKeys restartKey (forKeys cutWindow p)
  let q := forPedals restartPedal (restartBudget (emptyWheel q))
  let q := { q with capture := Capture.reset, shading := Shading.reset }
  let q := putTakeMark (fillMark q) (prepareStrip q)
  forPedals reapplyForce (restartEngineState q)

end Sys2Proof.Machine
end

