-- ==== Sys2Proof/Machine/Requests.lean ====
section
/-! DEFINITION. The thirteen requests of the Request Slots, the taking of a slot, and the sweep (Table 10-7, R24, R28, R54 to
R64, R88, R96, R143, R158, R177, R182 to R184, R191). -/

namespace Sys2Proof.Machine

/-- Result codes (Table 10-7). -/
inductive ResultCode where
  | ok
  | clamped
  | busy
  | range
  | invalid
  | unknown
  | noFormat
  deriving DecidableEq, Repr

/-- Code of a result (Table 10-7). -/
def resultValue : ResultCode → Nat
  | .ok => 0
  | .clamped => 1
  | .busy => 2
  | .range => 3
  | .invalid => 4
  | .unknown => 5
  | .noFormat => 6

/-- Value of the state word that a result writes: 2 DONE or 3 REFUSED (R184). -/
def resultState : ResultCode → Word
  | .ok => 2
  | .clamped => 2
  | .busy => 3
  | .range => 3
  | .invalid => 3
  | .unknown => 3
  | .noFormat => 3

/-- What a request's owner gives back: the part after the request, the result and the detail. -/
structure Answer where
  part : Part
  code : ResultCode
  detail : Word
  deriving DecidableEq, Repr

/-- A request refused: nothing changes. -/
def refuse (code : ResultCode) (p : Part) : Answer := { part := p, code := code, detail := 0 }

/-- A request carried out: OK, or CLAMPED where a bit of the detail mask is set. -/
def carriedOut (mask : Word) (p : Part) : Answer :=
  { part := p, code := if mask = 0 then .ok else .clamped, detail := mask }

/-! ## START (R54, R55, R144, R166) -/

/-- LeaderLines of a START after its clamp (R54). -/
def startLines (slot : Nat) (p : Part) : Nat := min 8192 (param slot 2 p).toNat

/-- The tempo override of a START after its clamp; 0 for none (R54). -/
def startOverride (slot : Nat) (p : Part) : Nat :=
  if param slot 3 p = 0 then 0 else clampTo 20 200 (param slot 3 p).toNat

/-- START's detail word (R54). -/
def startDetail (slot : Nat) (p : Part) : Word :=
  detailBit 0 (decide (startLines slot p ≠ (param slot 2 p).toNat))
    ||| detailBit 1 (decide (startOverride slot p ≠ (param slot 3 p).toNat))
    ||| setupDetail (readSetup p) p.strikes.guardTime p

/-- The Timebase Unit at a START, before the engine enters LEADER or RUNNING (R49, R55). -/
def startTimebase (slot : Nat) (f : Format) (p : Part) : Timebase :=
  let override := startOverride slot p
  let tempo := if override = 0 then f.defaultTempo else override
  let lookahead := lookaheadOf (readSetup p) p.strikes.guardTime
  { p.time with
    returnState := none, starveCause := none, lastCause := none, clock := 0, wanted := false
    nextLine := wordPair (param slot 4 p) (param slot 5 p)
    due := BitVec.ofNat 48 (lookahead * 65536)
    tempo := tempo, tempoOverride := override, setTempoTaken := false, p16 := basePeriod f.linePitch tempo
    intervals := 0, intervalLines := 0, spoolInterval := f.spoolInterval, spoolStep := f.spoolStep
    lookahead := lookahead, endLine := wordPair (param slot 6 p) (param slot 7 p), lastTakenDue := none }

/-- A pedal at START (R166). -/
def startPedal (d : Pedal) (p : Part) : Part :=
  putPedal d { pedalRec d p with plannedTarget := 0, rollTarget := 0, dropPending := none } p

/-- A key at START: no last release instant (Table 6-2). -/
def startKey (k : Key) (p : Part) : Part := putKey k { keyRec k p with lastRelease := none } p

/-- The Budget Arbiter and the volumes at START (R96, R144). -/
def startBudget (s : Setup) (p : Part) : Part :=
  formBudget { p with
    strikes := { p.strikes with volBass := s.volBass, volTreble := s.volTreble }
    budget := { p.budget with ibud := s.ibud, patternPos := 0 } }

/-- A START that proceeds with a default slot (R55). -/
def startPerformance (slot : Nat) (i : Fin 4) (p : Part) : Part :=
  let f := formatAt i p
  let s := readSetup p
  let lines := startLines slot p
  let t := startTimebase slot f p
  let q := { p with
    window := { p.window with setup := s }
    formats := { p.formats with inUse := some i }
    time := t
    shading := Shading.reset
    wheel := { p.wheel with position := 0 }
    leader := preparedLeader lines i.val t.tempo t.spoolStep }
  let q := forKeys startKey (forPedals startPedal (startBudget s q))
  let q := writeLeaderRecord (prepareStrip q)
  serve (enterEngine (if lines = 0 then .running else .leader) 0 q)

/-- The START request (R54). -/
def requestStart (slot : Nat) (p : Part) : Answer :=
  if p.time.engine ≠ .idle then refuse .busy p
  else if h : (param slot 1 p).toNat < 4 then
    if p.formats.slots[(param slot 1 p).toNat].isNone then refuse .noFormat p
    else carriedOut (startDetail slot p) (startPerformance slot ⟨(param slot 1 p).toNat, h⟩ p)
  else refuse .range p

/-! ## STOP, PAUSE, RESUME, SET_TEMPO (R58, R60 to R64) -/

/-- The STOP request (R58, R60). -/
def requestStop (slot : Nat) (p : Part) : Answer :=
  let mode := param slot 1 p
  if mode = 0 then
    if p.time.engine = .idle ∨ p.time.engine = .draining then refuse .busy p else carriedOut 0 (stopFinish p)
  else if mode = 1 then carriedOut 0 (restart p)
  else refuse .range p

/-- A key at a PAUSE with RELEASE_HELD: one in HOLD is released (R123). -/
def pauseKey (k : Key) (p : Part) : Part := if (keyRec k p).state = .hold then releaseKey k p else p

/-- The keys in HOLD as a PAUSE with RELEASE_HELD is taken are released, all of them before the current they free serves the
queues (R123, R139), in ascending key order (notes/assumptions/41.md). -/
def releaseHeld (p : Part) : Part := serve (forKeys pauseKey p)

/-- The engine is paused, its state to return to recorded (R61). -/
def pauseEngine (p : Part) : Part :=
  let returnState := if p.time.engine = .starved then p.time.returnState else some p.time.engine
  enterEngine .paused 0 { p with time := { p.time with returnState := returnState, starveCause := none } }

/-- The PAUSE request (R61, R123). -/
def requestPause (slot : Nat) (p : Part) : Answer :=
  if engineConsiders p then
    let q := pauseEngine p
    carriedOut 0 (if (param slot 1 p).getLsbD 0 then releaseHeld q else q)
  else refuse .busy p

/-- The engine returns from PAUSED to its recorded state (R63). -/
def resumeEngine (p : Part) : Part :=
  let q := enterEngine (p.time.returnState.getD .running) 0 p
  { q with time := { q.time with returnState := none } }

/-- The RESUME request (R63). -/
def requestResume (_slot : Nat) (p : Part) : Answer :=
  if p.time.engine = .paused then carriedOut 0 (starveTest (consider (resumeEngine p))) else refuse .busy p

/-- The SET_TEMPO request (R64). -/
def requestSetTempo (slot : Nat) (p : Part) : Answer :=
  let asked := (param slot 1 p).toNat
  let tempo := clampTo 20 200 asked
  let time := if p.time.engine = .idle then { p.time with tempo := tempo }
    else { p.time with
      tempo := tempo, setTempoTaken := true, p16 := basePeriod (formatInForce p).linePitch tempo }
  carriedOut (detailBit 0 (decide (tempo ≠ asked))) { p with time := time }

/-! ## SET_TRIM, TRANSPOSE, PEDAL_OVERRIDE (R24, R96, R158) -/

/-- The SET_TRIM request (R96). -/
def requestSetTrim (slot : Nat) (p : Part) : Answer :=
  let bass := (param slot 1 p).toNat
  let treble := (param slot 2 p).toNat
  carriedOut (detailBit 0 (decide (255 < bass)) ||| detailBit 1 (decide (255 < treble)))
    { p with strikes := { p.strikes with volBass := min 255 bass, volTreble := min 255 treble } }

/-- The TRANSPOSE request (R24). -/
def requestTranspose (slot : Nat) (p : Part) : Answer :=
  let asked := (param slot 1 p).toInt
  let value := max (-12) (min 12 asked)
  carriedOut (detailBit 0 (decide (value ≠ asked))) { p with strip := { p.strip with transpose := value } }

/-- The pedal that a parameter names (R158). -/
def pedalOfParam (w : Word) : Option Pedal :=
  if w = 0 then some .damper else if w = 1 then some .shift else if w = 2 then some .middle else none

/-- The PEDAL_OVERRIDE request (R158). -/
def requestPedalOverride (slot : Nat) (p : Part) : Answer :=
  match pedalOfParam (param slot 1 p) with
  | none => refuse .range p
  | some d =>
    let mode := param slot 2 p
    let value := (param slot 3 p).toNat
    if mode = 0 then carriedOut 0 (overrideOn d .follow p)
    else if mode = 1 then
      carriedOut (detailBit 0 (decide (255 < value))) (overrideOn d (.force (min 255 value)) p)
    else if mode = 2 then carriedOut 0 (overrideOff d p)
    else refuse .range p

/-! ## LOAD_FORMAT and LOAD_VOICING (R28, R88) -/

/-- The LOAD_FORMAT request (R28). -/
def requestLoadFormat (slot : Nat) (p : Part) : Answer :=
  if h : (param slot 1 p).toNat < 4 then
    let i : Fin 4 := ⟨(param slot 1 p).toNat, h⟩
    if p.formats.inUse = some i then refuse .busy p
    else
      let w := fun x => (formatWord i.val x p).toNat
      match formatFailure w with
      | some (x, reason) => { part := p, code := .invalid, detail := natWord (256 * x + formatReasonCode reason) }
      | none =>
        { part := { p with formats := { p.formats with slots := p.formats.slots.set i (some (formatOf w)) } }
          code := .ok, detail := natWord (w 0) }
  else refuse .range p

/-- The LOAD_VOICING request (R88). -/
def requestLoadVoicing (_slot : Nat) (p : Part) : Answer :=
  if p.time.engine ≠ .idle then refuse .busy p
  else
    let w := voicingWord p
    match voicingFailure w with
    | some (x, reason) => { part := p, code := .invalid, detail := natWord (x + 4096 * voicingReasonCode reason) }
    | none =>
      let v := voicingOf w
      { part := { p with strikes := { p.strikes with voicing := v, guardTime := guardOf v } }
        code := .ok, detail := natWord (guardOf v / 10) }

/-! ## SENSE_RESET, SET_BUDGET, SET_LOG (R143, R177, R191) -/

/-- The SENSE_RESET request (R177). -/
def requestSenseReset (slot : Nat) (p : Part) : Answer :=
  let zero := (param slot 2 p).getLsbD 0
  let n := (param slot 1 p).toNat
  if n = 0 then carriedOut 0 (forKeys (senseResetKey zero) p)
  else
    match keyOfNumber n with
    | some k => carriedOut 0 (senseResetKey zero k p)
    | none => refuse .range p

/-- The SET_BUDGET request (R143). -/
def requestSetBudget (slot : Nat) (p : Part) : Answer :=
  let asked := (param slot 1 p).toNat
  let ibud := min 4000 asked
  carriedOut (detailBit 0 (decide (4000 < asked)))
    (serve (formBudget { p with budget := { p.budget with ibud := ibud } }))

/-- The numbers of slots that a Log Ring may have (R191). -/
def logSlotCounts : List Nat := [64, 128, 256, 512, 1024, 2048]

/-- The log configuration that a SET_LOG puts in force (R191). -/
def putLog (base slots notify : Nat) (filter : Word) (p : Part) : Part :=
  let mark := p.window.sweptReadMark
  putWord Config.logWriteMarkOffset mark
    { p with log := { p.log with
        configured := true, base := base, slots := slots, filter := if filter = 0 then 0x1FFB else filter
        notify := min slots notify, writeMark := mark, readMark := mark, dropped := 0, droppedKinds := 0 } }

/-- The SET_LOG request (R191). -/
def requestSetLog (slot : Nat) (p : Part) : Answer :=
  let base := (param slot 1 p).toNat
  let slots := (param slot 2 p).toNat
  let notify := (param slot 4 p).toNat
  if p.time.engine ≠ .idle then refuse .busy p
  else if base < Config.freeAreaOffset ∨ base % 16 ≠ 0 then { part := p, code := .range, detail := 1 }
  else if ¬ logSlotCounts.contains slots ∨ 65536 < base + 16 * slots then { part := p, code := .range, detail := 2 }
  else carriedOut (detailBit 3 (decide (slots < notify))) (putLog base slots notify (param slot 3 p) p)

/-! ## Taking a slot, and the sweep (R182 to R184) -/

/-- The owner of a request's kind decides it and carries it out (R184). -/
def dispatchRequest (kind : Nat) (slot : Nat) (p : Part) : Answer :=
  match kind with
  | 1 => requestStart slot p
  | 2 => requestStop slot p
  | 3 => requestPause slot p
  | 4 => requestResume slot p
  | 5 => requestSetTempo slot p
  | 6 => requestSetTrim slot p
  | 7 => requestTranspose slot p
  | 8 => requestPedalOverride slot p
  | 9 => requestLoadFormat slot p
  | 10 => requestLoadVoicing slot p
  | 11 => requestSenseReset slot p
  | 12 => requestSetBudget slot p
  | 13 => requestSetLog slot p
  | _ => refuse .unknown p

/-- The completion of a request: result, detail, and then the state word; notice REQ (R182, R184). -/
def completeRequest (slot : Nat) (a : Answer) : Part :=
  raise .req
    (putWord (slotWordOffset slot 0) (resultState a.code)
      (putWord (slotWordOffset slot 15) a.detail (putWord (slotWordOffset slot 14) (natWord (resultValue a.code)) a.part)))

/-- A sweep's walk reaches a slot: a POSTED one is taken (R182, R183). -/
def takeSlot (p : Part) (slot : Nat) : Part :=
  if slotWord slot 0 p = 1 then completeRequest slot (dispatchRequest (slotWord slot 1 p).toNat slot p) else p

/-- One sweep: the Log Read Mark goes to the Log Writer, then the slots are walked from 0 to 7 (R183, R192, R194). -/
def sweepBody (p : Part) : Part :=
  let mark := wordAt Config.logReadMarkOffset p
  let q := writeGap (takeReadMark mark { p with window := { p.window with sweptReadMark := mark } })
  (List.range 8).foldl takeSlot q

end Sys2Proof.Machine
end

