-- ==== Sys2Proof/WellFormed.lean ====
section
/-! DEFINITION. Which commands are well formed: key numbers lie from 1 to 88, a write named ignored names a position
whose writes are ignored, and the Fill Mark word is written by its own command. -/

namespace Sys2Proof

/-- A key number of the manual (00_scope.md, "Numbering of keys, tracks and pedals"). -/
def keyInRange (n : Nat) : Bool := decide (1 ≤ n ∧ n ≤ 88)

/-- A register position whose writes R179 and Table 10-5 ignore: STATUS, and positions 5 to 7. -/
def ignoredPosition (r : BitVec 3) : Bool := decide (r = 1 ∨ 5 ≤ r.toNat)

/-- The word address of the Fill Mark (Table 10-2). -/
def fillMarkAddress : BitVec 15 := 0x004

/-- The well-formed commands. -/
def Instr.wellFormed : Instr → Bool
  | .powerOn => true
  | .restartEngine => true
  | .fullReset => true
  | .clearCounters => true
  | .snapshot => true
  | .cmdReject _ => true
  | .statusRead => true
  | .nstatRead => true
  | .nstatWrite _ => true
  | .nmaskWrite _ => true
  | .ncfgWrite _ => true
  | .registerWriteIgnored r _ => ignoredPosition r
  | .fillMarkWrite _ => true
  | .sweep => true
  | .lookaheadInstant => true
  | .guardInstant => true
  | .wheelSlot => true
  | .pulseEnd k => keyInRange k
  | .reliefDelayEnd k => keyInRange k
  | .depressEnd k => keyInRange k
  | .gapEnd k => keyInRange k
  | .heatUpdate => true
  | .railSample _ => true
  | .pedalPositionSample _ _ => true
  | .travelTimeout _ => true
  | .senseScan _ => true
  | .hostMemoryWrite w _ => decide (w ≠ fillMarkAddress)
  | .busyClear => true
  | .resetAsserted => true

end Sys2Proof
end

