-- ==== Sys2Proof/Machine/Port.lean ====
section
/-! DEFINITION. The Window Unit at the memory port: the registers, the CMD operations, resets, and host writes to Performance
Memory (R3, R179 to R190, R198). -/

namespace Sys2Proof.Machine

/-- The port is served: RESET_N is high (R179). -/
def portServed (p : Part) : Bool := !p.pins.resetLow

/-- A register read leaves its value on the data lines. -/
def putReadData (v : Word) (p : Part) : Part := { p with pins := { p.pins with readData := v } }

/-- BUSY is set for an operation (R186). -/
def setBusy (op : BusyOp) (p : Part) : Part := { p with window := { p.window with busy := some op } }

/-! ## CMD (R186) -/

/-- A CMD write is rejected (R186). -/
def rejectCommand (p : Part) : Part := { p with window := { p.window with cmdReject := true } }

/-- The part after FULL_RESET's work: the power-on values, but for memory outside the Control Page, drive time and the
heat, sampling and scan schedules, the levels read by the last scan, and the pins (R187). -/
def fullReset (p : Part) : Part :=
  { Part.reset with
    mem := Memory.writeWord (Memory.writeWord (Memory.clearControlPage p.mem) 0 Config.partCode) 2 Config.revision
    clocks := p.clocks
    senseLevels := p.senseLevels
    pins := p.pins }

/-- The Snapshot items in table order (Table 10-8). -/
def snapshotWords (p : Part) : List Word :=
  let t := p.time
  [lowWord t.clock, highWord t.clock, natWord (engineCode t.engine), lowWord t.nextLine, highWord t.nextLine,
    lowWord (dueInt t.due), highWord (dueInt t.due), p.strip.takeMark, natWord p.budget.committed,
    natWord p.budget.inForce, intWord p.strip.drift, natWord p.shading.bass.shade, natWord p.shading.treble.shade,
    natWord p.analog.vrail, natWord (pedalRec .damper p).position, natWord (pedalRec .shift p).position,
    natWord (pedalRec .middle p).position]

/-- SNAPSHOT's work: the items, then the Snapshot Count, which is written last (R190). -/
def takeSnapshot (p : Part) : Part :=
  let count := p.window.snapshotCount + 1
  let q := putWords (Config.snapshotOffset + 2) (snapshotWords p) p
  putWord Config.snapshotOffset count { q with window := { q.window with snapshotCount := count } }

/-- A write to CMD (R186). -/
def cmdWrite (code : Word) (p : Part) : Part :=
  if p.window.busy.isSome then rejectCommand p
  else if code = Config.cmdRestart then setBusy .restart (restart p)
  else if code = Config.cmdFullReset then setBusy .fullReset (fullReset p)
  else if code = Config.cmdClearCounters then setBusy .clearCounters (clearCounters p)
  else if code = Config.cmdSnapshot then setBusy .snapshot (takeSnapshot p)
  else rejectCommand p

/-- The first sweep of a new schedule falls one period from now (R183). -/
def restartSweeps (p : Part) : Part :=
  { p with clocks := { p.clocks with nextSweep := p.clocks.drive + Config.sweepPeriod } }

/-- A sweep that waited for the end of BUSY is made (R183). -/
def makeDeferredSweep (p : Part) : Part :=
  if p.window.sweepDeferred then sweepBody { p with window := { p.window with sweepDeferred := false } } else p

/-- The end of an operation on the sweep schedule: the work of a reset restarts it, a restart makes the sweep that waited
(R183). -/
def endOperation (op : BusyOp) (p : Part) : Part :=
  match op with
  | .powerOn => restartSweeps p
  | .fullReset => makeDeferredSweep (restartSweeps p)
  | .restart => makeDeferredSweep p
  | .clearCounters => p
  | .snapshot => p

/-- BUSY clears as its operation completes (R186). -/
def clearBusy (p : Part) : Part :=
  match p.window.busy with
  | none => p
  | some op => endOperation op { p with window := { p.window with busy := none } }

/-- A restart or a FULL_RESET holds the sweep back (R183). -/
def sweepHeld (p : Part) : Bool := decide (p.window.busy = some .restart ∨ p.window.busy = some .fullReset)

/-- Drive time comes to the sweep instant: the sweep is made, or waits for the end of BUSY (R183). Of several instants within
one BUSY one sweep waits (notes/assumptions/9.md). -/
def reachSweep (p : Part) : Part :=
  let at_ := p.clocks.nextSweep
  let q := driveTo at_ p
  let q := { q with clocks := { q.clocks with nextSweep := at_ + Config.sweepPeriod } }
  if sweepHeld q then { q with window := { q.window with sweepDeferred := true } } else sweepBody q

/-! ## STATUS, NSTAT, NMASK and NCFG (R185, R188, R189) -/

/-- A read of STATUS (R185). -/
def readStatus (p : Part) : Part := afterStatusRead (putReadData (statusWord p) p)

/-- NSTAT as a read returns it. -/
def nstatWord (p : Part) : Word := p.window.nstat.setWidth 16

/-- A read of NSTAT (R189). -/
def readNstat (p : Part) : Part :=
  let q := putReadData (nstatWord p) p
  if corSet p then clearNotices p.window.nstat q else q

/-- A write to NSTAT (R189). -/
def writeNstat (value : Word) (p : Part) : Part := clearNotices (value.extractLsb' 0 9) p

/-- A write to NMASK (R188, R189). -/
def writeNmask (value : Word) (p : Part) : Part :=
  settlePending { p with window := { p.window with nmask := value.extractLsb' 0 9 } }

/-- A write to NCFG (R188, R189). -/
def writeNcfg (value : Word) (p : Part) : Part :=
  let q := { p with window := { p.window with ncfg := value.extractLsb' 0 8 } }
  if holdoffSet q then settlePending q else enterPending q

/-- A write to a register position (R179, Table 10-5). -/
def registerWrite (position : BitVec 3) (value : Word) (p : Part) : Part :=
  if position = 0 then cmdWrite value p
  else if position = 2 then writeNstat value p
  else if position = 3 then writeNmask value p
  else if position = 4 then writeNcfg value p
  else p

/-- What a read of a register position returns, without what it changes: 0 while the port is not served (R179, Table 10-5).
No command of the table reads NMASK, NCFG, CMD or positions 5 to 7. -/
def registerValue (position : BitVec 3) (p : Part) : Word :=
  if !portServed p then 0
  else if position = 1 then statusWord p
  else if position = 2 then nstatWord p
  else if position = 3 then p.window.nmask.setWidth 16
  else if position = 4 then p.window.ncfg.setWidth 16
  else 0

/-! ## Performance Memory (R3, R179, R180) -/

/-- A host write to the Fill Mark word, which is a consideration (R3). -/
def writeFillMark (value : Word) (p : Part) : Part := consider (putWord Config.fillMarkOffset value p)

/-- A host write to the word at a word address (R179). -/
def writeMemory (address : BitVec 15) (value : Word) (p : Part) : Part :=
  if address = fillMarkAddress then writeFillMark value p else putWord (2 * address.toNat) value p

/-- What a host read of Performance Memory returns: 0 while the port is not served (R179). No command of the table reads
memory. -/
def memoryValue (address : BitVec 15) (p : Part) : Word := if portServed p then wordAt (2 * address.toNat) p else 0

/-! ## RESET_N (R179, R187) -/

/-- RESET_N rises: the power-on work is done while BUSY is set; the input pins keep their levels (R187). -/
def powerUp (p : Part) : Part :=
  setBusy .powerOn { Part.reset with pins := { p.pins with resetLow := false, readData := 0 } }

/-- RESET_N falls: the port is not served, and the data lines read 0 (R179). -/
def assertReset (p : Part) : Part := { p with pins := { p.pins with resetLow := true, readData := 0 } }

end Sys2Proof.Machine
end

