-- ==== Sys2Proof/Machine/Turn.lean ====
section
/-! DEFINITION. The taking of a slot of the Launch Wheel, and the instants of the Performance Clock that bring a line's
lookahead and Guard (R50, R51, R106, R108, R122, R157). -/

namespace Sys2Proof.Machine

/-- RELEASE_ALL: every key in turn, each key's freed current serving the queues before the next key (R122, R139). -/
def takeReleaseAll (p : Part) : Part := forKeys (fun k q => serve (releaseAllKey k q)) p

/-- PEDAL_REST: every pedal in turn (R157). -/
def takePedalRest (p : Part) : Part := forPedals restPedal p

/-- An action is handed to its owner (R106, R108). -/
def handAction (a : Action) (p : Part) : Part :=
  match a.kind with
  | .launch k tag => takeLaunch k tag p
  | .expire k tag => takeExpire k tag p
  | .release k tag => takeRelease k tag p
  | .releaseAll => takeReleaseAll p
  | .depress k tag claim => takeDepress k tag claim p
  | .pedal d target _ drop => takePedal d target drop a.instant p
  | .pedalRest => takePedalRest p

/-- The action stands in the chain of slot `x` with an instant before the wheel position (R106). -/
def dueInSlot (x : Nat) (w : Wheel) (a : Action) : Bool := decide (a.slot = x) && isBefore a.instant w.position

/-- One action of the walk: it leaves its chain, its owner's rule runs to its end, its entry returns to the pool, and the
return is a consideration (R3, R106). -/
def walkAction (a : Action) (p : Part) : Part := consider (returnEntry (serve (handAction a (removeAction a p))))

/-- The walk of slot `x` from head to tail; `fuel` bounds the actions handed on (R106). -/
def walkSlot (x : Nat) : Nat → Part → Part
  | 0, p => p
  | fuel + 1, p =>
    match p.wheel.actions.find? (dueInSlot x p.wheel) with
    | none => p
    | some a => walkSlot x fuel (walkAction a p)

/-- The wheel takes the slot at its position: the position advances, the chain is walked, and the DRAINING test is made
(R106). -/
def takeSlotActions (p : Part) : Part :=
  let x := slotOf p.wheel.position
  let q := { p with wheel := { p.wheel with position := nextPosition p.wheel.position } }
  drainTest (walkSlot x p.wheel.actions.length q)

/-- The Performance Clock reaches the wheel position (R106). -/
def turnWheel (p : Part) : Part := if clockRuns p then takeSlotActions (planTo p.wheel.position p) else p

/-- The Performance Clock reaches the next line's lookahead instant (R50). -/
def reachLookahead (p : Part) : Part :=
  if engineTakesLines p && !p.time.wanted then consider (planTo (lookaheadInstant p) p) else p

/-- The Performance Clock reaches the next line's Guard instant: a line not yet wanted is considered first, and the engine
enters STARVED if the line is still untaken (R51). -/
def reachGuard (p : Part) : Part :=
  if engineTakesLines p then
    let q := planTo (guardInstant p) p
    let line := q.time.nextLine
    let q := if q.time.wanted then q else consider q
    if engineTakesLines q ∧ q.time.nextLine = line then enterStarved q else q
  else p

end Sys2Proof.Machine
end

