-- ==== Sys2Proof/Machine/Commands.lean ====
section
/-! DEFINITION. The meaning of each command of spec/opcode_table.json. Every meaning works on the part alone and answers a
next state; the queue of waiting commands is the step's. -/

namespace Sys2Proof.Machine

/-- A command's answer: the part has changed, the queue has not. -/
def withPart (f : Part → Part) (s : State) : Host.Outcome State Fault Refusal := .next { s with part := f s.part }

/-- An access at the port: lost while RESET_N is low (R179). -/
def atPort (f : Part → Part) (p : Part) : Part := if portServed p then f p else p

/-- A read at the port: it returns 0 while RESET_N is low (R179). -/
def readAtPort (f : Part → Part) (p : Part) : Part := if portServed p then f p else putReadData 0 p

/-- An event of drive or plan time: none comes before the power-on work has ended (R187). -/
def inTime (f : Part → Part) (p : Part) : Part := if timeStands p then p else f p

/-- An event of the key that a number names; a number that names no key names no event. -/
def forKeyNumber (n : Nat) (f : Key → Part → Part) (p : Part) : Part :=
  match keyOfNumber n with
  | some k => f k p
  | none => p

/-- A key's drive timer runs out in a state: drive time comes to its instant and the rule for the state follows. A key in
another state has no such event. -/
def timerEvent (state : KeyState) (f : Key → Part → Part) (k : Key) (p : Part) : Part :=
  let r := keyRec k p
  match r.timer with
  | none => p
  | some t => if r.state = state then f k (driveTo t p) else p

/-! ## Reset and the CMD register -/

/-- POWER_ON (R187). -/
def execPowerOn (s : State) : Host.Outcome State Fault Refusal := withPart powerUp s

/-- RESTART_ENGINE (R186): 0x7E01 is written to CMD. -/
def execRestartEngine (s : State) : Host.Outcome State Fault Refusal := withPart (atPort (cmdWrite Config.cmdRestart)) s

/-- FULL_RESET (R187): 0x7E0F is written to CMD. -/
def execFullReset (s : State) : Host.Outcome State Fault Refusal := withPart (atPort (cmdWrite Config.cmdFullReset)) s

/-- CLEAR_COUNTERS (R198): 0x7E20 is written to CMD. -/
def execClearCounters (s : State) : Host.Outcome State Fault Refusal :=
  withPart (atPort (cmdWrite Config.cmdClearCounters)) s

/-- SNAPSHOT (R190): 0x7E40 is written to CMD. -/
def execSnapshot (s : State) : Host.Outcome State Fault Refusal := withPart (atPort (cmdWrite Config.cmdSnapshot)) s

/-- CMD_REJECT (R186): a word is written to CMD while BUSY is set, or one that is no code. -/
def execCmdReject (code : Word) (s : State) : Host.Outcome State Fault Refusal := withPart (atPort (cmdWrite code)) s

/-- BUSY_CLEAR (R186): the operation that BUSY shows completes. -/
def execBusyClear (s : State) : Host.Outcome State Fault Refusal := withPart clearBusy s

/-- RESET_ASSERTED (R179). -/
def execResetAsserted (s : State) : Host.Outcome State Fault Refusal := withPart assertReset s

/-! ## The other registers and Performance Memory -/

/-- STATUS_READ (R185). -/
def execStatusRead (s : State) : Host.Outcome State Fault Refusal := withPart (readAtPort readStatus) s

/-- NSTAT_READ (R189). -/
def execNstatRead (s : State) : Host.Outcome State Fault Refusal := withPart (readAtPort readNstat) s

/-- NSTAT_WRITE (R189). -/
def execNstatWrite (value : Word) (s : State) : Host.Outcome State Fault Refusal :=
  withPart (atPort (writeNstat value)) s

/-- NMASK_WRITE (R188). -/
def execNmaskWrite (value : Word) (s : State) : Host.Outcome State Fault Refusal :=
  withPart (atPort (writeNmask value)) s

/-- NCFG_WRITE (R189). -/
def execNcfgWrite (value : Word) (s : State) : Host.Outcome State Fault Refusal :=
  withPart (atPort (writeNcfg value)) s

/-- REGISTER_WRITE_IGNORED (R179): a write to a register position; one to position 1, 5, 6 or 7 is ignored. -/
def execRegisterWriteIgnored (position : BitVec 3) (value : Word) (s : State) : Host.Outcome State Fault Refusal :=
  withPart (atPort (registerWrite position value)) s

/-- FILL_MARK_WRITE (R3). -/
def execFillMarkWrite (value : Word) (s : State) : Host.Outcome State Fault Refusal :=
  withPart (atPort (writeFillMark value)) s

/-- HOST_MEMORY_WRITE (R179). -/
def execHostMemoryWrite (address : BitVec 15) (value : Word) (s : State) : Host.Outcome State Fault Refusal :=
  withPart (atPort (writeMemory address value)) s

/-! ## Requests and lines -/

/-- SWEEP (R183). -/
def execSweep (s : State) : Host.Outcome State Fault Refusal := withPart (inTime reachSweep) s

/-- LOOKAHEAD_INSTANT (R50). -/
def execLookaheadInstant (s : State) : Host.Outcome State Fault Refusal := withPart (inTime reachLookahead) s

/-- GUARD_INSTANT (R51). -/
def execGuardInstant (s : State) : Host.Outcome State Fault Refusal := withPart (inTime reachGuard) s

/-- WHEEL_SLOT (R106). -/
def execWheelSlot (s : State) : Host.Outcome State Fault Refusal := withPart (inTime turnWheel) s

/-! ## The drive timers of keys -/

/-- A key newly in HOLD is tested for relief where ReliefDelay is 0, once the queues have been served (R119, R161). -/
def settleHold (k : Key) (p : Part) : Part := serve (reliefTest k (serve p))

/-- The pulse of a key in DRIVE ends (R118). -/
def pulseRunsOut (k : Key) (p : Part) : Part := settleHold k (endPulse k p)

/-- PULSE_END (R118). -/
def execPulseEnd (key : Nat) (s : State) : Host.Outcome State Fault Refusal :=
  withPart (inTime (forKeyNumber key (timerEvent .drive pulseRunsOut))) s

/-- The ReliefDelay of a key in HOLD ends: relief-ready, and the relief test (R119, R161). -/
def reliefDelayRunsOut (k : Key) (p : Part) : Part :=
  serve (reliefTest k (putKey k { keyRec k p with reliefReady := true, timer := none } p))

/-- RELIEF_DELAY_END (R119). -/
def execReliefDelayEnd (key : Nat) (s : State) : Host.Outcome State Fault Refusal :=
  withPart (inTime (forKeyNumber key (timerEvent .hold reliefDelayRunsOut))) s

/-- The DepressTime of a key in DEPRESSING ends (R126). -/
def depressRunsOut (k : Key) (p : Part) : Part := settleHold k (passToHold k p)

/-- DEPRESS_END (R126). -/
def execDepressEnd (key : Nat) (s : State) : Host.Outcome State Fault Refusal :=
  withPart (inTime (forKeyNumber key (timerEvent .depressing depressRunsOut))) s

/-- GAP_END (R124). -/
def execGapEnd (key : Nat) (s : State) : Host.Outcome State Fault Refusal :=
  withPart (inTime (forKeyNumber key (timerEvent .lifting enterIdle))) s

/-! ## Heat, samples, travel and the sense scan -/

/-- Drive time comes to the heat update (R127). -/
def reachHeat (p : Part) : Part :=
  let q := driveTo p.clocks.nextHeat p
  forKeys heatKey { q with clocks := { q.clocks with nextHeat := p.clocks.nextHeat + Config.heatPeriod } }

/-- HEAT_UPDATE (R127). -/
def execHeatUpdate (s : State) : Host.Outcome State Fault Refusal := withPart (inTime reachHeat) s

/-- Drive time comes to the conversion of the rail channel (R132, R134). -/
def reachRail (sample : BitVec 10) (p : Part) : Part :=
  let q := driveTo p.clocks.nextRail p
  serve (railConversion sample.toNat
    { q with
      clocks := { q.clocks with nextRail := p.clocks.nextRail + Config.samplePeriod }
      pins := { q.pins with rail := sample } })

/-- RAIL_SAMPLE (R134). -/
def execRailSample (sample : BitVec 10) (s : State) : Host.Outcome State Fault Refusal :=
  withPart (inTime (reachRail sample)) s

/-- Drive time comes to the conversion of a pedal's channel (R132, R155). -/
def reachPedal (d : Pedal) (sample : BitVec 10) (p : Part) : Part :=
  let i := pedalIndex d
  let at_ := p.clocks.nextPedal[i]
  let q := driveTo at_ p
  pedalConversion d sample
    { q with
      clocks := { q.clocks with nextPedal := q.clocks.nextPedal.set i (at_ + Config.samplePeriod) }
      pins := { q.pins with pedals := q.pins.pedals.set i sample } }

/-- PEDAL_POSITION_SAMPLE (R155). -/
def execPedalPositionSample (pedal : Pedal) (sample : BitVec 10) (s : State) : Host.Outcome State Fault Refusal :=
  withPart (inTime (reachPedal pedal sample)) s

/-- The pedal travels: it is in RAISING or LOWERING. -/
def travels (r : PedalRec) : Bool := decide (r.state = .raising ∨ r.state = .lowering)

/-- Drive time comes to the end of a pedal's travel time (R156). -/
def reachTravelEnd (d : Pedal) (p : Part) : Part :=
  let r := pedalRec d p
  match r.timer with
  | none => p
  | some t => if travels r then becomeStuck d (driveTo t p) else p

/-- TRAVEL_TIMEOUT (R156). -/
def execTravelTimeout (pedal : Pedal) (s : State) : Host.Outcome State Fault Refusal :=
  withPart (inTime (reachTravelEnd pedal)) s

/-- Drive time comes to the sense scan (R167). -/
def reachScan (levels : BitVec 88) (p : Part) : Part :=
  let q := driveTo p.clocks.nextScan p
  scanInputs levels { q with clocks := { q.clocks with nextScan := p.clocks.nextScan + Config.scanPeriod } }

/-- SENSE_SCAN (R167). -/
def execSenseScan (levels : BitVec 88) (s : State) : Host.Outcome State Fault Refusal :=
  withPart (inTime (reachScan levels)) s

end Sys2Proof.Machine
end

