-- ==== Sys2Proof/Machine/Dispatch.lean ====
section
/-! DEFINITION. The dispatch of a command to its meaning: one arm for each constructor of Instr. -/

namespace Sys2Proof.Machine

def exec (i : Instr) (s : State) : Host.Outcome State Fault Refusal :=
  match i with
  | .powerOn => Sys2Proof.Machine.execPowerOn s
  | .restartEngine => Sys2Proof.Machine.execRestartEngine s
  | .fullReset => Sys2Proof.Machine.execFullReset s
  | .clearCounters => Sys2Proof.Machine.execClearCounters s
  | .snapshot => Sys2Proof.Machine.execSnapshot s
  | .cmdReject code => Sys2Proof.Machine.execCmdReject code s
  | .statusRead => Sys2Proof.Machine.execStatusRead s
  | .nstatRead => Sys2Proof.Machine.execNstatRead s
  | .nstatWrite value => Sys2Proof.Machine.execNstatWrite value s
  | .nmaskWrite value => Sys2Proof.Machine.execNmaskWrite value s
  | .ncfgWrite value => Sys2Proof.Machine.execNcfgWrite value s
  | .registerWriteIgnored position value => Sys2Proof.Machine.execRegisterWriteIgnored position value s
  | .fillMarkWrite value => Sys2Proof.Machine.execFillMarkWrite value s
  | .sweep => Sys2Proof.Machine.execSweep s
  | .lookaheadInstant => Sys2Proof.Machine.execLookaheadInstant s
  | .guardInstant => Sys2Proof.Machine.execGuardInstant s
  | .wheelSlot => Sys2Proof.Machine.execWheelSlot s
  | .pulseEnd key => Sys2Proof.Machine.execPulseEnd key s
  | .reliefDelayEnd key => Sys2Proof.Machine.execReliefDelayEnd key s
  | .depressEnd key => Sys2Proof.Machine.execDepressEnd key s
  | .gapEnd key => Sys2Proof.Machine.execGapEnd key s
  | .heatUpdate => Sys2Proof.Machine.execHeatUpdate s
  | .railSample sample => Sys2Proof.Machine.execRailSample sample s
  | .pedalPositionSample pedal sample => Sys2Proof.Machine.execPedalPositionSample pedal sample s
  | .travelTimeout pedal => Sys2Proof.Machine.execTravelTimeout pedal s
  | .senseScan levels => Sys2Proof.Machine.execSenseScan levels s
  | .hostMemoryWrite address value => Sys2Proof.Machine.execHostMemoryWrite address value s
  | .busyClear => Sys2Proof.Machine.execBusyClear s
  | .resetAsserted => Sys2Proof.Machine.execResetAsserted s

end Sys2Proof.Machine
end

