-- ==== Sys2Proof/Machine/Idle.lean ====
section
/-! DEFINITION. What the part does of its own accord when no command waits: the operation that BUSY shows completes, an
event of its own that is due takes place, or 1 µs of drive time passes. DESIGN CHOICE (notes/assumptions/4.md). -/

namespace Sys2Proof.Machine

/-- The event of a key whose drive timer has run out, by the key's state. -/
def dueKeyEvent (p : Part) (k : Key) : Option Instr :=
  let r := keyRec k p
  match r.timer with
  | none => none
  | some t =>
    if p.clocks.drive < t then none
    else
      match r.state with
      | .drive => some (.pulseEnd (keyNumber k))
      | .hold => some (.reliefDelayEnd (keyNumber k))
      | .depressing => some (.depressEnd (keyNumber k))
      | .lifting => some (.gapEnd (keyNumber k))
      | .idle => none
      | .armed => none
      | .waiting _ => none
      | .relieved => none

/-- The travel of a pedal whose travel timer has run out. -/
def dueTravel (p : Part) (d : Pedal) : Option Instr :=
  let r := pedalRec d p
  match r.timer with
  | none => none
  | some t => if travels r ∧ t ≤ p.clocks.drive then some (.travelTimeout d) else none

/-- The conversion of a pedal's channel, where it is due: the pin keeps its level. -/
def duePedalSample (p : Part) (d : Pedal) : Option Instr :=
  if p.clocks.nextPedal[pedalIndex d] ≤ p.clocks.drive then
    some (.pedalPositionSample d p.pins.pedals[pedalIndex d])
  else none

/-- An event where its condition holds. -/
def eventIf (c : Bool) (i : Instr) : Option Instr := if c then some i else none

/-- The part's own events in the order in which the model takes those that are due at one moment. -/
def ownEvents (p : Part) : List (Option Instr) :=
  let now := p.clocks.drive
  [eventIf p.window.busy.isSome .busyClear,
    allKeys.findSome? (dueKeyEvent p),
    allPedals.findSome? (dueTravel p),
    eventIf (decide (p.clocks.nextHeat ≤ now)) .heatUpdate,
    eventIf (decide (p.clocks.nextScan ≤ now)) (.senseScan p.pins.sense),
    eventIf (decide (p.clocks.nextRail ≤ now)) (.railSample p.pins.rail),
    allPedals.findSome? (duePedalSample p),
    eventIf (clockRuns p && atOrAfter p.time.clock p.wheel.position) .wheelSlot,
    eventIf (engineTakesLines p && !p.time.wanted && lookaheadReached p) .lookaheadInstant,
    eventIf (engineTakesLines p && atOrAfter p.time.clock (guardInstant p)) .guardInstant,
    eventIf (decide (p.clocks.nextSweep ≤ now)) .sweep]

/-- The first of the part's own events that is due, if one is. -/
def dueEvent (p : Part) : Option Instr := (ownEvents p).findSome? id

/-- The part with no command waiting: an event that is due, or 1 µs of drive time. -/
def idle (s : State) : Host.Outcome State Fault Refusal :=
  match dueEvent s.part with
  | some i => exec i s
  | none => .next { s with part := passTime 1 s.part }

end Sys2Proof.Machine
end

