-- ==== Sys2Proof/Safety.lean ====
section
/-! DEFINITION. What counts as a lawful part: the relations between its fields that the manual states for every moment
between two steps. -/

namespace Sys2Proof.Machine

/-- The figures of a Key record lie in the ranges of Table 6-2: heat, lead trim (R171) and miss count (R172). -/
structure KeyFigures (r : KeyRec) : Prop where
  heat : r.heat ≤ 65535
  trimLow : -5000 ≤ r.trim
  trimHigh : r.trim ≤ 5000
  misses : r.missCount ≤ 15

/-- A notice stands in the pending set only while HOLDOFF is set and NOTICE_N is driven (R188, R189). -/
def NoticesSettled (w : Window) : Prop := w.pendingSet ≠ 0 → w.ncfg.getLsbD 7 = true ∧ unmaskedBits w ≠ 0

/-- A Log Ring in force is one that SET_LOG accepts: its base is a multiple of 16 in the free area, its slots are one of the
six numbers, and it ends within Performance Memory (R191). -/
def RingPlaced (l : LogWriter) : Prop :=
  l.configured = true →
    Config.freeAreaOffset ≤ l.base ∧ l.base % 16 = 0 ∧ l.slots ∈ logSlotCounts ∧ l.base + 16 * l.slots ≤ 65536

/-- Every counter lies in its range: 32 bits for the first two of Table 11-3, 16 bits for the others (R198). -/
def CountersInRange (l : LogWriter) : Prop := ∀ c : Counter, l.counters[c.index] < if c.wide then 2 ^ 32 else 2 ^ 16

/-- The sum of the claims that the keys and pedals hold (R130). -/
def claimsHeld (p : Part) : Nat :=
  (p.keys.toList.map KeyRec.claim).sum + (p.pedals.toList.map PedalRec.claim).sum

/-- The relations that hold between two steps. -/
structure Lawful (p : Part) : Prop where
  /-- Performance Memory is in its canonical form. -/
  memory : Memory.wf p.mem = true
  /-- The notice pending set is empty unless notices are being held off (R188, R189). -/
  notices : NoticesSettled p.window
  /-- The wheel position is a multiple of 100 (R104). -/
  position : p.wheel.position.toNat % 100 = 0
  /-- Every key's figures lie in their ranges (Table 6-2). -/
  figures : ∀ k, KeyFigures (keyRec k p)
  /-- The transposition in force lies from -12 to +12 (R24). -/
  transposeLow : -12 ≤ p.strip.transpose
  transposeHigh : p.strip.transpose ≤ 12
  /-- The Shade History holds at most eight entries (R79). -/
  history : p.shading.history.length ≤ 8
  /-- The committed current is the sum of the claims held (R130). -/
  claims : p.budget.committed = claimsHeld p
  /-- The Log Ring lies where SET_LOG may put it (R191). -/
  ring : RingPlaced p.log
  /-- The counters lie in their ranges (R198). -/
  counters : CountersInRange p.log
  /-- The volumes in force are at most 255 (R96). -/
  volumes : p.strikes.volBass ≤ 255 ∧ p.strikes.volTreble ≤ 255
  /-- The host's budget is at most 4,000 (R143). -/
  hostBudget : p.budget.ibud ≤ 4000

/-- A byte that handing over a log record may write: one of the Log Ring, of the Log Write Mark word or of the word of the
LogDropped counter (R192 to R194, R198). -/
def logByte (l : LogWriter) (a : Nat) : Prop :=
  (l.configured = true ∧ l.base ≤ a ∧ a < l.base + 16 * l.slots)
    ∨ a = Config.logWriteMarkOffset ∨ a = Config.logWriteMarkOffset + 1
    ∨ a = Counter.logDropped.offset ∨ a = Counter.logDropped.offset + 1

/-- No holder waits in a deferral queue (R138). -/
def NobodyWaits (b : Budget) : Prop := b.pedalQ = [] ∧ b.bassQ = [] ∧ b.trebleQ = []

/-- What reports may change from `p` to `q`: the bytes that `own` names and those of log records in memory; in the notice
registers the notices `bits` and LOG, which join NSTAT or the pending set; the marks and dropped records of the log; and
the counters named and LogDropped. -/
structure Reports (p q : Part) (own : Nat → Prop) (bits : BitVec 9) (counted : List Counter) : Prop where
  /-- Every other byte of memory reads as before. -/
  memory : ∀ a, ¬ own a → ¬ logByte p.log a → Memory.read q.mem a = Memory.read p.mem a
  /-- The notices standing are those of before, `bits`, and LOG if a record raised it. -/
  notices : ∃ log : BitVec 9, (log = 0 ∨ log = Notice.log.bit) ∧
    q.window.nstat ||| q.window.pendingSet = p.window.nstat ||| p.window.pendingSet ||| bits ||| log
  /-- No notice is lost or moved. -/
  nstatKept : p.window.nstat &&& q.window.nstat = p.window.nstat
  pendingKept : p.window.pendingSet &&& q.window.pendingSet = p.window.pendingSet
  /-- The rest of the Window Unit is as before. -/
  window : { q.window with nstat := p.window.nstat, pendingSet := p.window.pendingSet } = p.window
  /-- The log's configuration and read mark are as before. -/
  log : q.log.configured = p.log.configured ∧ q.log.base = p.log.base ∧ q.log.slots = p.log.slots
    ∧ q.log.filter = p.log.filter ∧ q.log.notify = p.log.notify ∧ q.log.readMark = p.log.readMark
  /-- Every other counter is as before. -/
  counters : ∀ c : Counter, c ∉ counted → c ≠ .logDropped → counterOf c q = counterOf c p

/-- The bytes of the word at an offset. -/
def wordBytes (off a : Nat) : Prop := a = off ∨ a = off + 1

/-- A step goes on: it answers a next state. -/
def GoesOn (o : Host.Outcome State Fault Refusal) : Prop := ∃ t, o = .next t

/-- The Capture Set after a MIDDLE sample that leaves the pedal SETTLED, or not, with every key IDLE (R159). -/
def captureAfter (p : Part) (position : Nat) (settled : Bool) : Capture :=
  if position < p.strikes.voicing.engageLevel then { keys := [], engaged := false }
  else if settled && !p.capture.engaged then { keys := keysToCapture p, engaged := true }
  else p.capture

/-- What one line's sample does to a track and its neighbours: the state, the run count and first line where they are given,
the events handed on, and SpuriousRuns. -/
def trackOutcome (f : Format) (n : Word32) (kind : LineKind) (p : Part) (events : List TrackEvent) (t : Fin 104)
    (state : TrackState) (run : Option Nat) (firstLine : Option Word32) (event : List TrackEvent) (spurious : Nat) : Prop :=
  let out := runTrack f n kind (p, events) t
  out.1.strip.tracks[t].state = state ∧ (∀ x, run = some x → out.1.strip.tracks[t].run = x) ∧
    (∀ x, firstLine = some x → out.1.strip.tracks[t].firstLine = x) ∧
    out.1.strip.tracks[t].struckKey = p.strip.tracks[t].struckKey ∧ out.2 = events ++ event ∧
    counterOf .spuriousRuns out.1 = min 65535 (counterOf .spuriousRuns p + spurious) ∧
    ∀ u : Fin 104, u ≠ t → out.1.strip.tracks[u] = p.strip.tracks[u]

/-- Every field of the words of a Voicing lies in its range of Tables 5-1 and 5-2, a two-word field read low word first, and
the heat limits rise (R85 to R87, R89). -/
structure VoicingInRange (w : Nat → Nat) : Prop where
  /-- Key classes (Table 5-1). -/
  classes : ∀ c, c < 8 →
    w (12 * c) ≤ 7 ∧ (1 ≤ w (12 * c + 1) ∧ w (12 * c + 1) ≤ 500) ∧ w (12 * c + 2) ≤ 255 ∧ w (12 * c + 3) ≤ 50000
      ∧ (5000 ≤ w (12 * c + 4) + 65536 * w (12 * c + 5) ∧ w (12 * c + 4) + 65536 * w (12 * c + 5) ≤ 100000)
      ∧ w (12 * c + 6) ≤ 50000 ∧ w (12 * c + 7) ≤ 30000 ∧ w (12 * c + 8) ≤ 512
      ∧ (16 ≤ w (12 * c + 9) ∧ w (12 * c + 9) ≤ 255)
      ∧ (5000 ≤ w (12 * c + 10) + 65536 * w (12 * c + 11) ∧ w (12 * c + 10) + 65536 * w (12 * c + 11) ≤ 100000)
  /-- Drive curves: point `j` of curve `q` stands at word `b` (R86). -/
  curves : ∀ q j, q < 8 → j < 17 → ∀ b, b = 96 + 68 * q + 4 * j →
    (200 ≤ w b ∧ w b ≤ 20000)
      ∧ (1000 ≤ w (b + 1) + 65536 * w (b + 2) ∧ w (b + 1) + 65536 * w (b + 2) ≤ 150000) ∧ w (b + 3) ≤ 255
  /-- The key map, its strike trims signed (Table 5-2). -/
  keyMap : ∀ k, k < 88 → w (640 + 2 * k) ≤ 7
    ∧ -64 ≤ (BitVec.ofNat 16 (w (641 + 2 * k))).toInt ∧ (BitVec.ofNat 16 (w (641 + 2 * k))).toInt ≤ 63
  /-- Heat limits in order, and the other words of the heat and sense groups. -/
  heat : w 816 < w 817 ∧ w 817 < w 818 ∧ (1 ≤ w 819 ∧ w 819 ≤ 12)
  sense : (1 ≤ w 820 ∧ w 820 ≤ 15) ∧ w 821 ≤ 1 ∧ w 822 ≤ 1
  /-- Pedals: the fields of a pedal stand from word `b` on. -/
  pedals : ∀ x, x < 3 → ∀ b, b = 824 + 8 * x →
    (1 ≤ w b ∧ w b ≤ 500) ∧ w (b + 1) ≤ 255 ∧ w (b + 2) ≤ 255 ∧ w (b + 3) ≤ 255 ∧ (20 ≤ w (b + 4) ∧ w (b + 4) ≤ 1000)
      ∧ (1 ≤ w (b + 5) ∧ w (b + 5) ≤ 16) ∧ w (b + 6) + 65536 * w (b + 7) ≤ 200000
  globals : w 848 ≤ 255 ∧ w 849 ≤ 255 ∧ (1 ≤ w 850 ∧ w 850 ≤ 88)

/-- A run of `len` opaque pixels starts at pixel `x`. -/
def opaqueRun (pixels : BitVec 512) (len x : Nat) : Prop :=
  x + len ≤ 512 ∧ ∀ i, i < len → pixels.getLsbD (x + i) = false

end Sys2Proof.Machine
end

