-- ==== Sys2Proof/Certificates/Slice0/Obligations.lean ====
section
/-! DEFINITION. The statements for the provers. -/

open Sys2Proof Sys2Proof.Machine

/-! ## The machine -/

/-- The command at the front of the queue is carried out with the queue's rest (the block's FIFO queue,
notes/assumptions/1.md). -/
def Obligations.StepRunsFrontCommand : Prop :=
  ∀ (c : Instr) (rest : List Instr) (p : Part),
    step { pending := c :: rest, part := p } = exec c { pending := rest, part := p }

/-- Every step goes on and takes at most the front command from the queue: the manual gives the part no fault. What a step
with no waiting command does is the model's choice (notes/assumptions/4.md). -/
def Obligations.EveryStepGoesOn : Prop :=
  ∀ s : State, ∃ t, step s = .next t ∧ t.pending = s.pending.tail

/-- The part right after reset is lawful. -/
def Obligations.ResetIsLawful : Prop := Lawful State.reset.part

/-- The values that the chapters give for power-on, right after the power-on work (R2, R17, R24, R31, R65, R68, R90, R91,
R93, R96, R104, Tables 6-2, 7-4, 8-1, 10-3, 10-5, R192, R198). That the state after reset is the one at the end of the
power-on work, and the lead, window end and times of a closed sense window, are the model's choice (notes/assumptions/5.md).
-/
def Obligations.ResetValues : Prop :=
  let p := State.reset.part
  (∀ a, Memory.read p.mem a
      = if a = 0 then 0x80 else if a = 1 then 0x08 else if a = 2 then 0x03 else if a = 3 then 0x01 else 0)
    ∧ p.strip.takeMark = 0 ∧ p.strip.drift = 0 ∧ p.strip.tracking = .locked ∧ p.strip.held = none
    ∧ p.strip.transpose = 0
    ∧ (∀ t : Fin 104, p.strip.tracks[t].state = .closed ∧ p.strip.tracks[t].run = 0
        ∧ p.strip.tracks[t].struckKey = none ∧ p.strip.tracks[t].lastSample = false)
    ∧ (∀ i : Fin 4, p.formats.slots[i] = none) ∧ p.formats.inUse = none
    ∧ p.leader.seq = .inactive ∧ p.leader.outcome = .none
    ∧ p.time.engine = .idle ∧ p.time.clock = 0 ∧ p.time.nextLine = 0 ∧ p.time.due = 0 ∧ p.time.p16 = 0
    ∧ p.time.tempo = 0 ∧ p.time.intervals = 0 ∧ p.time.intervalLines = 0 ∧ p.time.lookahead = 0
    ∧ p.time.setTempoTaken = false ∧ p.time.endLine = 0 ∧ p.time.returnState = none ∧ p.time.wanted = false
    ∧ p.shading = Shading.reset
    ∧ p.strikes.guardTime = 69000 ∧ guardOf p.strikes.voicing = 69000 ∧ p.strikes.tagCounter = 0
    ∧ p.strikes.volBass = 128 ∧ p.strikes.volTreble = 128
    ∧ p.wheel.actions = [] ∧ p.wheel.position = 0 ∧ p.wheel.free = 1024
    ∧ (∀ k : Key, keyRec k p = KeyRec.reset ∧ senseRec k p = SenseRec.reset)
    ∧ p.budget.committed = 0 ∧ p.budget.inForce = 0 ∧ p.budget.ibud = 800 ∧ NobodyWaits p.budget
    ∧ p.budget.patternPos = 0
    ∧ p.analog.vrail = 0 ∧ p.analog.rail = .low
    ∧ (∀ d : Pedal, pedalRec d p = PedalRec.reset) ∧ p.capture.keys = [] ∧ p.capture.engaged = false
    ∧ p.window.nstat = 0 ∧ p.window.nmask = 0x1FF ∧ p.window.ncfg = 0 ∧ p.window.pendingSet = 0
    ∧ p.window.resetSeen = true ∧ p.window.trackOk = true ∧ p.window.cmdReject = false
    ∧ p.window.snapshotCount = 0
    ∧ p.log.configured = false ∧ p.log.writeMark = 0 ∧ p.log.readMark = 0 ∧ p.log.dropped = 0 ∧ p.log.droppedKinds = 0
    ∧ (∀ c : Counter, counterOf c p = 0)
    ∧ p.analog.judgedSag = 200 ∧ p.analog.judgedLow = 160
    ∧ p.window.setup = {
        lookahead := 120, maxLate := 10, ibud := 800, vnom := 240, sagLevel := 200, lowLevel := 160, railHyst := 5
        priorityPattern := 0x5555, reliefDamper := false, reliefMiddle := false, reliefDelay := 100
        depressMargin := 10, volBass := 128, volTreble := 128, sustainScale := 255 }

/-- Every step keeps the part lawful: memory canonical, notices pending only while they are held off, the wheel position a
multiple of 100, the keys' figures in range, the transposition within 12, at most eight Shade History entries, the committed
current the sum of the claims held, the Log Ring in place, counters and volumes in range. -/
def Obligations.StepKeepsLawful : Prop :=
  ∀ s t : State, Lawful s.part → step s = .next t → Lawful t.part

/-- No step turns drive time back unless it is POWER_ON (Chapter 3: drive time is not reset by any event that a host can cause
short of RESET_N). -/
def Obligations.DriveTimeNeverGoesBack : Prop :=
  ∀ s t : State, Lawful s.part → s.pending.head? ≠ some .powerOn → step s = .next t →
    s.part.clocks.drive ≤ t.part.clocks.drive

/-! ## Resets and CMD operations -/

/-- POWER_ON gives every block its power-on values, with BUSY set for the power-on work (R187). The input pins keep their
levels (notes/assumptions/5.md). The first instants of the sampling turn are the model's (notes/assumptions/6.md). -/
def Obligations.PowerOnEffect : Prop :=
  ∀ s : State, ∃ t, exec .powerOn s = .next t ∧ t.pending = s.pending ∧
    t.part = { State.reset.part with
      window := { State.reset.part.window with busy := some .powerOn }
      pins := { s.part.pins with resetLow := false, readData := 0 } }

/-- FULL_RESET, taken: the Control Page is cleared and given the identity words, memory outside it, drive time, the
schedules, the levels of the last scan and the pins are kept, and everything else takes its power-on value, with BUSY set
(R187). The sweep instant is kept with the other schedules until BUSY_CLEAR restarts it, as the whole effect comes at the
write (notes/assumptions/9.md). Which schedules, levels and pins outlast it is the model's reading
(notes/assumptions/29.md). -/
def Obligations.FullResetEffect : Prop :=
  ∀ s : State, Memory.wf s.part.mem = true → portServed s.part = true → s.part.window.busy = none →
    ∃ t, exec .fullReset s = .next t ∧ t.pending = s.pending ∧
      (∀ a, Memory.read t.part.mem a
        = if a < 0x400 then Memory.read State.reset.part.mem a else Memory.read s.part.mem a) ∧
      t.part = { State.reset.part with
        mem := t.part.mem
        clocks := s.part.clocks
        senseLevels := s.part.senseLevels
        pins := s.part.pins
        window := { State.reset.part.window with busy := some .fullReset } }

/-- RESTART_ENGINE, taken with no pedal under FORCE of a value above 0: what it ends and what it keeps in every block (R25,
R43, R60, R68, R104, R129, R144, R165, R176, R186). The model's readings: the whole effect comes at the CMD write
(notes/assumptions/9.md), the Take Mark word is written (20.md), a gap end stays in the Key record until it is replaced
(23.md), each Track record is reset whole (30.md, 31.md), and the ENGINE record may raise LOG (34.md). -/
def Obligations.RestartEffect : Prop :=
  ∀ s : State, Memory.wf s.part.mem = true → RingPlaced s.part.log → portServed s.part = true →
    s.part.window.busy = none → (∀ d w, (pedalRec d s.part).override = .force w → w = 0) →
    ∃ t, exec .restartEngine s = .next t ∧ t.pending = s.pending ∧
      t.part.window.busy = some .restart ∧
      Reports { s.part with window := { s.part.window with busy := some .restart } } t.part
        (fun a => wordBytes Config.takeMarkOffset a ∨ (s.part.time.engine ≠ .idle ∧ wordBytes Config.engineStateOffset a))
        (if s.part.time.engine = .idle then 0 else Notice.engine.bit) [] ∧
      wordAt Config.takeMarkOffset t.part = fillMark s.part ∧
      (s.part.time.engine ≠ .idle → wordAt Config.engineStateOffset t.part = 0) ∧
      t.part.clocks = s.part.clocks ∧ t.part.analog = s.part.analog ∧ t.part.strikes = s.part.strikes ∧
      t.part.senseLevels = s.part.senseLevels ∧ t.part.pins = s.part.pins ∧
      t.part.strip = { s.part.strip with
        takeMark := fillMark s.part, drift := 0, tracking := .locked, invalidRun := 0, validRun := 0
        tracks := Vector.replicate 104 TrackRec.reset, held := none } ∧
      t.part.leader = { s.part.leader with seq := .inactive } ∧
      t.part.formats = { s.part.formats with inUse := none } ∧
      t.part.time = { s.part.time with engine := .idle, returnState := none, starveCause := none, wanted := false } ∧
      t.part.shading = Shading.reset ∧
      t.part.wheel = { s.part.wheel with actions := [], free := 1024 } ∧
      t.part.budget = { s.part.budget with
        committed := 0, pedalQ := [], bassQ := [], trebleQ := [], serveCause := false } ∧
      t.part.capture = { keys := [], engaged := false } ∧
      (∀ d : Pedal, pedalRec d t.part = { pedalRec d s.part with
        state := if (pedalRec d s.part).override = .off then .off else .rest
        target := 0, wanted := none, rollTarget := 0, dropPending := none, timer := none, plannedTarget := 0
        output := none, claim := 0 }) ∧
      (∀ k : Key, senseRec k t.part = if (keyRec k s.part).state = .drive ∧ (senseRec k s.part).window = .opened
        then { senseRec k s.part with window := .cut } else senseRec k s.part) ∧
      (∀ k : Key,
        let r := keyRec k s.part
        let r' := keyRec k t.part
        r'.current = none ∧ r'.queued = none ∧ r'.releasePending = false ∧ r'.reliefReady = false ∧
          r'.coverDamper = false ∧ r'.coverMiddle = false ∧ r'.output = none ∧ r'.claim = 0 ∧
          r'.heat = r.heat ∧ r'.cut = r.cut ∧ r'.trim = r.trim ∧ r'.depressTrim = r.depressTrim ∧ r'.deaf = r.deaf ∧
          r'.missCount = r.missCount ∧
          (driveOn r = true → r'.state = .lifting ∧ r'.timer = r'.gapEnd ∧
            r'.gapEnd = some (s.part.clocks.drive + (classOf k s.part).repeatGap) ∧
            r'.lastRelease = some s.part.time.clock) ∧
          (r.state = .relieved ∨ r.state = .waiting .depress →
            r'.gapEnd = r.gapEnd ∧ r'.lastRelease = r.lastRelease ∧
            ((∃ g, r.gapEnd = some g ∧ s.part.clocks.drive < g ∧ r'.state = .lifting ∧ r'.timer = some g)
              ∨ ((∀ g, r.gapEnd = some g → g ≤ s.part.clocks.drive) ∧ r'.state = .idle))) ∧
          (r.state = .lifting → r'.state = .lifting ∧ r'.gapEnd = r.gapEnd ∧ r'.timer = r.timer ∧
            r'.lastRelease = r.lastRelease) ∧
          (r.state = .armed ∨ r.state = .waiting .launch ∨ r.state = .idle → r'.state = .idle ∧
            r'.gapEnd = r.gapEnd ∧ r'.lastRelease = r.lastRelease))

/-- A restart of a part with one pedal under FORCE(v), v above 0, does what it does to the same part with that pedal under
FOLLOW, and then the pedal asks for its claim from REST: granted, it enters the state judged for v; deferred, it waits with v
wanted, and Deferrals counts (R137, R151, R153, R154, R165). That this writes no PEDAL record is the model's reading
(notes/assumptions/14.md). -/
def Obligations.RestartReappliesForce : Prop :=
  ∀ (s : State) (d : Pedal) (v : Nat), Memory.wf s.part.mem = true → portServed s.part = true →
    s.part.window.busy = none → 0 < v → (pedalRec d s.part).override = .force v →
    (∀ x w, x ≠ d → (pedalRec x s.part).override = .force w → w = 0) →
    let follow : State := { s with
      part := { s.part with pedals := s.part.pedals.set (pedalIndex d) { pedalRec d s.part with override := .follow } } }
    let x := pedalVoicing d s.part
    let position := (pedalRec d s.part).position
    let judged : PedalState :=
      if position + x.tol < v then .raising else if v + x.tol < position then .lowering else .settled
    let duty := min 255 (x.holdBase + x.holdSlope * v / 255)
    let claim := if judged = .raising then x.ifull * x.moveDuty / 255 else x.ifull * duty / 255
    ∃ t t0, exec .restartEngine s = .next t ∧ exec .restartEngine follow = .next t0 ∧ t.pending = s.pending ∧
      (claim ≤ s.part.budget.inForce → t.part = { t0.part with
        pedals := t0.part.pedals.set (pedalIndex d) { pedalRec d t0.part with
          override := .force v, state := judged, target := v, claim := claim
          output := some (if judged = .raising then x.moveDuty else duty)
          timer := if judged = .settled then none else some (s.part.clocks.drive + x.travelMax * 1000) }
        budget := { t0.part.budget with committed := claim }
        capture := if d = .middle ∧ judged = .settled ∧ s.part.strikes.voicing.engageLevel ≤ position
          then { keys := keysToCapture t0.part, engaged := true } else t0.part.capture }) ∧
      (s.part.budget.inForce < claim → t.part = { t0.part with
        mem := t.part.mem
        log := { t0.part.log with counters := t.part.log.counters }
        pedals := t0.part.pedals.set (pedalIndex d) { pedalRec d t0.part with override := .force v, wanted := some v }
        budget := { t0.part.budget with pedalQ := [{ pedal := d, amount := claim, judged := judged }] } } ∧
        counterOf .deferrals t.part = min 65535 (counterOf .deferrals t0.part + 1) ∧
        (∀ c : Counter, c ≠ .deferrals → counterOf c t.part = counterOf c t0.part) ∧
        ∀ a, ¬ wordBytes 0x218 a → Memory.read t.part.mem a = Memory.read t0.part.mem a)

/-- CLEAR_COUNTERS, taken: every counter is 0 and every byte of the Counter Block, 0x200 to 0x237, reads 0; nothing else
changes but BUSY (R186, R198). BUSY lasts until BUSY_CLEAR (notes/assumptions/9.md). -/
def Obligations.ClearCountersEffect : Prop :=
  ∀ s : State, Memory.wf s.part.mem = true → portServed s.part = true → s.part.window.busy = none →
    ∃ t, exec .clearCounters s = .next t ∧ t.pending = s.pending ∧
      (∀ a, Memory.read t.part.mem a = if 0x200 ≤ a ∧ a < 0x238 then 0 else Memory.read s.part.mem a) ∧
      (∀ c : Counter, counterOf c t.part = 0) ∧
      t.part = { s.part with
        mem := t.part.mem
        log := { s.part.log with counters := t.part.log.counters }
        window := { s.part.window with busy := some .clearCounters } }

/-- SNAPSHOT, taken: the eighteen words of Table 10-8; no other byte and no other state changes but BUSY and the Snapshot
Count (R186, R190). BUSY lasts until BUSY_CLEAR (notes/assumptions/9.md). -/
def Obligations.SnapshotEffect : Prop :=
  ∀ s : State, Memory.wf s.part.mem = true → portServed s.part = true → s.part.window.busy = none →
    ∃ t, exec .snapshot s = .next t ∧ t.pending = s.pending ∧
      t.part = { s.part with
        mem := t.part.mem
        window := { s.part.window with busy := some .snapshot, snapshotCount := s.part.window.snapshotCount + 1 } } ∧
      (∀ a, a < 0x040 ∨ 0x064 ≤ a → Memory.read t.part.mem a = Memory.read s.part.mem a) ∧
      wordAt 0x040 t.part = s.part.window.snapshotCount + 1 ∧
      wordAt 0x042 t.part = s.part.time.clock.extractLsb' 0 16 ∧
      wordAt 0x044 t.part = s.part.time.clock.extractLsb' 16 16 ∧
      wordAt 0x046 t.part = BitVec.ofNat 16 (engineCode s.part.time.engine) ∧
      wordAt 0x048 t.part = s.part.time.nextLine.extractLsb' 0 16 ∧
      wordAt 0x04A t.part = s.part.time.nextLine.extractLsb' 16 16 ∧
      wordAt 0x04C t.part = s.part.time.due.extractLsb' 16 16 ∧
      wordAt 0x04E t.part = s.part.time.due.extractLsb' 32 16 ∧
      wordAt 0x050 t.part = s.part.strip.takeMark ∧
      wordAt 0x052 t.part = BitVec.ofNat 16 s.part.budget.committed ∧
      wordAt 0x054 t.part = BitVec.ofNat 16 s.part.budget.inForce ∧
      wordAt 0x056 t.part = BitVec.ofInt 16 s.part.strip.drift ∧
      wordAt 0x058 t.part = BitVec.ofNat 16 s.part.shading.bass.shade ∧
      wordAt 0x05A t.part = BitVec.ofNat 16 s.part.shading.treble.shade ∧
      wordAt 0x05C t.part = BitVec.ofNat 16 s.part.analog.vrail ∧
      wordAt 0x05E t.part = BitVec.ofNat 16 (pedalRec .damper s.part).position ∧
      wordAt 0x060 t.part = BitVec.ofNat 16 (pedalRec .shift s.part).position ∧
      wordAt 0x062 t.part = BitVec.ofNat 16 (pedalRec .middle s.part).position

/-- A CMD write while BUSY is set, or of a word that is none of the four codes, sets CMD_REJECT and has no other effect
(R186). That a CMD row other than CMD_REJECT is the same write is the model's reading (notes/assumptions/8.md). -/
def Obligations.CmdRejectEffect : Prop :=
  ∀ s : State, portServed s.part = true →
    (∀ code : Word, s.part.window.busy ≠ none
        ∨ (code ≠ 0x7E01 ∧ code ≠ 0x7E0F ∧ code ≠ 0x7E20 ∧ code ≠ 0x7E40) →
      exec (.cmdReject code) s
        = .next { s with part := { s.part with window := { s.part.window with cmdReject := true } } }) ∧
    (∀ c : Instr, c = .restartEngine ∨ c = .fullReset ∨ c = .clearCounters ∨ c = .snapshot →
      s.part.window.busy ≠ none →
      exec c s = .next { s with part := { s.part with window := { s.part.window with cmdReject := true } } })

/-- BUSY_CLEAR clears BUSY, and with no sweep waiting does nothing else; the end of the power-on work or of FULL_RESET puts
the first sweep 1,000 µs later. A sweep that waited for the end of a RESTART_ENGINE is made as BUSY clears; with nothing
POSTED and no record dropped it only reads the Log Read Mark (R183, R186, R192). That BUSY lasts until this event, with the
operation's effect made at its write, is the model's choice (notes/assumptions/9.md). -/
def Obligations.BusyClearEffect : Prop :=
  (∀ (s : State) (op : BusyOp), s.part.window.busy = some op → s.part.window.sweepDeferred = false →
    exec .busyClear s = .next { s with part := { s.part with
      window := { s.part.window with busy := none }
      clocks := { s.part.clocks with
        nextSweep := if op = .powerOn ∨ op = .fullReset then s.part.clocks.drive + 1000 else s.part.clocks.nextSweep } } }) ∧
    ∀ s : State, s.part.window.busy = some .restart → s.part.window.sweepDeferred = true →
      (∀ i, i < 8 → slotWord i 0 s.part ≠ 1) → s.part.log.dropped = 0 →
      let mark := wordAt Config.logReadMarkOffset s.part
      exec .busyClear s = .next { s with part := { s.part with
        window := { s.part.window with busy := none, sweepDeferred := false, sweptReadMark := mark }
        log := { s.part.log with
          readMark := if s.part.log.configured = true ∧ (s.part.log.writeMark - mark).toNat ≤ s.part.log.slots
            then mark else s.part.log.readMark } } }

/-- RESET_ASSERTED stops the service of the port and changes nothing else; while RESET_N is low every write is lost and a
read of STATUS or NSTAT returns 0 (R179). What RESET_N low leaves going, and the data lines as a pin of the state, are the
model's choice (notes/assumptions/7.md, 22.md). -/
def Obligations.PortUnserved : Prop :=
  (∀ s : State, exec .resetAsserted s
      = .next { s with part := { s.part with pins := { s.part.pins with resetLow := true, readData := 0 } } }) ∧
    ∀ s : State, s.part.pins.resetLow = true →
      (∀ (v : Word) (r : BitVec 3) (a : BitVec 15) (c : Instr),
        c ∈ [.restartEngine, .fullReset, .clearCounters, .snapshot, .cmdReject v, .nstatWrite v, .nmaskWrite v,
          .ncfgWrite v, .registerWriteIgnored r v, .fillMarkWrite v, .hostMemoryWrite a v] → exec c s = .next s) ∧
      (∀ c : Instr, c ∈ [.statusRead, .nstatRead] →
        exec c s = .next { s with part := { s.part with pins := { s.part.pins with readData := 0 } } })

/-! ## Registers and memory -/

/-- STATUS_READ returns the bits of Table 10-9 as they stood and then clears RESET_SEEN and CMD_REJECT and sets TRACK_OK
where the tracking state is LOCKED (R185). NSTAT_READ returns NSTAT; with COR clear it changes nothing, and with COR set it
clears NSTAT, which then takes up the pending set (R189). The value read stays on the data lines (notes/assumptions/22.md). -/
def Obligations.RegisterReads : Prop :=
  (∀ s : State, portServed s.part = true →
     ∃ v : Word, exec .statusRead s = .next { s with part := { s.part with
         pins := { s.part.pins with readData := v }
         window := { s.part.window with
           resetSeen := false, cmdReject := false
           trackOk := if s.part.strip.tracking = .locked then true else s.part.window.trackOk } } } ∧
       v.getLsbD 0 = s.part.window.busy.isSome ∧ v.getLsbD 1 = s.part.window.resetSeen ∧
       v.getLsbD 2 = s.part.window.trackOk ∧ v.getLsbD 3 = s.part.window.cmdReject ∧
       (v.extractLsb' 4 3).toNat = engineCode s.part.time.engine ∧ v.getLsbD 7 = false ∧
       (v.extractLsb' 8 2).toNat = railCode s.part.analog.rail ∧ v.extractLsb' 10 6 = 0) ∧
  (∀ s : State, portServed s.part = true →
     exec .nstatRead s = .next { s with part := { s.part with
       pins := { s.part.pins with readData := s.part.window.nstat.setWidth 16 }
       window := if s.part.window.ncfg.getLsbD 6 = true
         then { s.part.window with nstat := s.part.window.pendingSet, pendingSet := 0 } else s.part.window } })

/-- NSTAT_WRITE clears the bits written as 1, and where no unmasked bit is left the pending set enters NSTAT (R189).
NMASK_WRITE sets the mask, and where it leaves no unmasked bit set the pending set enters NSTAT (R188, R189). NCFG_WRITE sets
the configuration: one that leaves HOLDOFF clear moves the pending set into NSTAT, and in a part whose notices are settled one
that leaves it set moves nothing (R188, R189). A write to register position 1, 5, 6 or 7 is ignored (R179, Table 10-5). -/
def Obligations.RegisterWrites : Prop :=
  (∀ (s : State) (v : Word), portServed s.part = true →
     let left := s.part.window.nstat &&& ~~~(v.extractLsb' 0 9)
     let quiet := left &&& ~~~s.part.window.nmask = 0
     exec (.nstatWrite v) s = .next { s with part := { s.part with window := { s.part.window with
       nstat := if quiet then left ||| s.part.window.pendingSet else left
       pendingSet := if quiet then 0 else s.part.window.pendingSet } } }) ∧
  (∀ (s : State) (v : Word), portServed s.part = true →
     let quiet := s.part.window.nstat &&& ~~~(v.extractLsb' 0 9) = 0
     exec (.nmaskWrite v) s = .next { s with part := { s.part with window := { s.part.window with
       nmask := v.extractLsb' 0 9
       nstat := if quiet then s.part.window.nstat ||| s.part.window.pendingSet else s.part.window.nstat
       pendingSet := if quiet then 0 else s.part.window.pendingSet } } }) ∧
  (∀ (s : State) (v : Word), NoticesSettled s.part.window → portServed s.part = true →
     exec (.ncfgWrite v) s = .next { s with part := { s.part with window := { s.part.window with
       ncfg := v.extractLsb' 0 8
       nstat := if v.getLsbD 7 = true then s.part.window.nstat else s.part.window.nstat ||| s.part.window.pendingSet
       pendingSet := if v.getLsbD 7 = true then s.part.window.pendingSet else 0 } } }) ∧
  (∀ (s : State) (r : BitVec 3) (v : Word), r = 1 ∨ r = 5 ∨ r = 6 ∨ r = 7 →
     exec (.registerWriteIgnored r v) s = .next s)

/-- HOST_MEMORY_WRITE writes the word at byte offset 2w, low byte first, and nothing else (R179, R180). FILL_MARK_WRITE in
IDLE, PAUSED or DRAINING only writes its word: no line is considered there (R3, R62). -/
def Obligations.MemoryWrites : Prop :=
  (∀ (s : State) (w : BitVec 15) (v : Word), Memory.wf s.part.mem = true → portServed s.part = true → w ≠ 4 →
     ∃ t, exec (.hostMemoryWrite w v) s = .next t ∧ t.pending = s.pending ∧
       t.part = { s.part with mem := t.part.mem } ∧
       Memory.read t.part.mem (2 * w.toNat) = v.extractLsb' 0 8 ∧
       Memory.read t.part.mem (2 * w.toNat + 1) = v.extractLsb' 8 8 ∧
       ∀ a, ¬ wordBytes (2 * w.toNat) a → Memory.read t.part.mem a = Memory.read s.part.mem a) ∧
  (∀ (s : State) (v : Word), Memory.wf s.part.mem = true → portServed s.part = true →
     s.part.time.engine = .idle ∨ s.part.time.engine = .paused ∨ s.part.time.engine = .draining →
     ∃ t, exec (.fillMarkWrite v) s = .next t ∧ t.pending = s.pending ∧
       t.part = { s.part with mem := t.part.mem } ∧ fillMark t.part = v ∧
       ∀ a, ¬ wordBytes Config.fillMarkOffset a → Memory.read t.part.mem a = Memory.read s.part.mem a)

/-- FILL_MARK_WRITE that fills one REPEAT slot while a line is wanted: the slot is discarded, the Take Mark advances by one,
RepeatLines counts, no line is consumed, and the line is still wanted, waiting for lines (R3, R6, R50). That the
consideration goes on to the next slot is the model's reading (notes/assumptions/12.md). -/
def Obligations.FillMarkWriteTakesRepeatSlot : Prop :=
  ∀ (s : State), Memory.wf s.part.mem = true → portServed s.part = true →
    s.part.time.engine = .leader ∨ s.part.time.engine = .running →
    lookaheadReached s.part = true → 320 ≤ s.part.wheel.free → s.part.strip.held = none →
    lineRepeat (lineWord s.part.strip.takeMark s.part) = true →
    ∃ t, exec (.fillMarkWrite (s.part.strip.takeMark + 1)) s = .next t ∧ t.pending = s.pending ∧
      t.part = { s.part with
        mem := t.part.mem
        strip := { s.part.strip with takeMark := s.part.strip.takeMark + 1 }
        time := { s.part.time with wanted := true, lastCause := some .lines }
        log := { s.part.log with counters := t.part.log.counters } } ∧
      fillMark t.part = s.part.strip.takeMark + 1 ∧
      wordAt Config.takeMarkOffset t.part = s.part.strip.takeMark + 1 ∧
      counterOf .repeatLines t.part = min 65535 (counterOf .repeatLines s.part + 1) ∧
      (∀ c : Counter, c ≠ .repeatLines → counterOf c t.part = counterOf c s.part) ∧
      ∀ a, ¬ wordBytes Config.fillMarkOffset a → ¬ wordBytes Config.takeMarkOffset a → ¬ wordBytes 0x208 a →
        Memory.read t.part.mem a = Memory.read s.part.mem a

/-! ## Sweeps and requests -/

/-- SWEEP with no slot POSTED and no record dropped: drive time comes to the sweep instant, the Log Read Mark is read, and
the next sweep falls 1,000 µs later. A sweep instant that falls while BUSY is set for RESTART_ENGINE or FULL_RESET is not
lost: the sweep waits (R183, R192). Time comes to the event's instant as the model reads it (notes/assumptions/2.md). -/
def Obligations.SweepWithNothingPosted : Prop :=
  (∀ s : State, timeStands s.part = false → sweepHeld s.part = false →
    (∀ i, i < 8 → slotWord i 0 s.part ≠ 1) → s.part.log.dropped = 0 →
    let mark := wordAt Config.logReadMarkOffset s.part
    let q := driveTo s.part.clocks.nextSweep s.part
    exec .sweep s = .next { s with part := { q with
      clocks := { q.clocks with nextSweep := s.part.clocks.nextSweep + 1000 }
      window := { s.part.window with sweptReadMark := mark }
      log := { s.part.log with
        readMark := if s.part.log.configured = true ∧ (s.part.log.writeMark - mark).toNat ≤ s.part.log.slots
          then mark else s.part.log.readMark } } }) ∧
    ∀ s : State, s.part.window.busy = some .restart ∨ s.part.window.busy = some .fullReset →
      let q := driveTo s.part.clocks.nextSweep s.part
      exec .sweep s = .next { s with part := { q with
        clocks := { q.clocks with nextSweep := s.part.clocks.nextSweep + 1000 }
        window := { s.part.window with sweepDeferred := true } } }

/-- A SWEEP that finds a TRANSPOSE request POSTED in slot `i` alone puts the transposition in force, clamped to -12 to +12,
and completes the request DONE with OK or CLAMPED, its detail bit 0 and notice REQ (R24, R183, R184). Time comes to the
event's instant as the model reads it (notes/assumptions/2.md). -/
def Obligations.SweepTakesTranspose : Prop :=
  ∀ (s : State) (i : Nat), i < 8 → Memory.wf s.part.mem = true → timeStands s.part = false →
    sweepHeld s.part = false → s.part.log.configured = false → s.part.log.dropped = 0 →
    slotWord i 0 s.part = 1 → slotWord i 1 s.part = 7 → (∀ j, j < 8 → j ≠ i → slotWord j 0 s.part ≠ 1) →
    let asked := (param i 1 s.part).toInt
    let value := max (-12) (min 12 asked)
    let q := driveTo s.part.clocks.nextSweep s.part
    ∃ t, exec .sweep s = .next t ∧ t.pending = s.pending ∧
      t.part = { q with
        mem := t.part.mem
        clocks := { q.clocks with nextSweep := s.part.clocks.nextSweep + 1000 }
        window := { s.part.window with
          nstat := t.part.window.nstat, pendingSet := t.part.window.pendingSet
          sweptReadMark := wordAt Config.logReadMarkOffset s.part }
        strip := { s.part.strip with transpose := value } } ∧
      slotWord i 0 t.part = 2 ∧ slotWord i 14 t.part = (if value = asked then 0 else 1) ∧
      slotWord i 15 t.part = (if value = asked then 0 else 1) ∧
      t.part.window.nstat ||| t.part.window.pendingSet
        = s.part.window.nstat ||| s.part.window.pendingSet ||| Notice.req.bit ∧
      ∀ a, ¬ wordBytes (slotWordOffset i 0) a → ¬ wordBytes (slotWordOffset i 14) a →
        ¬ wordBytes (slotWordOffset i 15) a → Memory.read t.part.mem a = Memory.read s.part.mem a

/-- A POSTED request that is taken is answered by its owner and completed: result, detail and state word are written, DONE for
OK and CLAMPED and REFUSED else, and notice REQ is raised; nothing else changes beyond the owner's work (R184). -/
def Obligations.RequestCompletes : Prop :=
  ∀ (p : Part) (i : Nat), slotWord i 0 p = 1 →
    let a := dispatchRequest (slotWord i 1 p).toNat i p
    Memory.wf a.part.mem = true →
    let q := takeSlot p i
    q = { a.part with
        mem := q.mem
        window := { a.part.window with nstat := q.window.nstat, pendingSet := q.window.pendingSet } } ∧
      slotWord i 0 q = (if a.code = .ok ∨ a.code = .clamped then 2 else 3) ∧
      slotWord i 14 q = BitVec.ofNat 16 (resultValue a.code) ∧ slotWord i 15 q = a.detail ∧
      q.window.nstat ||| q.window.pendingSet = a.part.window.nstat ||| a.part.window.pendingSet ||| Notice.req.bit ∧
      ∀ x, ¬ wordBytes (slotWordOffset i 0) x → ¬ wordBytes (slotWordOffset i 14) x →
        ¬ wordBytes (slotWordOffset i 15) x → Memory.read q.mem x = Memory.read a.part.mem x

/-- A request refused, of any kind, changes no state of the part; a kind of 0 or above 13 is refused as UNKNOWN with detail 0
(R54, R58, R61, R63, R158, R28, R88, R177, R184, R191). -/
def Obligations.RefusedRequestsChangeNothing : Prop :=
  (∀ (kind slot : Nat) (p : Part),
      (dispatchRequest kind slot p).code ≠ .ok → (dispatchRequest kind slot p).code ≠ .clamped →
      (dispatchRequest kind slot p).part = p) ∧
    ∀ (kind slot : Nat) (p : Part), kind = 0 ∨ 13 < kind →
      (dispatchRequest kind slot p).code = .unknown ∧ (dispatchRequest kind slot p).detail = 0

/-- The requests that set values, as they are taken (R44, R64, R96, R136, R143, R177, R191). SET_TEMPO clamps the tempo to 20
to 200 and outside IDLE recomputes P16; c and j stay. SET_TRIM sets both volumes, each at most 255. SET_BUDGET sets Ibud, at
most 4,000, and forms the budget in force anew, stated with no holder waiting. SENSE_RESET makes the keys named SENSING with
miss count and recovery run 0, with ZERO clears their trims, and raises no notice; a key word above 88 is refused. SET_LOG in
IDLE replaces the configuration and empties the log; a LogBase or LogSlots out of place is refused RANGE with detail 1 or 2.
That a SET_TEMPO taken in IDLE is not recorded as taken is the model's reading (notes/assumptions/27.md). -/
def Obligations.SettingRequests : Prop :=
  (∀ (slot : Nat) (p : Part),
     let asked := (param slot 1 p).toNat
     let tempo := max 20 (min 200 asked)
     let a := dispatchRequest 5 slot p
     a.code = (if tempo = asked then .ok else .clamped) ∧ a.detail = (if tempo = asked then 0 else 1) ∧
       a.part = { p with time :=
         if p.time.engine = .idle then { p.time with tempo := tempo }
         else { p.time with
           tempo := tempo, setTempoTaken := true
           p16 := 50000000 * 65536 / ((formatInForce p).linePitch * tempo) } }) ∧
  (∀ (slot : Nat) (p : Part),
    let bass := (param slot 1 p).toNat
    let treble := (param slot 2 p).toNat
    let a := dispatchRequest 6 slot p
    a.code = (if bass ≤ 255 ∧ treble ≤ 255 then .ok else .clamped) ∧
      a.detail = (if 255 < bass then 1 else 0) + (if 255 < treble then 2 else 0) ∧
      a.part = { p with strikes := { p.strikes with volBass := min 255 bass, volTreble := min 255 treble } }) ∧
  (∀ (slot : Nat) (p : Part), NobodyWaits p.budget →
    let asked := (param slot 1 p).toNat
    let ibud := min 4000 asked
    let a := dispatchRequest 12 slot p
    a.code = (if asked ≤ 4000 then .ok else .clamped) ∧ a.detail = (if asked ≤ 4000 then 0 else 1) ∧
      a.part = { p with budget := { p.budget with
        ibud := ibud, serveCause := false
        inForce := if p.analog.rail = .normal then ibud else if p.analog.rail = .low then 0
          else min ibud (ibud * (p.analog.vrail - p.analog.judgedLow) / (p.analog.judgedSag - p.analog.judgedLow)) } }) ∧
  (∀ (slot : Nat) (p : Part), RingPlaced p.log →
    let n := (param slot 1 p).toNat
    let zero := (param slot 2 p).getLsbD 0
    let a := dispatchRequest 11 slot p
    (88 < n → a = { part := p, code := .range, detail := 0 }) ∧
      (n ≤ 88 → a.code = .ok ∧ a.detail = 0 ∧
        a.part = { p with
          mem := a.part.mem, window := a.part.window, log := a.part.log, keys := a.part.keys, sense := a.part.sense } ∧
        Reports p a.part (fun _ => False) 0 [] ∧
        ∀ k : Key,
          (n = 0 ∨ n = k.val + 1 →
            keyRec k a.part = { keyRec k p with
              deaf := false, missCount := 0
              trim := if zero then 0 else (keyRec k p).trim
              depressTrim := if zero then 0 else (keyRec k p).depressTrim } ∧
            senseRec k a.part = { senseRec k p with recovery := 0 }) ∧
          (n ≠ 0 → n ≠ k.val + 1 → keyRec k a.part = keyRec k p ∧ senseRec k a.part = senseRec k p))) ∧
  ∀ (slot : Nat) (p : Part), p.time.engine = .idle → Memory.wf p.mem = true →
    let base := (param slot 1 p).toNat
    let slots := (param slot 2 p).toNat
    let filter := param slot 3 p
    let notify := (param slot 4 p).toNat
    let mark := p.window.sweptReadMark
    let inPlace := 0x5200 ≤ base ∧ base % 16 = 0
    let fitting := slots ∈ [64, 128, 256, 512, 1024, 2048] ∧ base + 16 * slots ≤ 65536
    let a := dispatchRequest 13 slot p
    (¬ inPlace → a = { part := p, code := .range, detail := 1 }) ∧
      (inPlace → ¬ fitting → a = { part := p, code := .range, detail := 2 }) ∧
      (inPlace → fitting →
        a.code = (if notify ≤ slots then .ok else .clamped) ∧ a.detail = (if notify ≤ slots then 0 else 8) ∧
        a.part = { p with
          mem := a.part.mem
          log := { p.log with
            configured := true, base := base, slots := slots, filter := if filter = 0 then 0x1FFB else filter
            notify := min slots notify, writeMark := mark, readMark := mark, dropped := 0, droppedKinds := 0 } } ∧
        wordAt Config.logWriteMarkOffset a.part = mark ∧
        ∀ x, ¬ wordBytes Config.logWriteMarkOffset x → Memory.read a.part.mem x = Memory.read p.mem x)

/-- PAUSE, RESUME and STOP as they are taken (R57, R58, R60, R61, R63, R104, R105, R120, R123). PAUSE records the state to
return to and enters PAUSED; with RELEASE_HELD every key in HOLD, and no other, is released, stated with no holder waiting.
RESUME returns to the recorded state; stated where the next line's lookahead has not come, and where no line is at hand and its
Guard instant is past, as after a pause in STARVED: then STARVED is entered at once. STOP FINISH places RELEASE_ALL and
PEDAL_REST at the due time of the last line taken and enters DRAINING. STOP IMMEDIATE does what RESTART_ENGINE does. That
RESUME's consideration lies within its sweep is the model's reading (notes/assumptions/11.md), as is the whole effect of a
restart at its write (9.md). -/
def Obligations.EngineRequests : Prop :=
  (∀ (slot : Nat) (p : Part), RingPlaced p.log → Memory.wf p.mem = true →
    p.time.engine = .leader ∨ p.time.engine = .running ∨ p.time.engine = .starved →
    let a := dispatchRequest 3 slot p
    let q := { p with time := { p.time with
      engine := .paused, starveCause := none
      returnState := if p.time.engine = .starved then p.time.returnState else some p.time.engine } }
    a.code = .ok ∧ a.detail = 0 ∧ wordAt Config.engineStateOffset a.part = 3 ∧
      Reports q a.part (wordBytes Config.engineStateOffset) Notice.engine.bit [] ∧
      ((param slot 1 p).getLsbD 0 = false →
        a.part = { q with mem := a.part.mem, window := a.part.window, log := a.part.log }) ∧
      ((param slot 1 p).getLsbD 0 = true → NobodyWaits p.budget → (∀ k : Key, 0 < (classOf k p).repeatGap) →
        a.part = { q with
          mem := a.part.mem, window := a.part.window, log := a.part.log, keys := a.part.keys
          budget := { p.budget with
            committed := p.budget.committed
              - ((allKeys.filter fun k => decide ((keyRec k p).state = .hold)).map fun k => (keyRec k p).claim).sum
            serveCause := false } } ∧
        ∀ k : Key, keyRec k a.part = if (keyRec k p).state = .hold then
            { keyRec k p with
              state := .lifting, current := none, releasePending := false, reliefReady := false, output := none
              coverDamper := false, coverMiddle := false, claim := 0
              gapEnd := some (p.clocks.drive + (classOf k p).repeatGap)
              timer := some (p.clocks.drive + (classOf k p).repeatGap)
              lastRelease := some p.time.clock }
          else keyRec k p)) ∧
  (∀ (slot : Nat) (p : Part) (e : EngineState), RingPlaced p.log → Memory.wf p.mem = true →
    p.time.engine = .paused → p.time.returnState = some e → e = .leader ∨ e = .running →
    let a := dispatchRequest 4 slot p
    a.code = .ok ∧ a.detail = 0 ∧
      (lookaheadReached p = false → atOrAfter p.time.clock (guardInstant p) = false →
        a.part = { p with
          mem := a.part.mem, window := a.part.window, log := a.part.log
          time := { p.time with engine := e, returnState := none } } ∧
        wordAt Config.engineStateOffset a.part = BitVec.ofNat 16 (engineCode e) ∧
        Reports p a.part (wordBytes Config.engineStateOffset) Notice.engine.bit []) ∧
      (lookaheadReached p = true → atOrAfter p.time.clock (guardInstant p) = true → stripSpan p = 0 →
        p.strip.held = none →
        a.part = { p with
          mem := a.part.mem, window := a.part.window, log := a.part.log
          time := { p.time with
            engine := .starved, returnState := some e, starveCause := some .lines, wanted := true
            lastCause := some .lines } } ∧
        wordAt Config.engineStateOffset a.part = 4 ∧
        Reports p a.part (fun x => wordBytes Config.engineStateOffset x ∨ wordBytes 0x214 x)
          (Notice.engine.bit ||| if p.window.ncfg.getLsbD 0 = true then Notice.starve.bit else 0) [.starvations] ∧
        counterOf .starvations a.part = min 65535 (counterOf .starvations p + 1))) ∧
  (∀ (slot : Nat) (p : Part), RingPlaced p.log → Memory.wf p.mem = true → param slot 1 p = 0 →
    p.time.engine ≠ .idle → p.time.engine ≠ .draining →
    let a := dispatchRequest 2 slot p
    let instant := match p.time.lastTakenDue with
      | some i => i
      | none => p.time.clock
    let x := if atOrAfter instant p.wheel.position = true then instant.toNat / 100 % 4096
      else p.wheel.position.toNat / 100 % 4096
    a.code = .ok ∧ a.detail = 0 ∧
      a.part = { p with
        mem := a.part.mem, window := a.part.window, log := a.part.log
        time := { p.time with engine := .draining, returnState := none }
        leader := if p.leader.seq = .decided then p.leader else { p.leader with seq := .inactive }
        wheel := { p.wheel with
          free := p.wheel.free - 2
          actions := p.wheel.actions ++ [{ kind := .releaseAll, instant := instant, slot := x },
            { kind := .pedalRest, instant := instant, slot := x }] } } ∧
      wordAt Config.engineStateOffset a.part = 5 ∧
      Reports p a.part (wordBytes Config.engineStateOffset) Notice.engine.bit []) ∧
  ∀ (slot : Nat) (s : State), portServed s.part = true → s.part.window.busy = none → param slot 1 s.part = 1 →
    ∃ t, exec .restartEngine s = .next t ∧
      dispatchRequest 2 slot s.part
        = { part := { t.part with window := { t.part.window with busy := none } }, code := .ok, detail := 0 }

/-- PEDAL_OVERRIDE as it is taken, with the targets it applies (R151 to R154, R158). OFF switches the pedal off. FOLLOW and
FORCE bring a pedal in STUCK or OFF back to REST or LOWERING to 0 and apply the roll target or the value, at most 255: 0 lets
the pedal fall; a value above 0 is asked as a new claim from REST or LOWERING to 0, entered or deferred, and as a change of
claim from any other state, made or kept as wanted. Stated with every key IDLE, no holder waiting, outside DRAINING. CLAMPED is
reported in mode FORCE only (notes/assumptions/15.md), and applying the target and state the pedal already has drops an older
wanted target (16.md): the model's readings. -/
def Obligations.PedalOverrideRequest : Prop :=
  (∀ (slot : Nat) (p : Part), 2 < (param slot 1 p).toNat ∨ 2 < (param slot 2 p).toNat →
    dispatchRequest 8 slot p = { part := p, code := .range, detail := 0 }) ∧
  ∀ (slot : Nat) (p : Part) (d : Pedal), (param slot 1 p).toNat = (pedalIndex d).val →
    (param slot 2 p).toNat ≤ 2 → RingPlaced p.log → NobodyWaits p.budget → p.time.engine ≠ .draining →
    (∀ k : Key, (keyRec k p).state = .idle) →
    let mode := (param slot 2 p).toNat
    let asked := (param slot 3 p).toNat
    let a := dispatchRequest 8 slot p
    let r := pedalRec d p
    let v := pedalVoicing d p
    let travelEnd := some (p.clocks.drive + v.travelMax * 1000)
    let w := if mode = 0 then r.rollTarget else min 255 asked
    let fallen : PedalState := if r.position ≤ v.tol then .rest else .lowering
    let fall := fun x : PedalRec => { x with
      state := fallen, target := 0, output := none, timer := if r.position ≤ v.tol then none else travelEnd }
    let o : Override := if mode = 0 then .follow else .force (min 255 asked)
    let base : PedalRec :=
      if r.state = .stuck ∨ r.state = .off then fall { r with override := o } else { r with override := o }
    let asks := base.state = .rest ∨ (base.state = .lowering ∧ base.target = 0)
    let judged : PedalState :=
      if r.position + v.tol < w then .raising else if w + v.tol < r.position then .lowering else .settled
    let duty := min 255 (v.holdBase + v.holdSlope * w / 255)
    let claim := if judged = .raising then v.ifull * v.moveDuty / 255 else v.ifull * duty / 255
    let becomes := fun (x : PedalRec) (c : Nat) => a.part = { p with
      mem := a.part.mem, window := a.part.window, log := a.part.log
      pedals := p.pedals.set (pedalIndex d) x
      budget := { p.budget with committed := c, serveCause := false } }
    let enters := a.part = { p with
      mem := a.part.mem, window := a.part.window, log := a.part.log
      pedals := p.pedals.set (pedalIndex d) { base with
        state := judged, target := w, wanted := none, claim := claim
        output := some (if judged = .raising then v.moveDuty else duty)
        timer := if judged = .settled then none else travelEnd }
      budget := { p.budget with committed := p.budget.committed - r.claim + claim, serveCause := false }
      capture := if d = .middle ∧ judged = .settled ∧ base.state ≠ .settled ∧ p.capture.engaged = false
          ∧ p.strikes.voicing.engageLevel ≤ r.position
        then { keys := keysToCapture p, engaged := true } else p.capture }
    let fits := p.budget.committed + claim ≤ p.budget.inForce
    let passes := claim ≤ r.claim ∨ p.budget.committed + (claim - r.claim) ≤ p.budget.inForce
    let deferred := mode ≠ 2 ∧ asks ∧ 0 < w ∧ ¬ fits
    a.code = (if mode = 1 ∧ 255 < asked then .clamped else .ok) ∧
      a.detail = (if mode = 1 ∧ 255 < asked then 1 else 0) ∧
      (¬ deferred → Reports p a.part (fun _ => False) 0 []) ∧
      (mode = 2 → becomes { r with
        override := .off, state := .off, target := 0, wanted := none, output := none, timer := none, claim := 0 }
        (p.budget.committed - r.claim)) ∧
      (mode ≠ 2 → asks → w = 0 → becomes { base with wanted := none } p.budget.committed) ∧
      (mode ≠ 2 → asks → 0 < w → fits → enters) ∧
      (deferred →
        a.part = { p with
          mem := a.part.mem, window := a.part.window, log := a.part.log
          pedals := p.pedals.set (pedalIndex d) { base with wanted := some w }
          budget := { p.budget with
            pedalQ := [{ pedal := d, amount := claim, judged := judged }], serveCause := false } } ∧
        Reports p a.part (wordBytes 0x218) 0 [.deferrals] ∧
        counterOf .deferrals a.part = min 65535 (counterOf .deferrals p + 1)) ∧
      (mode ≠ 2 → ¬ asks → w = 0 →
        becomes { fall base with wanted := none, claim := 0 } (p.budget.committed - r.claim)) ∧
      (mode ≠ 2 → ¬ asks → 0 < w → judged = r.state → w = r.target →
        becomes { base with wanted := none } p.budget.committed) ∧
      (mode ≠ 2 → ¬ asks → 0 < w → ¬ (judged = r.state ∧ w = r.target) →
        (passes → enters) ∧ (¬ passes → becomes { base with wanted := some w } p.budget.committed))

/-- START in IDLE with a loaded default slot prepares the performance: clock 0, first line and end line from its parameters,
the first line due one lookahead later, tempo, spool values and P16, the Strip Reader prepared with Take Mark and transposition
kept, the Leader Decoder prepared and the Leader Record written with outcome NONE, the Shading Unit cleared, wheel position 0,
the Setup Block copied and clamped, and LEADER or RUNNING entered with its word and notice; the detail is the mask of the items
clamped or raised (R25, R32, R40, R46, R49, R54, R55, R68, R104, R144, R166). Stated with no holder waiting in a queue. The
model's readings: no line is taken within START (notes/assumptions/11.md), and what the Track records hold besides their state
(30.md). -/
def Obligations.StartPrepares : Prop :=
  ∀ (slot : Nat) (p : Part) (i : Fin 4) (f : Format), p.time.engine = .idle → NobodyWaits p.budget →
    (param slot 1 p).toNat = i.val → p.formats.slots[i] = some f →
    let a := dispatchRequest 1 slot p
    let q := a.part
    let lines := min 8192 (param slot 2 p).toNat
    let tempo := if param slot 3 p = 0 then f.defaultTempo else max 20 (min 200 (param slot 3 p).toNat)
    a.code = (if a.detail = 0 then .ok else .clamped) ∧
      a.detail.getLsbD 0 = decide (8192 < (param slot 2 p).toNat) ∧
      a.detail.getLsbD 1 = decide (param slot 3 p ≠ 0 ∧ ((param slot 3 p).toNat < 20 ∨ 200 < (param slot 3 p).toNat)) ∧
      (∀ b, 2 ≤ b → a.detail.getLsbD b = (setupDetail (readSetup p) p.strikes.guardTime p).getLsbD b) ∧
      q.time.engine = (if lines = 0 then .running else .leader) ∧
      q.time.clock = 0 ∧ q.time.nextLine = param slot 5 p ++ param slot 4 p ∧
      q.time.endLine = param slot 7 p ++ param slot 6 p ∧
      q.time.lookahead = max (q.window.setup.lookahead * 1000) p.strikes.guardTime ∧
      q.time.due = BitVec.ofNat 48 (q.time.lookahead * 65536) ∧
      q.time.tempo = tempo ∧ q.time.spoolInterval = f.spoolInterval ∧ q.time.spoolStep = f.spoolStep ∧
      q.time.p16 = 50000000 * 65536 / (f.linePitch * q.time.tempo) ∧
      q.time.intervals = 0 ∧ q.time.intervalLines = 0 ∧ q.time.setTempoTaken = false ∧
      q.formats = { p.formats with inUse := some i } ∧
      q.strip = { p.strip with
        drift := 0, tracking := .locked, invalidRun := 0, validRun := 0, held := none
        tracks := Vector.replicate 104 TrackRec.reset } ∧
      q.leader = { Leader.reset with
        seq := if lines = 0 then .inactive else .awaitingFirst
        lines := lines, slotUsed := i.val, tempoHanded := tempo, spoolHanded := f.spoolStep } ∧
      (Memory.wf p.mem = true → RingPlaced p.log →
        (∀ w, w < 18 → wordAt (Config.leaderRecordOffset + 2 * w) q
          = if w = 2 then BitVec.ofNat 16 i.val else if w = 3 then BitVec.ofNat 16 tempo
            else if w = 4 then BitVec.ofInt 16 f.spoolStep else 0) ∧
        wordAt Config.engineStateOffset q = (if lines = 0 then 2 else 1) ∧
        Reports { p with window := { p.window with setup := q.window.setup } } q
          (fun a => wordBytes Config.engineStateOffset a
            ∨ (Config.leaderRecordOffset ≤ a ∧ a < Config.leaderRecordOffset + 36))
          Notice.engine.bit []) ∧
      q.shading = Shading.reset ∧ q.wheel = { p.wheel with position := 0 } ∧ q.window.setup = readSetup p ∧
      20 ≤ q.window.setup.lookahead ∧ q.window.setup.lookahead ≤ 300 ∧
      q.window.setup.lowLevel < q.window.setup.sagLevel ∧ q.window.setup.sagLevel ≤ q.window.setup.vnom ∧
      q.budget.ibud = q.window.setup.ibud ∧ q.budget.patternPos = 0 ∧
      q.strikes.volBass = q.window.setup.volBass ∧ q.strikes.volTreble = q.window.setup.volTreble ∧
      q.clocks = p.clocks ∧ q.sense = p.sense ∧ q.senseLevels = p.senseLevels ∧ q.capture = p.capture ∧
      q.analog = p.analog ∧ q.budget.committed = p.budget.committed ∧ q.pins = p.pins ∧
      (∀ d : Pedal, pedalRec d q
        = { pedalRec d p with plannedTarget := 0, rollTarget := 0, dropPending := none }) ∧
      (∀ k : Key, keyRec k q = { keyRec k p with lastRelease := none })

/-- A Format that LOAD_FORMAT accepts has every field in its range of Table 2-1, its shade limits in order, its notes within
the tracks and the keyboard, and Shading Map tracks that are tracks of the roll and no note tracks (R26, R28 to R30). -/
def Obligations.AcceptedFormatsAreValid : Prop :=
  ∀ (slot : Nat) (p : Part) (i : Fin 4), (param slot 1 p).toNat = i.val →
    (dispatchRequest 9 slot p).code = .ok →
    ∃ f : Format, (dispatchRequest 9 slot p).part
        = { p with formats := { p.formats with slots := p.formats.slots.set i (some f) } } ∧
      p.formats.inUse ≠ some i ∧ (dispatchRequest 9 slot p).detail = BitVec.ofNat 16 f.formatId ∧
      1 ≤ f.formatId ∧ f.formatId ≤ 2047 ∧ 20 ≤ f.trackCount ∧ f.trackCount ≤ 104 ∧
      f.trackOrigin ≤ 8191 ∧ 32 ≤ f.trackPitch ∧ f.trackPitch ≤ 255 ∧ f.apertureHalf ≤ 3 ∧
      1 ≤ f.apertureThreshold ∧ f.apertureThreshold ≤ 2 * f.apertureHalf + 1 ∧
      1 ≤ f.onsetLines ∧ f.onsetLines ≤ 8 ∧ 1 ≤ f.offsetLines ∧ f.offsetLines ≤ 8 ∧
      f.nominalCentre ≤ 8191 ∧ 64 ≤ f.nominalWidth ∧ f.nominalWidth ≤ 512 ∧ f.widthTolerance ≤ 64 ∧
      f.driftSmoothing ≤ 7 ∧ (f.spoolInterval = 0 ∨ 256 ≤ f.spoolInterval) ∧ f.spoolInterval ≤ 65535 ∧
      f.firstNoteTrack < f.trackCount ∧ 1 ≤ f.noteTrackCount ∧ f.noteTrackCount ≤ 88 ∧ f.firstNoteKey ≤ 88 ∧
      1 ≤ f.splitKey ∧ f.splitKey ≤ 87 ∧ f.softOffset ≤ 255 ∧
      1 ≤ f.edgeRun ∧ f.edgeRun ≤ 16 ∧ f.driftMax ≤ 256 ∧ 1 ≤ f.coastLimit ∧ f.coastLimit ≤ 255 ∧
      1 ≤ f.relockLines ∧ f.relockLines ≤ 64 ∧
      100 ≤ f.linePitch ∧ f.linePitch ≤ 600 ∧ 20 ≤ f.defaultTempo ∧ f.defaultTempo ≤ 200 ∧
      -32767 ≤ f.spoolStep ∧ f.spoolStep ≤ 32767 ∧ f.firstNoteTrack + f.noteTrackCount ≤ f.trackCount ∧
      f.firstNoteKey + f.noteTrackCount ≤ 89 ∧ 1 ≤ f.firstNoteKey ∧
      f.floor ≤ f.midCap ∧ f.midCap ≤ f.ceiling ∧ f.ceiling ≤ 1023 ∧ f.rampMax ≤ 1023 ∧
      f.restLevel ≤ f.rampMax ∧ f.restRate ≤ 4000 ∧ f.map.length ≤ 16 ∧
      ∀ e ∈ f.map, e.track < f.trackCount ∧
        ¬ (f.firstNoteTrack ≤ e.track ∧ e.track < f.firstNoteTrack + f.noteTrackCount)

/-- LOAD_VOICING is carried out in IDLE exactly where every field of the Voicing Area lies in its range of Tables 5-1 and 5-2
and the heat limits are in order; the copy becomes the Voicing in force, the Guard becomes the largest flight of its curves
plus 5,000 µs, the detail is the Guard over 10, and nothing else changes (R85 to R89, R91). -/
def Obligations.LoadVoicingRequest : Prop :=
  ∀ (slot : Nat) (p : Part),
    let a := dispatchRequest 10 slot p
    let w := voicingWord p
    let long := fun i => w i + 65536 * w (i + 1)
    (a.code = .ok ↔ p.time.engine = .idle ∧ VoicingInRange w) ∧
      (a.code = .ok → ∃ v g, a.part = { p with strikes := { p.strikes with voicing := v, guardTime := g } } ∧
        a.detail = BitVec.ofNat 16 (g / 10) ∧ 5000 ≤ g ∧
        (∀ (q : Fin 8) (j : Fin 17), v.curves[q][j].d + 5000 ≤ g) ∧
        (∃ (q : Fin 8) (j : Fin 17), v.curves[q][j].d + 5000 = g) ∧
        (∀ c : Fin 8,
          v.classes[c].curve.val = w (12 * c.val) ∧ v.classes[c].ifull = w (12 * c.val + 1) ∧
          v.classes[c].holdDuty = w (12 * c.val + 2) ∧ v.classes[c].minHold = w (12 * c.val + 3) ∧
          v.classes[c].repeatGap = long (12 * c.val + 4) ∧ v.classes[c].repeatSteal = w (12 * c.val + 6) ∧
          v.classes[c].releaseAdvance = w (12 * c.val + 7) ∧ v.classes[c].velFloor = w (12 * c.val + 8) ∧
          v.classes[c].depressDuty = w (12 * c.val + 9) ∧ v.classes[c].depressTime = long (12 * c.val + 10)) ∧
        (∀ (q : Fin 8) (j : Fin 17),
          v.curves[q][j] = { w := w (96 + 68 * q.val + 4 * j.val), d := long (97 + 68 * q.val + 4 * j.val)
                             u := w (99 + 68 * q.val + 4 * j.val) }) ∧
        (∀ k : Key, v.keyClass[k].val = w (640 + 2 * k.val) ∧
          v.strikeTrim[k] = (BitVec.ofNat 16 (w (641 + 2 * k.val))).toInt) ∧
        v.warmLimit = w 816 ∧ v.resumeLimit = w 817 ∧ v.cutLimit = w 818 ∧ v.heatShift = w 819 ∧ v.missLimit = w 820 ∧
        v.adapt = decide (w 821 = 1) ∧ v.fallingEdge = decide (w 822 = 1) ∧
        (∀ d : Pedal, v.pedals[pedalIndex d] = (
          let b := 824 + 8 * (pedalIndex d).val
          { ifull := w b, moveDuty := w (b + 1), holdBase := w (b + 2), holdSlope := w (b + 3), travelMax := w (b + 4)
            tol := w (b + 5), pedalLead := long (b + 6) })) ∧
        v.freeLevel = w 848 ∧ v.engageLevel = w 849 ∧ v.damperTop = w 850)

/-! ## Lines, the clock and the wheel -/

/-- LOOKAHEAD_INSTANT takes the next line: a BLANK slot over a roll with every track closed, in RUNNING and LOCKED with the
Shading Map planning no pedal change. The Take Mark and its word advance by one, the line is an invalid edge line that
starts to coast, it is closed and its advance made, and LinesTaken and BlankLines count (R5 to R10, R13, R17, R46, R50,
R69). The count of music lines since the leader is the model's way to tell the leader window (notes/assumptions/28.md). Time
comes to the event's instant as the model reads it (notes/assumptions/2.md). -/
def Obligations.LookaheadTakesBlankLine : Prop :=
  ∀ (s : State) (i : Fin 4) (f : Format), Memory.wf s.part.mem = true → timeStands s.part = false →
    s.part.time.engine = .running → s.part.time.wanted = false → s.part.formats.inUse = some i →
    s.part.formats.slots[i] = some f → s.part.strip.held = none → 320 ≤ s.part.wheel.free →
    fillMark s.part = s.part.strip.takeMark + 1 →
    lineRepeat (lineWord s.part.strip.takeMark s.part) = false →
    lineBlank (lineWord s.part.strip.takeMark s.part) = true → lineSkip (lineWord s.part.strip.takeMark s.part) = 0 →
    s.part.strip.tracking = .locked → 2 ≤ f.coastLimit →
    (∀ t : Fin 104, s.part.strip.tracks[t].state = .closed ∧ s.part.strip.tracks[t].lastSample = false) →
    (∀ d : Pedal, (pedalRec d s.part).plannedTarget = 0) →
    s.part.time.endLine = 0 ∨ s.part.time.nextLine ≠ s.part.time.endLine →
    let n := s.part.time.nextLine
    let q := planTo (minusTime (dueInt s.part.time.due) s.part.time.lookahead) s.part
    lookaheadReached (advanceLine q) = false →
    ∃ t, exec .lookaheadInstant s = .next t ∧ t.pending = s.pending ∧
      t.part = { q with
        mem := t.part.mem
        log := { s.part.log with counters := t.part.log.counters }
        strip := { s.part.strip with takeMark := s.part.strip.takeMark + 1, tracking := .coasting, invalidRun := 1 }
        shading := (closeLine f n (dueInt s.part.time.due) (linePeriod s.part.time) [] s.part).shading
        leader := { s.part.leader with musicLines := s.part.leader.musicLines + 1 }
        time := (advanceLine q).time } ∧
      wordAt Config.takeMarkOffset t.part = s.part.strip.takeMark + 1 ∧
      counterOf .linesTaken t.part = (counterOf .linesTaken s.part + 1) % 2 ^ 32 ∧
      counterOf .blankLines t.part = min 65535 (counterOf .blankLines s.part + 1) ∧
      (∀ c : Counter, c ≠ .linesTaken → c ≠ .blankLines → counterOf c t.part = counterOf c s.part) ∧
      ∀ a, ¬ wordBytes Config.takeMarkOffset a → ¬ (0x200 ≤ a ∧ a < 0x204) → ¬ wordBytes Counter.blankLines.offset a →
        Memory.read t.part.mem a = Memory.read s.part.mem a

/-- LOOKAHEAD_INSTANT reports the line as wanted; a line that is not takeable waits, with the cause MARK for a mark fault,
else LINES for an empty span with no slot held, else POOL (R49, R50). Time comes to the event's instant as the model reads
it (notes/assumptions/2.md). -/
def Obligations.LookaheadWaits : Prop :=
  ∀ s : State, timeStands s.part = false →
    s.part.time.engine = .leader ∨ s.part.time.engine = .running → s.part.time.wanted = false →
    let span := (fillMark s.part - s.part.strip.takeMark).toNat
    257 ≤ span ∨ (span = 0 ∧ s.part.strip.held = none) ∨ s.part.wheel.free < 320 →
    let q := planTo (minusTime (dueInt s.part.time.due) s.part.time.lookahead) s.part
    exec .lookaheadInstant s = .next { s with part := { q with time := { q.time with
      wanted := true
      lastCause := some
        (if 257 ≤ span then .mark else if span = 0 ∧ s.part.strip.held = none then .lines else .pool) } } }

/-- GUARD_INSTANT with the wanted line untaken: the engine enters STARVED, recording the state to return to and the cause
last reported, with the engine state word, notices ENGINE and, where NCFG selects entry edges, STARVE, and the count of
starvations (R51, R53). Time comes to the event's instant as the model reads it (notes/assumptions/2.md). -/
def Obligations.GuardStarves : Prop :=
  ∀ s : State, Memory.wf s.part.mem = true → RingPlaced s.part.log → timeStands s.part = false →
    s.part.time.engine = .leader ∨ s.part.time.engine = .running → s.part.time.wanted = true →
    let q := planTo (minusTime (dueInt s.part.time.due) s.part.strikes.guardTime) s.part
    ∃ t, exec .guardInstant s = .next t ∧ t.pending = s.pending ∧
      t.part = { q with
        mem := t.part.mem
        window := t.part.window
        log := t.part.log
        time := { q.time with
          engine := .starved, returnState := some s.part.time.engine, starveCause := s.part.time.lastCause } } ∧
      Reports q t.part (fun a => wordBytes Config.engineStateOffset a ∨ wordBytes 0x214 a)
        (Notice.engine.bit ||| if s.part.window.ncfg.getLsbD 0 = true then Notice.starve.bit else 0) [.starvations] ∧
      wordAt Config.engineStateOffset t.part = 4 ∧
      counterOf .starvations t.part = min 65535 (counterOf .starvations s.part + 1)

/-- WHEEL_SLOT at a slot with no action due only advances the wheel position by 100, from 4,294,967,200 to 0, outside
DRAINING (R104, R106). Time comes to the event's instant as the model reads it (notes/assumptions/2.md). -/
def Obligations.WheelSlotAdvances : Prop :=
  ∀ s : State, timeStands s.part = false → clockRuns s.part = true → s.part.time.engine ≠ .draining →
    let pos := s.part.wheel.position
    let next : Word32 := if pos = 4294967200 then 0 else pos + 100
    (∀ a ∈ s.part.wheel.actions, a.slot ≠ slotOf pos ∨ isBefore a.instant next = false) →
    let q := planTo pos s.part
    exec .wheelSlot s = .next { s with part := { q with wheel := { s.part.wheel with position := next } } }

/-- WHEEL_SLOT that takes the RELEASE of the strike that a key in HOLD sounds, in RUNNING before the next line's lookahead:
the key is released into LIFTING for its repeat gap, its claim is freed, and the entry returns to the pool (R106, R120,
R130). Time comes to the event's instant as the model reads it (notes/assumptions/2.md). -/
def Obligations.WheelSlotReleasesHeldKey : Prop :=
  ∀ (s : State) (k : Key) (st : Strike) (a : Action), RingPlaced s.part.log → timeStands s.part = false →
    s.part.time.engine = .running → NobodyWaits s.part.budget → 0 < (classOf k s.part).repeatGap →
    (keyRec k s.part).state = .hold → (keyRec k s.part).current = some st →
    a.kind = .release k st.tag → s.part.wheel.actions = [a] → a.slot = slotOf s.part.wheel.position →
    let pos := s.part.wheel.position
    let next : Word32 := if pos = 4294967200 then 0 else pos + 100
    isBefore a.instant next = true →
    let q := planTo pos s.part
    lookaheadReached q = false →
    ∃ t, exec .wheelSlot s = .next t ∧ t.pending = s.pending ∧
      t.part = { q with
        mem := t.part.mem
        window := t.part.window
        log := t.part.log
        wheel := { actions := [], position := next, free := s.part.wheel.free + 1 }
        keys := s.part.keys.set k { keyRec k s.part with
          state := .lifting, current := none, releasePending := false, reliefReady := false, output := none
          coverDamper := false, coverMiddle := false, claim := 0
          gapEnd := some (q.clocks.drive + (classOf k s.part).repeatGap)
          timer := some (q.clocks.drive + (classOf k s.part).repeatGap)
          lastRelease := some q.time.clock }
        budget := { s.part.budget with
          committed := s.part.budget.committed - (keyRec k s.part).claim, serveCause := false } } ∧
      Reports q t.part (fun _ => False) 0 []

/-- A LAUNCH, EXPIRE, RELEASE or DEPRESS whose tag names neither strike of its key is stale and changes nothing (R108). -/
def Obligations.StaleActionsDoNothing : Prop :=
  ∀ (p : Part) (k : Key) (tag : Word) (claim : Nat) (instant : Word32) (slot : Nat) (kind : ActionKind),
    (∀ st, (keyRec k p).current = some st → st.tag ≠ tag) →
    (∀ qd, (keyRec k p).queued = some qd → qd.strike.tag ≠ tag) →
    kind ∈ [.launch k tag, .expire k tag, .release k tag, .depress k tag claim] →
    handAction { kind := kind, instant := instant, slot := slot } p = p

/-! ## Keys -/

/-- PULSE_END of a key that is not release-pending, and DEPRESS_END: the key passes to HOLD at its class's HoldDuty with the
strike's hold claim, if that is no increase or one that fits, and its drive timer is set to ReliefDelay (R118, R119, R126,
R131). Stated with no holder waiting in a queue and a ReliefDelay above 0. Time comes to the event's instant as the model
reads it (notes/assumptions/2.md). -/
def Obligations.PulseAndDepressEndHold : Prop :=
  ∀ (s : State) (k : Key) (st : Strike) (at_ : Nat), timeStands s.part = false → NobodyWaits s.part.budget →
    (keyRec k s.part).timer = some at_ → (keyRec k s.part).current = some st →
    st.iHold ≤ (keyRec k s.part).claim
      ∨ s.part.budget.committed + (st.iHold - (keyRec k s.part).claim) ≤ s.part.budget.inForce →
    0 < s.part.window.setup.reliefDelay →
    let q := driveTo at_ s.part
    let after : State := { s with part := { q with
      keys := s.part.keys.set k { keyRec k s.part with
        state := .hold, output := some (classOf k s.part).holdDuty, reliefReady := false
        timer := some (q.clocks.drive + s.part.window.setup.reliefDelay * 1000), claim := st.iHold }
      budget := { s.part.budget with
        committed := s.part.budget.committed - (keyRec k s.part).claim + st.iHold, serveCause := false } } }
    ((keyRec k s.part).state = .drive → (keyRec k s.part).releasePending = false →
      exec (.pulseEnd (k.val + 1)) s = .next after) ∧
      ((keyRec k s.part).state = .depressing → exec (.depressEnd (k.val + 1)) s = .next after)

/-- PULSE_END of a key that is release-pending, and PULSE_END or DEPRESS_END of a key whose hold claim is an increase that does
not fit: the key is released into LIFTING for its repeat gap (R118, R120, R126, R131). Stated with no holder waiting in a
queue, outside DRAINING. That release-pending is cleared at the release is the model's reading (notes/assumptions/23.md).
Time comes to the event's instant as the model reads it (notes/assumptions/2.md). -/
def Obligations.PulseEndReleases : Prop :=
  ∀ (s : State) (k : Key) (st : Strike) (at_ : Nat), RingPlaced s.part.log → timeStands s.part = false →
    NobodyWaits s.part.budget → s.part.time.engine ≠ .draining → 0 < (classOf k s.part).repeatGap →
    (keyRec k s.part).timer = some at_ → (keyRec k s.part).current = some st →
    let refused := (keyRec k s.part).claim < st.iHold
      ∧ s.part.budget.inForce < s.part.budget.committed + (st.iHold - (keyRec k s.part).claim)
    let q := driveTo at_ s.part
    ∀ c : Instr,
      (c = .pulseEnd (k.val + 1) ∧ (keyRec k s.part).state = .drive ∧ ((keyRec k s.part).releasePending = true ∨ refused))
        ∨ (c = .depressEnd (k.val + 1) ∧ (keyRec k s.part).state = .depressing ∧ refused) →
    ∃ t, exec c s = .next t ∧ t.pending = s.pending ∧
      t.part = { q with
        mem := t.part.mem
        window := t.part.window
        log := t.part.log
        keys := s.part.keys.set k { keyRec k s.part with
          state := .lifting, current := none, releasePending := false, reliefReady := false, output := none
          coverDamper := false, coverMiddle := false, claim := 0
          gapEnd := some (q.clocks.drive + (classOf k s.part).repeatGap)
          timer := some (q.clocks.drive + (classOf k s.part).repeatGap)
          lastRelease := some q.time.clock }
        budget := { s.part.budget with
          committed := s.part.budget.committed - (keyRec k s.part).claim, serveCause := false } } ∧
      Reports q t.part (fun _ => False) 0 []

/-- RELIEF_DELAY_END sets relief-ready and makes the relief test: a key that no pedal may relieve stays in HOLD, and one
that a pedal may relieve enters RELIEVED with its drive off, its claim freed and its cover the pedals that cover it (R119,
R125, R161). Stated with no holder waiting in a queue. Serving at the end of the rule is the model's reading
(notes/assumptions/10.md). Time comes to the event's instant as the model reads it (notes/assumptions/2.md). -/
def Obligations.ReliefDelayEndEffect : Prop :=
  ∀ (s : State) (k : Key) (at_ : Nat), timeStands s.part = false → NobodyWaits s.part.budget →
    (keyRec k s.part).state = .hold → (keyRec k s.part).timer = some at_ →
    let q := driveTo at_ s.part
    exec (.reliefDelayEnd (k.val + 1)) s = .next { s with
      part := if mayRelieve .damper k s.part = true ∨ mayRelieve .middle k s.part = true then
        { q with
          keys := s.part.keys.set k { keyRec k s.part with
            state := .relieved, output := none, reliefReady := false, timer := none, claim := 0
            gapEnd := some (q.clocks.drive + (classOf k s.part).repeatGap)
            coverDamper := covers .damper k s.part, coverMiddle := covers .middle k s.part }
          budget := { s.part.budget with
            committed := s.part.budget.committed - (keyRec k s.part).claim, serveCause := false } }
      else
        { q with
          keys := s.part.keys.set k { keyRec k s.part with reliefReady := true, timer := none }
          budget := { s.part.budget with serveCause := false } } }

/-- GAP_END: the key enters IDLE, and a queued strike becomes the current one and is armed where its LAUNCH has not been
taken (R124). Stated outside DRAINING. The gap end stays in the record (notes/assumptions/23.md). Time comes to the event's
instant as the model reads it (notes/assumptions/2.md). -/
def Obligations.GapEndEffect : Prop :=
  ∀ (s : State) (k : Key) (at_ : Nat), timeStands s.part = false → s.part.time.engine ≠ .draining →
    (keyRec k s.part).state = .lifting → (keyRec k s.part).timer = some at_ →
    (∀ qd, (keyRec k s.part).queued = some qd → qd.launchTaken = false) →
    let q := driveTo at_ s.part
    let after : KeyRec :=
      match (keyRec k s.part).queued with
      | none => { keyRec k s.part with state := .idle, current := none, timer := none }
      | some qd => { keyRec k s.part with state := .armed, current := some qd.strike, queued := none, timer := none }
    exec (.gapEnd (k.val + 1)) s = .next { s with part := { q with keys := s.part.keys.set k after } }

/-- GAP_END of a key whose queued strike's LAUNCH has been taken and whose claim fits: the key enters DRIVE at duty U for
W_eff, with its launch heat, its window opened, StrikesMade counted and the launch claim held (R103, R115, R116, R124, R128,
R137, R169, R198). Stated with no holder waiting in a queue and the key's window not OPEN. That the gap end stays in the record
is the model's reading (notes/assumptions/23.md). Time comes to the event's instant as the model reads it
(notes/assumptions/2.md). -/
def Obligations.GapEndLaunches : Prop :=
  ∀ (s : State) (k : Key) (st : Strike) (at_ : Nat), RingPlaced s.part.log → timeStands s.part = false →
    NobodyWaits s.part.budget → (keyRec k s.part).state = .lifting → (keyRec k s.part).timer = some at_ →
    (keyRec k s.part).queued = some { strike := st, launchTaken := true } → (keyRec k s.part).claim = 0 →
    s.part.budget.committed + st.iLaunch ≤ s.part.budget.inForce → (senseRec k s.part).window ≠ .opened →
    let q := driveTo at_ s.part
    let wEff := effectiveWidth st.w s.part.window.setup.vnom s.part.analog.vrail
    let heat := min 65535 ((keyRec k s.part).heat + wEff * st.u / 2550)
    let behind := (q.time.clock - st.planned).toInt
    ∃ t, exec (.gapEnd (k.val + 1)) s = .next t ∧ t.pending = s.pending ∧
      t.part = { q with
        mem := t.part.mem
        window := t.part.window
        log := t.part.log
        keys := s.part.keys.set k { keyRec k s.part with
          state := .drive, queued := none, releasePending := false, output := some st.u
          timer := some (q.clocks.drive + wEff), heat := heat, claim := st.iLaunch
          cut := if s.part.strikes.voicing.cutLimit ≤ heat then true
            else if heat < s.part.strikes.voicing.resumeLimit then false else (keyRec k s.part).cut
          current := some { st with
            wEff := some wEff, compensated := if wEff = st.w then st.compensated else true
            lateness := if 0 < behind then behind.toNat else st.lateness } }
        sense := s.part.sense.set k { senseRec k s.part with
          window := .opened, launchTime := some q.clocks.drive, lead := st.lead
          windowEnd := q.clocks.drive + 2 * st.lead }
        budget := { s.part.budget with committed := s.part.budget.committed + st.iLaunch } } ∧
      Reports q t.part (fun a => 0x204 ≤ a ∧ a < 0x208) 0 [.strikesMade] ∧
      counterOf .strikesMade t.part = (counterOf .strikesMade s.part + 1) % 2 ^ 32

/-- A key's new launch claim: granted at once, the key enters DRIVE, exactly when its half's queue and PEDAL are empty and the
claim fits; otherwise the key waits at the tail of its half's queue, with DEFERRED set and Deferrals counted, and nothing is
committed (R115, R137). -/
def Obligations.LaunchAdmission : Prop :=
  ∀ (p : Part) (k : Key) (st : Strike), (keyRec k p).current = some st →
    let q := askLaunch k p
    let passes := halfQueue st.half p.budget = [] ∧ p.budget.pedalQ = []
      ∧ p.budget.committed + st.iLaunch ≤ p.budget.inForce
    (passes → (keyRec k q).state = .drive ∧ (keyRec k q).claim = st.iLaunch ∧
      q.budget.committed = p.budget.committed - (keyRec k p).claim + st.iLaunch) ∧
    (¬ passes →
      keyRec k q = { keyRec k p with
        state := .waiting .launch, current := some { st with deferred := true } } ∧
      halfQueue st.half q.budget
        = halfQueue st.half p.budget ++ [{ key := k, kind := .launch, amount := st.iLaunch }] ∧
      q.budget.committed = p.budget.committed ∧
      counterOf .deferrals q = min 65535 (counterOf .deferrals p + 1))

/-- One round of serving (R116, R126, R138 to R141, R154). The PEDAL head is granted if it fits; else the head of the half that
the Priority Pattern prefers; else that of the other half; where none fits the round grants nothing. A key granted its launch
claim enters DRIVE, one granted its depress claim DEPRESSING, and the pattern position advances by one, from 15 to 0; a pedal
granted enters the state judged at its ask with its wanted target. Stated for holders without a claim, a key with a strike and
its window not OPEN, and a pedal that no key's cover holds. That a pedal keeps the state judged as it joined is the model's
reading (notes/assumptions/33.md), as are the relief test of a pedal granted into SETTLED after the serving (10.md) and its
duty and travel time by the Voicing in force (37.md). -/
def Obligations.ServingRound : Prop :=
  (∀ p : Part,
    let fitsNow := fun amount : Nat => p.budget.committed + amount ≤ p.budget.inForce
    let h : Half := if p.window.setup.priorityPattern.getLsbD p.budget.patternPos.val = true then .bass else .treble
    let other : Half := if h = .bass then .treble else .bass
    let pedalWaits := ∀ e, p.budget.pedalQ.head? = some e → ¬ fitsNow e.amount
    let halfWaits := fun x : Half => ∀ e, (halfQueue x p.budget).head? = some e → ¬ fitsNow e.amount
    (∀ e, p.budget.pedalQ.head? = some e → fitsNow e.amount → serveRound p = some (grantPedal e p)) ∧
      (pedalWaits → ∀ e, (halfQueue h p.budget).head? = some e → fitsNow e.amount →
        serveRound p = some (grantKey h e p)) ∧
      (pedalWaits → halfWaits h → ∀ e, (halfQueue other p.budget).head? = some e → fitsNow e.amount →
        serveRound p = some (grantKey other e p)) ∧
      (pedalWaits → halfWaits h → halfWaits other → serveRound p = none)) ∧
  (∀ (p : Part) (h : Half) (e : KeyClaim) (rest : List KeyClaim) (st : Strike), RingPlaced p.log →
    halfQueue h p.budget = e :: rest → (keyRec e.key p).current = some st → (keyRec e.key p).claim = 0 →
    let q := grantKey h e p
    let granted : Budget := { p.budget with
      bassQ := if h = .bass then rest else p.budget.bassQ
      trebleQ := if h = .treble then rest else p.budget.trebleQ
      patternPos := q.budget.patternPos
      committed := p.budget.committed + e.amount }
    let wEff := effectiveWidth st.w p.window.setup.vnom p.analog.vrail
    let heat := min 65535 ((keyRec e.key p).heat + wEff * st.u / 2550)
    let behind := (p.time.clock - st.planned).toInt
    q.budget.patternPos.val = (p.budget.patternPos.val + 1) % 16 ∧
      (e.kind = .launch → (senseRec e.key p).window ≠ .opened →
        q = { p with
          mem := q.mem, window := q.window, log := q.log, budget := granted
          keys := p.keys.set e.key { keyRec e.key p with
            state := .drive, releasePending := false, output := some st.u
            timer := some (p.clocks.drive + wEff), heat := heat, claim := e.amount
            cut := if p.strikes.voicing.cutLimit ≤ heat then true
              else if heat < p.strikes.voicing.resumeLimit then false else (keyRec e.key p).cut
            current := some { st with
              wEff := some wEff, compensated := if wEff = st.w then st.compensated else true
              lateness := if 0 < behind then behind.toNat else st.lateness } }
          sense := p.sense.set e.key { senseRec e.key p with
            window := .opened, launchTime := some p.clocks.drive, lead := st.lead
            windowEnd := p.clocks.drive + 2 * st.lead } } ∧
        Reports p q (fun a => 0x204 ≤ a ∧ a < 0x208) 0 [.strikesMade] ∧
        counterOf .strikesMade q = (counterOf .strikesMade p + 1) % 2 ^ 32) ∧
      (e.kind = .depress →
        q = { p with
          mem := q.mem, log := { p.log with counters := q.log.counters }, budget := granted
          keys := p.keys.set e.key { keyRec e.key p with
            state := .depressing, coverDamper := false, coverMiddle := false, claim := e.amount
            output := some (max 16 (((classOf e.key p).depressDuty : Int) + (keyRec e.key p).depressTrim)).toNat
            timer := some (p.clocks.drive + (classOf e.key p).depressTime) }
          sense := p.sense.set e.key { senseRec e.key p with depressHeard := false } } ∧
        Reports p q (wordBytes 0x21E) 0 [.depresses] ∧
        counterOf .depresses q = min 65535 (counterOf .depresses p + 1))) ∧
  ∀ (p : Part) (e : PedalClaim) (rest : List PedalClaim) (w : Nat), RingPlaced p.log → p.budget.pedalQ = e :: rest →
    e.judged = .raising ∨ e.judged = .lowering ∨ e.judged = .settled → 0 < w →
    (pedalRec e.pedal p).wanted = some w → (pedalRec e.pedal p).claim = 0 →
    (∀ k : Key, inCover e.pedal (keyRec k p) = false) → (p.capture.engaged = false → p.capture.keys = []) →
    let q := grantPedal e p
    let r := pedalRec e.pedal p
    let v := pedalVoicing e.pedal p
    q = { p with
        mem := q.mem, window := q.window, log := q.log, keys := q.keys
        pedals := p.pedals.set (pedalIndex e.pedal) { r with
          state := e.judged, target := w, wanted := none, claim := e.amount
          output := some (if e.judged = .raising then v.moveDuty else min 255 (v.holdBase + v.holdSlope * w / 255))
          timer := if e.judged = .settled then none else some (p.clocks.drive + v.travelMax * 1000) }
        budget := { p.budget with pedalQ := rest, committed := p.budget.committed + e.amount }
        capture := if e.pedal = .middle ∧ e.judged = .settled ∧ r.state ≠ .settled ∧ p.capture.engaged = false
            ∧ p.strikes.voicing.engageLevel ≤ r.position
          then { keys := keysToCapture p, engaged := true } else p.capture } ∧
      Reports p q (fun _ => False) 0 [] ∧
      ∀ k : Key, keyRec k q = if (keyRec k p).state = .relieved ∨ (keyRec k p).state = .waiting .depress
        then setCover e.pedal (covers e.pedal k q) (keyRec k p) else keyRec k p

/-- HEAT_UPDATE, every 10,000 µs: each key's heat decays by its 2^HeatShift part, gains the duty held in HOLD or DEPRESSING,
saturates at 65,535, and CUT is judged anew; nothing else changes (R127, R128). Time comes to the event's instant as the
model reads it (notes/assumptions/2.md). -/
def Obligations.HeatUpdateEffect : Prop :=
  ∀ s : State, timeStands s.part = false →
    let q := driveTo s.part.clocks.nextHeat s.part
    let v := s.part.strikes.voicing
    ∃ t, exec .heatUpdate s = .next t ∧ t.pending = s.pending ∧
      t.part = { q with
        keys := t.part.keys
        clocks := { q.clocks with nextHeat := s.part.clocks.nextHeat + 10000 } } ∧
      ∀ k : Key,
        let r := keyRec k s.part
        let heat := min 65535 (r.heat - r.heat / 2 ^ v.heatShift
          + if r.state = .hold ∨ r.state = .depressing then r.output.getD 0 else 0)
        keyRec k t.part = { r with
          heat := heat
          cut := if v.cutLimit ≤ heat then true else if heat < v.resumeLimit then false else r.cut }

/-! ## Rail and pedals -/

/-- RAIL_SAMPLE: Vrail is the sample, the rail state moves as Table 7-2 gives it, the budget in force is that of Table 7-3,
and a change raises RAIL where NCFG selects its edge (R132, R134 to R136). Stated with no holder waiting in a queue. Time
comes to the event's instant as the model reads it (notes/assumptions/2.md). -/
def Obligations.RailSampleEffect : Prop :=
  ∀ (s : State) (sample : BitVec 10), RingPlaced s.part.log → timeStands s.part = false →
    NobodyWaits s.part.budget →
    let v := sample.toNat
    let c := s.part.window.setup
    let before := s.part.analog.rail
    let after : RailState :=
      if v < c.lowLevel then .low
      else if c.sagLevel + c.railHyst ≤ v then .normal
      else if before = .normal ∧ c.sagLevel ≤ v then .normal
      else if before = .low ∧ v < c.lowLevel + c.railHyst then .low
      else .sag
    let budget : Nat :=
      if after = .normal then s.part.budget.ibud
      else if after = .low then 0
      else min s.part.budget.ibud (s.part.budget.ibud * (v - c.lowLevel) / (c.sagLevel - c.lowLevel))
    let falls := railCode before < railCode after
    let q := driveTo s.part.clocks.nextRail s.part
    ∃ t, exec (.railSample sample) s = .next t ∧ t.pending = s.pending ∧
      t.part = { q with
        mem := t.part.mem
        window := t.part.window
        log := t.part.log
        clocks := { q.clocks with nextRail := s.part.clocks.nextRail + 1000 }
        pins := { s.part.pins with rail := sample }
        analog := { vrail := v, rail := after, judgedSag := c.sagLevel, judgedLow := c.lowLevel }
        budget := { s.part.budget with inForce := budget, serveCause := false } } ∧
      (after = before → t.part.mem = s.part.mem ∧ t.part.window = s.part.window ∧ t.part.log = s.part.log) ∧
      Reports q t.part (fun _ => False)
        (if after ≠ before ∧ s.part.window.ncfg.getLsbD (if falls then 4 else 5) = true then Notice.rail.bit else 0) []

/-- PEDAL_POSITION_SAMPLE at which a pedal arrives: a RAISING one passes to SETTLED with the hold claim for its target, made at
once where it is no increase or one that fits; one LOWERING to a target above 0 enters SETTLED with the claim it holds; one
LOWERING to 0 enters REST, stated outside DRAINING (R132, R147, R155, R159). Stated with every key IDLE, no holder waiting and
no wanted target. The order of a sample's effects, and the Tol of the
Voicing in force, are the model's readings (notes/assumptions/17.md, 37.md). Time comes to the event's
instant as the model reads it (notes/assumptions/2.md). -/
def Obligations.PedalSampleSettles : Prop :=
  ∀ (s : State) (d : Pedal) (sample : BitVec 10), RingPlaced s.part.log → timeStands s.part = false →
    NobodyWaits s.part.budget → (∀ k : Key, (keyRec k s.part).state = .idle) →
    let r := pedalRec d s.part
    let v := pedalVoicing d s.part
    let duty := min 255 (v.holdBase + v.holdSlope * r.target / 255)
    let claim := v.ifull * duty / 255
    let position := sample.toNat / 4
    let q := driveTo s.part.clocks.nextPedal[pedalIndex d] s.part
    let arrives := fun (x : PedalRec) (committed : Nat) (settled : Bool) =>
      ∃ t, exec (.pedalPositionSample d sample) s = .next t ∧ t.pending = s.pending ∧
        t.part = { q with
          mem := t.part.mem
          window := t.part.window
          log := t.part.log
          clocks := { q.clocks with
            nextPedal := q.clocks.nextPedal.set (pedalIndex d) (s.part.clocks.nextPedal[pedalIndex d] + 1000) }
          pins := { s.part.pins with pedals := s.part.pins.pedals.set (pedalIndex d) sample }
          pedals := s.part.pedals.set (pedalIndex d) x
          capture := if d = .middle then captureAfter s.part position settled else s.part.capture
          budget := { s.part.budget with committed := committed, serveCause := false } } ∧
        Reports q t.part (fun _ => False) 0 []
    r.wanted = none →
    (r.state = .raising → r.target ≤ position + v.tol →
      claim ≤ r.claim ∨ s.part.budget.committed + (claim - r.claim) ≤ s.part.budget.inForce →
      arrives { r with state := .settled, position := position, output := some duty, timer := none, claim := claim }
        (s.part.budget.committed - r.claim + claim) true) ∧
    (r.state = .lowering → r.target ≠ 0 → position ≤ r.target + v.tol →
      arrives { r with state := .settled, position := position, timer := none } s.part.budget.committed true) ∧
    (r.state = .lowering → r.target = 0 → position ≤ v.tol → s.part.time.engine ≠ .draining →
      arrives { r with state := .rest, position := position, timer := none } s.part.budget.committed false)

/-- PEDAL_POSITION_SAMPLE of a pedal that does not move, or that has not arrived: its position is the sample divided by 4,
and nothing else of it changes; at an arrival whose hold claim is an increase that does not fit it stays in RAISING with its
move claim and drive, and its travel timer stops (R132, R155, R159). Stated with every key IDLE, no holder waiting and no
wanted target. The order of a sample's effects, and the Tol of the
Voicing in force, are the model's readings (notes/assumptions/17.md, 37.md). Time comes to the event's
instant as the model reads it (notes/assumptions/2.md). -/
def Obligations.PedalSampleKeeps : Prop :=
  ∀ (s : State) (d : Pedal) (sample : BitVec 10), timeStands s.part = false → NobodyWaits s.part.budget →
    (∀ k : Key, (keyRec k s.part).state = .idle) →
    let r := pedalRec d s.part
    let v := pedalVoicing d s.part
    let claim := v.ifull * min 255 (v.holdBase + v.holdSlope * r.target / 255) / 255
    let position := sample.toNat / 4
    let q := driveTo s.part.clocks.nextPedal[pedalIndex d] s.part
    let keeps := fun x : PedalRec =>
      exec (.pedalPositionSample d sample) s = .next { s with part := { q with
        clocks := { q.clocks with
          nextPedal := q.clocks.nextPedal.set (pedalIndex d) (s.part.clocks.nextPedal[pedalIndex d] + 1000) }
        pins := { s.part.pins with pedals := s.part.pins.pedals.set (pedalIndex d) sample }
        pedals := s.part.pedals.set (pedalIndex d) x
        capture := if d = .middle then captureAfter s.part position (decide (r.state = .settled))
          else s.part.capture
        budget := { s.part.budget with serveCause := false } } }
    r.wanted = none →
    ((r.state = .raising → position + v.tol < r.target) →
      (r.state = .lowering → r.target = 0 → v.tol < position) →
      (r.state = .lowering → r.target ≠ 0 → r.target + v.tol < position) →
      keeps { r with position := position }) ∧
    (r.state = .raising → r.target ≤ position + v.tol → r.claim < claim →
      s.part.budget.inForce < s.part.budget.committed + (claim - r.claim) →
      keeps { r with position := position, timer := none })

/-- TRAVEL_TIMEOUT: a pedal in RAISING or LOWERING becomes STUCK with its drive off, its wanted target dropped and its claim
freed; notice PEDAL is raised and PedalStuck counts (R156). Stated with no key in cover and no holder waiting, outside
DRAINING. Time comes to the event's instant as the model reads it (notes/assumptions/2.md). -/
def Obligations.TravelTimeoutSticks : Prop :=
  ∀ (s : State) (d : Pedal) (at_ : Nat), RingPlaced s.part.log → timeStands s.part = false →
    NobodyWaits s.part.budget → s.part.time.engine ≠ .draining →
    (∀ k : Key, (keyRec k s.part).state ≠ .relieved ∧ (keyRec k s.part).state ≠ .waiting .depress) →
    let r := pedalRec d s.part
    r.state = .raising ∨ r.state = .lowering → r.timer = some at_ →
    let q := driveTo at_ s.part
    ∃ t, exec (.travelTimeout d) s = .next t ∧ t.pending = s.pending ∧
      t.part = { q with
        mem := t.part.mem
        window := t.part.window
        log := t.part.log
        pedals := s.part.pedals.set (pedalIndex d) { r with
          state := .stuck, wanted := none, timer := none, output := none, claim := 0 }
        budget := { s.part.budget with committed := s.part.budget.committed - r.claim, serveCause := false } } ∧
      Reports q t.part (wordBytes 0x228) Notice.pedal.bit [.pedalStuck] ∧
      counterOf .pedalStuck t.part = min 65535 (counterOf .pedalStuck s.part + 1)

/-! ## The sense scan -/

/-- SENSE_SCAN that handles no edge. With no window past its end it only reads the levels; so does the first scan after
power-on. It closes a HEARD or CUT window past its end without judgement, and an OPEN one as a miss: SenseMisses counts, the
miss count rises by one to at most 15, a key that is not DEAF becomes DEAF with notice SENSE where the count reaches MissLimit,
and a DEAF key's recovery run becomes 0 (R167, R170, R172, R173). An input shows no edge where it is as the scan before read
it or away from the active level, and an edge of a HEARD or CUT window is ignored. Time comes to the event's instant as the
model reads it (notes/assumptions/2.md). -/
def Obligations.SenseScanQuiet : Prop :=
  ∀ (s : State) (levels : BitVec 88), timeStands s.part = false →
    let q := driveTo s.part.clocks.nextScan s.part
    let open_ := fun k : Key => (senseRec k s.part).window = .closed ∨ q.clocks.drive ≤ (senseRec k s.part).windowEnd
    let quiet := fun k : Key => ∀ old : BitVec 88, s.part.senseLevels = some old →
      levels.getLsbD k.val = old.getLsbD k.val ∨ levels.getLsbD k.val = s.part.strikes.voicing.fallingEdge
    let ignored := fun k : Key => (senseRec k s.part).window = .heard ∨ (senseRec k s.part).window = .cut
    let scanned : Part := { q with
      clocks := { q.clocks with nextScan := s.part.clocks.nextScan + 50 }
      senseLevels := some levels
      pins := { s.part.pins with sense := levels } }
    ((∀ k : Key, open_ k ∧ (quiet k ∨ ignored k)) → exec (.senseScan levels) s = .next { s with part := scanned }) ∧
    ∀ k : Key, (∀ j : Key, j ≠ k → open_ j ∧ (quiet j ∨ ignored j)) → quiet k → ¬ open_ k →
      (ignored k → exec (.senseScan levels) s = .next { s with part := { scanned with
        sense := s.part.sense.set k { senseRec k s.part with window := .closed } } }) ∧
      ((senseRec k s.part).window = .opened → RingPlaced s.part.log →
        let r := keyRec k s.part
        let miss := min 15 (r.missCount + 1)
        let fails := s.part.strikes.voicing.missLimit ≤ miss
        ∃ t, exec (.senseScan levels) s = .next t ∧ t.pending = s.pending ∧
          t.part = { scanned with
            mem := t.part.mem
            window := t.part.window
            log := t.part.log
            keys := s.part.keys.set k { r with missCount := miss, deaf := r.deaf || decide fails }
            sense := s.part.sense.set k { senseRec k s.part with
              window := .closed
              recovery := if r.deaf = true ∨ fails then 0 else (senseRec k s.part).recovery } } ∧
          Reports scanned t.part (wordBytes 0x220) (if r.deaf = false ∧ fails then Notice.sense.bit else 0) [.senseMisses] ∧
          counterOf .senseMisses t.part = min 65535 (counterOf .senseMisses s.part + 1))

/-- SENSE_SCAN whose one edge is the flight edge of a key: the window is HEARD. In range of its lead, a SENSING key's miss count
becomes 0, and with Adapt on its lead trim moves by an eighth of the difference, within 5,000 µs either way; a DEAF key's
recovery run rises by one, and the second such flight in a row makes it SENSING with miss count and recovery run 0 and its trim
kept. Out of range it is an outlier: SenseOutliers counts, and a DEAF key's recovery run becomes 0 (R167, R170, R171, R173).
Time comes to the event's instant as the model reads it (notes/assumptions/2.md). -/
def Obligations.SenseScanFlight : Prop :=
  ∀ (s : State) (k : Key) (old levels : BitVec 88) (launch : Nat), timeStands s.part = false →
    s.part.senseLevels = some old →
    (∀ j : Key, j ≠ k → (senseRec j s.part).window = .closed ∧
      (levels.getLsbD j.val = old.getLsbD j.val ∨ levels.getLsbD j.val = s.part.strikes.voicing.fallingEdge)) →
    old.getLsbD k.val = s.part.strikes.voicing.fallingEdge →
    levels.getLsbD k.val = !s.part.strikes.voicing.fallingEdge →
    (senseRec k s.part).window = .opened → (senseRec k s.part).launchTime = some launch →
    let q := driveTo s.part.clocks.nextScan s.part
    let r := keyRec k s.part
    let x := senseRec k s.part
    let flight := q.clocks.drive - launch
    let inRange := x.lead / 2 ≤ flight ∧ flight ≤ 2 * x.lead
    q.clocks.drive ≤ x.windowEnd →
    let heard := fun (t : Part) (key : KeyRec) (recovery : Nat) => { q with
      mem := t.mem
      window := t.window
      log := t.log
      clocks := { q.clocks with nextScan := s.part.clocks.nextScan + 50 }
      senseLevels := some levels
      pins := { s.part.pins with sense := levels }
      sense := s.part.sense.set k { x with window := .heard, recovery := recovery }
      keys := s.part.keys.set k key }
    (inRange → r.deaf = false → exec (.senseScan levels) s = .next { s with
      part := heard s.part { r with
        missCount := 0
        trim := if s.part.strikes.voicing.adapt = true
          then max (-5000) (min 5000 (r.trim + Int.tdiv ((flight : Int) - (x.lead : Int)) 8)) else r.trim } x.recovery }) ∧
    (inRange → r.deaf = true → x.recovery = 0 →
      exec (.senseScan levels) s = .next { s with part := heard s.part r 1 }) ∧
    (inRange → r.deaf = true → 1 ≤ x.recovery → RingPlaced s.part.log → ∃ t, exec (.senseScan levels) s = .next t ∧ t.pending = s.pending ∧
      t.part = heard t.part { r with deaf := false, missCount := 0 } 0 ∧ Reports q t.part (fun _ => False) 0 []) ∧
    (¬ inRange → RingPlaced s.part.log → ∃ t, exec (.senseScan levels) s = .next t ∧ t.pending = s.pending ∧
      t.part = heard t.part r (if r.deaf = true then 0 else x.recovery) ∧
      Reports q t.part (wordBytes 0x222) 0 [.senseOutliers] ∧
      counterOf .senseOutliers t.part = min 65535 (counterOf .senseOutliers s.part + 1))

/-- SENSE_SCAN whose one edge is of a key outside a window. In any state but DEPRESSING it is a manual strike, which is counted
and changes no key state, strike, trim, miss count or sense state. In DEPRESSING it is a depress edge: the first of a depress
lowers the depress duty trim by 4, but not below 16 less the class's DepressDuty, and nothing is counted (R167, R174, R175).
Time comes to the event's instant as the model reads it (notes/assumptions/2.md). -/
def Obligations.SenseScanManualStrike : Prop :=
  ∀ (s : State) (k : Key) (old levels : BitVec 88), RingPlaced s.part.log → timeStands s.part = false →
    s.part.senseLevels = some old → (∀ j : Key, (senseRec j s.part).window = .closed) →
    (∀ j : Key, j ≠ k → levels.getLsbD j.val = old.getLsbD j.val
      ∨ levels.getLsbD j.val = s.part.strikes.voicing.fallingEdge) →
    old.getLsbD k.val = s.part.strikes.voicing.fallingEdge →
    levels.getLsbD k.val = !s.part.strikes.voicing.fallingEdge →
    let q := driveTo s.part.clocks.nextScan s.part
    let scanned := fun t : Part => { q with
      mem := t.mem
      window := t.window
      log := t.log
      clocks := { q.clocks with nextScan := s.part.clocks.nextScan + 50 }
      senseLevels := some levels
      pins := { s.part.pins with sense := levels } }
    ∃ t, exec (.senseScan levels) s = .next t ∧ t.pending = s.pending ∧
      ((keyRec k s.part).state ≠ .depressing →
        t.part = scanned t.part ∧ Reports q t.part (wordBytes 0x224) 0 [.manualStrikes] ∧
        counterOf .manualStrikes t.part = min 65535 (counterOf .manualStrikes s.part + 1)) ∧
      ((keyRec k s.part).state = .depressing →
        t.part = { scanned t.part with
          keys := s.part.keys.set k { keyRec k s.part with
            depressTrim := if (senseRec k s.part).depressHeard = true then (keyRec k s.part).depressTrim
              else max ((keyRec k s.part).depressTrim - 4) (16 - ((classOf k s.part).depressDuty : Int)) }
          sense := s.part.sense.set k { senseRec k s.part with depressHeard := true } } ∧
        Reports q t.part (fun _ => False) 0 [])

/-- A miss: SenseMisses counts, the miss count rises by one to at most 15, and a key that is not DEAF becomes DEAF, with notice
SENSE, where the count reaches MissLimit; a key that is then DEAF has its recovery run cleared (R172, R173). -/
def Obligations.MissJudged : Prop :=
  ∀ (k : Key) (p : Part), RingPlaced p.log →
    let r := keyRec k p
    let miss := min 15 (r.missCount + 1)
    let fails := p.strikes.voicing.missLimit ≤ miss
    let q := judgeMiss k p
    q = { p with
        mem := q.mem
        window := q.window
        log := q.log
        keys := p.keys.set k { r with missCount := miss, deaf := r.deaf || decide fails }
        sense := if r.deaf = true ∨ fails then p.sense.set k { senseRec k p with recovery := 0 } else p.sense } ∧
      Reports p q (wordBytes 0x220) (if r.deaf = false ∧ fails then Notice.sense.bit else 0) [.senseMisses] ∧
      counterOf .senseMisses q = min 65535 (counterOf .senseMisses p + 1)

/-! ## Operations of a line -/

/-- The opening side of a track (R18). -/
def Obligations.OpeningSide : Prop :=
  ∀ (f : Format) (n : Word32) (kind : LineKind) (p : Part) (events : List TrackEvent) (t : Fin 104),
    1 ≤ f.onsetLines → counterOf .spuriousRuns p ≤ 65535 →
    let r := p.strip.tracks[t]
    let sample := lineSample f p.strip.drift kind t.val r
    let outcome := trackOutcome f n kind p events t
    let onset := fun dated : Word32 => [({ track := t.val, onset := true, dated := dated } : TrackEvent)]
    (r.state = .closed → sample = true → f.onsetLines ≠ 1 → outcome .opening (some 1) (some n) [] 0) ∧
      (r.state = .closed → sample = true → f.onsetLines = 1 → outcome .opened none none (onset n) 0) ∧
      (r.state = .closed → sample = false → outcome .closed (some r.run) (some r.firstLine) [] 0) ∧
      (r.state = .opening → sample = true → r.run + 1 < f.onsetLines →
        outcome .opening (some (r.run + 1)) (some r.firstLine) [] 0) ∧
      (r.state = .opening → sample = true → f.onsetLines ≤ r.run + 1 →
        outcome .opened (some 0) none (onset r.firstLine) 0) ∧
      (r.state = .opening → sample = false → outcome .closed (some 0) none [] 1)

/-- The closing side of a track (R19). -/
def Obligations.ClosingSide : Prop :=
  ∀ (f : Format) (n : Word32) (kind : LineKind) (p : Part) (events : List TrackEvent) (t : Fin 104),
    1 ≤ f.offsetLines → counterOf .spuriousRuns p ≤ 65535 →
    let r := p.strip.tracks[t]
    let sample := lineSample f p.strip.drift kind t.val r
    let outcome := trackOutcome f n kind p events t
    let offset := fun dated : Word32 => [({ track := t.val, onset := false, dated := dated } : TrackEvent)]
    (r.state = .opened → sample = false → f.offsetLines ≠ 1 → outcome .closing (some 1) (some n) [] 0) ∧
      (r.state = .opened → sample = false → f.offsetLines = 1 → outcome .closed none none (offset n) 0) ∧
      (r.state = .opened → sample = true → outcome .opened (some r.run) (some r.firstLine) [] 0) ∧
      (r.state = .closing → sample = false → r.run + 1 < f.offsetLines →
        outcome .closing (some (r.run + 1)) (some r.firstLine) [] 0) ∧
      (r.state = .closing → sample = false → f.offsetLines ≤ r.run + 1 →
        outcome .closed (some 0) none (offset r.firstLine) 0) ∧
      (r.state = .closing → sample = true → outcome .opened (some 0) none [] 1)

/-- The measured edges: Le is the first pixel of the first run of EdgeRun opaque pixels, Re the last pixel of the last such run,
and none is measured exactly where no such run exists (R11). -/
def Obligations.PaperEdgesMeasured : Prop :=
  ∀ (len : Nat) (pixels : BitVec 512), 1 ≤ len →
    (paperEdges len pixels = none ↔ ∀ x, ¬ opaqueRun pixels len x) ∧
      ∀ le re, paperEdges len pixels = some (le, re) →
        opaqueRun pixels len le ∧ (∀ x, x < le → ¬ opaqueRun pixels len x) ∧
          ∃ x, re + 1 = x + len ∧ opaqueRun pixels len x ∧
            ∀ y, x < y → ¬ opaqueRun pixels len y

/-- A page of the leader is judged by its toggle and then acted on: FIRST_TOGGLE for a first page with toggle 1, a page with
the toggle of the one before counted as a repeat and otherwise ignored, and any other page accepted. An accepted page
counts; a seventeenth is the fault TOO_MANY and is not acted on. Any other is acted on by its kind: FORMAT gives the FormatId
read, or the fault TWO_FORMATS; TEMPO the tempo read; SPOOL the spool read; TEXT a text, of at most eight; other kinds count
as unknown. A page whose more bit is 0 is the last, with the fault NO_FORMAT_PAGE where no FormatId has been read, and a fault
ends the sequence (R35 to R37). -/
def Obligations.LeaderPages : Prop :=
  ∀ (w : Word) (l : Leader), l.fault = none →
    (l.seq = .awaitingFirst → w.getLsbD 11 = true →
      judgePage w l = ({ l with fault := some .firstToggle }, .fault)) ∧
    (l.seq = .reading → l.prevToggle = some (w.getLsbD 11) →
      judgePage w l = ({ l with repeats := min 65535 (l.repeats + 1) }, .goesOn)) ∧
    ((l.seq = .awaitingFirst ∧ w.getLsbD 11 = false) ∨ (l.seq = .reading ∧ l.prevToggle ≠ some (w.getLsbD 11)) →
      let r := (judgePage w l).1
      let kind := (w.extractLsb' 13 3).toNat
      let payload := (w.extractLsb' 0 11).toNat
      let counted : Leader := { l with seq := .reading, prevToggle := some (w.getLsbD 11), pages := l.pages + 1 }
      ((judgePage w l).2 = .fault ↔ r.fault.isSome = true) ∧
      ((judgePage w l).2 = .lastPage ↔ r.fault = none ∧ w.getLsbD 12 = false) ∧
      (16 < l.pages + 1 → r = { counted with fault := some .tooMany }) ∧
      (l.pages + 1 ≤ 16 →
        (r.fault = some .twoFormats ↔ kind = 0 ∧ ∃ x, l.formatIdRead = some x ∧ x ≠ payload) ∧
        (r.fault = some .noFormatPage ↔ w.getLsbD 12 = false ∧ r.formatIdRead = none) ∧
        r.fault ≠ some .firstToggle ∧ r.fault ≠ some .tooMany ∧
        (kind = 0 → r = { counted with
          fault := r.fault
          formatIdRead := match l.formatIdRead with
            | none => some payload
            | some x => some x }) ∧
        (kind = 1 → r = { counted with fault := r.fault, tempoRead := some (max 20 (min 200 payload)) }) ∧
        (kind = 2 → r = { counted with fault := r.fault, spoolRead := some (16 * (w.extractLsb' 0 11).toInt) }) ∧
        (kind = 3 → r = { counted with
          fault := r.fault, texts := if l.texts.length < 8 then l.texts ++ [payload] else l.texts }) ∧
        (4 ≤ kind → r = { counted with fault := r.fault, unknowns := min 65535 (l.unknowns + 1) })))

/-- The period of a line: P16 without spool correction, and else P16 moved by c times SpoolStep and held from half of P16 to
twice P16; j and c count as step 3 gives them (R45). -/
def Obligations.LinePeriodRule : Prop :=
  ∀ t : Timebase,
    (t.spoolInterval = 0 → linePeriod t = t.p16) ∧
      (t.spoolInterval ≠ 0 →
        t.p16 / 2 ≤ linePeriod t ∧ linePeriod t ≤ 2 * t.p16 ∧
        (((t.p16 / 2 : Nat) : Int) ≤ t.p16 + t.intervals * t.spoolStep →
          (t.p16 : Int) + t.intervals * t.spoolStep ≤ 2 * t.p16 →
          (linePeriod t : Int) = t.p16 + t.intervals * t.spoolStep) ∧
        ((t.p16 : Int) + t.intervals * t.spoolStep < ((t.p16 / 2 : Nat) : Int) → linePeriod t = t.p16 / 2) ∧
        (2 * (t.p16 : Int) < t.p16 + t.intervals * t.spoolStep → linePeriod t = 2 * t.p16)) ∧
      ∀ p : Part, p.time = t →
        (advanceLine p).time.due = t.due + BitVec.ofNat 48 (linePeriod t) ∧
        (advanceLine p).time.nextLine = t.nextLine + 1 ∧
        ((advanceLine p).time.intervals, (advanceLine p).time.intervalLines)
          = if 0 < t.spoolInterval ∧ t.spoolInterval ≤ min 65535 (t.intervalLines + 1)
            then (min 16777215 (t.intervals + 1), 0) else (t.intervals, min 65535 (t.intervalLines + 1))

/-- Stage 2 of the close of a line: a half's ramp rises at the largest rate of its open RISE entries, falls at the largest of
its open FALL entries, holds where both are open, and drifts toward the resting level where neither is; a rate over the line's
period is floor(rate × period / 1,000,000) (R73, R74). -/
def Obligations.RampRule : Prop :=
  ∀ (h : Half) (f : Format) (period : Nat) (events : List TrackEvent) (p : Part) (s : HalfShade),
    let rises := openValues .rise h f p
    let falls := openValues .fall h f p
    let step := fun rate : Nat => rate * period / 1000000
    let target := f.restLevel * 65536
    let after := (closeHalf h f period events p s).ramp
    (∀ (a : MapAction) (v : Nat), v ∈ openValues a h f p
      ↔ ∃ e ∈ f.map, e.action = a ∧ actsOn e h = true ∧ trackOpen e.track p = true ∧ e.value = v) ∧
    (rises ≠ [] → falls = [] →
      ∃ rate ∈ rises, (∀ x ∈ rises, x ≤ rate) ∧ after = min (s.ramp + step rate) (f.rampMax * 65536)) ∧
    (rises = [] → falls ≠ [] → ∃ rate ∈ falls, (∀ x ∈ falls, x ≤ rate) ∧ after = s.ramp - step rate) ∧
    (rises ≠ [] → falls ≠ [] → after = s.ramp) ∧
    (rises = [] → falls = [] →
      (s.ramp < target → after = min (s.ramp + step f.restRate) target) ∧
      (target < s.ramp → after = max (s.ramp - step f.restRate) target) ∧
      (s.ramp = target → after = s.ramp) ∧ (f.restRate = 0 → after = s.ramp) ∧
      (f.restLevel ≤ f.rampMax → s.ramp ≤ f.rampMax * 65536 → after ≤ f.rampMax * 65536))

/-- The close of a line: each half's latch follows its onsets in entry order, a SET and a CLEAR at one line setting it; its
step sum is the sum, and its accent the largest, of its open entries' values; its shade is Floor plus step sum and whole ramp,
held from Floor to the cap, which is MidCap with the latch set and Ceiling else; the planned shift state follows the SHIFT
pedal's override; the ramp stays within RampMax; and the history entry holds what was formed (R71, R73 to R79). -/
def Obligations.CloseBoundsShade : Prop :=
  ∀ (f : Format) (n due : Word32) (period : Nat) (events : List TrackEvent) (p : Part),
    f.floor ≤ f.midCap → f.midCap ≤ f.ceiling → f.restLevel ≤ f.rampMax →
    p.shading.bass.ramp ≤ f.rampMax * 65536 → p.shading.treble.ramp ≤ f.rampMax * 65536 →
    p.shading.history.length ≤ 8 →
    let q := closeLine f n due period events p
    let opened := fun (a : MapAction) (e : MapEntry) => e.action = a ∧ trackOpen e.track p = true
    (∀ h ∈ [Half.bass, Half.treble],
      let before := if h = .bass then p.shading.bass else p.shading.treble
      let after := if h = .bass then q.shading.bass else q.shading.treble
      let onsets := (f.map.filter fun e =>
        decide (e.action = .latchSet ∨ e.action = .latchClear ∨ e.action = .latchToggle) && actsOn e h
          && events.any fun x => x.onset && decide (x.track = e.track)).map MapEntry.action
      let steps := (f.map.filter fun e =>
        decide (e.action = .step) && actsOn e h && trackOpen e.track p).map MapEntry.value
      let cap := if after.latch = true then f.midCap else f.ceiling
      after.latch = (if .latchSet ∈ onsets ∧ .latchClear ∈ onsets then true
        else onsets.foldl (fun b a => if a = .latchToggle then !b else decide (a = .latchSet)) before.latch) ∧
      after.stepSum = steps.sum ∧
      (∀ e ∈ f.map, opened .accent e → actsOn e h = true → e.value ≤ after.accent) ∧
      (after.accent = 0 ∨ ∃ e ∈ f.map, opened .accent e ∧ actsOn e h = true ∧ e.value = after.accent) ∧
      after.shade = max f.floor (min cap (f.floor + after.stepSum + after.ramp / 65536)) ∧
      f.floor ≤ after.shade ∧ after.shade ≤ f.ceiling ∧ (after.latch = true → after.shade ≤ f.midCap) ∧
      after.ramp ≤ f.rampMax * 65536) ∧
      (q.shading.shiftPlanned = true ↔
        ((pedalRec .shift p).override = .follow ∧ ∃ e ∈ f.map, opened .soft e)
          ∨ ∃ v, (pedalRec .shift p).override = .force v ∧ 128 ≤ v) ∧
      (∃ e, q.shading.history.getLast? = some e ∧ e.line = n ∧ e.due = due ∧ e.shadeBass = q.shading.bass.shade ∧
        e.shadeTreble = q.shading.treble.shade ∧ e.accentBass = q.shading.bass.accent ∧
        e.accentTreble = q.shading.treble.accent ∧ e.shiftPlanned = q.shading.shiftPlanned) ∧
      q.shading.history.length = min 8 (p.shading.history.length + 1) ∧
      q = { p with shading := q.shading }

/-- The strike that stages 1 to 6 compute, with the class's VelFloor in its range: the strike code from shade, accent, volume,
trim and soft offset, lowered by heat above WarmLimit; pulse width, flight and duty interpolated on the class's curve, rounded
toward the lower point; the lead from flight and lead trim, held from 1,000 to 155,000 µs; the launch instant, the claims, the
half by SplitKey, and DERATED (R94, R95, R97 to R100). -/
def Obligations.ComputedStrike : Prop :=
  ∀ (f : Format) (k : Key) (n : Word32) (tag : Word) (e : HistoryEntry) (p : Part),
    (classOf k p).velFloor ≤ 512 →
    let st := computeStrike f k n tag e p
    let c := classOf k p
    let v := p.strikes.voicing
    let heat := (keyRec k p).heat
    let bass := k.val + 1 ≤ f.splitKey
    let shade := min 1023 (if bass then e.shadeBass + e.accentBass else e.shadeTreble + e.accentTreble)
    let volume := if bass then p.strikes.volBass else p.strikes.volTreble
    let scaled : Int := ((shade * volume + 64) / 128 : Nat)
    let lowered := scaled + v.strikeTrim[k] - (if e.shiftPlanned = true then (f.softOffset : Int) else 0)
    let cool := max c.velFloor (max 0 (min 1023 lowered)).toNat
    let factor := max 64 (min 256 ((v.cutLimit - heat) * 256 / (v.cutLimit - v.warmLimit)))
    st.v = (if v.warmLimit < heat then max c.velFloor (cool * factor / 256) else cool) ∧
      c.velFloor ≤ st.v ∧ st.v ≤ 1023 ∧
      (∀ (j : Nat) (hj : j < 16), j = st.v / 64 →
        let a := v.curves[c.curve][j]
        let b := v.curves[c.curve][j + 1]
        let x : Int := (st.v % 64 : Nat)
        (st.w : Int) = a.w + Int.tdiv (((b.w : Int) - a.w) * x) 64 ∧
          (st.d : Int) = a.d + Int.tdiv (((b.d : Int) - a.d) * x) 64 ∧
          (st.u : Int) = a.u + Int.tdiv (((b.u : Int) - a.u) * x) 64) ∧
      (st.lead : Int) = max 1000 (min 155000 ((st.d : Int) + (keyRec k p).trim)) ∧
      st.planned = e.due - BitVec.ofNat 32 st.lead ∧ st.launchAt = st.planned ∧ st.due = e.due ∧
      st.iLaunch = c.ifull * st.u / 255 ∧ st.iHold = c.ifull * c.holdDuty / 255 ∧
      st.half = (if bass then .bass else .treble) ∧
      (st.derated = true ↔ v.warmLimit < heat) ∧
      st.tag = tag ∧ st.key = k ∧ st.datedLine = n

/-! ## The log -/

/-- A record that the filter keeps and that has room is stored in the slot that the Log Write Mark names, with the words of
Table 11-1; the mark advances by the slots used, the fill never passes the ring, and no slot from the read mark in force to the
old Log Write Mark is written (R192, R193, R195). Stated for a record of one slot. -/
def Obligations.LogRecordStored : Prop :=
  ∀ (r : Record) (p : Part), Memory.wf p.mem = true → RingPlaced p.log → p.log.configured = true →
    filterKeeps r p = true → r.extension = none → (p.log.writeMark - p.log.readMark).toNat < p.log.slots →
    let q := logRecord r p
    let slot := fun m : Word => p.log.base + 16 * (m.toNat % p.log.slots)
    let line := match r.line with
      | some n => n
      | none => p.time.nextLine
    q.log.writeMark = p.log.writeMark + 1 ∧ wordAt Config.logWriteMarkOffset q = p.log.writeMark + 1 ∧
      (q.log.writeMark - q.log.readMark).toNat ≤ q.log.slots ∧
      (∀ j : Nat, j < (p.log.writeMark - p.log.readMark).toNat → ∀ b, b < 16 →
        Memory.read q.mem (slot (p.log.readMark + BitVec.ofNat 16 j) + b)
          = Memory.read p.mem (slot (p.log.readMark + BitVec.ofNat 16 j) + b)) ∧
      wordAt (slot p.log.writeMark) q = BitVec.ofNat 16 (r.kind + 256 * r.high) ∧
      wordAt (slot p.log.writeMark + 2) q = r.item ∧
      wordAt (slot p.log.writeMark + 4) q = line.extractLsb' 0 16 ∧
      wordAt (slot p.log.writeMark + 6) q = line.extractLsb' 16 16 ∧
      wordAt (slot p.log.writeMark + 8) q = p.time.clock.extractLsb' 0 16 ∧
      wordAt (slot p.log.writeMark + 10) q = p.time.clock.extractLsb' 16 16 ∧
      wordAt (slot p.log.writeMark + 12) q = r.valueA ∧ wordAt (slot p.log.writeMark + 14) q = r.valueB ∧
      q = { p with mem := q.mem, window := q.window, log := { p.log with writeMark := q.log.writeMark } }
end

