-- ==== Sys2Proof/Laws/Memory.lean ====
section
/-! SUPPORT. Laws of Performance Memory: reading what was written, other bytes unchanged, and the canonical form kept by
every operation. -/

namespace Sys2Proof.Machine

/-! ## Reading after writing -/

/-- Where a head address lies above `a`, the rest of a canonical memory does not list `a`. -/
theorem Memory.read_below : ∀ (m : Memory) (b : Nat) (v : Byte) (a : Nat), Memory.wf ((b, v) :: m) = true → a < b →
    Memory.read m a = Memory.unlisted
  | [], _, _, _, _, _ => rfl
  | (c, w) :: rest, b, v, a, h, hab => by
    simp only [Memory.wf, Bool.and_eq_true, decide_eq_true_eq] at h
    have hc : c ≠ a := by omega
    simp only [Memory.read, hc, if_false]
    exact Memory.read_below rest c w a h.2 (by omega)

/-- The tail of a canonical memory is canonical. -/
theorem Memory.wf_tail {c : Host.Cell} {m : Memory} (h : Memory.wf (c :: m) = true) : Memory.wf m = true := by
  cases m with
  | nil => rfl
  | cons d rest =>
    simp only [Memory.wf, Bool.and_eq_true] at h
    exact h.2

/-- A written byte reads as written. -/
theorem Memory.read_write_same : ∀ (m : Memory) (a : Nat) (v : Byte), Memory.wf m = true →
    Memory.read (Memory.write m a v) a = v
  | [], a, v, _ => by
    by_cases hv : v = Memory.unlisted <;> simp [Memory.write, Memory.read, hv]
  | (b, w) :: rest, a, v, h => by
    simp only [Memory.write]
    split
    · rename_i hab
      split
      · rename_i hv
        have hba : b ≠ a := by omega
        simp only [Memory.read, hba, if_false]
        rw [Memory.read_below rest b w a h hab, hv]
      · simp [Memory.read]
    · split
      · rename_i hab
        subst hab
        split
        · rename_i hv
          rw [hv]
          cases rest with
          | nil => rfl
          | cons c rest' =>
            obtain ⟨c, x⟩ := c
            simp only [Memory.wf, Bool.and_eq_true, decide_eq_true_eq] at h
            have hca : c ≠ a := by omega
            simp only [Memory.read, hca, if_false]
            exact Memory.read_below rest' c x a h.2 h.1.2
        · simp [Memory.read]
      · rename_i h1 h2
        have hba : b ≠ a := fun e => h2 e.symm
        simp only [Memory.read, hba, if_false]
        exact Memory.read_write_same rest a v (Memory.wf_tail h)

/-- A write leaves every other byte as it was. -/
theorem Memory.read_write_other : ∀ (m : Memory) (a x : Nat) (v : Byte), x ≠ a →
    Memory.read (Memory.write m a v) x = Memory.read m x
  | [], a, x, v, hx => by
    by_cases hv : v = Memory.unlisted <;> simp [Memory.write, Memory.read, hv, Ne.symm hx]
  | (b, w) :: rest, a, x, v, hx => by
    simp only [Memory.write]
    split
    · split
      · rfl
      · simp [Memory.read, Ne.symm hx]
    · split
      · rename_i hab
        subst hab
        split <;> simp [Memory.read, Ne.symm hx]
      · simp only [Memory.read]
        rw [Memory.read_write_other rest a x v hx]

/-! ## The canonical form -/

/-- The canonical form: addresses rise strictly, and no listed byte is what an unlisted one reads as. -/
theorem Memory.wf_iff (m : Memory) :
    Memory.wf m = true ↔ m.Pairwise (fun c d => c.1 < d.1) ∧ ∀ c ∈ m, c.2 ≠ Memory.unlisted := by
  induction m with
  | nil => simp [Memory.wf]
  | cons c rest ih =>
    cases rest with
    | nil => simp [Memory.wf]
    | cons d rest' =>
      simp only [Memory.wf, Bool.and_eq_true, decide_eq_true_eq, ih, bne_iff_ne]
      constructor
      · rintro ⟨⟨h1, h2⟩, h3, h4⟩
        refine ⟨List.pairwise_cons.2 ⟨?_, h3⟩, ?_⟩
        · intro x hx
          rcases List.mem_cons.1 hx with rfl | hx
          · exact h2
          · exact lt_trans h2 ((List.pairwise_cons.1 h3).1 x hx)
        · intro x hx
          rcases List.mem_cons.1 hx with rfl | hx
          · exact h1
          · exact h4 x hx
      · rintro ⟨h1, h2⟩
        obtain ⟨h3, h4⟩ := List.pairwise_cons.1 h1
        exact ⟨⟨h2 c (by simp), h3 d (by simp)⟩, h4, fun x hx => h2 x (List.mem_cons_of_mem _ hx)⟩

/-- A cell of a written memory is the written one or an old one. -/
theorem Memory.mem_write (m : Memory) (a : Nat) (v : Byte) (c : Host.Cell) (h : c ∈ Memory.write m a v) :
    (c = (a, v) ∧ v ≠ Memory.unlisted) ∨ c ∈ m := by
  induction m with
  | nil =>
    simp only [Memory.write] at h
    split at h
    · simp at h
    · rename_i hv
      exact .inl ⟨by simpa using h, hv⟩
  | cons d rest ih =>
    obtain ⟨d, w⟩ := d
    simp only [Memory.write] at h
    split at h
    · split at h
      · exact .inr h
      · rename_i hv
        rcases List.mem_cons.1 h with h | h
        · exact .inl ⟨h, hv⟩
        · exact .inr h
    · split at h
      · split at h
        · exact .inr (List.mem_cons_of_mem _ h)
        · rename_i hv
          rcases List.mem_cons.1 h with h | h
          · exact .inl ⟨h, hv⟩
          · exact .inr (List.mem_cons_of_mem _ h)
      · rcases List.mem_cons.1 h with h | h
        · exact .inr (h ▸ List.mem_cons_self)
        · rcases ih h with h | h
          · exact .inl h
          · exact .inr (List.mem_cons_of_mem _ h)

/-- A write keeps the addresses rising. -/
theorem Memory.pairwise_write (m : Memory) (a : Nat) (v : Byte) (h : m.Pairwise (fun c d => c.1 < d.1)) :
    (Memory.write m a v).Pairwise (fun c d => c.1 < d.1) := by
  induction m with
  | nil => simp only [Memory.write]; split <;> simp
  | cons d rest ih =>
    obtain ⟨d, w⟩ := d
    obtain ⟨h1, h2⟩ := List.pairwise_cons.1 h
    simp only [Memory.write]
    split
    · rename_i had
      split
      · exact h
      · refine List.pairwise_cons.2 ⟨fun x hx => ?_, h⟩
        rcases List.mem_cons.1 hx with rfl | hx
        · exact had
        · exact lt_trans had (h1 x hx)
    · split
      · rename_i had
        split
        · exact h2
        · exact List.pairwise_cons.2 ⟨fun x hx => had ▸ h1 x hx, h2⟩
      · refine List.pairwise_cons.2 ⟨fun x hx => ?_, ih h2⟩
        rcases Memory.mem_write rest a v x hx with ⟨rfl, _⟩ | hx
        · show d < a
          omega
        · exact h1 x hx

/-- A byte write keeps the canonical form. -/
theorem Memory.wf_write (m : Memory) (a : Nat) (v : Byte) (h : Memory.wf m = true) :
    Memory.wf (Memory.write m a v) = true := by
  rw [Memory.wf_iff] at h ⊢
  refine ⟨Memory.pairwise_write m a v h.1, fun c hc => ?_⟩
  rcases Memory.mem_write m a v c hc with ⟨rfl, hv⟩ | hc
  · exact hv
  · exact h.2 c hc

/-- A word write keeps the canonical form. -/
theorem Memory.wf_writeWord (m : Memory) (off : Nat) (v : Word) (h : Memory.wf m = true) :
    Memory.wf (Memory.writeWord m off v) = true := Memory.wf_write _ _ _ (Memory.wf_write _ _ _ h)

/-- A write of several words keeps the canonical form. -/
theorem Memory.wf_writeWords (vs : List Word) (m : Memory) (off : Nat) (h : Memory.wf m = true) :
    Memory.wf (Memory.writeWords m off vs) = true := by
  induction vs generalizing m off with
  | nil => exact h
  | cons v rest ih => exact ih _ _ (Memory.wf_writeWord m off v h)

/-- Clearing the Control Page keeps the canonical form. -/
theorem Memory.wf_clearControlPage (m : Memory) (h : Memory.wf m = true) :
    Memory.wf (Memory.clearControlPage m) = true := by
  rw [Memory.wf_iff] at h ⊢
  exact ⟨h.1.filter _, fun c hc => h.2 c (List.mem_of_mem_filter hc)⟩

/-! ## Words -/

/-- A word write leaves every byte outside its two as it was. -/
theorem Memory.read_writeWord_other (m : Memory) (off x : Nat) (v : Word) (h1 : x ≠ off) (h2 : x ≠ off + 1) :
    Memory.read (Memory.writeWord m off v) x = Memory.read m x := by
  rw [Memory.writeWord, Memory.read_write_other _ _ _ _ h2, Memory.read_write_other _ _ _ _ h1]

/-- A written word reads as written. -/
theorem Memory.readWord_writeWord_same (m : Memory) (off : Nat) (v : Word) (h : Memory.wf m = true) :
    Memory.readWord (Memory.writeWord m off v) off = v := by
  have hne : off ≠ off + 1 := by omega
  rw [Memory.readWord, Memory.writeWord, Memory.read_write_same _ _ _ (Memory.wf_write _ _ _ h),
    Memory.read_write_other _ _ _ _ hne, Memory.read_write_same _ _ _ h]
  exact BitVec.eq_of_toNat_eq (by
    simp only [BitVec.toNat_append, BitVec.extractLsb'_toNat, Nat.shiftLeft_eq, Nat.shiftRight_eq_div_pow]
    have hv := v.isLt
    rw [← Nat.shiftLeft_eq, ← Nat.shiftLeft_add_eq_or_of_lt (by omega), Nat.shiftLeft_eq]
    omega)

/-- A write of `vs.length` words leaves every byte outside them as it was. -/
theorem Memory.read_writeWords_other (vs : List Word) (m : Memory) (off x : Nat)
    (h : x < off ∨ off + 2 * vs.length ≤ x) : Memory.read (Memory.writeWords m off vs) x = Memory.read m x := by
  induction vs generalizing m off with
  | nil => rfl
  | cons v rest ih =>
    simp only [List.length_cons] at h
    rw [Memory.writeWords, ih _ _ (by omega), Memory.read_writeWord_other _ _ _ _ (by omega) (by omega)]

/-- A word outside the words written reads as before. -/
theorem Memory.readWord_writeWords_other (vs : List Word) (m : Memory) (off x : Nat)
    (h : x + 1 < off ∨ off + 2 * vs.length ≤ x) :
    Memory.readWord (Memory.writeWords m off vs) x = Memory.readWord m x := by
  rw [Memory.readWord, Memory.readWord, Memory.read_writeWords_other _ _ _ _ (by omega),
    Memory.read_writeWords_other _ _ _ _ (by omega)]

/-- A word that a word write does not touch reads as before. -/
theorem Memory.readWord_writeWord_other (m : Memory) (off x : Nat) (v : Word) (h : x + 1 < off ∨ off + 2 ≤ x) :
    Memory.readWord (Memory.writeWord m off v) x = Memory.readWord m x := by
  rw [Memory.readWord, Memory.readWord, Memory.read_writeWord_other _ _ _ _ (by omega) (by omega),
    Memory.read_writeWord_other _ _ _ _ (by omega) (by omega)]

/-- The words written read as written. -/
theorem Memory.readWord_writeWords_same (vs : List Word) (m : Memory) (off i : Nat) (hm : Memory.wf m = true)
    (hi : i < vs.length) : Memory.readWord (Memory.writeWords m off vs) (off + 2 * i) = vs[i] := by
  induction vs generalizing m off i with
  | nil => simp at hi
  | cons v rest ih =>
    cases i with
    | zero =>
      rw [Memory.writeWords, Memory.readWord_writeWords_other _ _ _ _ (by omega)]
      exact Memory.readWord_writeWord_same m off v hm
    | succ i =>
      have := ih (Memory.writeWord m off v) (off + 2) i (Memory.wf_writeWord m off v hm) (by simpa using hi)
      rw [Memory.writeWords, List.getElem_cons_succ, ← this]
      congr 1
      omega

/-- Bytes outside the Control Page stay when it is cleared. -/
theorem Memory.read_clearControlPage (m : Memory) (x : Nat) :
    Memory.read (Memory.clearControlPage m) x = if x < Config.controlPageEnd then Memory.unlisted else Memory.read m x := by
  induction m with
  | nil => simp [Memory.clearControlPage, Memory.read]
  | cons c rest ih =>
    obtain ⟨b, w⟩ := c
    rw [Memory.clearControlPage, List.filter_cons]
    split
    · rename_i hb
      have hb : Config.controlPageEnd ≤ b := by simpa using hb
      simp only [Memory.read]
      rw [← Memory.clearControlPage, ih]
      by_cases hbx : b = x
      · have : ¬ x < Config.controlPageEnd := by omega
        simp [hbx, this]
      · simp [hbx]
    · rename_i hb
      have hb : b < Config.controlPageEnd := by simpa using hb
      rw [← Memory.clearControlPage, ih]
      split
      · rfl
      · have : b ≠ x := by omega
        simp [Memory.read, this]

end Sys2Proof.Machine
end

