-- ==== Sys2Proof/Laws/State.lean ====
section
/-! SUPPORT. What the small operations leave unchanged, field by field, and what reading gives after writing. -/

namespace Sys2Proof.Machine

/-! ## Records of keys, sense units and pedals -/

@[simp] theorem keyRec_putKey_same (k : Key) (r : KeyRec) (p : Part) : keyRec k (putKey k r p) = r := by
  simp [keyRec, putKey]

theorem keyRec_putKey_other {j k : Key} (h : j ≠ k) (r : KeyRec) (p : Part) :
    keyRec j (putKey k r p) = keyRec j p := by
  have hv : k.val ≠ j.val := fun e => h (Fin.ext e.symm)
  simp [keyRec, putKey, hv]

@[simp] theorem senseRec_putSense_same (k : Key) (r : SenseRec) (p : Part) : senseRec k (putSense k r p) = r := by
  simp [senseRec, putSense]

theorem senseRec_putSense_other {j k : Key} (h : j ≠ k) (r : SenseRec) (p : Part) :
    senseRec j (putSense k r p) = senseRec j p := by
  have hv : k.val ≠ j.val := fun e => h (Fin.ext e.symm)
  simp [senseRec, putSense, hv]

@[simp] theorem pedalRec_putPedal_same (d : Pedal) (r : PedalRec) (p : Part) : pedalRec d (putPedal d r p) = r := by
  simp [pedalRec, putPedal]

theorem pedalRec_putPedal_other {d e : Pedal} (h : d ≠ e) (r : PedalRec) (p : Part) :
    pedalRec d (putPedal e r p) = pedalRec d p := by
  have hv : (pedalIndex e).val ≠ (pedalIndex d).val := by cases d <;> cases e <;> first | exact absurd rfl h | decide
  simp [pedalRec, putPedal, hv]

/-! ## putWord -/

@[simp] theorem putWord_clocks (off : Nat) (v : Word) (p : Part) : (putWord off v p).clocks = p.clocks := rfl
@[simp] theorem putWord_window (off : Nat) (v : Word) (p : Part) : (putWord off v p).window = p.window := rfl
@[simp] theorem putWord_strip (off : Nat) (v : Word) (p : Part) : (putWord off v p).strip = p.strip := rfl
@[simp] theorem putWord_leader (off : Nat) (v : Word) (p : Part) : (putWord off v p).leader = p.leader := rfl
@[simp] theorem putWord_formats (off : Nat) (v : Word) (p : Part) : (putWord off v p).formats = p.formats := rfl
@[simp] theorem putWord_time (off : Nat) (v : Word) (p : Part) : (putWord off v p).time = p.time := rfl
@[simp] theorem putWord_shading (off : Nat) (v : Word) (p : Part) : (putWord off v p).shading = p.shading := rfl
@[simp] theorem putWord_strikes (off : Nat) (v : Word) (p : Part) : (putWord off v p).strikes = p.strikes := rfl
@[simp] theorem putWord_wheel (off : Nat) (v : Word) (p : Part) : (putWord off v p).wheel = p.wheel := rfl
@[simp] theorem putWord_keys (off : Nat) (v : Word) (p : Part) : (putWord off v p).keys = p.keys := rfl
@[simp] theorem putWord_sense (off : Nat) (v : Word) (p : Part) : (putWord off v p).sense = p.sense := rfl
@[simp] theorem putWord_senseLevels (off : Nat) (v : Word) (p : Part) : (putWord off v p).senseLevels = p.senseLevels := rfl
@[simp] theorem putWord_budget (off : Nat) (v : Word) (p : Part) : (putWord off v p).budget = p.budget := rfl
@[simp] theorem putWord_analog (off : Nat) (v : Word) (p : Part) : (putWord off v p).analog = p.analog := rfl
@[simp] theorem putWord_pedals (off : Nat) (v : Word) (p : Part) : (putWord off v p).pedals = p.pedals := rfl
@[simp] theorem putWord_capture (off : Nat) (v : Word) (p : Part) : (putWord off v p).capture = p.capture := rfl
@[simp] theorem putWord_log (off : Nat) (v : Word) (p : Part) : (putWord off v p).log = p.log := rfl
@[simp] theorem putWord_pins (off : Nat) (v : Word) (p : Part) : (putWord off v p).pins = p.pins := rfl
@[simp] theorem keyRec_putWord (off : Nat) (v : Word) (j : Key) (p : Part) :
    keyRec j (putWord off v p) = keyRec j p := by simp [keyRec]
@[simp] theorem senseRec_putWord (off : Nat) (v : Word) (j : Key) (p : Part) :
    senseRec j (putWord off v p) = senseRec j p := by simp [senseRec]
@[simp] theorem pedalRec_putWord (off : Nat) (v : Word) (j : Pedal) (p : Part) :
    pedalRec j (putWord off v p) = pedalRec j p := by simp [pedalRec]

/-! ## putWords -/

@[simp] theorem putWords_clocks (off : Nat) (vs : List Word) (p : Part) : (putWords off vs p).clocks = p.clocks := rfl
@[simp] theorem putWords_window (off : Nat) (vs : List Word) (p : Part) : (putWords off vs p).window = p.window := rfl
@[simp] theorem putWords_strip (off : Nat) (vs : List Word) (p : Part) : (putWords off vs p).strip = p.strip := rfl
@[simp] theorem putWords_leader (off : Nat) (vs : List Word) (p : Part) : (putWords off vs p).leader = p.leader := rfl
@[simp] theorem putWords_formats (off : Nat) (vs : List Word) (p : Part) : (putWords off vs p).formats = p.formats := rfl
@[simp] theorem putWords_time (off : Nat) (vs : List Word) (p : Part) : (putWords off vs p).time = p.time := rfl
@[simp] theorem putWords_shading (off : Nat) (vs : List Word) (p : Part) : (putWords off vs p).shading = p.shading := rfl
@[simp] theorem putWords_strikes (off : Nat) (vs : List Word) (p : Part) : (putWords off vs p).strikes = p.strikes := rfl
@[simp] theorem putWords_wheel (off : Nat) (vs : List Word) (p : Part) : (putWords off vs p).wheel = p.wheel := rfl
@[simp] theorem putWords_keys (off : Nat) (vs : List Word) (p : Part) : (putWords off vs p).keys = p.keys := rfl
@[simp] theorem putWords_sense (off : Nat) (vs : List Word) (p : Part) : (putWords off vs p).sense = p.sense := rfl
@[simp] theorem putWords_senseLevels (off : Nat) (vs : List Word) (p : Part) : (putWords off vs p).senseLevels = p.senseLevels := rfl
@[simp] theorem putWords_budget (off : Nat) (vs : List Word) (p : Part) : (putWords off vs p).budget = p.budget := rfl
@[simp] theorem putWords_analog (off : Nat) (vs : List Word) (p : Part) : (putWords off vs p).analog = p.analog := rfl
@[simp] theorem putWords_pedals (off : Nat) (vs : List Word) (p : Part) : (putWords off vs p).pedals = p.pedals := rfl
@[simp] theorem putWords_capture (off : Nat) (vs : List Word) (p : Part) : (putWords off vs p).capture = p.capture := rfl
@[simp] theorem putWords_log (off : Nat) (vs : List Word) (p : Part) : (putWords off vs p).log = p.log := rfl
@[simp] theorem putWords_pins (off : Nat) (vs : List Word) (p : Part) : (putWords off vs p).pins = p.pins := rfl
@[simp] theorem keyRec_putWords (off : Nat) (vs : List Word) (j : Key) (p : Part) :
    keyRec j (putWords off vs p) = keyRec j p := by simp [keyRec]
@[simp] theorem senseRec_putWords (off : Nat) (vs : List Word) (j : Key) (p : Part) :
    senseRec j (putWords off vs p) = senseRec j p := by simp [senseRec]
@[simp] theorem pedalRec_putWords (off : Nat) (vs : List Word) (j : Pedal) (p : Part) :
    pedalRec j (putWords off vs p) = pedalRec j p := by simp [pedalRec]

/-! ## putKey -/

@[simp] theorem putKey_mem (k : Key) (r : KeyRec) (p : Part) : (putKey k r p).mem = p.mem := rfl
@[simp] theorem putKey_clocks (k : Key) (r : KeyRec) (p : Part) : (putKey k r p).clocks = p.clocks := rfl
@[simp] theorem putKey_window (k : Key) (r : KeyRec) (p : Part) : (putKey k r p).window = p.window := rfl
@[simp] theorem putKey_strip (k : Key) (r : KeyRec) (p : Part) : (putKey k r p).strip = p.strip := rfl
@[simp] theorem putKey_leader (k : Key) (r : KeyRec) (p : Part) : (putKey k r p).leader = p.leader := rfl
@[simp] theorem putKey_formats (k : Key) (r : KeyRec) (p : Part) : (putKey k r p).formats = p.formats := rfl
@[simp] theorem putKey_time (k : Key) (r : KeyRec) (p : Part) : (putKey k r p).time = p.time := rfl
@[simp] theorem putKey_shading (k : Key) (r : KeyRec) (p : Part) : (putKey k r p).shading = p.shading := rfl
@[simp] theorem putKey_strikes (k : Key) (r : KeyRec) (p : Part) : (putKey k r p).strikes = p.strikes := rfl
@[simp] theorem putKey_wheel (k : Key) (r : KeyRec) (p : Part) : (putKey k r p).wheel = p.wheel := rfl
@[simp] theorem putKey_sense (k : Key) (r : KeyRec) (p : Part) : (putKey k r p).sense = p.sense := rfl
@[simp] theorem putKey_senseLevels (k : Key) (r : KeyRec) (p : Part) : (putKey k r p).senseLevels = p.senseLevels := rfl
@[simp] theorem putKey_budget (k : Key) (r : KeyRec) (p : Part) : (putKey k r p).budget = p.budget := rfl
@[simp] theorem putKey_analog (k : Key) (r : KeyRec) (p : Part) : (putKey k r p).analog = p.analog := rfl
@[simp] theorem putKey_pedals (k : Key) (r : KeyRec) (p : Part) : (putKey k r p).pedals = p.pedals := rfl
@[simp] theorem putKey_capture (k : Key) (r : KeyRec) (p : Part) : (putKey k r p).capture = p.capture := rfl
@[simp] theorem putKey_log (k : Key) (r : KeyRec) (p : Part) : (putKey k r p).log = p.log := rfl
@[simp] theorem putKey_pins (k : Key) (r : KeyRec) (p : Part) : (putKey k r p).pins = p.pins := rfl
@[simp] theorem senseRec_putKey (k : Key) (r : KeyRec) (j : Key) (p : Part) :
    senseRec j (putKey k r p) = senseRec j p := by simp [senseRec]
@[simp] theorem pedalRec_putKey (k : Key) (r : KeyRec) (j : Pedal) (p : Part) :
    pedalRec j (putKey k r p) = pedalRec j p := by simp [pedalRec]

/-! ## putSense -/

@[simp] theorem putSense_mem (k : Key) (r : SenseRec) (p : Part) : (putSense k r p).mem = p.mem := rfl
@[simp] theorem putSense_clocks (k : Key) (r : SenseRec) (p : Part) : (putSense k r p).clocks = p.clocks := rfl
@[simp] theorem putSense_window (k : Key) (r : SenseRec) (p : Part) : (putSense k r p).window = p.window := rfl
@[simp] theorem putSense_strip (k : Key) (r : SenseRec) (p : Part) : (putSense k r p).strip = p.strip := rfl
@[simp] theorem putSense_leader (k : Key) (r : SenseRec) (p : Part) : (putSense k r p).leader = p.leader := rfl
@[simp] theorem putSense_formats (k : Key) (r : SenseRec) (p : Part) : (putSense k r p).formats = p.formats := rfl
@[simp] theorem putSense_time (k : Key) (r : SenseRec) (p : Part) : (putSense k r p).time = p.time := rfl
@[simp] theorem putSense_shading (k : Key) (r : SenseRec) (p : Part) : (putSense k r p).shading = p.shading := rfl
@[simp] theorem putSense_strikes (k : Key) (r : SenseRec) (p : Part) : (putSense k r p).strikes = p.strikes := rfl
@[simp] theorem putSense_wheel (k : Key) (r : SenseRec) (p : Part) : (putSense k r p).wheel = p.wheel := rfl
@[simp] theorem putSense_keys (k : Key) (r : SenseRec) (p : Part) : (putSense k r p).keys = p.keys := rfl
@[simp] theorem putSense_senseLevels (k : Key) (r : SenseRec) (p : Part) : (putSense k r p).senseLevels = p.senseLevels := rfl
@[simp] theorem putSense_budget (k : Key) (r : SenseRec) (p : Part) : (putSense k r p).budget = p.budget := rfl
@[simp] theorem putSense_analog (k : Key) (r : SenseRec) (p : Part) : (putSense k r p).analog = p.analog := rfl
@[simp] theorem putSense_pedals (k : Key) (r : SenseRec) (p : Part) : (putSense k r p).pedals = p.pedals := rfl
@[simp] theorem putSense_capture (k : Key) (r : SenseRec) (p : Part) : (putSense k r p).capture = p.capture := rfl
@[simp] theorem putSense_log (k : Key) (r : SenseRec) (p : Part) : (putSense k r p).log = p.log := rfl
@[simp] theorem putSense_pins (k : Key) (r : SenseRec) (p : Part) : (putSense k r p).pins = p.pins := rfl
@[simp] theorem keyRec_putSense (k : Key) (r : SenseRec) (j : Key) (p : Part) :
    keyRec j (putSense k r p) = keyRec j p := by simp [keyRec]
@[simp] theorem pedalRec_putSense (k : Key) (r : SenseRec) (j : Pedal) (p : Part) :
    pedalRec j (putSense k r p) = pedalRec j p := by simp [pedalRec]

/-! ## putPedal -/

@[simp] theorem putPedal_mem (d : Pedal) (r : PedalRec) (p : Part) : (putPedal d r p).mem = p.mem := rfl
@[simp] theorem putPedal_clocks (d : Pedal) (r : PedalRec) (p : Part) : (putPedal d r p).clocks = p.clocks := rfl
@[simp] theorem putPedal_window (d : Pedal) (r : PedalRec) (p : Part) : (putPedal d r p).window = p.window := rfl
@[simp] theorem putPedal_strip (d : Pedal) (r : PedalRec) (p : Part) : (putPedal d r p).strip = p.strip := rfl
@[simp] theorem putPedal_leader (d : Pedal) (r : PedalRec) (p : Part) : (putPedal d r p).leader = p.leader := rfl
@[simp] theorem putPedal_formats (d : Pedal) (r : PedalRec) (p : Part) : (putPedal d r p).formats = p.formats := rfl
@[simp] theorem putPedal_time (d : Pedal) (r : PedalRec) (p : Part) : (putPedal d r p).time = p.time := rfl
@[simp] theorem putPedal_shading (d : Pedal) (r : PedalRec) (p : Part) : (putPedal d r p).shading = p.shading := rfl
@[simp] theorem putPedal_strikes (d : Pedal) (r : PedalRec) (p : Part) : (putPedal d r p).strikes = p.strikes := rfl
@[simp] theorem putPedal_wheel (d : Pedal) (r : PedalRec) (p : Part) : (putPedal d r p).wheel = p.wheel := rfl
@[simp] theorem putPedal_keys (d : Pedal) (r : PedalRec) (p : Part) : (putPedal d r p).keys = p.keys := rfl
@[simp] theorem putPedal_sense (d : Pedal) (r : PedalRec) (p : Part) : (putPedal d r p).sense = p.sense := rfl
@[simp] theorem putPedal_senseLevels (d : Pedal) (r : PedalRec) (p : Part) : (putPedal d r p).senseLevels = p.senseLevels := rfl
@[simp] theorem putPedal_budget (d : Pedal) (r : PedalRec) (p : Part) : (putPedal d r p).budget = p.budget := rfl
@[simp] theorem putPedal_analog (d : Pedal) (r : PedalRec) (p : Part) : (putPedal d r p).analog = p.analog := rfl
@[simp] theorem putPedal_capture (d : Pedal) (r : PedalRec) (p : Part) : (putPedal d r p).capture = p.capture := rfl
@[simp] theorem putPedal_log (d : Pedal) (r : PedalRec) (p : Part) : (putPedal d r p).log = p.log := rfl
@[simp] theorem putPedal_pins (d : Pedal) (r : PedalRec) (p : Part) : (putPedal d r p).pins = p.pins := rfl
@[simp] theorem keyRec_putPedal (d : Pedal) (r : PedalRec) (j : Key) (p : Part) :
    keyRec j (putPedal d r p) = keyRec j p := by simp [keyRec]
@[simp] theorem senseRec_putPedal (d : Pedal) (r : PedalRec) (j : Key) (p : Part) :
    senseRec j (putPedal d r p) = senseRec j p := by simp [senseRec]

/-! ## putTrack -/

@[simp] theorem putTrack_mem (t : Fin 104) (r : TrackRec) (p : Part) : (putTrack t r p).mem = p.mem := rfl
@[simp] theorem putTrack_clocks (t : Fin 104) (r : TrackRec) (p : Part) : (putTrack t r p).clocks = p.clocks := rfl
@[simp] theorem putTrack_window (t : Fin 104) (r : TrackRec) (p : Part) : (putTrack t r p).window = p.window := rfl
@[simp] theorem putTrack_leader (t : Fin 104) (r : TrackRec) (p : Part) : (putTrack t r p).leader = p.leader := rfl
@[simp] theorem putTrack_formats (t : Fin 104) (r : TrackRec) (p : Part) : (putTrack t r p).formats = p.formats := rfl
@[simp] theorem putTrack_time (t : Fin 104) (r : TrackRec) (p : Part) : (putTrack t r p).time = p.time := rfl
@[simp] theorem putTrack_shading (t : Fin 104) (r : TrackRec) (p : Part) : (putTrack t r p).shading = p.shading := rfl
@[simp] theorem putTrack_strikes (t : Fin 104) (r : TrackRec) (p : Part) : (putTrack t r p).strikes = p.strikes := rfl
@[simp] theorem putTrack_wheel (t : Fin 104) (r : TrackRec) (p : Part) : (putTrack t r p).wheel = p.wheel := rfl
@[simp] theorem putTrack_keys (t : Fin 104) (r : TrackRec) (p : Part) : (putTrack t r p).keys = p.keys := rfl
@[simp] theorem putTrack_sense (t : Fin 104) (r : TrackRec) (p : Part) : (putTrack t r p).sense = p.sense := rfl
@[simp] theorem putTrack_senseLevels (t : Fin 104) (r : TrackRec) (p : Part) : (putTrack t r p).senseLevels = p.senseLevels := rfl
@[simp] theorem putTrack_budget (t : Fin 104) (r : TrackRec) (p : Part) : (putTrack t r p).budget = p.budget := rfl
@[simp] theorem putTrack_analog (t : Fin 104) (r : TrackRec) (p : Part) : (putTrack t r p).analog = p.analog := rfl
@[simp] theorem putTrack_pedals (t : Fin 104) (r : TrackRec) (p : Part) : (putTrack t r p).pedals = p.pedals := rfl
@[simp] theorem putTrack_capture (t : Fin 104) (r : TrackRec) (p : Part) : (putTrack t r p).capture = p.capture := rfl
@[simp] theorem putTrack_log (t : Fin 104) (r : TrackRec) (p : Part) : (putTrack t r p).log = p.log := rfl
@[simp] theorem putTrack_pins (t : Fin 104) (r : TrackRec) (p : Part) : (putTrack t r p).pins = p.pins := rfl
@[simp] theorem keyRec_putTrack (t : Fin 104) (r : TrackRec) (j : Key) (p : Part) :
    keyRec j (putTrack t r p) = keyRec j p := by simp [keyRec]
@[simp] theorem senseRec_putTrack (t : Fin 104) (r : TrackRec) (j : Key) (p : Part) :
    senseRec j (putTrack t r p) = senseRec j p := by simp [senseRec]
@[simp] theorem pedalRec_putTrack (t : Fin 104) (r : TrackRec) (j : Pedal) (p : Part) :
    pedalRec j (putTrack t r p) = pedalRec j p := by simp [pedalRec]

/-! ## putReadData -/

@[simp] theorem putReadData_mem (v : Word) (p : Part) : (putReadData v p).mem = p.mem := rfl
@[simp] theorem putReadData_clocks (v : Word) (p : Part) : (putReadData v p).clocks = p.clocks := rfl
@[simp] theorem putReadData_window (v : Word) (p : Part) : (putReadData v p).window = p.window := rfl
@[simp] theorem putReadData_strip (v : Word) (p : Part) : (putReadData v p).strip = p.strip := rfl
@[simp] theorem putReadData_leader (v : Word) (p : Part) : (putReadData v p).leader = p.leader := rfl
@[simp] theorem putReadData_formats (v : Word) (p : Part) : (putReadData v p).formats = p.formats := rfl
@[simp] theorem putReadData_time (v : Word) (p : Part) : (putReadData v p).time = p.time := rfl
@[simp] theorem putReadData_shading (v : Word) (p : Part) : (putReadData v p).shading = p.shading := rfl
@[simp] theorem putReadData_strikes (v : Word) (p : Part) : (putReadData v p).strikes = p.strikes := rfl
@[simp] theorem putReadData_wheel (v : Word) (p : Part) : (putReadData v p).wheel = p.wheel := rfl
@[simp] theorem putReadData_keys (v : Word) (p : Part) : (putReadData v p).keys = p.keys := rfl
@[simp] theorem putReadData_sense (v : Word) (p : Part) : (putReadData v p).sense = p.sense := rfl
@[simp] theorem putReadData_senseLevels (v : Word) (p : Part) : (putReadData v p).senseLevels = p.senseLevels := rfl
@[simp] theorem putReadData_budget (v : Word) (p : Part) : (putReadData v p).budget = p.budget := rfl
@[simp] theorem putReadData_analog (v : Word) (p : Part) : (putReadData v p).analog = p.analog := rfl
@[simp] theorem putReadData_pedals (v : Word) (p : Part) : (putReadData v p).pedals = p.pedals := rfl
@[simp] theorem putReadData_capture (v : Word) (p : Part) : (putReadData v p).capture = p.capture := rfl
@[simp] theorem putReadData_log (v : Word) (p : Part) : (putReadData v p).log = p.log := rfl
@[simp] theorem keyRec_putReadData (v : Word) (j : Key) (p : Part) :
    keyRec j (putReadData v p) = keyRec j p := by simp [keyRec]
@[simp] theorem senseRec_putReadData (v : Word) (j : Key) (p : Part) :
    senseRec j (putReadData v p) = senseRec j p := by simp [senseRec]
@[simp] theorem pedalRec_putReadData (v : Word) (j : Pedal) (p : Part) :
    pedalRec j (putReadData v p) = pedalRec j p := by simp [pedalRec]

/-! ## setBusy -/

@[simp] theorem setBusy_mem (op : BusyOp) (p : Part) : (setBusy op p).mem = p.mem := rfl
@[simp] theorem setBusy_clocks (op : BusyOp) (p : Part) : (setBusy op p).clocks = p.clocks := rfl
@[simp] theorem setBusy_strip (op : BusyOp) (p : Part) : (setBusy op p).strip = p.strip := rfl
@[simp] theorem setBusy_leader (op : BusyOp) (p : Part) : (setBusy op p).leader = p.leader := rfl
@[simp] theorem setBusy_formats (op : BusyOp) (p : Part) : (setBusy op p).formats = p.formats := rfl
@[simp] theorem setBusy_time (op : BusyOp) (p : Part) : (setBusy op p).time = p.time := rfl
@[simp] theorem setBusy_shading (op : BusyOp) (p : Part) : (setBusy op p).shading = p.shading := rfl
@[simp] theorem setBusy_strikes (op : BusyOp) (p : Part) : (setBusy op p).strikes = p.strikes := rfl
@[simp] theorem setBusy_wheel (op : BusyOp) (p : Part) : (setBusy op p).wheel = p.wheel := rfl
@[simp] theorem setBusy_keys (op : BusyOp) (p : Part) : (setBusy op p).keys = p.keys := rfl
@[simp] theorem setBusy_sense (op : BusyOp) (p : Part) : (setBusy op p).sense = p.sense := rfl
@[simp] theorem setBusy_senseLevels (op : BusyOp) (p : Part) : (setBusy op p).senseLevels = p.senseLevels := rfl
@[simp] theorem setBusy_budget (op : BusyOp) (p : Part) : (setBusy op p).budget = p.budget := rfl
@[simp] theorem setBusy_analog (op : BusyOp) (p : Part) : (setBusy op p).analog = p.analog := rfl
@[simp] theorem setBusy_pedals (op : BusyOp) (p : Part) : (setBusy op p).pedals = p.pedals := rfl
@[simp] theorem setBusy_capture (op : BusyOp) (p : Part) : (setBusy op p).capture = p.capture := rfl
@[simp] theorem setBusy_log (op : BusyOp) (p : Part) : (setBusy op p).log = p.log := rfl
@[simp] theorem setBusy_pins (op : BusyOp) (p : Part) : (setBusy op p).pins = p.pins := rfl
@[simp] theorem keyRec_setBusy (op : BusyOp) (j : Key) (p : Part) :
    keyRec j (setBusy op p) = keyRec j p := by simp [keyRec]
@[simp] theorem senseRec_setBusy (op : BusyOp) (j : Key) (p : Part) :
    senseRec j (setBusy op p) = senseRec j p := by simp [senseRec]
@[simp] theorem pedalRec_setBusy (op : BusyOp) (j : Pedal) (p : Part) :
    pedalRec j (setBusy op p) = pedalRec j p := by simp [pedalRec]

/-! ## passTime -/

@[simp] theorem passTime_mem (n : Nat) (p : Part) : (passTime n p).mem = p.mem := rfl
@[simp] theorem passTime_window (n : Nat) (p : Part) : (passTime n p).window = p.window := rfl
@[simp] theorem passTime_strip (n : Nat) (p : Part) : (passTime n p).strip = p.strip := rfl
@[simp] theorem passTime_leader (n : Nat) (p : Part) : (passTime n p).leader = p.leader := rfl
@[simp] theorem passTime_formats (n : Nat) (p : Part) : (passTime n p).formats = p.formats := rfl
@[simp] theorem passTime_shading (n : Nat) (p : Part) : (passTime n p).shading = p.shading := rfl
@[simp] theorem passTime_strikes (n : Nat) (p : Part) : (passTime n p).strikes = p.strikes := rfl
@[simp] theorem passTime_wheel (n : Nat) (p : Part) : (passTime n p).wheel = p.wheel := rfl
@[simp] theorem passTime_keys (n : Nat) (p : Part) : (passTime n p).keys = p.keys := rfl
@[simp] theorem passTime_sense (n : Nat) (p : Part) : (passTime n p).sense = p.sense := rfl
@[simp] theorem passTime_senseLevels (n : Nat) (p : Part) : (passTime n p).senseLevels = p.senseLevels := rfl
@[simp] theorem passTime_budget (n : Nat) (p : Part) : (passTime n p).budget = p.budget := rfl
@[simp] theorem passTime_analog (n : Nat) (p : Part) : (passTime n p).analog = p.analog := rfl
@[simp] theorem passTime_pedals (n : Nat) (p : Part) : (passTime n p).pedals = p.pedals := rfl
@[simp] theorem passTime_capture (n : Nat) (p : Part) : (passTime n p).capture = p.capture := rfl
@[simp] theorem passTime_log (n : Nat) (p : Part) : (passTime n p).log = p.log := rfl
@[simp] theorem passTime_pins (n : Nat) (p : Part) : (passTime n p).pins = p.pins := rfl
@[simp] theorem keyRec_passTime (n : Nat) (j : Key) (p : Part) :
    keyRec j (passTime n p) = keyRec j p := by simp [keyRec]
@[simp] theorem senseRec_passTime (n : Nat) (j : Key) (p : Part) :
    senseRec j (passTime n p) = senseRec j p := by simp [senseRec]
@[simp] theorem pedalRec_passTime (n : Nat) (j : Pedal) (p : Part) :
    pedalRec j (passTime n p) = pedalRec j p := by simp [pedalRec]

/-! ## driveTo -/

@[simp] theorem driveTo_mem (t : Nat) (p : Part) : (driveTo t p).mem = p.mem := rfl
@[simp] theorem driveTo_window (t : Nat) (p : Part) : (driveTo t p).window = p.window := rfl
@[simp] theorem driveTo_strip (t : Nat) (p : Part) : (driveTo t p).strip = p.strip := rfl
@[simp] theorem driveTo_leader (t : Nat) (p : Part) : (driveTo t p).leader = p.leader := rfl
@[simp] theorem driveTo_formats (t : Nat) (p : Part) : (driveTo t p).formats = p.formats := rfl
@[simp] theorem driveTo_shading (t : Nat) (p : Part) : (driveTo t p).shading = p.shading := rfl
@[simp] theorem driveTo_strikes (t : Nat) (p : Part) : (driveTo t p).strikes = p.strikes := rfl
@[simp] theorem driveTo_wheel (t : Nat) (p : Part) : (driveTo t p).wheel = p.wheel := rfl
@[simp] theorem driveTo_keys (t : Nat) (p : Part) : (driveTo t p).keys = p.keys := rfl
@[simp] theorem driveTo_sense (t : Nat) (p : Part) : (driveTo t p).sense = p.sense := rfl
@[simp] theorem driveTo_senseLevels (t : Nat) (p : Part) : (driveTo t p).senseLevels = p.senseLevels := rfl
@[simp] theorem driveTo_budget (t : Nat) (p : Part) : (driveTo t p).budget = p.budget := rfl
@[simp] theorem driveTo_analog (t : Nat) (p : Part) : (driveTo t p).analog = p.analog := rfl
@[simp] theorem driveTo_pedals (t : Nat) (p : Part) : (driveTo t p).pedals = p.pedals := rfl
@[simp] theorem driveTo_capture (t : Nat) (p : Part) : (driveTo t p).capture = p.capture := rfl
@[simp] theorem driveTo_log (t : Nat) (p : Part) : (driveTo t p).log = p.log := rfl
@[simp] theorem driveTo_pins (t : Nat) (p : Part) : (driveTo t p).pins = p.pins := rfl
@[simp] theorem keyRec_driveTo (t : Nat) (j : Key) (p : Part) :
    keyRec j (driveTo t p) = keyRec j p := by simp [keyRec]
@[simp] theorem senseRec_driveTo (t : Nat) (j : Key) (p : Part) :
    senseRec j (driveTo t p) = senseRec j p := by simp [senseRec]
@[simp] theorem pedalRec_driveTo (t : Nat) (j : Pedal) (p : Part) :
    pedalRec j (driveTo t p) = pedalRec j p := by simp [pedalRec]

/-! ## planTo -/

@[simp] theorem planTo_mem (i : Word32) (p : Part) : (planTo i p).mem = p.mem := by unfold planTo; split <;> rfl
@[simp] theorem planTo_window (i : Word32) (p : Part) : (planTo i p).window = p.window := by unfold planTo; split <;> rfl
@[simp] theorem planTo_strip (i : Word32) (p : Part) : (planTo i p).strip = p.strip := by unfold planTo; split <;> rfl
@[simp] theorem planTo_leader (i : Word32) (p : Part) : (planTo i p).leader = p.leader := by unfold planTo; split <;> rfl
@[simp] theorem planTo_formats (i : Word32) (p : Part) : (planTo i p).formats = p.formats := by unfold planTo; split <;> rfl
@[simp] theorem planTo_shading (i : Word32) (p : Part) : (planTo i p).shading = p.shading := by unfold planTo; split <;> rfl
@[simp] theorem planTo_strikes (i : Word32) (p : Part) : (planTo i p).strikes = p.strikes := by unfold planTo; split <;> rfl
@[simp] theorem planTo_wheel (i : Word32) (p : Part) : (planTo i p).wheel = p.wheel := by unfold planTo; split <;> rfl
@[simp] theorem planTo_keys (i : Word32) (p : Part) : (planTo i p).keys = p.keys := by unfold planTo; split <;> rfl
@[simp] theorem planTo_sense (i : Word32) (p : Part) : (planTo i p).sense = p.sense := by unfold planTo; split <;> rfl
@[simp] theorem planTo_senseLevels (i : Word32) (p : Part) : (planTo i p).senseLevels = p.senseLevels := by unfold planTo; split <;> rfl
@[simp] theorem planTo_budget (i : Word32) (p : Part) : (planTo i p).budget = p.budget := by unfold planTo; split <;> rfl
@[simp] theorem planTo_analog (i : Word32) (p : Part) : (planTo i p).analog = p.analog := by unfold planTo; split <;> rfl
@[simp] theorem planTo_pedals (i : Word32) (p : Part) : (planTo i p).pedals = p.pedals := by unfold planTo; split <;> rfl
@[simp] theorem planTo_capture (i : Word32) (p : Part) : (planTo i p).capture = p.capture := by unfold planTo; split <;> rfl
@[simp] theorem planTo_log (i : Word32) (p : Part) : (planTo i p).log = p.log := by unfold planTo; split <;> rfl
@[simp] theorem planTo_pins (i : Word32) (p : Part) : (planTo i p).pins = p.pins := by unfold planTo; split <;> rfl
@[simp] theorem keyRec_planTo (i : Word32) (j : Key) (p : Part) :
    keyRec j (planTo i p) = keyRec j p := by simp [keyRec]
@[simp] theorem senseRec_planTo (i : Word32) (j : Key) (p : Part) :
    senseRec j (planTo i p) = senseRec j p := by simp [senseRec]
@[simp] theorem pedalRec_planTo (i : Word32) (j : Pedal) (p : Part) :
    pedalRec j (planTo i p) = pedalRec j p := by simp [pedalRec]

/-! ## bumpBy -/

@[simp] theorem bumpBy_clocks (c : Counter) (n : Nat) (p : Part) : (bumpBy c n p).clocks = p.clocks := by
  unfold bumpBy; dsimp only; split <;> rfl
@[simp] theorem bumpBy_window (c : Counter) (n : Nat) (p : Part) : (bumpBy c n p).window = p.window := by
  unfold bumpBy; dsimp only; split <;> rfl
@[simp] theorem bumpBy_strip (c : Counter) (n : Nat) (p : Part) : (bumpBy c n p).strip = p.strip := by
  unfold bumpBy; dsimp only; split <;> rfl
@[simp] theorem bumpBy_leader (c : Counter) (n : Nat) (p : Part) : (bumpBy c n p).leader = p.leader := by
  unfold bumpBy; dsimp only; split <;> rfl
@[simp] theorem bumpBy_formats (c : Counter) (n : Nat) (p : Part) : (bumpBy c n p).formats = p.formats := by
  unfold bumpBy; dsimp only; split <;> rfl
@[simp] theorem bumpBy_time (c : Counter) (n : Nat) (p : Part) : (bumpBy c n p).time = p.time := by
  unfold bumpBy; dsimp only; split <;> rfl
@[simp] theorem bumpBy_shading (c : Counter) (n : Nat) (p : Part) : (bumpBy c n p).shading = p.shading := by
  unfold bumpBy; dsimp only; split <;> rfl
@[simp] theorem bumpBy_strikes (c : Counter) (n : Nat) (p : Part) : (bumpBy c n p).strikes = p.strikes := by
  unfold bumpBy; dsimp only; split <;> rfl
@[simp] theorem bumpBy_wheel (c : Counter) (n : Nat) (p : Part) : (bumpBy c n p).wheel = p.wheel := by
  unfold bumpBy; dsimp only; split <;> rfl
@[simp] theorem bumpBy_keys (c : Counter) (n : Nat) (p : Part) : (bumpBy c n p).keys = p.keys := by
  unfold bumpBy; dsimp only; split <;> rfl
@[simp] theorem bumpBy_sense (c : Counter) (n : Nat) (p : Part) : (bumpBy c n p).sense = p.sense := by
  unfold bumpBy; dsimp only; split <;> rfl
@[simp] theorem bumpBy_senseLevels (c : Counter) (n : Nat) (p : Part) : (bumpBy c n p).senseLevels = p.senseLevels := by
  unfold bumpBy; dsimp only; split <;> rfl
@[simp] theorem bumpBy_budget (c : Counter) (n : Nat) (p : Part) : (bumpBy c n p).budget = p.budget := by
  unfold bumpBy; dsimp only; split <;> rfl
@[simp] theorem bumpBy_analog (c : Counter) (n : Nat) (p : Part) : (bumpBy c n p).analog = p.analog := by
  unfold bumpBy; dsimp only; split <;> rfl
@[simp] theorem bumpBy_pedals (c : Counter) (n : Nat) (p : Part) : (bumpBy c n p).pedals = p.pedals := by
  unfold bumpBy; dsimp only; split <;> rfl
@[simp] theorem bumpBy_capture (c : Counter) (n : Nat) (p : Part) : (bumpBy c n p).capture = p.capture := by
  unfold bumpBy; dsimp only; split <;> rfl
@[simp] theorem bumpBy_pins (c : Counter) (n : Nat) (p : Part) : (bumpBy c n p).pins = p.pins := by
  unfold bumpBy; dsimp only; split <;> rfl
@[simp] theorem keyRec_bumpBy (c : Counter) (n : Nat) (j : Key) (p : Part) :
    keyRec j (bumpBy c n p) = keyRec j p := by simp [keyRec]
@[simp] theorem senseRec_bumpBy (c : Counter) (n : Nat) (j : Key) (p : Part) :
    senseRec j (bumpBy c n p) = senseRec j p := by simp [senseRec]
@[simp] theorem pedalRec_bumpBy (c : Counter) (n : Nat) (j : Pedal) (p : Part) :
    pedalRec j (bumpBy c n p) = pedalRec j p := by simp [pedalRec]

/-! ## bump -/

@[simp] theorem bump_clocks (c : Counter) (p : Part) : (bump c p).clocks = p.clocks := by simp [bump]
@[simp] theorem bump_window (c : Counter) (p : Part) : (bump c p).window = p.window := by simp [bump]
@[simp] theorem bump_strip (c : Counter) (p : Part) : (bump c p).strip = p.strip := by simp [bump]
@[simp] theorem bump_leader (c : Counter) (p : Part) : (bump c p).leader = p.leader := by simp [bump]
@[simp] theorem bump_formats (c : Counter) (p : Part) : (bump c p).formats = p.formats := by simp [bump]
@[simp] theorem bump_time (c : Counter) (p : Part) : (bump c p).time = p.time := by simp [bump]
@[simp] theorem bump_shading (c : Counter) (p : Part) : (bump c p).shading = p.shading := by simp [bump]
@[simp] theorem bump_strikes (c : Counter) (p : Part) : (bump c p).strikes = p.strikes := by simp [bump]
@[simp] theorem bump_wheel (c : Counter) (p : Part) : (bump c p).wheel = p.wheel := by simp [bump]
@[simp] theorem bump_keys (c : Counter) (p : Part) : (bump c p).keys = p.keys := by simp [bump]
@[simp] theorem bump_sense (c : Counter) (p : Part) : (bump c p).sense = p.sense := by simp [bump]
@[simp] theorem bump_senseLevels (c : Counter) (p : Part) : (bump c p).senseLevels = p.senseLevels := by simp [bump]
@[simp] theorem bump_budget (c : Counter) (p : Part) : (bump c p).budget = p.budget := by simp [bump]
@[simp] theorem bump_analog (c : Counter) (p : Part) : (bump c p).analog = p.analog := by simp [bump]
@[simp] theorem bump_pedals (c : Counter) (p : Part) : (bump c p).pedals = p.pedals := by simp [bump]
@[simp] theorem bump_capture (c : Counter) (p : Part) : (bump c p).capture = p.capture := by simp [bump]
@[simp] theorem bump_pins (c : Counter) (p : Part) : (bump c p).pins = p.pins := by simp [bump]
@[simp] theorem keyRec_bump (c : Counter) (j : Key) (p : Part) :
    keyRec j (bump c p) = keyRec j p := by simp [keyRec]
@[simp] theorem senseRec_bump (c : Counter) (j : Key) (p : Part) :
    senseRec j (bump c p) = senseRec j p := by simp [senseRec]
@[simp] theorem pedalRec_bump (c : Counter) (j : Pedal) (p : Part) :
    pedalRec j (bump c p) = pedalRec j p := by simp [pedalRec]

/-! ## clearCounters -/

@[simp] theorem clearCounters_clocks (p : Part) : (clearCounters p).clocks = p.clocks := by simp [clearCounters]
@[simp] theorem clearCounters_window (p : Part) : (clearCounters p).window = p.window := by simp [clearCounters]
@[simp] theorem clearCounters_strip (p : Part) : (clearCounters p).strip = p.strip := by simp [clearCounters]
@[simp] theorem clearCounters_leader (p : Part) : (clearCounters p).leader = p.leader := by simp [clearCounters]
@[simp] theorem clearCounters_formats (p : Part) : (clearCounters p).formats = p.formats := by simp [clearCounters]
@[simp] theorem clearCounters_time (p : Part) : (clearCounters p).time = p.time := by simp [clearCounters]
@[simp] theorem clearCounters_shading (p : Part) : (clearCounters p).shading = p.shading := by simp [clearCounters]
@[simp] theorem clearCounters_strikes (p : Part) : (clearCounters p).strikes = p.strikes := by simp [clearCounters]
@[simp] theorem clearCounters_wheel (p : Part) : (clearCounters p).wheel = p.wheel := by simp [clearCounters]
@[simp] theorem clearCounters_keys (p : Part) : (clearCounters p).keys = p.keys := by simp [clearCounters]
@[simp] theorem clearCounters_sense (p : Part) : (clearCounters p).sense = p.sense := by simp [clearCounters]
@[simp] theorem clearCounters_senseLevels (p : Part) : (clearCounters p).senseLevels = p.senseLevels := by simp [clearCounters]
@[simp] theorem clearCounters_budget (p : Part) : (clearCounters p).budget = p.budget := by simp [clearCounters]
@[simp] theorem clearCounters_analog (p : Part) : (clearCounters p).analog = p.analog := by simp [clearCounters]
@[simp] theorem clearCounters_pedals (p : Part) : (clearCounters p).pedals = p.pedals := by simp [clearCounters]
@[simp] theorem clearCounters_capture (p : Part) : (clearCounters p).capture = p.capture := by simp [clearCounters]
@[simp] theorem clearCounters_pins (p : Part) : (clearCounters p).pins = p.pins := by simp [clearCounters]
@[simp] theorem keyRec_clearCounters (j : Key) (p : Part) :
    keyRec j (clearCounters p) = keyRec j p := by simp [keyRec]
@[simp] theorem senseRec_clearCounters (j : Key) (p : Part) :
    senseRec j (clearCounters p) = senseRec j p := by simp [senseRec]
@[simp] theorem pedalRec_clearCounters (j : Pedal) (p : Part) :
    pedalRec j (clearCounters p) = pedalRec j p := by simp [pedalRec]

/-! ## raise -/

@[simp] theorem raise_mem (n : Notice) (p : Part) : (raise n p).mem = p.mem := by unfold raise; split <;> rfl
@[simp] theorem raise_clocks (n : Notice) (p : Part) : (raise n p).clocks = p.clocks := by unfold raise; split <;> rfl
@[simp] theorem raise_strip (n : Notice) (p : Part) : (raise n p).strip = p.strip := by unfold raise; split <;> rfl
@[simp] theorem raise_leader (n : Notice) (p : Part) : (raise n p).leader = p.leader := by unfold raise; split <;> rfl
@[simp] theorem raise_formats (n : Notice) (p : Part) : (raise n p).formats = p.formats := by unfold raise; split <;> rfl
@[simp] theorem raise_time (n : Notice) (p : Part) : (raise n p).time = p.time := by unfold raise; split <;> rfl
@[simp] theorem raise_shading (n : Notice) (p : Part) : (raise n p).shading = p.shading := by unfold raise; split <;> rfl
@[simp] theorem raise_strikes (n : Notice) (p : Part) : (raise n p).strikes = p.strikes := by unfold raise; split <;> rfl
@[simp] theorem raise_wheel (n : Notice) (p : Part) : (raise n p).wheel = p.wheel := by unfold raise; split <;> rfl
@[simp] theorem raise_keys (n : Notice) (p : Part) : (raise n p).keys = p.keys := by unfold raise; split <;> rfl
@[simp] theorem raise_sense (n : Notice) (p : Part) : (raise n p).sense = p.sense := by unfold raise; split <;> rfl
@[simp] theorem raise_senseLevels (n : Notice) (p : Part) : (raise n p).senseLevels = p.senseLevels := by unfold raise; split <;> rfl
@[simp] theorem raise_budget (n : Notice) (p : Part) : (raise n p).budget = p.budget := by unfold raise; split <;> rfl
@[simp] theorem raise_analog (n : Notice) (p : Part) : (raise n p).analog = p.analog := by unfold raise; split <;> rfl
@[simp] theorem raise_pedals (n : Notice) (p : Part) : (raise n p).pedals = p.pedals := by unfold raise; split <;> rfl
@[simp] theorem raise_capture (n : Notice) (p : Part) : (raise n p).capture = p.capture := by unfold raise; split <;> rfl
@[simp] theorem raise_log (n : Notice) (p : Part) : (raise n p).log = p.log := by unfold raise; split <;> rfl
@[simp] theorem raise_pins (n : Notice) (p : Part) : (raise n p).pins = p.pins := by unfold raise; split <;> rfl
@[simp] theorem keyRec_raise (n : Notice) (j : Key) (p : Part) :
    keyRec j (raise n p) = keyRec j p := by simp [keyRec]
@[simp] theorem senseRec_raise (n : Notice) (j : Key) (p : Part) :
    senseRec j (raise n p) = senseRec j p := by simp [senseRec]
@[simp] theorem pedalRec_raise (n : Notice) (j : Pedal) (p : Part) :
    pedalRec j (raise n p) = pedalRec j p := by simp [pedalRec]

/-! ## raiseEdge -/

@[simp] theorem raiseEdge_mem (n : Notice) (e : Edge) (p : Part) : (raiseEdge n e p).mem = p.mem := by unfold raiseEdge; split <;> simp
@[simp] theorem raiseEdge_clocks (n : Notice) (e : Edge) (p : Part) : (raiseEdge n e p).clocks = p.clocks := by unfold raiseEdge; split <;> simp
@[simp] theorem raiseEdge_strip (n : Notice) (e : Edge) (p : Part) : (raiseEdge n e p).strip = p.strip := by unfold raiseEdge; split <;> simp
@[simp] theorem raiseEdge_leader (n : Notice) (e : Edge) (p : Part) : (raiseEdge n e p).leader = p.leader := by unfold raiseEdge; split <;> simp
@[simp] theorem raiseEdge_formats (n : Notice) (e : Edge) (p : Part) : (raiseEdge n e p).formats = p.formats := by unfold raiseEdge; split <;> simp
@[simp] theorem raiseEdge_time (n : Notice) (e : Edge) (p : Part) : (raiseEdge n e p).time = p.time := by unfold raiseEdge; split <;> simp
@[simp] theorem raiseEdge_shading (n : Notice) (e : Edge) (p : Part) : (raiseEdge n e p).shading = p.shading := by unfold raiseEdge; split <;> simp
@[simp] theorem raiseEdge_strikes (n : Notice) (e : Edge) (p : Part) : (raiseEdge n e p).strikes = p.strikes := by unfold raiseEdge; split <;> simp
@[simp] theorem raiseEdge_wheel (n : Notice) (e : Edge) (p : Part) : (raiseEdge n e p).wheel = p.wheel := by unfold raiseEdge; split <;> simp
@[simp] theorem raiseEdge_keys (n : Notice) (e : Edge) (p : Part) : (raiseEdge n e p).keys = p.keys := by unfold raiseEdge; split <;> simp
@[simp] theorem raiseEdge_sense (n : Notice) (e : Edge) (p : Part) : (raiseEdge n e p).sense = p.sense := by unfold raiseEdge; split <;> simp
@[simp] theorem raiseEdge_senseLevels (n : Notice) (e : Edge) (p : Part) : (raiseEdge n e p).senseLevels = p.senseLevels := by unfold raiseEdge; split <;> simp
@[simp] theorem raiseEdge_budget (n : Notice) (e : Edge) (p : Part) : (raiseEdge n e p).budget = p.budget := by unfold raiseEdge; split <;> simp
@[simp] theorem raiseEdge_analog (n : Notice) (e : Edge) (p : Part) : (raiseEdge n e p).analog = p.analog := by unfold raiseEdge; split <;> simp
@[simp] theorem raiseEdge_pedals (n : Notice) (e : Edge) (p : Part) : (raiseEdge n e p).pedals = p.pedals := by unfold raiseEdge; split <;> simp
@[simp] theorem raiseEdge_capture (n : Notice) (e : Edge) (p : Part) : (raiseEdge n e p).capture = p.capture := by unfold raiseEdge; split <;> simp
@[simp] theorem raiseEdge_log (n : Notice) (e : Edge) (p : Part) : (raiseEdge n e p).log = p.log := by unfold raiseEdge; split <;> simp
@[simp] theorem raiseEdge_pins (n : Notice) (e : Edge) (p : Part) : (raiseEdge n e p).pins = p.pins := by unfold raiseEdge; split <;> simp
@[simp] theorem keyRec_raiseEdge (n : Notice) (e : Edge) (j : Key) (p : Part) :
    keyRec j (raiseEdge n e p) = keyRec j p := by simp [keyRec]
@[simp] theorem senseRec_raiseEdge (n : Notice) (e : Edge) (j : Key) (p : Part) :
    senseRec j (raiseEdge n e p) = senseRec j p := by simp [senseRec]
@[simp] theorem pedalRec_raiseEdge (n : Notice) (e : Edge) (j : Pedal) (p : Part) :
    pedalRec j (raiseEdge n e p) = pedalRec j p := by simp [pedalRec]

/-! ## enterPending -/

@[simp] theorem enterPending_mem (p : Part) : (enterPending p).mem = p.mem := rfl
@[simp] theorem enterPending_clocks (p : Part) : (enterPending p).clocks = p.clocks := rfl
@[simp] theorem enterPending_strip (p : Part) : (enterPending p).strip = p.strip := rfl
@[simp] theorem enterPending_leader (p : Part) : (enterPending p).leader = p.leader := rfl
@[simp] theorem enterPending_formats (p : Part) : (enterPending p).formats = p.formats := rfl
@[simp] theorem enterPending_time (p : Part) : (enterPending p).time = p.time := rfl
@[simp] theorem enterPending_shading (p : Part) : (enterPending p).shading = p.shading := rfl
@[simp] theorem enterPending_strikes (p : Part) : (enterPending p).strikes = p.strikes := rfl
@[simp] theorem enterPending_wheel (p : Part) : (enterPending p).wheel = p.wheel := rfl
@[simp] theorem enterPending_keys (p : Part) : (enterPending p).keys = p.keys := rfl
@[simp] theorem enterPending_sense (p : Part) : (enterPending p).sense = p.sense := rfl
@[simp] theorem enterPending_senseLevels (p : Part) : (enterPending p).senseLevels = p.senseLevels := rfl
@[simp] theorem enterPending_budget (p : Part) : (enterPending p).budget = p.budget := rfl
@[simp] theorem enterPending_analog (p : Part) : (enterPending p).analog = p.analog := rfl
@[simp] theorem enterPending_pedals (p : Part) : (enterPending p).pedals = p.pedals := rfl
@[simp] theorem enterPending_capture (p : Part) : (enterPending p).capture = p.capture := rfl
@[simp] theorem enterPending_log (p : Part) : (enterPending p).log = p.log := rfl
@[simp] theorem enterPending_pins (p : Part) : (enterPending p).pins = p.pins := rfl
@[simp] theorem keyRec_enterPending (j : Key) (p : Part) :
    keyRec j (enterPending p) = keyRec j p := by simp [keyRec]
@[simp] theorem senseRec_enterPending (j : Key) (p : Part) :
    senseRec j (enterPending p) = senseRec j p := by simp [senseRec]
@[simp] theorem pedalRec_enterPending (j : Pedal) (p : Part) :
    pedalRec j (enterPending p) = pedalRec j p := by simp [pedalRec]

/-! ## settlePending -/

@[simp] theorem settlePending_mem (p : Part) : (settlePending p).mem = p.mem := by unfold settlePending; split <;> rfl
@[simp] theorem settlePending_clocks (p : Part) : (settlePending p).clocks = p.clocks := by unfold settlePending; split <;> rfl
@[simp] theorem settlePending_strip (p : Part) : (settlePending p).strip = p.strip := by unfold settlePending; split <;> rfl
@[simp] theorem settlePending_leader (p : Part) : (settlePending p).leader = p.leader := by unfold settlePending; split <;> rfl
@[simp] theorem settlePending_formats (p : Part) : (settlePending p).formats = p.formats := by unfold settlePending; split <;> rfl
@[simp] theorem settlePending_time (p : Part) : (settlePending p).time = p.time := by unfold settlePending; split <;> rfl
@[simp] theorem settlePending_shading (p : Part) : (settlePending p).shading = p.shading := by unfold settlePending; split <;> rfl
@[simp] theorem settlePending_strikes (p : Part) : (settlePending p).strikes = p.strikes := by unfold settlePending; split <;> rfl
@[simp] theorem settlePending_wheel (p : Part) : (settlePending p).wheel = p.wheel := by unfold settlePending; split <;> rfl
@[simp] theorem settlePending_keys (p : Part) : (settlePending p).keys = p.keys := by unfold settlePending; split <;> rfl
@[simp] theorem settlePending_sense (p : Part) : (settlePending p).sense = p.sense := by unfold settlePending; split <;> rfl
@[simp] theorem settlePending_senseLevels (p : Part) : (settlePending p).senseLevels = p.senseLevels := by unfold settlePending; split <;> rfl
@[simp] theorem settlePending_budget (p : Part) : (settlePending p).budget = p.budget := by unfold settlePending; split <;> rfl
@[simp] theorem settlePending_analog (p : Part) : (settlePending p).analog = p.analog := by unfold settlePending; split <;> rfl
@[simp] theorem settlePending_pedals (p : Part) : (settlePending p).pedals = p.pedals := by unfold settlePending; split <;> rfl
@[simp] theorem settlePending_capture (p : Part) : (settlePending p).capture = p.capture := by unfold settlePending; split <;> rfl
@[simp] theorem settlePending_log (p : Part) : (settlePending p).log = p.log := by unfold settlePending; split <;> rfl
@[simp] theorem settlePending_pins (p : Part) : (settlePending p).pins = p.pins := by unfold settlePending; split <;> rfl
@[simp] theorem keyRec_settlePending (j : Key) (p : Part) :
    keyRec j (settlePending p) = keyRec j p := by simp [keyRec]
@[simp] theorem senseRec_settlePending (j : Key) (p : Part) :
    senseRec j (settlePending p) = senseRec j p := by simp [senseRec]
@[simp] theorem pedalRec_settlePending (j : Pedal) (p : Part) :
    pedalRec j (settlePending p) = pedalRec j p := by simp [pedalRec]

/-! ## clearNotices -/

@[simp] theorem clearNotices_mem (bits : BitVec 9) (p : Part) : (clearNotices bits p).mem = p.mem := by unfold clearNotices; simp
@[simp] theorem clearNotices_clocks (bits : BitVec 9) (p : Part) : (clearNotices bits p).clocks = p.clocks := by unfold clearNotices; simp
@[simp] theorem clearNotices_strip (bits : BitVec 9) (p : Part) : (clearNotices bits p).strip = p.strip := by unfold clearNotices; simp
@[simp] theorem clearNotices_leader (bits : BitVec 9) (p : Part) : (clearNotices bits p).leader = p.leader := by unfold clearNotices; simp
@[simp] theorem clearNotices_formats (bits : BitVec 9) (p : Part) : (clearNotices bits p).formats = p.formats := by unfold clearNotices; simp
@[simp] theorem clearNotices_time (bits : BitVec 9) (p : Part) : (clearNotices bits p).time = p.time := by unfold clearNotices; simp
@[simp] theorem clearNotices_shading (bits : BitVec 9) (p : Part) : (clearNotices bits p).shading = p.shading := by unfold clearNotices; simp
@[simp] theorem clearNotices_strikes (bits : BitVec 9) (p : Part) : (clearNotices bits p).strikes = p.strikes := by unfold clearNotices; simp
@[simp] theorem clearNotices_wheel (bits : BitVec 9) (p : Part) : (clearNotices bits p).wheel = p.wheel := by unfold clearNotices; simp
@[simp] theorem clearNotices_keys (bits : BitVec 9) (p : Part) : (clearNotices bits p).keys = p.keys := by unfold clearNotices; simp
@[simp] theorem clearNotices_sense (bits : BitVec 9) (p : Part) : (clearNotices bits p).sense = p.sense := by unfold clearNotices; simp
@[simp] theorem clearNotices_senseLevels (bits : BitVec 9) (p : Part) : (clearNotices bits p).senseLevels = p.senseLevels := by unfold clearNotices; simp
@[simp] theorem clearNotices_budget (bits : BitVec 9) (p : Part) : (clearNotices bits p).budget = p.budget := by unfold clearNotices; simp
@[simp] theorem clearNotices_analog (bits : BitVec 9) (p : Part) : (clearNotices bits p).analog = p.analog := by unfold clearNotices; simp
@[simp] theorem clearNotices_pedals (bits : BitVec 9) (p : Part) : (clearNotices bits p).pedals = p.pedals := by unfold clearNotices; simp
@[simp] theorem clearNotices_capture (bits : BitVec 9) (p : Part) : (clearNotices bits p).capture = p.capture := by unfold clearNotices; simp
@[simp] theorem clearNotices_log (bits : BitVec 9) (p : Part) : (clearNotices bits p).log = p.log := by unfold clearNotices; simp
@[simp] theorem clearNotices_pins (bits : BitVec 9) (p : Part) : (clearNotices bits p).pins = p.pins := by unfold clearNotices; simp
@[simp] theorem keyRec_clearNotices (bits : BitVec 9) (j : Key) (p : Part) :
    keyRec j (clearNotices bits p) = keyRec j p := by simp [keyRec]
@[simp] theorem senseRec_clearNotices (bits : BitVec 9) (j : Key) (p : Part) :
    senseRec j (clearNotices bits p) = senseRec j p := by simp [senseRec]
@[simp] theorem pedalRec_clearNotices (bits : BitVec 9) (j : Pedal) (p : Part) :
    pedalRec j (clearNotices bits p) = pedalRec j p := by simp [pedalRec]

/-! ## storeRecord -/

@[simp] theorem storeRecord_clocks (r : Record) (p : Part) : (storeRecord r p).clocks = p.clocks := by unfold storeRecord; dsimp only; split <;> simp
@[simp] theorem storeRecord_window (r : Record) (p : Part) : (storeRecord r p).window = p.window := by unfold storeRecord; dsimp only; split <;> simp
@[simp] theorem storeRecord_strip (r : Record) (p : Part) : (storeRecord r p).strip = p.strip := by unfold storeRecord; dsimp only; split <;> simp
@[simp] theorem storeRecord_leader (r : Record) (p : Part) : (storeRecord r p).leader = p.leader := by unfold storeRecord; dsimp only; split <;> simp
@[simp] theorem storeRecord_formats (r : Record) (p : Part) : (storeRecord r p).formats = p.formats := by unfold storeRecord; dsimp only; split <;> simp
@[simp] theorem storeRecord_time (r : Record) (p : Part) : (storeRecord r p).time = p.time := by unfold storeRecord; dsimp only; split <;> simp
@[simp] theorem storeRecord_shading (r : Record) (p : Part) : (storeRecord r p).shading = p.shading := by unfold storeRecord; dsimp only; split <;> simp
@[simp] theorem storeRecord_strikes (r : Record) (p : Part) : (storeRecord r p).strikes = p.strikes := by unfold storeRecord; dsimp only; split <;> simp
@[simp] theorem storeRecord_wheel (r : Record) (p : Part) : (storeRecord r p).wheel = p.wheel := by unfold storeRecord; dsimp only; split <;> simp
@[simp] theorem storeRecord_keys (r : Record) (p : Part) : (storeRecord r p).keys = p.keys := by unfold storeRecord; dsimp only; split <;> simp
@[simp] theorem storeRecord_sense (r : Record) (p : Part) : (storeRecord r p).sense = p.sense := by unfold storeRecord; dsimp only; split <;> simp
@[simp] theorem storeRecord_senseLevels (r : Record) (p : Part) : (storeRecord r p).senseLevels = p.senseLevels := by unfold storeRecord; dsimp only; split <;> simp
@[simp] theorem storeRecord_budget (r : Record) (p : Part) : (storeRecord r p).budget = p.budget := by unfold storeRecord; dsimp only; split <;> simp
@[simp] theorem storeRecord_analog (r : Record) (p : Part) : (storeRecord r p).analog = p.analog := by unfold storeRecord; dsimp only; split <;> simp
@[simp] theorem storeRecord_pedals (r : Record) (p : Part) : (storeRecord r p).pedals = p.pedals := by unfold storeRecord; dsimp only; split <;> simp
@[simp] theorem storeRecord_capture (r : Record) (p : Part) : (storeRecord r p).capture = p.capture := by unfold storeRecord; dsimp only; split <;> simp
@[simp] theorem storeRecord_log (r : Record) (p : Part) : (storeRecord r p).log = p.log := by unfold storeRecord; dsimp only; split <;> simp
@[simp] theorem storeRecord_pins (r : Record) (p : Part) : (storeRecord r p).pins = p.pins := by unfold storeRecord; dsimp only; split <;> simp
@[simp] theorem keyRec_storeRecord (r : Record) (j : Key) (p : Part) :
    keyRec j (storeRecord r p) = keyRec j p := by simp [keyRec]
@[simp] theorem senseRec_storeRecord (r : Record) (j : Key) (p : Part) :
    senseRec j (storeRecord r p) = senseRec j p := by simp [senseRec]
@[simp] theorem pedalRec_storeRecord (r : Record) (j : Pedal) (p : Part) :
    pedalRec j (storeRecord r p) = pedalRec j p := by simp [pedalRec]

/-! ## advanceWriteMark -/

@[simp] theorem advanceWriteMark_clocks (n : Nat) (p : Part) : (advanceWriteMark n p).clocks = p.clocks := by unfold advanceWriteMark; dsimp only; split <;> simp
@[simp] theorem advanceWriteMark_strip (n : Nat) (p : Part) : (advanceWriteMark n p).strip = p.strip := by unfold advanceWriteMark; dsimp only; split <;> simp
@[simp] theorem advanceWriteMark_leader (n : Nat) (p : Part) : (advanceWriteMark n p).leader = p.leader := by unfold advanceWriteMark; dsimp only; split <;> simp
@[simp] theorem advanceWriteMark_formats (n : Nat) (p : Part) : (advanceWriteMark n p).formats = p.formats := by unfold advanceWriteMark; dsimp only; split <;> simp
@[simp] theorem advanceWriteMark_time (n : Nat) (p : Part) : (advanceWriteMark n p).time = p.time := by unfold advanceWriteMark; dsimp only; split <;> simp
@[simp] theorem advanceWriteMark_shading (n : Nat) (p : Part) : (advanceWriteMark n p).shading = p.shading := by unfold advanceWriteMark; dsimp only; split <;> simp
@[simp] theorem advanceWriteMark_strikes (n : Nat) (p : Part) : (advanceWriteMark n p).strikes = p.strikes := by unfold advanceWriteMark; dsimp only; split <;> simp
@[simp] theorem advanceWriteMark_wheel (n : Nat) (p : Part) : (advanceWriteMark n p).wheel = p.wheel := by unfold advanceWriteMark; dsimp only; split <;> simp
@[simp] theorem advanceWriteMark_keys (n : Nat) (p : Part) : (advanceWriteMark n p).keys = p.keys := by unfold advanceWriteMark; dsimp only; split <;> simp
@[simp] theorem advanceWriteMark_sense (n : Nat) (p : Part) : (advanceWriteMark n p).sense = p.sense := by unfold advanceWriteMark; dsimp only; split <;> simp
@[simp] theorem advanceWriteMark_senseLevels (n : Nat) (p : Part) : (advanceWriteMark n p).senseLevels = p.senseLevels := by unfold advanceWriteMark; dsimp only; split <;> simp
@[simp] theorem advanceWriteMark_budget (n : Nat) (p : Part) : (advanceWriteMark n p).budget = p.budget := by unfold advanceWriteMark; dsimp only; split <;> simp
@[simp] theorem advanceWriteMark_analog (n : Nat) (p : Part) : (advanceWriteMark n p).analog = p.analog := by unfold advanceWriteMark; dsimp only; split <;> simp
@[simp] theorem advanceWriteMark_pedals (n : Nat) (p : Part) : (advanceWriteMark n p).pedals = p.pedals := by unfold advanceWriteMark; dsimp only; split <;> simp
@[simp] theorem advanceWriteMark_capture (n : Nat) (p : Part) : (advanceWriteMark n p).capture = p.capture := by unfold advanceWriteMark; dsimp only; split <;> simp
@[simp] theorem advanceWriteMark_pins (n : Nat) (p : Part) : (advanceWriteMark n p).pins = p.pins := by unfold advanceWriteMark; dsimp only; split <;> simp
@[simp] theorem keyRec_advanceWriteMark (n : Nat) (j : Key) (p : Part) :
    keyRec j (advanceWriteMark n p) = keyRec j p := by simp [keyRec]
@[simp] theorem senseRec_advanceWriteMark (n : Nat) (j : Key) (p : Part) :
    senseRec j (advanceWriteMark n p) = senseRec j p := by simp [senseRec]
@[simp] theorem pedalRec_advanceWriteMark (n : Nat) (j : Pedal) (p : Part) :
    pedalRec j (advanceWriteMark n p) = pedalRec j p := by simp [pedalRec]

/-! ## writeRecord -/

@[simp] theorem writeRecord_clocks (r : Record) (p : Part) : (writeRecord r p).clocks = p.clocks := by unfold writeRecord; simp
@[simp] theorem writeRecord_strip (r : Record) (p : Part) : (writeRecord r p).strip = p.strip := by unfold writeRecord; simp
@[simp] theorem writeRecord_leader (r : Record) (p : Part) : (writeRecord r p).leader = p.leader := by unfold writeRecord; simp
@[simp] theorem writeRecord_formats (r : Record) (p : Part) : (writeRecord r p).formats = p.formats := by unfold writeRecord; simp
@[simp] theorem writeRecord_time (r : Record) (p : Part) : (writeRecord r p).time = p.time := by unfold writeRecord; simp
@[simp] theorem writeRecord_shading (r : Record) (p : Part) : (writeRecord r p).shading = p.shading := by unfold writeRecord; simp
@[simp] theorem writeRecord_strikes (r : Record) (p : Part) : (writeRecord r p).strikes = p.strikes := by unfold writeRecord; simp
@[simp] theorem writeRecord_wheel (r : Record) (p : Part) : (writeRecord r p).wheel = p.wheel := by unfold writeRecord; simp
@[simp] theorem writeRecord_keys (r : Record) (p : Part) : (writeRecord r p).keys = p.keys := by unfold writeRecord; simp
@[simp] theorem writeRecord_sense (r : Record) (p : Part) : (writeRecord r p).sense = p.sense := by unfold writeRecord; simp
@[simp] theorem writeRecord_senseLevels (r : Record) (p : Part) : (writeRecord r p).senseLevels = p.senseLevels := by unfold writeRecord; simp
@[simp] theorem writeRecord_budget (r : Record) (p : Part) : (writeRecord r p).budget = p.budget := by unfold writeRecord; simp
@[simp] theorem writeRecord_analog (r : Record) (p : Part) : (writeRecord r p).analog = p.analog := by unfold writeRecord; simp
@[simp] theorem writeRecord_pedals (r : Record) (p : Part) : (writeRecord r p).pedals = p.pedals := by unfold writeRecord; simp
@[simp] theorem writeRecord_capture (r : Record) (p : Part) : (writeRecord r p).capture = p.capture := by unfold writeRecord; simp
@[simp] theorem writeRecord_pins (r : Record) (p : Part) : (writeRecord r p).pins = p.pins := by unfold writeRecord; simp
@[simp] theorem keyRec_writeRecord (r : Record) (j : Key) (p : Part) :
    keyRec j (writeRecord r p) = keyRec j p := by simp [keyRec]
@[simp] theorem senseRec_writeRecord (r : Record) (j : Key) (p : Part) :
    senseRec j (writeRecord r p) = senseRec j p := by simp [senseRec]
@[simp] theorem pedalRec_writeRecord (r : Record) (j : Pedal) (p : Part) :
    pedalRec j (writeRecord r p) = pedalRec j p := by simp [pedalRec]

/-! ## dropRecord -/

@[simp] theorem dropRecord_clocks (r : Record) (p : Part) : (dropRecord r p).clocks = p.clocks := by simp [dropRecord]
@[simp] theorem dropRecord_window (r : Record) (p : Part) : (dropRecord r p).window = p.window := by simp [dropRecord]
@[simp] theorem dropRecord_strip (r : Record) (p : Part) : (dropRecord r p).strip = p.strip := by simp [dropRecord]
@[simp] theorem dropRecord_leader (r : Record) (p : Part) : (dropRecord r p).leader = p.leader := by simp [dropRecord]
@[simp] theorem dropRecord_formats (r : Record) (p : Part) : (dropRecord r p).formats = p.formats := by simp [dropRecord]
@[simp] theorem dropRecord_time (r : Record) (p : Part) : (dropRecord r p).time = p.time := by simp [dropRecord]
@[simp] theorem dropRecord_shading (r : Record) (p : Part) : (dropRecord r p).shading = p.shading := by simp [dropRecord]
@[simp] theorem dropRecord_strikes (r : Record) (p : Part) : (dropRecord r p).strikes = p.strikes := by simp [dropRecord]
@[simp] theorem dropRecord_wheel (r : Record) (p : Part) : (dropRecord r p).wheel = p.wheel := by simp [dropRecord]
@[simp] theorem dropRecord_keys (r : Record) (p : Part) : (dropRecord r p).keys = p.keys := by simp [dropRecord]
@[simp] theorem dropRecord_sense (r : Record) (p : Part) : (dropRecord r p).sense = p.sense := by simp [dropRecord]
@[simp] theorem dropRecord_senseLevels (r : Record) (p : Part) : (dropRecord r p).senseLevels = p.senseLevels := by simp [dropRecord]
@[simp] theorem dropRecord_budget (r : Record) (p : Part) : (dropRecord r p).budget = p.budget := by simp [dropRecord]
@[simp] theorem dropRecord_analog (r : Record) (p : Part) : (dropRecord r p).analog = p.analog := by simp [dropRecord]
@[simp] theorem dropRecord_pedals (r : Record) (p : Part) : (dropRecord r p).pedals = p.pedals := by simp [dropRecord]
@[simp] theorem dropRecord_capture (r : Record) (p : Part) : (dropRecord r p).capture = p.capture := by simp [dropRecord]
@[simp] theorem dropRecord_pins (r : Record) (p : Part) : (dropRecord r p).pins = p.pins := by simp [dropRecord]
@[simp] theorem keyRec_dropRecord (r : Record) (j : Key) (p : Part) :
    keyRec j (dropRecord r p) = keyRec j p := by simp [keyRec]
@[simp] theorem senseRec_dropRecord (r : Record) (j : Key) (p : Part) :
    senseRec j (dropRecord r p) = senseRec j p := by simp [senseRec]
@[simp] theorem pedalRec_dropRecord (r : Record) (j : Pedal) (p : Part) :
    pedalRec j (dropRecord r p) = pedalRec j p := by simp [pedalRec]

/-! ## logRecord -/

@[simp] theorem logRecord_clocks (r : Record) (p : Part) : (logRecord r p).clocks = p.clocks := by unfold logRecord; split <;> [split; skip] <;> simp
@[simp] theorem logRecord_strip (r : Record) (p : Part) : (logRecord r p).strip = p.strip := by unfold logRecord; split <;> [split; skip] <;> simp
@[simp] theorem logRecord_leader (r : Record) (p : Part) : (logRecord r p).leader = p.leader := by unfold logRecord; split <;> [split; skip] <;> simp
@[simp] theorem logRecord_formats (r : Record) (p : Part) : (logRecord r p).formats = p.formats := by unfold logRecord; split <;> [split; skip] <;> simp
@[simp] theorem logRecord_time (r : Record) (p : Part) : (logRecord r p).time = p.time := by unfold logRecord; split <;> [split; skip] <;> simp
@[simp] theorem logRecord_shading (r : Record) (p : Part) : (logRecord r p).shading = p.shading := by unfold logRecord; split <;> [split; skip] <;> simp
@[simp] theorem logRecord_strikes (r : Record) (p : Part) : (logRecord r p).strikes = p.strikes := by unfold logRecord; split <;> [split; skip] <;> simp
@[simp] theorem logRecord_wheel (r : Record) (p : Part) : (logRecord r p).wheel = p.wheel := by unfold logRecord; split <;> [split; skip] <;> simp
@[simp] theorem logRecord_keys (r : Record) (p : Part) : (logRecord r p).keys = p.keys := by unfold logRecord; split <;> [split; skip] <;> simp
@[simp] theorem logRecord_sense (r : Record) (p : Part) : (logRecord r p).sense = p.sense := by unfold logRecord; split <;> [split; skip] <;> simp
@[simp] theorem logRecord_senseLevels (r : Record) (p : Part) : (logRecord r p).senseLevels = p.senseLevels := by unfold logRecord; split <;> [split; skip] <;> simp
@[simp] theorem logRecord_budget (r : Record) (p : Part) : (logRecord r p).budget = p.budget := by unfold logRecord; split <;> [split; skip] <;> simp
@[simp] theorem logRecord_analog (r : Record) (p : Part) : (logRecord r p).analog = p.analog := by unfold logRecord; split <;> [split; skip] <;> simp
@[simp] theorem logRecord_pedals (r : Record) (p : Part) : (logRecord r p).pedals = p.pedals := by unfold logRecord; split <;> [split; skip] <;> simp
@[simp] theorem logRecord_capture (r : Record) (p : Part) : (logRecord r p).capture = p.capture := by unfold logRecord; split <;> [split; skip] <;> simp
@[simp] theorem logRecord_pins (r : Record) (p : Part) : (logRecord r p).pins = p.pins := by unfold logRecord; split <;> [split; skip] <;> simp
@[simp] theorem keyRec_logRecord (r : Record) (j : Key) (p : Part) :
    keyRec j (logRecord r p) = keyRec j p := by simp [keyRec]
@[simp] theorem senseRec_logRecord (r : Record) (j : Key) (p : Part) :
    senseRec j (logRecord r p) = senseRec j p := by simp [senseRec]
@[simp] theorem pedalRec_logRecord (r : Record) (j : Pedal) (p : Part) :
    pedalRec j (logRecord r p) = pedalRec j p := by simp [pedalRec]

/-! ## placeAction -/

@[simp] theorem placeAction_mem (a : ActionKind) (i : Word32) (p : Part) : (placeAction a i p).mem = p.mem := rfl
@[simp] theorem placeAction_clocks (a : ActionKind) (i : Word32) (p : Part) : (placeAction a i p).clocks = p.clocks := rfl
@[simp] theorem placeAction_window (a : ActionKind) (i : Word32) (p : Part) : (placeAction a i p).window = p.window := rfl
@[simp] theorem placeAction_strip (a : ActionKind) (i : Word32) (p : Part) : (placeAction a i p).strip = p.strip := rfl
@[simp] theorem placeAction_leader (a : ActionKind) (i : Word32) (p : Part) : (placeAction a i p).leader = p.leader := rfl
@[simp] theorem placeAction_formats (a : ActionKind) (i : Word32) (p : Part) : (placeAction a i p).formats = p.formats := rfl
@[simp] theorem placeAction_time (a : ActionKind) (i : Word32) (p : Part) : (placeAction a i p).time = p.time := rfl
@[simp] theorem placeAction_shading (a : ActionKind) (i : Word32) (p : Part) : (placeAction a i p).shading = p.shading := rfl
@[simp] theorem placeAction_strikes (a : ActionKind) (i : Word32) (p : Part) : (placeAction a i p).strikes = p.strikes := rfl
@[simp] theorem placeAction_keys (a : ActionKind) (i : Word32) (p : Part) : (placeAction a i p).keys = p.keys := rfl
@[simp] theorem placeAction_sense (a : ActionKind) (i : Word32) (p : Part) : (placeAction a i p).sense = p.sense := rfl
@[simp] theorem placeAction_senseLevels (a : ActionKind) (i : Word32) (p : Part) : (placeAction a i p).senseLevels = p.senseLevels := rfl
@[simp] theorem placeAction_budget (a : ActionKind) (i : Word32) (p : Part) : (placeAction a i p).budget = p.budget := rfl
@[simp] theorem placeAction_analog (a : ActionKind) (i : Word32) (p : Part) : (placeAction a i p).analog = p.analog := rfl
@[simp] theorem placeAction_pedals (a : ActionKind) (i : Word32) (p : Part) : (placeAction a i p).pedals = p.pedals := rfl
@[simp] theorem placeAction_capture (a : ActionKind) (i : Word32) (p : Part) : (placeAction a i p).capture = p.capture := rfl
@[simp] theorem placeAction_log (a : ActionKind) (i : Word32) (p : Part) : (placeAction a i p).log = p.log := rfl
@[simp] theorem placeAction_pins (a : ActionKind) (i : Word32) (p : Part) : (placeAction a i p).pins = p.pins := rfl
@[simp] theorem keyRec_placeAction (a : ActionKind) (i : Word32) (j : Key) (p : Part) :
    keyRec j (placeAction a i p) = keyRec j p := by simp [keyRec]
@[simp] theorem senseRec_placeAction (a : ActionKind) (i : Word32) (j : Key) (p : Part) :
    senseRec j (placeAction a i p) = senseRec j p := by simp [senseRec]
@[simp] theorem pedalRec_placeAction (a : ActionKind) (i : Word32) (j : Pedal) (p : Part) :
    pedalRec j (placeAction a i p) = pedalRec j p := by simp [pedalRec]

/-! ## moveAction -/

@[simp] theorem moveAction_mem (a : ActionKind) (i : Word32) (p : Part) : (moveAction a i p).mem = p.mem := by unfold moveAction; split <;> rfl
@[simp] theorem moveAction_clocks (a : ActionKind) (i : Word32) (p : Part) : (moveAction a i p).clocks = p.clocks := by unfold moveAction; split <;> rfl
@[simp] theorem moveAction_window (a : ActionKind) (i : Word32) (p : Part) : (moveAction a i p).window = p.window := by unfold moveAction; split <;> rfl
@[simp] theorem moveAction_strip (a : ActionKind) (i : Word32) (p : Part) : (moveAction a i p).strip = p.strip := by unfold moveAction; split <;> rfl
@[simp] theorem moveAction_leader (a : ActionKind) (i : Word32) (p : Part) : (moveAction a i p).leader = p.leader := by unfold moveAction; split <;> rfl
@[simp] theorem moveAction_formats (a : ActionKind) (i : Word32) (p : Part) : (moveAction a i p).formats = p.formats := by unfold moveAction; split <;> rfl
@[simp] theorem moveAction_time (a : ActionKind) (i : Word32) (p : Part) : (moveAction a i p).time = p.time := by unfold moveAction; split <;> rfl
@[simp] theorem moveAction_shading (a : ActionKind) (i : Word32) (p : Part) : (moveAction a i p).shading = p.shading := by unfold moveAction; split <;> rfl
@[simp] theorem moveAction_strikes (a : ActionKind) (i : Word32) (p : Part) : (moveAction a i p).strikes = p.strikes := by unfold moveAction; split <;> rfl
@[simp] theorem moveAction_keys (a : ActionKind) (i : Word32) (p : Part) : (moveAction a i p).keys = p.keys := by unfold moveAction; split <;> rfl
@[simp] theorem moveAction_sense (a : ActionKind) (i : Word32) (p : Part) : (moveAction a i p).sense = p.sense := by unfold moveAction; split <;> rfl
@[simp] theorem moveAction_senseLevels (a : ActionKind) (i : Word32) (p : Part) : (moveAction a i p).senseLevels = p.senseLevels := by unfold moveAction; split <;> rfl
@[simp] theorem moveAction_budget (a : ActionKind) (i : Word32) (p : Part) : (moveAction a i p).budget = p.budget := by unfold moveAction; split <;> rfl
@[simp] theorem moveAction_analog (a : ActionKind) (i : Word32) (p : Part) : (moveAction a i p).analog = p.analog := by unfold moveAction; split <;> rfl
@[simp] theorem moveAction_pedals (a : ActionKind) (i : Word32) (p : Part) : (moveAction a i p).pedals = p.pedals := by unfold moveAction; split <;> rfl
@[simp] theorem moveAction_capture (a : ActionKind) (i : Word32) (p : Part) : (moveAction a i p).capture = p.capture := by unfold moveAction; split <;> rfl
@[simp] theorem moveAction_log (a : ActionKind) (i : Word32) (p : Part) : (moveAction a i p).log = p.log := by unfold moveAction; split <;> rfl
@[simp] theorem moveAction_pins (a : ActionKind) (i : Word32) (p : Part) : (moveAction a i p).pins = p.pins := by unfold moveAction; split <;> rfl
@[simp] theorem keyRec_moveAction (a : ActionKind) (i : Word32) (j : Key) (p : Part) :
    keyRec j (moveAction a i p) = keyRec j p := by simp [keyRec]
@[simp] theorem senseRec_moveAction (a : ActionKind) (i : Word32) (j : Key) (p : Part) :
    senseRec j (moveAction a i p) = senseRec j p := by simp [senseRec]
@[simp] theorem pedalRec_moveAction (a : ActionKind) (i : Word32) (j : Pedal) (p : Part) :
    pedalRec j (moveAction a i p) = pedalRec j p := by simp [pedalRec]

/-! ## removeAction -/

@[simp] theorem removeAction_mem (a : Action) (p : Part) : (removeAction a p).mem = p.mem := rfl
@[simp] theorem removeAction_clocks (a : Action) (p : Part) : (removeAction a p).clocks = p.clocks := rfl
@[simp] theorem removeAction_window (a : Action) (p : Part) : (removeAction a p).window = p.window := rfl
@[simp] theorem removeAction_strip (a : Action) (p : Part) : (removeAction a p).strip = p.strip := rfl
@[simp] theorem removeAction_leader (a : Action) (p : Part) : (removeAction a p).leader = p.leader := rfl
@[simp] theorem removeAction_formats (a : Action) (p : Part) : (removeAction a p).formats = p.formats := rfl
@[simp] theorem removeAction_time (a : Action) (p : Part) : (removeAction a p).time = p.time := rfl
@[simp] theorem removeAction_shading (a : Action) (p : Part) : (removeAction a p).shading = p.shading := rfl
@[simp] theorem removeAction_strikes (a : Action) (p : Part) : (removeAction a p).strikes = p.strikes := rfl
@[simp] theorem removeAction_keys (a : Action) (p : Part) : (removeAction a p).keys = p.keys := rfl
@[simp] theorem removeAction_sense (a : Action) (p : Part) : (removeAction a p).sense = p.sense := rfl
@[simp] theorem removeAction_senseLevels (a : Action) (p : Part) : (removeAction a p).senseLevels = p.senseLevels := rfl
@[simp] theorem removeAction_budget (a : Action) (p : Part) : (removeAction a p).budget = p.budget := rfl
@[simp] theorem removeAction_analog (a : Action) (p : Part) : (removeAction a p).analog = p.analog := rfl
@[simp] theorem removeAction_pedals (a : Action) (p : Part) : (removeAction a p).pedals = p.pedals := rfl
@[simp] theorem removeAction_capture (a : Action) (p : Part) : (removeAction a p).capture = p.capture := rfl
@[simp] theorem removeAction_log (a : Action) (p : Part) : (removeAction a p).log = p.log := rfl
@[simp] theorem removeAction_pins (a : Action) (p : Part) : (removeAction a p).pins = p.pins := rfl
@[simp] theorem keyRec_removeAction (a : Action) (j : Key) (p : Part) :
    keyRec j (removeAction a p) = keyRec j p := by simp [keyRec]
@[simp] theorem senseRec_removeAction (a : Action) (j : Key) (p : Part) :
    senseRec j (removeAction a p) = senseRec j p := by simp [senseRec]
@[simp] theorem pedalRec_removeAction (a : Action) (j : Pedal) (p : Part) :
    pedalRec j (removeAction a p) = pedalRec j p := by simp [pedalRec]

/-! ## returnEntry -/

@[simp] theorem returnEntry_mem (p : Part) : (returnEntry p).mem = p.mem := rfl
@[simp] theorem returnEntry_clocks (p : Part) : (returnEntry p).clocks = p.clocks := rfl
@[simp] theorem returnEntry_window (p : Part) : (returnEntry p).window = p.window := rfl
@[simp] theorem returnEntry_strip (p : Part) : (returnEntry p).strip = p.strip := rfl
@[simp] theorem returnEntry_leader (p : Part) : (returnEntry p).leader = p.leader := rfl
@[simp] theorem returnEntry_formats (p : Part) : (returnEntry p).formats = p.formats := rfl
@[simp] theorem returnEntry_time (p : Part) : (returnEntry p).time = p.time := rfl
@[simp] theorem returnEntry_shading (p : Part) : (returnEntry p).shading = p.shading := rfl
@[simp] theorem returnEntry_strikes (p : Part) : (returnEntry p).strikes = p.strikes := rfl
@[simp] theorem returnEntry_keys (p : Part) : (returnEntry p).keys = p.keys := rfl
@[simp] theorem returnEntry_sense (p : Part) : (returnEntry p).sense = p.sense := rfl
@[simp] theorem returnEntry_senseLevels (p : Part) : (returnEntry p).senseLevels = p.senseLevels := rfl
@[simp] theorem returnEntry_budget (p : Part) : (returnEntry p).budget = p.budget := rfl
@[simp] theorem returnEntry_analog (p : Part) : (returnEntry p).analog = p.analog := rfl
@[simp] theorem returnEntry_pedals (p : Part) : (returnEntry p).pedals = p.pedals := rfl
@[simp] theorem returnEntry_capture (p : Part) : (returnEntry p).capture = p.capture := rfl
@[simp] theorem returnEntry_log (p : Part) : (returnEntry p).log = p.log := rfl
@[simp] theorem returnEntry_pins (p : Part) : (returnEntry p).pins = p.pins := rfl
@[simp] theorem keyRec_returnEntry (j : Key) (p : Part) :
    keyRec j (returnEntry p) = keyRec j p := by simp [keyRec]
@[simp] theorem senseRec_returnEntry (j : Key) (p : Part) :
    senseRec j (returnEntry p) = senseRec j p := by simp [senseRec]
@[simp] theorem pedalRec_returnEntry (j : Pedal) (p : Part) :
    pedalRec j (returnEntry p) = pedalRec j p := by simp [pedalRec]

/-! ## emptyWheel -/

@[simp] theorem emptyWheel_mem (p : Part) : (emptyWheel p).mem = p.mem := rfl
@[simp] theorem emptyWheel_clocks (p : Part) : (emptyWheel p).clocks = p.clocks := rfl
@[simp] theorem emptyWheel_window (p : Part) : (emptyWheel p).window = p.window := rfl
@[simp] theorem emptyWheel_strip (p : Part) : (emptyWheel p).strip = p.strip := rfl
@[simp] theorem emptyWheel_leader (p : Part) : (emptyWheel p).leader = p.leader := rfl
@[simp] theorem emptyWheel_formats (p : Part) : (emptyWheel p).formats = p.formats := rfl
@[simp] theorem emptyWheel_time (p : Part) : (emptyWheel p).time = p.time := rfl
@[simp] theorem emptyWheel_shading (p : Part) : (emptyWheel p).shading = p.shading := rfl
@[simp] theorem emptyWheel_strikes (p : Part) : (emptyWheel p).strikes = p.strikes := rfl
@[simp] theorem emptyWheel_keys (p : Part) : (emptyWheel p).keys = p.keys := rfl
@[simp] theorem emptyWheel_sense (p : Part) : (emptyWheel p).sense = p.sense := rfl
@[simp] theorem emptyWheel_senseLevels (p : Part) : (emptyWheel p).senseLevels = p.senseLevels := rfl
@[simp] theorem emptyWheel_budget (p : Part) : (emptyWheel p).budget = p.budget := rfl
@[simp] theorem emptyWheel_analog (p : Part) : (emptyWheel p).analog = p.analog := rfl
@[simp] theorem emptyWheel_pedals (p : Part) : (emptyWheel p).pedals = p.pedals := rfl
@[simp] theorem emptyWheel_capture (p : Part) : (emptyWheel p).capture = p.capture := rfl
@[simp] theorem emptyWheel_log (p : Part) : (emptyWheel p).log = p.log := rfl
@[simp] theorem emptyWheel_pins (p : Part) : (emptyWheel p).pins = p.pins := rfl
@[simp] theorem keyRec_emptyWheel (j : Key) (p : Part) :
    keyRec j (emptyWheel p) = keyRec j p := by simp [keyRec]
@[simp] theorem senseRec_emptyWheel (j : Key) (p : Part) :
    senseRec j (emptyWheel p) = senseRec j p := by simp [senseRec]
@[simp] theorem pedalRec_emptyWheel (j : Pedal) (p : Part) :
    pedalRec j (emptyWheel p) = pedalRec j p := by simp [pedalRec]

/-! ## noteCause -/

@[simp] theorem noteCause_mem (p : Part) : (noteCause p).mem = p.mem := by unfold noteCause; split <;> rfl
@[simp] theorem noteCause_clocks (p : Part) : (noteCause p).clocks = p.clocks := by unfold noteCause; split <;> rfl
@[simp] theorem noteCause_window (p : Part) : (noteCause p).window = p.window := by unfold noteCause; split <;> rfl
@[simp] theorem noteCause_strip (p : Part) : (noteCause p).strip = p.strip := by unfold noteCause; split <;> rfl
@[simp] theorem noteCause_leader (p : Part) : (noteCause p).leader = p.leader := by unfold noteCause; split <;> rfl
@[simp] theorem noteCause_formats (p : Part) : (noteCause p).formats = p.formats := by unfold noteCause; split <;> rfl
@[simp] theorem noteCause_time (p : Part) : (noteCause p).time = p.time := by unfold noteCause; split <;> rfl
@[simp] theorem noteCause_shading (p : Part) : (noteCause p).shading = p.shading := by unfold noteCause; split <;> rfl
@[simp] theorem noteCause_strikes (p : Part) : (noteCause p).strikes = p.strikes := by unfold noteCause; split <;> rfl
@[simp] theorem noteCause_wheel (p : Part) : (noteCause p).wheel = p.wheel := by unfold noteCause; split <;> rfl
@[simp] theorem noteCause_keys (p : Part) : (noteCause p).keys = p.keys := by unfold noteCause; split <;> rfl
@[simp] theorem noteCause_sense (p : Part) : (noteCause p).sense = p.sense := by unfold noteCause; split <;> rfl
@[simp] theorem noteCause_senseLevels (p : Part) : (noteCause p).senseLevels = p.senseLevels := by unfold noteCause; split <;> rfl
@[simp] theorem noteCause_analog (p : Part) : (noteCause p).analog = p.analog := by unfold noteCause; split <;> rfl
@[simp] theorem noteCause_pedals (p : Part) : (noteCause p).pedals = p.pedals := by unfold noteCause; split <;> rfl
@[simp] theorem noteCause_capture (p : Part) : (noteCause p).capture = p.capture := by unfold noteCause; split <;> rfl
@[simp] theorem noteCause_log (p : Part) : (noteCause p).log = p.log := by unfold noteCause; split <;> rfl
@[simp] theorem noteCause_pins (p : Part) : (noteCause p).pins = p.pins := by unfold noteCause; split <;> rfl
@[simp] theorem keyRec_noteCause (j : Key) (p : Part) :
    keyRec j (noteCause p) = keyRec j p := by simp [keyRec]
@[simp] theorem senseRec_noteCause (j : Key) (p : Part) :
    senseRec j (noteCause p) = senseRec j p := by simp [senseRec]
@[simp] theorem pedalRec_noteCause (j : Pedal) (p : Part) :
    pedalRec j (noteCause p) = pedalRec j p := by simp [pedalRec]

/-! ## putTakeMark -/

@[simp] theorem putTakeMark_clocks (m : Word) (p : Part) : (putTakeMark m p).clocks = p.clocks := by simp [putTakeMark]
@[simp] theorem putTakeMark_window (m : Word) (p : Part) : (putTakeMark m p).window = p.window := by simp [putTakeMark]
@[simp] theorem putTakeMark_leader (m : Word) (p : Part) : (putTakeMark m p).leader = p.leader := by simp [putTakeMark]
@[simp] theorem putTakeMark_formats (m : Word) (p : Part) : (putTakeMark m p).formats = p.formats := by simp [putTakeMark]
@[simp] theorem putTakeMark_time (m : Word) (p : Part) : (putTakeMark m p).time = p.time := by simp [putTakeMark]
@[simp] theorem putTakeMark_shading (m : Word) (p : Part) : (putTakeMark m p).shading = p.shading := by simp [putTakeMark]
@[simp] theorem putTakeMark_strikes (m : Word) (p : Part) : (putTakeMark m p).strikes = p.strikes := by simp [putTakeMark]
@[simp] theorem putTakeMark_wheel (m : Word) (p : Part) : (putTakeMark m p).wheel = p.wheel := by simp [putTakeMark]
@[simp] theorem putTakeMark_keys (m : Word) (p : Part) : (putTakeMark m p).keys = p.keys := by simp [putTakeMark]
@[simp] theorem putTakeMark_sense (m : Word) (p : Part) : (putTakeMark m p).sense = p.sense := by simp [putTakeMark]
@[simp] theorem putTakeMark_senseLevels (m : Word) (p : Part) : (putTakeMark m p).senseLevels = p.senseLevels := by simp [putTakeMark]
@[simp] theorem putTakeMark_budget (m : Word) (p : Part) : (putTakeMark m p).budget = p.budget := by simp [putTakeMark]
@[simp] theorem putTakeMark_analog (m : Word) (p : Part) : (putTakeMark m p).analog = p.analog := by simp [putTakeMark]
@[simp] theorem putTakeMark_pedals (m : Word) (p : Part) : (putTakeMark m p).pedals = p.pedals := by simp [putTakeMark]
@[simp] theorem putTakeMark_capture (m : Word) (p : Part) : (putTakeMark m p).capture = p.capture := by simp [putTakeMark]
@[simp] theorem putTakeMark_log (m : Word) (p : Part) : (putTakeMark m p).log = p.log := by simp [putTakeMark]
@[simp] theorem putTakeMark_pins (m : Word) (p : Part) : (putTakeMark m p).pins = p.pins := by simp [putTakeMark]
@[simp] theorem keyRec_putTakeMark (m : Word) (j : Key) (p : Part) :
    keyRec j (putTakeMark m p) = keyRec j p := by simp [keyRec]
@[simp] theorem senseRec_putTakeMark (m : Word) (j : Key) (p : Part) :
    senseRec j (putTakeMark m p) = senseRec j p := by simp [senseRec]
@[simp] theorem pedalRec_putTakeMark (m : Word) (j : Pedal) (p : Part) :
    pedalRec j (putTakeMark m p) = pedalRec j p := by simp [pedalRec]

/-! ## prepareStrip -/

@[simp] theorem prepareStrip_mem (p : Part) : (prepareStrip p).mem = p.mem := rfl
@[simp] theorem prepareStrip_clocks (p : Part) : (prepareStrip p).clocks = p.clocks := rfl
@[simp] theorem prepareStrip_window (p : Part) : (prepareStrip p).window = p.window := rfl
@[simp] theorem prepareStrip_leader (p : Part) : (prepareStrip p).leader = p.leader := rfl
@[simp] theorem prepareStrip_formats (p : Part) : (prepareStrip p).formats = p.formats := rfl
@[simp] theorem prepareStrip_time (p : Part) : (prepareStrip p).time = p.time := rfl
@[simp] theorem prepareStrip_shading (p : Part) : (prepareStrip p).shading = p.shading := rfl
@[simp] theorem prepareStrip_strikes (p : Part) : (prepareStrip p).strikes = p.strikes := rfl
@[simp] theorem prepareStrip_wheel (p : Part) : (prepareStrip p).wheel = p.wheel := rfl
@[simp] theorem prepareStrip_keys (p : Part) : (prepareStrip p).keys = p.keys := rfl
@[simp] theorem prepareStrip_sense (p : Part) : (prepareStrip p).sense = p.sense := rfl
@[simp] theorem prepareStrip_senseLevels (p : Part) : (prepareStrip p).senseLevels = p.senseLevels := rfl
@[simp] theorem prepareStrip_budget (p : Part) : (prepareStrip p).budget = p.budget := rfl
@[simp] theorem prepareStrip_analog (p : Part) : (prepareStrip p).analog = p.analog := rfl
@[simp] theorem prepareStrip_pedals (p : Part) : (prepareStrip p).pedals = p.pedals := rfl
@[simp] theorem prepareStrip_capture (p : Part) : (prepareStrip p).capture = p.capture := rfl
@[simp] theorem prepareStrip_log (p : Part) : (prepareStrip p).log = p.log := rfl
@[simp] theorem prepareStrip_pins (p : Part) : (prepareStrip p).pins = p.pins := rfl
@[simp] theorem keyRec_prepareStrip (j : Key) (p : Part) :
    keyRec j (prepareStrip p) = keyRec j p := by simp [keyRec]
@[simp] theorem senseRec_prepareStrip (j : Key) (p : Part) :
    senseRec j (prepareStrip p) = senseRec j p := by simp [senseRec]
@[simp] theorem pedalRec_prepareStrip (j : Pedal) (p : Part) :
    pedalRec j (prepareStrip p) = pedalRec j p := by simp [pedalRec]

/-! ## reportWanted -/

@[simp] theorem reportWanted_mem (p : Part) : (reportWanted p).mem = p.mem := rfl
@[simp] theorem reportWanted_clocks (p : Part) : (reportWanted p).clocks = p.clocks := rfl
@[simp] theorem reportWanted_window (p : Part) : (reportWanted p).window = p.window := rfl
@[simp] theorem reportWanted_strip (p : Part) : (reportWanted p).strip = p.strip := rfl
@[simp] theorem reportWanted_leader (p : Part) : (reportWanted p).leader = p.leader := rfl
@[simp] theorem reportWanted_formats (p : Part) : (reportWanted p).formats = p.formats := rfl
@[simp] theorem reportWanted_shading (p : Part) : (reportWanted p).shading = p.shading := rfl
@[simp] theorem reportWanted_strikes (p : Part) : (reportWanted p).strikes = p.strikes := rfl
@[simp] theorem reportWanted_wheel (p : Part) : (reportWanted p).wheel = p.wheel := rfl
@[simp] theorem reportWanted_keys (p : Part) : (reportWanted p).keys = p.keys := rfl
@[simp] theorem reportWanted_sense (p : Part) : (reportWanted p).sense = p.sense := rfl
@[simp] theorem reportWanted_senseLevels (p : Part) : (reportWanted p).senseLevels = p.senseLevels := rfl
@[simp] theorem reportWanted_budget (p : Part) : (reportWanted p).budget = p.budget := rfl
@[simp] theorem reportWanted_analog (p : Part) : (reportWanted p).analog = p.analog := rfl
@[simp] theorem reportWanted_pedals (p : Part) : (reportWanted p).pedals = p.pedals := rfl
@[simp] theorem reportWanted_capture (p : Part) : (reportWanted p).capture = p.capture := rfl
@[simp] theorem reportWanted_log (p : Part) : (reportWanted p).log = p.log := rfl
@[simp] theorem reportWanted_pins (p : Part) : (reportWanted p).pins = p.pins := rfl
@[simp] theorem keyRec_reportWanted (j : Key) (p : Part) :
    keyRec j (reportWanted p) = keyRec j p := by simp [keyRec]
@[simp] theorem senseRec_reportWanted (j : Key) (p : Part) :
    senseRec j (reportWanted p) = senseRec j p := by simp [senseRec]
@[simp] theorem pedalRec_reportWanted (j : Pedal) (p : Part) :
    pedalRec j (reportWanted p) = pedalRec j p := by simp [pedalRec]

/-! ## reportCause -/

@[simp] theorem reportCause_mem (c : Cause) (p : Part) : (reportCause c p).mem = p.mem := rfl
@[simp] theorem reportCause_clocks (c : Cause) (p : Part) : (reportCause c p).clocks = p.clocks := rfl
@[simp] theorem reportCause_window (c : Cause) (p : Part) : (reportCause c p).window = p.window := rfl
@[simp] theorem reportCause_strip (c : Cause) (p : Part) : (reportCause c p).strip = p.strip := rfl
@[simp] theorem reportCause_leader (c : Cause) (p : Part) : (reportCause c p).leader = p.leader := rfl
@[simp] theorem reportCause_formats (c : Cause) (p : Part) : (reportCause c p).formats = p.formats := rfl
@[simp] theorem reportCause_shading (c : Cause) (p : Part) : (reportCause c p).shading = p.shading := rfl
@[simp] theorem reportCause_strikes (c : Cause) (p : Part) : (reportCause c p).strikes = p.strikes := rfl
@[simp] theorem reportCause_wheel (c : Cause) (p : Part) : (reportCause c p).wheel = p.wheel := rfl
@[simp] theorem reportCause_keys (c : Cause) (p : Part) : (reportCause c p).keys = p.keys := rfl
@[simp] theorem reportCause_sense (c : Cause) (p : Part) : (reportCause c p).sense = p.sense := rfl
@[simp] theorem reportCause_senseLevels (c : Cause) (p : Part) : (reportCause c p).senseLevels = p.senseLevels := rfl
@[simp] theorem reportCause_budget (c : Cause) (p : Part) : (reportCause c p).budget = p.budget := rfl
@[simp] theorem reportCause_analog (c : Cause) (p : Part) : (reportCause c p).analog = p.analog := rfl
@[simp] theorem reportCause_pedals (c : Cause) (p : Part) : (reportCause c p).pedals = p.pedals := rfl
@[simp] theorem reportCause_capture (c : Cause) (p : Part) : (reportCause c p).capture = p.capture := rfl
@[simp] theorem reportCause_log (c : Cause) (p : Part) : (reportCause c p).log = p.log := rfl
@[simp] theorem reportCause_pins (c : Cause) (p : Part) : (reportCause c p).pins = p.pins := rfl
@[simp] theorem keyRec_reportCause (c : Cause) (j : Key) (p : Part) :
    keyRec j (reportCause c p) = keyRec j p := by simp [keyRec]
@[simp] theorem senseRec_reportCause (c : Cause) (j : Key) (p : Part) :
    senseRec j (reportCause c p) = senseRec j p := by simp [senseRec]
@[simp] theorem pedalRec_reportCause (c : Cause) (j : Pedal) (p : Part) :
    pedalRec j (reportCause c p) = pedalRec j p := by simp [pedalRec]

/-! ## putHeld -/

@[simp] theorem putHeld_mem (h : Option HeldSlot) (p : Part) : (putHeld h p).mem = p.mem := rfl
@[simp] theorem putHeld_clocks (h : Option HeldSlot) (p : Part) : (putHeld h p).clocks = p.clocks := rfl
@[simp] theorem putHeld_window (h : Option HeldSlot) (p : Part) : (putHeld h p).window = p.window := rfl
@[simp] theorem putHeld_leader (h : Option HeldSlot) (p : Part) : (putHeld h p).leader = p.leader := rfl
@[simp] theorem putHeld_formats (h : Option HeldSlot) (p : Part) : (putHeld h p).formats = p.formats := rfl
@[simp] theorem putHeld_time (h : Option HeldSlot) (p : Part) : (putHeld h p).time = p.time := rfl
@[simp] theorem putHeld_shading (h : Option HeldSlot) (p : Part) : (putHeld h p).shading = p.shading := rfl
@[simp] theorem putHeld_strikes (h : Option HeldSlot) (p : Part) : (putHeld h p).strikes = p.strikes := rfl
@[simp] theorem putHeld_wheel (h : Option HeldSlot) (p : Part) : (putHeld h p).wheel = p.wheel := rfl
@[simp] theorem putHeld_keys (h : Option HeldSlot) (p : Part) : (putHeld h p).keys = p.keys := rfl
@[simp] theorem putHeld_sense (h : Option HeldSlot) (p : Part) : (putHeld h p).sense = p.sense := rfl
@[simp] theorem putHeld_senseLevels (h : Option HeldSlot) (p : Part) : (putHeld h p).senseLevels = p.senseLevels := rfl
@[simp] theorem putHeld_budget (h : Option HeldSlot) (p : Part) : (putHeld h p).budget = p.budget := rfl
@[simp] theorem putHeld_analog (h : Option HeldSlot) (p : Part) : (putHeld h p).analog = p.analog := rfl
@[simp] theorem putHeld_pedals (h : Option HeldSlot) (p : Part) : (putHeld h p).pedals = p.pedals := rfl
@[simp] theorem putHeld_capture (h : Option HeldSlot) (p : Part) : (putHeld h p).capture = p.capture := rfl
@[simp] theorem putHeld_log (h : Option HeldSlot) (p : Part) : (putHeld h p).log = p.log := rfl
@[simp] theorem putHeld_pins (h : Option HeldSlot) (p : Part) : (putHeld h p).pins = p.pins := rfl
@[simp] theorem keyRec_putHeld (h : Option HeldSlot) (j : Key) (p : Part) :
    keyRec j (putHeld h p) = keyRec j p := by simp [keyRec]
@[simp] theorem senseRec_putHeld (h : Option HeldSlot) (j : Key) (p : Part) :
    senseRec j (putHeld h p) = senseRec j p := by simp [senseRec]
@[simp] theorem pedalRec_putHeld (h : Option HeldSlot) (j : Pedal) (p : Part) :
    pedalRec j (putHeld h p) = pedalRec j p := by simp [pedalRec]

/-! ## advanceLine -/

@[simp] theorem advanceLine_mem (p : Part) : (advanceLine p).mem = p.mem := rfl
@[simp] theorem advanceLine_clocks (p : Part) : (advanceLine p).clocks = p.clocks := rfl
@[simp] theorem advanceLine_window (p : Part) : (advanceLine p).window = p.window := rfl
@[simp] theorem advanceLine_strip (p : Part) : (advanceLine p).strip = p.strip := rfl
@[simp] theorem advanceLine_leader (p : Part) : (advanceLine p).leader = p.leader := rfl
@[simp] theorem advanceLine_formats (p : Part) : (advanceLine p).formats = p.formats := rfl
@[simp] theorem advanceLine_shading (p : Part) : (advanceLine p).shading = p.shading := rfl
@[simp] theorem advanceLine_strikes (p : Part) : (advanceLine p).strikes = p.strikes := rfl
@[simp] theorem advanceLine_wheel (p : Part) : (advanceLine p).wheel = p.wheel := rfl
@[simp] theorem advanceLine_keys (p : Part) : (advanceLine p).keys = p.keys := rfl
@[simp] theorem advanceLine_sense (p : Part) : (advanceLine p).sense = p.sense := rfl
@[simp] theorem advanceLine_senseLevels (p : Part) : (advanceLine p).senseLevels = p.senseLevels := rfl
@[simp] theorem advanceLine_budget (p : Part) : (advanceLine p).budget = p.budget := rfl
@[simp] theorem advanceLine_analog (p : Part) : (advanceLine p).analog = p.analog := rfl
@[simp] theorem advanceLine_pedals (p : Part) : (advanceLine p).pedals = p.pedals := rfl
@[simp] theorem advanceLine_capture (p : Part) : (advanceLine p).capture = p.capture := rfl
@[simp] theorem advanceLine_log (p : Part) : (advanceLine p).log = p.log := rfl
@[simp] theorem advanceLine_pins (p : Part) : (advanceLine p).pins = p.pins := rfl
@[simp] theorem keyRec_advanceLine (j : Key) (p : Part) :
    keyRec j (advanceLine p) = keyRec j p := by simp [keyRec]
@[simp] theorem senseRec_advanceLine (j : Key) (p : Part) :
    senseRec j (advanceLine p) = senseRec j p := by simp [senseRec]
@[simp] theorem pedalRec_advanceLine (j : Pedal) (p : Part) :
    pedalRec j (advanceLine p) = pedalRec j p := by simp [pedalRec]

end Sys2Proof.Machine
end

