-- ==== Sys2Proof/Laws/Lawful.lean ====
section
/-! SUPPORT. The small operations keep a part lawful and never turn drive time back: one lemma for each operation of
Ops, Flags, Log, Wheel, Engine and Budget. -/

namespace Sys2Proof.Machine

/-- The part is lawful, and drive time has reached `d`. -/
structure Kept (d : Nat) (p : Part) : Prop where
  lawful : Lawful p
  since : d ≤ p.clocks.drive

/-- What `Kept` reads of a part. -/
def lawView (p : Part) :=
  (p.mem, p.window.nstat, p.window.nmask, p.window.ncfg, p.window.pendingSet, p.wheel.position, p.keys, p.pedals,
    p.strip.transpose, p.shading.history, p.budget.committed, p.clocks.drive,
    (p.log.configured, p.log.base, p.log.slots, p.log.counters, p.strikes.volBass, p.strikes.volTreble, p.budget.ibud))

/-- What `Kept` reads of a Key record. -/
def keyView (r : KeyRec) := (r.heat, r.trim, r.missCount, r.claim)

variable {d : Nat} {p q : Part}

/-- A change of nothing that `Kept` reads keeps it. -/
theorem Kept.same (h : Kept d p) (e : lawView q = lawView p) : Kept d q := by
  simp only [lawView, Prod.mk.injEq] at e
  obtain ⟨e1, e2, e3, e4, e5, e6, e7, e8, e9, e10, e11, e12, e13, e14, e15, e16, e17, e18, e19⟩ := e
  obtain ⟨⟨h1, h2, h3, h4, h5, h6, h7, h8, h10, h11, h12, h13⟩, h9⟩ := h
  refine ⟨⟨by rw [e1]; exact h1, ?_, by rw [e6]; exact h3, ?_, by rw [e9]; exact h5, by rw [e9]; exact h6,
    by rw [e10]; exact h7, ?_, ?_, ?_, ⟨by rw [e17]; exact h12.1, by rw [e18]; exact h12.2⟩, by rw [e19]; exact h13⟩,
    by rw [e12]; exact h9⟩
  · unfold NoticesSettled unmaskedBits at *
    rw [e2, e3, e4, e5]
    exact h2
  · intro k
    have := h4 k
    unfold keyRec at *
    rw [e7]
    exact this
  · unfold claimsHeld at *
    rw [e11, e7, e8]
    exact h8
  · unfold RingPlaced at *
    rw [e13, e14, e15]
    exact h10
  · unfold CountersInRange at *
    rw [e16]
    exact h11

/-- Where a part is kept and nothing that `Kept` reads differs, the other is kept too. -/
theorem Kept.same_iff (e : lawView q = lawView p) : Kept d q ↔ Kept d p :=
  ⟨fun h => h.same e.symm, fun h => h.same e⟩

/-! ## Memory -/

theorem Kept.setMem (h : Kept d p) (m : Memory) (hm : Memory.wf m = true) : Kept d { p with mem := m } :=
  ⟨⟨hm, h.lawful.notices, h.lawful.position, h.lawful.figures, h.lawful.transposeLow, h.lawful.transposeHigh,
    h.lawful.history, h.lawful.claims,
    h.lawful.ring, h.lawful.counters, h.lawful.volumes, h.lawful.hostBudget⟩, h.since⟩

theorem kept_putWord (off : Nat) (v : Word) (h : Kept d p) : Kept d (putWord off v p) :=
  h.setMem _ (Memory.wf_writeWord _ _ _ h.lawful.memory)

theorem kept_putWords (off : Nat) (vs : List Word) (h : Kept d p) : Kept d (putWords off vs p) :=
  h.setMem _ (Memory.wf_writeWords _ _ _ h.lawful.memory)

/-! ## Notices -/

theorem Kept.setWindow (h : Kept d p) (w : Window) (hw : NoticesSettled w) : Kept d { p with window := w } :=
  ⟨⟨h.lawful.memory, hw, h.lawful.position, h.lawful.figures, h.lawful.transposeLow, h.lawful.transposeHigh,
    h.lawful.history, h.lawful.claims,
    h.lawful.ring, h.lawful.counters, h.lawful.volumes, h.lawful.hostBudget⟩, h.since⟩

/-- Setting an NSTAT bit keeps an unmasked bit that is set. -/
theorem unmasked_or (a m b : BitVec 9) (h : a &&& ~~~m ≠ 0) : (a ||| b) &&& ~~~m ≠ 0 := by
  intro e
  apply h
  have : (a &&& ~~~m) ||| (b &&& ~~~m) = 0 := by rw [← e]; ext i; simp; grind
  exact (BitVec.or_eq_zero_iff.mp this).1

theorem kept_raise (n : Notice) (h : Kept d p) : Kept d (raise n p) := by
  unfold raise
  split
  · rename_i hc
    refine h.setWindow _ fun _ => ?_
    simp only [Bool.and_eq_true, holdoffSet, noticeAsserted, decide_eq_true_eq] at hc
    exact hc
  · refine h.setWindow _ fun hp => ?_
    obtain ⟨h1, h2⟩ := h.lawful.notices hp
    exact ⟨h1, unmasked_or _ _ _ h2⟩

theorem kept_raiseEdge (n : Notice) (e : Edge) (h : Kept d p) : Kept d (raiseEdge n e p) := by
  unfold raiseEdge
  split
  · exact kept_raise n h
  · exact h

theorem kept_enterPending (h : Kept d p) : Kept d (enterPending p) :=
  h.setWindow _ fun hp => absurd rfl hp

/-! ## Keys and pedals -/

/-- Replacing one element of a list changes the sum of a figure by that element's. -/
theorem sum_map_set {α : Type} (f : α → Nat) (l : List α) (i : Nat) (hi : i < l.length) (x : α) :
    ((l.set i x).map f).sum + f l[i] = (l.map f).sum + f x := by
  induction l generalizing i with
  | nil => simp at hi
  | cons a rest ih =>
    cases i with
    | zero => simp; omega
    | succ i =>
      have := ih i (by simpa using hi)
      simp only [List.set_cons_succ, List.map_cons, List.sum_cons, List.getElem_cons_succ]
      omega

/-- The claims held after a key's record is replaced. -/
theorem claimsHeld_putKey (k : Key) (r : KeyRec) (p : Part) :
    claimsHeld (putKey k r p) + (keyRec k p).claim = claimsHeld p + r.claim := by
  have hk : k.val < p.keys.toList.length := by simp
  have := sum_map_set KeyRec.claim p.keys.toList k.val hk r
  simp only [claimsHeld, putKey, keyRec]
  have e : (p.keys.set k r).toList = p.keys.toList.set k.val r := rfl
  rw [e]
  have g : p.keys.toList[k.val] = p.keys[k] := rfl
  rw [g] at this
  omega

/-- The claims held after a pedal's record is replaced. -/
theorem claimsHeld_putPedal (x : Pedal) (r : PedalRec) (p : Part) :
    claimsHeld (putPedal x r p) + (pedalRec x p).claim = claimsHeld p + r.claim := by
  have hk : (pedalIndex x).val < p.pedals.toList.length := by simp
  have := sum_map_set PedalRec.claim p.pedals.toList (pedalIndex x).val hk r
  simp only [claimsHeld, putPedal, pedalRec]
  have e : (p.pedals.set (pedalIndex x) r).toList = p.pedals.toList.set (pedalIndex x).val r := rfl
  rw [e]
  have g : p.pedals.toList[(pedalIndex x).val] = p.pedals[pedalIndex x] := rfl
  rw [g] at this
  omega

theorem KeyFigures.same {r r' : KeyRec} (f : KeyFigures r) (e : keyView r' = keyView r) : KeyFigures r' := by
  simp only [keyView, Prod.mk.injEq] at e
  obtain ⟨e1, e2, e3, _⟩ := e
  exact ⟨by rw [e1]; exact f.heat, by rw [e2]; exact f.trimLow, by rw [e2]; exact f.trimHigh, by rw [e3]; exact f.misses⟩

/-- A key's record is replaced by one with lawful figures and the same claim. -/
theorem kept_putKey (k : Key) (r : KeyRec) (h : Kept d p) (hf : KeyFigures r) (hc : r.claim = (keyRec k p).claim) :
    Kept d (putKey k r p) := by
  refine ⟨⟨h.lawful.memory, h.lawful.notices, h.lawful.position, fun j => ?_, h.lawful.transposeLow,
    h.lawful.transposeHigh, h.lawful.history, ?_, h.lawful.ring, h.lawful.counters, h.lawful.volumes,
    h.lawful.hostBudget⟩, h.since⟩
  · by_cases hj : j = k
    · subst hj; rw [keyRec_putKey_same]; exact hf
    · rw [keyRec_putKey_other hj]; exact h.lawful.figures j
  · have := claimsHeld_putKey k r p
    have hl := h.lawful.claims
    show p.budget.committed = _
    omega

/-- A change of a key's record in nothing that `Kept` reads. -/
theorem kept_putKey_same (k : Key) (r : KeyRec) (h : Kept d p) (e : keyView r = keyView (keyRec k p)) :
    Kept d (putKey k r p) := by
  refine kept_putKey k r h ((h.lawful.figures k).same e) ?_
  simp only [keyView, Prod.mk.injEq] at e
  exact e.2.2.2

/-- A pedal's record is replaced by one with the same claim. -/
theorem kept_putPedal (x : Pedal) (r : PedalRec) (h : Kept d p) (hc : r.claim = (pedalRec x p).claim) :
    Kept d (putPedal x r p) := by
  refine ⟨⟨h.lawful.memory, h.lawful.notices, h.lawful.position, fun j => ?_, h.lawful.transposeLow,
    h.lawful.transposeHigh, h.lawful.history, ?_, h.lawful.ring, h.lawful.counters, h.lawful.volumes,
    h.lawful.hostBudget⟩, h.since⟩
  · simpa [keyRec] using h.lawful.figures j
  · have := claimsHeld_putPedal x r p
    have hl := h.lawful.claims
    show p.budget.committed = _
    omega

theorem kept_putSense (k : Key) (r : SenseRec) (h : Kept d p) : Kept d (putSense k r p) := h.same rfl

/-! ## Time -/

theorem kept_passTime (n : Nat) (h : Kept d p) : Kept d (passTime n p) :=
  ⟨⟨h.lawful.memory, h.lawful.notices, h.lawful.position, h.lawful.figures, h.lawful.transposeLow,
    h.lawful.transposeHigh, h.lawful.history, h.lawful.claims,
    h.lawful.ring, h.lawful.counters, h.lawful.volumes, h.lawful.hostBudget⟩, Nat.le_trans h.since (Nat.le_add_right _ _)⟩

theorem kept_driveTo (t : Nat) (h : Kept d p) : Kept d (driveTo t p) := kept_passTime _ h

theorem kept_planTo (i : Word32) (h : Kept d p) : Kept d (planTo i p) := by
  unfold planTo
  split
  · exact h
  · exact kept_passTime _ h

/-! ## Counters and the log -/

theorem add_inRange (c : Counter) (old n : Nat) : c.add old n < if c.wide then 2 ^ 32 else 2 ^ 16 := by
  unfold Counter.add
  split
  · exact Nat.mod_lt _ (by decide)
  · omega

theorem index_injective {c c' : Counter} (h : c.index.val = c'.index.val) : c = c' := by
  cases c <;> cases c' <;> first | rfl | exact absurd h (by decide)

/-- One counter is changed within its range. -/
theorem inRange_set (l : LogWriter) (c : Counter) (v : Nat) (hv : v < if c.wide then 2 ^ 32 else 2 ^ 16)
    (h : CountersInRange l) : CountersInRange { l with counters := l.counters.set c.index v } := by
  intro c'
  show (l.counters.set c.index.val v)[c'.index.val] < _
  rw [Vector.getElem_set]
  split
  · rename_i e
    rw [← index_injective e]
    exact hv
  · exact h c'

theorem inRange_zero (l : LogWriter) : CountersInRange { l with counters := Vector.replicate 26 0 } := by
  intro c
  show (Vector.replicate 26 0)[c.index.val] < _
  rw [Vector.getElem_replicate]
  split <;> decide

/-- The Log Writer's own state is changed, the ring and the counters staying lawful. -/
theorem Kept.setLog (h : Kept d p) (l : LogWriter) (hr : RingPlaced l) (hc : CountersInRange l) :
    Kept d { p with log := l } :=
  ⟨⟨h.lawful.memory, h.lawful.notices, h.lawful.position, h.lawful.figures, h.lawful.transposeLow,
    h.lawful.transposeHigh, h.lawful.history, h.lawful.claims, hr, hc, h.lawful.volumes, h.lawful.hostBudget⟩, h.since⟩

theorem counterOf_inRange (c : Counter) (n : Nat) (p : Part) (v : Nat) (e : v = c.add (counterOf c p) n)
    (h : CountersInRange p.log) : CountersInRange { p.log with counters := p.log.counters.set c.index v } := by
  refine inRange_set p.log c v ?_ h
  rw [e]
  exact add_inRange c _ n

theorem kept_bumpBy (c : Counter) (n : Nat) (h : Kept d p) : Kept d (bumpBy c n p) := by
  unfold bumpBy
  generalize e : c.add (counterOf c p) n = v
  have h1 := h.setLog { p.log with counters := p.log.counters.set c.index v } h.lawful.ring
    (counterOf_inRange c n p v e.symm h.lawful.counters)
  dsimp only
  split
  · exact h1
  · exact kept_putWords _ _ h1

theorem kept_bump (c : Counter) (h : Kept d p) : Kept d (bump c p) := kept_bumpBy c 1 h

theorem kept_clearCounters (h : Kept d p) : Kept d (clearCounters p) :=
  kept_putWords _ _ (h.setLog { p.log with counters := Vector.replicate 26 0 } h.lawful.ring (inRange_zero p.log))

/-- The marks and the dropped records are none of what `Kept` reads. -/
theorem Kept.setMarks (h : Kept d p) (l : LogWriter) (e : (l.configured, l.base, l.slots, l.counters)
    = (p.log.configured, p.log.base, p.log.slots, p.log.counters)) : Kept d { p with log := l } := by
  simp only [Prod.mk.injEq] at e
  obtain ⟨e1, e2, e3, e4⟩ := e
  refine h.same ?_
  simp only [lawView, e1, e2, e3, e4]

theorem kept_advanceWriteMark (n : Nat) (h : Kept d p) : Kept d (advanceWriteMark n p) := by
  unfold advanceWriteMark
  dsimp only
  have h1 := kept_putWord Config.logWriteMarkOffset (p.log.writeMark + natWord n)
    (h.setMarks { p.log with writeMark := p.log.writeMark + natWord n } rfl)
  split
  · exact kept_raise _ h1
  · exact h1

theorem kept_storeRecord (r : Record) (h : Kept d p) : Kept d (storeRecord r p) := by
  unfold storeRecord
  dsimp only
  split
  · exact kept_putWords _ _ h
  · exact kept_putWords _ _ (kept_putWords _ _ h)

theorem kept_writeRecord (r : Record) (h : Kept d p) : Kept d (writeRecord r p) :=
  kept_advanceWriteMark _ (kept_storeRecord r h)

theorem kept_dropRecord (r : Record) (h : Kept d p) : Kept d (dropRecord r p) :=
  kept_bump _ (h.setMarks _ rfl)

theorem kept_logRecord (r : Record) (h : Kept d p) : Kept d (logRecord r p) := by
  unfold logRecord
  split
  · split
    · exact kept_dropRecord r h
    · exact kept_writeRecord r h
  · exact h

theorem kept_takeReadMark (v : Word) (h : Kept d p) : Kept d (takeReadMark v p) := by
  unfold takeReadMark
  split
  · exact h.same rfl
  · exact h

theorem kept_writeGap (h : Kept d p) : Kept d (writeGap p) := by
  unfold writeGap
  split
  · exact (kept_writeRecord (gapRecord p) h).setMarks _ rfl
  · exact h

theorem kept_reportSuppress (x : SuppressReason) (i : Nat) (l : Word32) (a b : Word) (h : Kept d p) :
    Kept d (reportSuppress x i l a b p) := kept_bump _ (kept_logRecord _ h)

theorem kept_reportSuppressedStrike (x : SuppressReason) (st : Strike) (h : Kept d p) :
    Kept d (reportSuppressedStrike x st p) := kept_reportSuppress _ _ _ _ _ h

/-! ## Folds -/

theorem kept_foldl {α : Type} (f : Part → α → Part) (l : List α) (hf : ∀ q a, Kept d q → Kept d (f q a))
    (h : Kept d p) : Kept d (l.foldl f p) := by
  induction l generalizing p with
  | nil => exact h
  | cons a rest ih => exact ih (hf p a h)

theorem kept_forKeys (f : Key → Part → Part) (hf : ∀ q k, Kept d q → Kept d (f k q)) (h : Kept d p) :
    Kept d (forKeys f p) := kept_foldl _ _ hf h

theorem kept_forPedals (f : Pedal → Part → Part) (hf : ∀ q x, Kept d q → Kept d (f x q)) (h : Kept d p) :
    Kept d (forPedals f p) := kept_foldl _ _ hf h

/-! ## The wheel -/

theorem kept_placeAction (a : ActionKind) (i : Word32) (h : Kept d p) : Kept d (placeAction a i p) := h.same rfl

theorem kept_moveAction (a : ActionKind) (i : Word32) (h : Kept d p) : Kept d (moveAction a i p) := by
  unfold moveAction
  split
  · exact h
  · exact h.same rfl

theorem kept_removeAction (a : Action) (h : Kept d p) : Kept d (removeAction a p) := h.same rfl
theorem kept_returnEntry (h : Kept d p) : Kept d (returnEntry p) := h.same rfl
theorem kept_emptyWheel (h : Kept d p) : Kept d (emptyWheel p) := h.same rfl

/-! ## The engine -/

theorem kept_enterEngine (e : EngineState) (c : Nat) (h : Kept d p) : Kept d (enterEngine e c p) :=
  kept_logRecord _ (kept_raise _ (kept_putWord _ _ (h.same rfl)))

theorem kept_enterIdleEngine (h : Kept d p) : Kept d (enterIdleEngine p) := (kept_enterEngine .idle 0 h).same rfl

theorem kept_drainTest (h : Kept d p) : Kept d (drainTest p) := by
  unfold drainTest
  split
  · exact kept_enterIdleEngine h
  · exact h

theorem kept_abandonLeader (h : Kept d p) : Kept d (abandonLeader p) := by
  unfold abandonLeader
  split
  · exact h
  · exact h.same rfl

theorem kept_stopFinish (h : Kept d p) : Kept d (stopFinish p) :=
  kept_drainTest (kept_enterEngine _ _
    ((kept_placeAction _ _ (kept_placeAction _ _ (kept_abandonLeader h))).same rfl))

theorem kept_enterStarved (h : Kept d p) : Kept d (enterStarved p) :=
  kept_bump _ (kept_logRecord _ (kept_enterEngine _ _ (kept_raiseEdge _ _ (h.same rfl))))

theorem kept_starveTest (h : Kept d p) : Kept d (starveTest p) := by
  unfold starveTest
  split
  · exact kept_enterStarved h
  · exact h

theorem kept_leaveStarved (h : Kept d p) : Kept d (leaveStarved p) :=
  (kept_enterEngine _ _ (kept_raiseEdge _ _ h)).same rfl

/-! ## Claims and queues -/

theorem kept_noteCause (h : Kept d p) : Kept d (noteCause p) := by
  unfold noteCause
  split
  · exact h
  · exact h.same rfl

/-- The committed current follows a key's claim. -/
theorem kept_claimKey (k : Key) (amount : Nat) (h : Kept d p) :
    Kept d { putKey k { keyRec k p with claim := amount } p with
      budget := { p.budget with committed := p.budget.committed - (keyRec k p).claim + amount } } := by
  refine ⟨⟨h.lawful.memory, h.lawful.notices, h.lawful.position, fun j => ?_, h.lawful.transposeLow,
    h.lawful.transposeHigh, h.lawful.history, ?_, h.lawful.ring, h.lawful.counters, h.lawful.volumes,
    h.lawful.hostBudget⟩, h.since⟩
  · show KeyFigures (keyRec j (putKey k { keyRec k p with claim := amount } p))
    by_cases hj : j = k
    · subst hj
      rw [keyRec_putKey_same]
      have f := h.lawful.figures j
      exact ⟨f.heat, f.trimLow, f.trimHigh, f.misses⟩
    · rw [keyRec_putKey_other hj]; exact h.lawful.figures j
  · have h1 := claimsHeld_putKey k { keyRec k p with claim := amount } p
    have h2 := h.lawful.claims
    show p.budget.committed - (keyRec k p).claim + amount
      = claimsHeld (putKey k { keyRec k p with claim := amount } p)
    have h3 := claimsHeld_putKey k { keyRec k p with claim := 0 } p
    generalize claimsHeld (putKey k { keyRec k p with claim := amount } p) = x at h1 ⊢
    generalize claimsHeld (putKey k { keyRec k p with claim := 0 } p) = y at h3
    change x + (keyRec k p).claim = claimsHeld p + amount at h1
    change y + (keyRec k p).claim = claimsHeld p + 0 at h3
    omega

theorem kept_setKeyClaim (k : Key) (amount : Nat) (h : Kept d p) : Kept d (setKeyClaim k amount p) := by
  unfold setKeyClaim
  dsimp only
  split
  · exact kept_noteCause (kept_claimKey k amount h)
  · exact kept_claimKey k amount h

/-- The committed current follows a pedal's claim. -/
theorem kept_claimPedal (x : Pedal) (amount : Nat) (h : Kept d p) :
    Kept d { putPedal x { pedalRec x p with claim := amount } p with
      budget := { p.budget with committed := p.budget.committed - (pedalRec x p).claim + amount } } := by
  refine ⟨⟨h.lawful.memory, h.lawful.notices, h.lawful.position, h.lawful.figures, h.lawful.transposeLow,
    h.lawful.transposeHigh, h.lawful.history, ?_, h.lawful.ring, h.lawful.counters, h.lawful.volumes,
    h.lawful.hostBudget⟩, h.since⟩
  have h1 := claimsHeld_putPedal x { pedalRec x p with claim := amount } p
  have h2 := h.lawful.claims
  show p.budget.committed - (pedalRec x p).claim + amount
    = claimsHeld (putPedal x { pedalRec x p with claim := amount } p)
  have h3 := claimsHeld_putPedal x { pedalRec x p with claim := 0 } p
  generalize claimsHeld (putPedal x { pedalRec x p with claim := amount } p) = y at h1 ⊢
  generalize claimsHeld (putPedal x { pedalRec x p with claim := 0 } p) = z at h3
  change y + (pedalRec x p).claim = claimsHeld p + amount at h1
  change z + (pedalRec x p).claim = claimsHeld p + 0 at h3
  omega

theorem kept_setPedalClaim (x : Pedal) (amount : Nat) (h : Kept d p) : Kept d (setPedalClaim x amount p) := by
  unfold setPedalClaim
  dsimp only
  split
  · exact kept_noteCause (kept_claimPedal x amount h)
  · exact kept_claimPedal x amount h

/-- The queues of a half are none of what `Kept` reads. -/
theorem committed_putHalfQueue (hf : Half) (l : List KeyClaim) (b : Budget) :
    (putHalfQueue hf l b).committed = b.committed := by cases hf <;> rfl

theorem Kept.setHalfQueue (h : Kept d p) (hf : Half) (l : List KeyClaim) :
    Kept d { p with budget := putHalfQueue hf l p.budget } := by
  cases hf <;> exact h.same rfl

theorem kept_deferKey (k : Key) (c : ClaimKind) (n : Nat) (h : Kept d p) : Kept d (deferKey k c n p) :=
  kept_bump _ (h.setHalfQueue _ _)

theorem kept_deferPedal (x : Pedal) (n : Nat) (s : PedalState) (h : Kept d p) : Kept d (deferPedal x n s p) :=
  kept_bump _ (h.same rfl)

theorem kept_withdrawKey (k : Key) (h : Kept d p) : Kept d (withdrawKey k p) := by
  unfold withdrawKey
  dsimp only
  split
  · exact kept_noteCause (h.same rfl)
  · exact h.same rfl

theorem kept_withdrawPedal (x : Pedal) (h : Kept d p) : Kept d (withdrawPedal x p) := by
  unfold withdrawPedal
  dsimp only
  split
  · exact kept_noteCause (h.same rfl)
  · exact h.same rfl

theorem kept_formBudget (h : Kept d p) : Kept d (formBudget p) := by
  unfold formBudget
  dsimp only
  split
  · exact kept_noteCause (h.same rfl)
  · exact h.same rfl

theorem kept_railConversion (v : Nat) (h : Kept d p) : Kept d (railConversion v p) := by
  unfold railConversion
  dsimp only
  split
  · exact kept_formBudget (h.same rfl)
  · exact kept_logRecord _ (kept_raiseEdge _ _ (kept_formBudget (h.same rfl)))

end Sys2Proof.Machine
end

