-- ==== Sys2Proof/Laws/LawfulKeys.lean ====
section
/-! SUPPORT. The rules of the Hammer Sense Unit, the Key Driver, and the Pedal Driver's cover and relief keep a part lawful
and never turn drive time back. -/

namespace Sys2Proof.Machine

variable {d : Nat} {p q : Part}

/-! ## The Hammer Sense Unit -/

theorem kept_judgeMiss (k : Key) (h : Kept d p) : Kept d (judgeMiss k p) := by
  unfold judgeMiss
  have h1 := kept_bump .senseMisses h
  generalize bump .senseMisses p = q at h1 ⊢
  have h2 : Kept d (putKey k { keyRec k q with
      missCount := min 15 ((keyRec k q).missCount + 1)
      deaf := (keyRec k q).deaf || (!(keyRec k q).deaf
        && decide ((voicing q).missLimit ≤ min 15 ((keyRec k q).missCount + 1))) } q) := by
    have f := h1.lawful.figures k
    exact kept_putKey k _ h1 ⟨f.heat, f.trimLow, f.trimHigh, Nat.min_le_left _ _⟩ rfl
  dsimp only
  split <;> split
  · exact kept_logRecord _ (kept_raise _ (kept_putSense _ _ h2))
  · exact kept_logRecord _ (kept_raise _ h2)
  · exact kept_putSense _ _ h2
  · exact h2

theorem kept_openWindow (k : Key) (lead : Nat) (h : Kept d p) : Kept d (openWindow k lead p) := by
  unfold openWindow
  dsimp only
  split
  · exact kept_putSense _ _ (kept_judgeMiss k h)
  · exact kept_putSense _ _ h

theorem kept_closeWindow (k : Key) (h : Kept d p) : Kept d (closeWindow k p) := by
  unfold closeWindow
  dsimp only
  split
  · split
    · exact kept_putSense _ _ (kept_judgeMiss k h)
    · exact kept_putSense _ _ h
  · exact h

theorem adaptedTrim_low (t : Int) (f l : Nat) : -5000 ≤ adaptedTrim t f l := le_max_left _ _
theorem adaptedTrim_high (t : Int) (f l : Nat) : adaptedTrim t f l ≤ 5000 := by
  unfold adaptedTrim
  exact max_le (by decide) (min_le_left _ _)

theorem kept_inRangeFlight (k : Key) (f : Nat) (h : Kept d p) : Kept d (inRangeFlight k f p) := by
  have g := h.lawful.figures k
  unfold inRangeFlight
  dsimp only
  split
  · split
    · exact kept_logRecord _ (kept_putSense _ _ (kept_putKey k _ h ⟨g.heat, g.trimLow, g.trimHigh, Nat.zero_le _⟩ rfl))
    · exact kept_putSense _ _ h
  · refine kept_putKey k _ h ⟨g.heat, ?_, ?_, Nat.zero_le _⟩ rfl
    · dsimp only
      split
      · exact adaptedTrim_low _ _ _
      · exact g.trimLow
    · dsimp only
      split
      · exact adaptedTrim_high _ _ _
      · exact g.trimHigh

theorem kept_outlierFlight (k : Key) (h : Kept d p) : Kept d (outlierFlight k p) := by
  unfold outlierFlight
  dsimp only
  split
  · exact kept_putSense _ _ (kept_bump _ h)
  · exact kept_bump _ h

theorem kept_flightEdge (k : Key) (h : Kept d p) : Kept d (flightEdge k p) := by
  unfold flightEdge
  dsimp only
  split
  · exact kept_inRangeFlight _ _ (kept_putSense _ _ h)
  · exact kept_outlierFlight _ (kept_putSense _ _ h)

theorem kept_depressEdge (k : Key) (h : Kept d p) : Kept d (depressEdge k p) := by
  unfold depressEdge
  dsimp only
  refine kept_logRecord _ ?_
  split
  · exact h
  · exact kept_putSense _ _ (kept_putKey_same k _ h rfl)

theorem kept_manualStrike (k : Key) (h : Kept d p) : Kept d (manualStrike k p) := kept_bump _ (kept_logRecord _ h)

theorem kept_senseEdge (k : Key) (h : Kept d p) : Kept d (senseEdge k p) := by
  unfold senseEdge
  split
  · exact kept_flightEdge k h
  · exact h
  · exact h
  · split
    · exact kept_depressEdge k h
    · exact kept_manualStrike k h

/-- What a scan read is none of what `Kept` reads. -/
theorem Kept.setScan (h : Kept d p) (l : Option (BitVec 88)) (x : Pins) :
    Kept d { p with senseLevels := l, pins := x } := h.same rfl

theorem kept_scanInputs (l : BitVec 88) (h : Kept d p) : Kept d (scanInputs l p) := by
  unfold scanInputs
  have h1 := kept_forKeys closeWindow (fun _ k hq => kept_closeWindow k hq) h
  generalize forKeys closeWindow p = q at h1 ⊢
  dsimp only
  refine Kept.setScan ?_ _ _
  split
  · exact h1
  · refine kept_forKeys _ (fun q k hq => ?_) h1
    split
    · exact kept_senseEdge k hq
    · exact hq

theorem kept_senseResetKey (z : Bool) (k : Key) (h : Kept d p) : Kept d (senseResetKey z k p) := by
  have step : ∀ {q : Part}, Kept d q → Kept d (putKey k { keyRec k q with
      missCount := 0
      trim := if z then 0 else (keyRec k q).trim
      depressTrim := if z then 0 else (keyRec k q).depressTrim } q) := by
    intro q hq
    have g := hq.lawful.figures k
    refine kept_putKey k _ hq ⟨g.heat, ?_, ?_, Nat.zero_le _⟩ rfl
    · dsimp only
      split
      · decide
      · exact g.trimLow
    · dsimp only
      split
      · decide
      · exact g.trimHigh
  have g := h.lawful.figures k
  unfold senseResetKey
  dsimp only
  split
  · exact step (kept_putSense _ _ (kept_logRecord _ (kept_putKey k _ h ⟨g.heat, g.trimLow, g.trimHigh, Nat.zero_le _⟩ rfl)))
  · exact step (kept_putSense _ _ h)

theorem kept_cutWindow (k : Key) (h : Kept d p) : Kept d (cutWindow k p) := by
  unfold cutWindow
  dsimp only
  split
  · exact kept_putSense _ _ h
  · exact h

/-! ## The Key Driver -/

theorem kept_heatKey (k : Key) (h : Kept d p) : Kept d (heatKey k p) := by
  have g := h.lawful.figures k
  exact kept_putKey k _ h ⟨Nat.min_le_left _ _, g.trimLow, g.trimHigh, g.misses⟩ rfl

theorem kept_enterDrive (k : Key) (h : Kept d p) : Kept d (enterDrive k p) := by
  unfold enterDrive
  dsimp only
  split
  · exact h
  · have g := h.lawful.figures k
    exact kept_bump _ (kept_logRecord _ (kept_openWindow _ _
      (kept_putKey k _ h ⟨Nat.min_le_left _ _, g.trimLow, g.trimHigh, g.misses⟩ rfl)))

theorem kept_askLaunch (k : Key) (h : Kept d p) : Kept d (askLaunch k p) := by
  unfold askLaunch
  split
  · exact h
  · split
    · exact kept_enterDrive k (kept_setKeyClaim _ _ h)
    · exact kept_putKey_same k _ (kept_deferKey _ _ _ h) rfl

theorem kept_enterIdle (k : Key) (h : Kept d p) : Kept d (enterIdle k p) := by
  unfold enterIdle
  dsimp only
  split
  · exact kept_drainTest (kept_putKey_same k _ h rfl)
  · split
    · exact kept_askLaunch k (kept_putKey_same k _ h rfl)
    · exact kept_putKey_same k _ h rfl

theorem kept_liftOrIdle (k : Key) (h : Kept d p) : Kept d (liftOrIdle k p) := by
  unfold liftOrIdle
  dsimp only
  split
  · split
    · exact kept_drainTest (kept_putKey_same k _ h rfl)
    · exact kept_enterIdle k h
  · exact kept_enterIdle k h

theorem kept_releaseKey (k : Key) (h : Kept d p) : Kept d (releaseKey k p) := by
  unfold releaseKey
  have h1 := kept_setKeyClaim k 0 h
  generalize setKeyClaim k 0 p = q at h1 ⊢
  dsimp only
  refine kept_liftOrIdle k ?_
  split
  · exact kept_logRecord _ (kept_putKey_same k _ h1 rfl)
  · exact kept_putKey_same k _ h1 rfl

theorem kept_enterHold (k : Key) (h : Kept d p) : Kept d (enterHold k p) := kept_putKey_same k _ h rfl

theorem kept_passToHold (k : Key) (h : Kept d p) : Kept d (passToHold k p) := by
  unfold passToHold
  dsimp only
  split
  · exact h
  · split
    · exact kept_enterHold k (kept_setKeyClaim _ _ h)
    · exact kept_releaseKey k h

theorem kept_endPulse (k : Key) (h : Kept d p) : Kept d (endPulse k p) := by
  unfold endPulse
  split
  · exact kept_releaseKey k h
  · exact kept_passToHold k h

theorem kept_enterDepressing (k : Key) (h : Kept d p) : Kept d (enterDepressing k p) :=
  kept_bump _ (kept_putSense _ _ (kept_putKey_same k _ h rfl))

theorem kept_askDepress (k : Key) (n : Nat) (h : Kept d p) : Kept d (askDepress k n p) := by
  unfold askDepress
  split
  · exact kept_enterDepressing k (kept_setKeyClaim _ _ h)
  · exact kept_putKey_same k _ (kept_deferKey _ _ _ h) rfl

theorem kept_suppressQueued (x : SuppressReason) (k : Key) (h : Kept d p) : Kept d (suppressQueued x k p) := by
  unfold suppressQueued
  dsimp only
  split
  · exact h
  · exact kept_reportSuppressedStrike _ _ (kept_putKey_same k _ h rfl)

theorem kept_suppressCurrent (x : SuppressReason) (k : Key) (h : Kept d p) : Kept d (suppressCurrent x k p) := by
  unfold suppressCurrent
  have h1 := kept_withdrawKey k h
  generalize withdrawKey k p = q at h1 ⊢
  dsimp only
  split
  · exact h1
  · exact kept_enterIdle k (kept_reportSuppressedStrike _ _ (kept_putKey_same k _ h1 rfl))

theorem kept_takeLaunch (k : Key) (tag : Word) (h : Kept d p) : Kept d (takeLaunch k tag p) := by
  unfold takeLaunch
  dsimp only
  split
  · split
    · exact kept_askLaunch k h
    · exact h
  · split
    · exact kept_putKey_same k _ h rfl
    · exact h

theorem kept_takeExpire (k : Key) (tag : Word) (h : Kept d p) : Kept d (takeExpire k tag p) := by
  unfold takeExpire
  dsimp only
  split
  · split
    · exact kept_suppressCurrent _ k h
    · exact h
  · split
    · exact kept_suppressQueued _ k h
    · exact h

theorem kept_releaseCurrent (k : Key) (h : Kept d p) : Kept d (releaseCurrent k p) := by
  unfold releaseCurrent
  dsimp only
  split
  · exact kept_suppressCurrent _ k h
  · exact kept_suppressCurrent _ k h
  · exact kept_releaseKey k (kept_withdrawKey k h)
  · exact kept_putKey_same k _ h rfl
  · exact kept_releaseKey k h
  · exact kept_releaseKey k h
  · exact kept_releaseKey k h
  · exact h
  · exact h

theorem kept_takeRelease (k : Key) (tag : Word) (h : Kept d p) : Kept d (takeRelease k tag p) := by
  unfold takeRelease
  dsimp only
  split
  · exact kept_releaseCurrent k h
  · split
    · exact kept_suppressQueued _ k h
    · exact h

theorem kept_takeDepress (k : Key) (tag : Word) (n : Nat) (h : Kept d p) : Kept d (takeDepress k tag n p) := by
  unfold takeDepress
  dsimp only
  split
  · exact kept_askDepress k n h
  · exact h

theorem kept_releaseAllKey (k : Key) (h : Kept d p) : Kept d (releaseAllKey k p) := by
  unfold releaseAllKey
  have h1 := kept_suppressQueued .stop k h
  generalize suppressQueued .stop k p = q at h1 ⊢
  dsimp only
  split
  · exact kept_suppressCurrent _ k h1
  · exact kept_suppressCurrent _ k h1
  · exact kept_putKey_same k _ h1 rfl
  · exact kept_releaseKey k h1
  · exact kept_releaseKey k h1
  · exact kept_releaseKey k h1
  · exact kept_releaseKey k (kept_withdrawKey k h1)
  · exact h1
  · exact h1

/-! ## Cover and relief -/

theorem kept_relieveKey (k : Key) (h : Kept d p) : Kept d (relieveKey k p) :=
  kept_putKey_same k _ (kept_setKeyClaim k 0 h) rfl

theorem kept_reliefTest (k : Key) (h : Kept d p) : Kept d (reliefTest k p) := by
  unfold reliefTest
  dsimp only
  split
  · exact kept_relieveKey k h
  · exact h

theorem kept_reliefTestAll (h : Kept d p) : Kept d (reliefTestAll p) :=
  kept_forKeys _ (fun _ k hq => kept_reliefTest k hq) h

theorem kept_earlyDamp (x : Pedal) (k : Key) (h : Kept d p) : Kept d (earlyDamp x k p) :=
  kept_bump _ (kept_logRecord _ (kept_liftOrIdle k (kept_putKey_same k _ (kept_withdrawKey k h) rfl)))

theorem kept_updateCover (x : Pedal) (k : Key) (h : Kept d p) : Kept d (updateCover x k p) := by
  unfold updateCover
  dsimp only
  split
  · have h1 : Kept d (putKey k (setCover x (covers x k p) (keyRec k p)) p) :=
      kept_putKey_same k _ h (by cases x <;> rfl)
    split
    · exact kept_earlyDamp x k h1
    · exact h1
  · exact h

theorem kept_coverUpdate (x : Pedal) (h : Kept d p) : Kept d (coverUpdate x p) :=
  kept_forKeys _ (fun _ k hq => kept_updateCover x k hq) h

theorem kept_fillCapture (h : Kept d p) : Kept d (fillCapture p) := kept_coverUpdate _ (h.same rfl)

theorem kept_captureTest (h : Kept d p) : Kept d (captureTest p) := by
  unfold captureTest
  split
  · exact kept_reliefTestAll (kept_fillCapture h)
  · exact h

theorem kept_emptyCapture (h : Kept d p) : Kept d (emptyCapture p) := kept_coverUpdate _ (h.same rfl)

end Sys2Proof.Machine
end

