-- ==== Sys2Proof/Laws/LawfulPedals.lean ====
section
/-! SUPPORT. The serving of the queues and the rules of the Pedal Driver keep a part lawful and never turn drive time
back. -/

namespace Sys2Proof.Machine

variable {d : Nat} {p q : Part}

theorem kept_reportPedal (x : Pedal) (s : PedalState) (h : Kept d p) : Kept d (reportPedal x s p) := by
  unfold reportPedal
  dsimp only
  split
  · exact h
  · exact kept_logRecord _ h

theorem kept_pedalArrives (x : Pedal) (s : PedalState) (h : Kept d p) : Kept d (pedalArrives x s p) := by
  unfold pedalArrives
  have h1 := kept_coverUpdate x (kept_drainTest (kept_reportPedal x s h))
  generalize coverUpdate x (drainTest (reportPedal x s p)) = q at h1 ⊢
  dsimp only
  split
  · exact kept_fillCapture h1
  · exact h1

theorem kept_pedalEntered (x : Pedal) (s : PedalState) (h : Kept d p) : Kept d (pedalEntered x s p) := by
  unfold pedalEntered
  dsimp only
  split
  · exact kept_reliefTestAll (kept_pedalArrives x s h)
  · exact kept_pedalArrives x s h

theorem kept_putDriving (x : Pedal) (s : PedalState) (t : Nat) (h : Kept d p) : Kept d (putDriving x s t p) :=
  kept_putPedal x _ h rfl

theorem kept_pedalDrives (x : Pedal) (s : PedalState) (t : Nat) (h : Kept d p) : Kept d (pedalDrives x s t p) :=
  kept_pedalEntered _ _ (kept_putDriving x s t h)

/-! ## Serving -/

theorem kept_grantKey (hf : Half) (e : KeyClaim) (h : Kept d p) : Kept d (grantKey hf e p) := by
  unfold grantKey
  dsimp only
  have h1 : Kept d { p with budget :=
      { putHalfQueue hf (halfQueue hf p.budget).tail p.budget with patternPos := p.budget.patternPos + 1 } } :=
    h.same (by cases hf <;> rfl)
  split
  · exact kept_enterDrive _ (kept_setKeyClaim _ _ h1)
  · exact kept_enterDepressing _ (kept_setKeyClaim _ _ h1)

theorem kept_grantPedal (e : PedalClaim) (h : Kept d p) : Kept d (grantPedal e p) :=
  kept_pedalArrives _ _ (kept_putDriving _ _ _ (kept_setPedalClaim _ _
    (Kept.same (q := { p with budget := { p.budget with pedalQ := p.budget.pedalQ.tail } }) h rfl)))

theorem kept_serveRound (h : Kept d p) (e : serveRound p = some q) : Kept d q := by
  unfold serveRound at e
  dsimp only at e
  split at e
  · cases e; exact kept_grantPedal _ h
  · split at e
    · cases e; exact kept_grantKey _ _ h
    · split at e
      · cases e; exact kept_grantKey _ _ h
      · cases e

theorem kept_serveRounds (n : Nat) (h : Kept d p) : Kept d (serveRounds n p) := by
  induction n generalizing p with
  | zero => exact h
  | succ n ih =>
    unfold serveRounds
    split
    · exact h
    · rename_i q e
      exact ih (kept_serveRound h e)

theorem kept_serveOnce (h : Kept d p) : Kept d (serveOnce p) := (kept_serveRounds _ h).same rfl

theorem kept_servings (n : Nat) (h : Kept d p) : Kept d (servings n p) := by
  induction n generalizing p with
  | zero => exact h
  | succ n ih =>
    unfold servings
    dsimp only
    split
    · split
      · exact ih (kept_reliefTestAll (kept_serveOnce h))
      · exact kept_serveOnce h
    · exact h

theorem kept_serve (h : Kept d p) : Kept d (serve p) := kept_servings 4 h

/-! ## The Pedal Driver -/

theorem fallToRest_claim (v : PedalVoicing) (n : Nat) (r : PedalRec) : (fallToRest v n r).claim = r.claim := rfl

theorem kept_dropWanted (x : Pedal) (h : Kept d p) : Kept d (dropWanted x p) := by
  unfold dropWanted
  dsimp only
  split
  · exact kept_putPedal x _ (kept_withdrawPedal x h) rfl
  · exact kept_putPedal x _ h rfl

theorem kept_applyZero (x : Pedal) (h : Kept d p) : Kept d (applyZero x p) := by
  unfold applyZero
  have h1 := kept_dropWanted x h
  generalize dropWanted x p = q at h1 ⊢
  dsimp only
  have h2 : ∀ b : Bool, Kept d (if b = true then setPedalClaim x 0 (pedalEntered x (pedalRec x q).state
      (putPedal x (fallToRest (pedalVoicing x q) q.clocks.drive (pedalRec x q)) q)) else q) := by
    intro b
    split
    · exact kept_setPedalClaim _ _ (kept_pedalEntered _ _ (kept_putPedal x _ h1 rfl))
    · exact h1
  split <;> exact h2 _

theorem kept_applyChange (x : Pedal) (w : Nat) (h : Kept d p) : Kept d (applyChange x w p) := by
  unfold applyChange
  dsimp only
  split
  · exact kept_putPedal x _ h rfl
  · split
    · exact kept_pedalDrives _ _ _ (kept_setPedalClaim _ _ h)
    · exact kept_putPedal x _ h rfl

theorem kept_askPedal (x : Pedal) (w : Nat) (h : Kept d p) : Kept d (askPedal x w p) := by
  unfold askPedal
  dsimp only
  split
  · exact kept_pedalDrives _ _ _ (kept_setPedalClaim _ _ h)
  · exact kept_putPedal x _ (kept_deferPedal _ _ _ h) rfl

theorem kept_applyAsk (x : Pedal) (w : Nat) (h : Kept d p) : Kept d (applyAsk x w p) := by
  unfold applyAsk
  dsimp only
  split
  · split
    · exact kept_putPedal x _ h rfl
    · exact kept_askPedal x w (kept_withdrawPedal x h)
  · exact kept_askPedal x w h

theorem kept_applyTarget (x : Pedal) (w : Nat) (h : Kept d p) : Kept d (applyTarget x w p) := by
  unfold applyTarget
  dsimp only
  refine kept_serve ?_
  split
  · exact h
  · split
    · exact kept_applyZero x h
    · split
      · exact kept_applyChange x w h
      · exact kept_applyChange x w h
      · split
        · exact kept_applyAsk x w h
        · exact kept_applyChange x w h
      · exact kept_applyAsk x w h
      · exact h
      · exact h

theorem kept_judgeArrival (x : Pedal) (h : Kept d p) : Kept d (judgeArrival x p) := by
  unfold judgeArrival
  dsimp only
  split
  · split
    · split
      · exact kept_serve (kept_pedalEntered _ _ (kept_putPedal x _ (kept_setPedalClaim _ _ h) rfl))
      · exact kept_putPedal x _ h rfl
    · exact h
  · split
    · split
      · exact kept_serve (kept_pedalEntered _ _ (kept_putPedal x _ h rfl))
      · exact h
    · split
      · exact kept_serve (kept_pedalEntered _ _ (kept_putPedal x _ h rfl))
      · exact h
  · exact h
  · exact h
  · exact h
  · exact h

theorem kept_retryWanted (x : Pedal) (h : Kept d p) : Kept d (retryWanted x p) := by
  unfold retryWanted
  split
  · split
    · exact h
    · exact kept_applyTarget _ _ h
  · exact h

theorem kept_sampleCapture (x : Pedal) (h : Kept d p) : Kept d (sampleCapture x p) := by
  unfold sampleCapture
  split
  · split
    · exact kept_emptyCapture h
    · exact kept_captureTest h
  · exact h

theorem kept_pedalConversion (x : Pedal) (s : BitVec 10) (h : Kept d p) : Kept d (pedalConversion x s p) := by
  unfold pedalConversion
  dsimp only
  have h1 := kept_sampleCapture x (kept_coverUpdate x (kept_retryWanted x (kept_judgeArrival x
    (kept_putPedal x { pedalRec x p with position := s.toNat / 4 } h rfl))))
  refine kept_serve ?_
  split
  · exact kept_reliefTestAll h1
  · exact h1

theorem kept_becomeStuck (x : Pedal) (h : Kept d p) : Kept d (becomeStuck x p) := by
  unfold becomeStuck
  dsimp only
  refine kept_serve (kept_drainTest (kept_bump _ (kept_reportPedal _ _ (kept_raise _ (kept_setPedalClaim _ _
    (kept_coverUpdate _ ?_))))))
  split
  · exact kept_withdrawPedal x (kept_putPedal x _ h rfl)
  · exact kept_putPedal x _ h rfl

theorem kept_followTarget (x : Pedal) (r : PedalRec) (w : Nat) (h : Kept d p) :
    Kept d (if followsRoll r = true then applyTarget x w p else p) := by
  split
  · exact kept_applyTarget x w h
  · exact h

theorem kept_liftMark (x : Pedal) (b : Bool) (h : Kept d p) :
    Kept d (if b = true ∧ (pedalRec x p).state = .settled then serve (reliefTestAll p) else p) := by
  split
  · exact kept_serve (kept_reliefTestAll h)
  · exact h

theorem kept_takePedal (x : Pedal) (t : Nat) (b : Bool) (i : Word32) (h : Kept d p) :
    Kept d (takePedal x t b i p) :=
  kept_liftMark x _ (kept_followTarget x _ t (kept_putPedal x _ h rfl))

theorem kept_restPedal (x : Pedal) (h : Kept d p) : Kept d (restPedal x p) := by
  unfold restPedal
  dsimp only
  have h1 : Kept d (putPedal x { pedalRec x p with rollTarget := 0, dropPending := none } p) :=
    kept_putPedal x _ h rfl
  split
  · exact kept_applyTarget x 0 h1
  · exact h1

theorem kept_overrideOff (x : Pedal) (h : Kept d p) : Kept d (overrideOff x p) :=
  kept_serve (kept_drainTest (kept_reportPedal _ _ (kept_setPedalClaim _ _ (kept_coverUpdate _
    (kept_putPedal x _ (kept_dropWanted x h) rfl)))))

theorem kept_overrideOn (x : Pedal) (o : Override) (h : Kept d p) : Kept d (overrideOn x o p) := by
  unfold overrideOn
  dsimp only
  have h1 : Kept d (putPedal x { pedalRec x p with override := o } p) := kept_putPedal x _ h rfl
  have h2 : Kept d (if outOfService { pedalRec x p with override := o } = true then
      pedalEntered x (pedalRec x p).state (putPedal x (fallToRest (pedalVoicing x
        (putPedal x { pedalRec x p with override := o } p))
        (putPedal x { pedalRec x p with override := o } p).clocks.drive { pedalRec x p with override := o })
        (putPedal x { pedalRec x p with override := o } p))
    else putPedal x { pedalRec x p with override := o } p) := by
    split
    · refine kept_pedalEntered _ _ (kept_putPedal x _ h1 ?_)
      rw [pedalRec_putPedal_same]; rfl
    · exact h1
  split
  · exact kept_applyTarget _ _ h2
  · exact kept_serve h2

end Sys2Proof.Machine
end

