-- ==== Sys2Proof/Laws/LawfulLines.lean ====
section
/-! SUPPORT. The rules of a roll line, of its strikes and releases, and of the leader keep a part lawful and never turn
drive time back. -/

namespace Sys2Proof.Machine

variable {d : Nat} {p q : Part}

/-! ## The Strip Reader -/

theorem kept_putTakeMark (m : Word) (h : Kept d p) : Kept d (putTakeMark m p) := kept_putWord _ _ (h.same rfl)
theorem kept_advanceTakeMark (h : Kept d p) : Kept d (advanceTakeMark p) := kept_putTakeMark _ h
theorem kept_prepareStrip (h : Kept d p) : Kept d (prepareStrip p) := h.same rfl

theorem kept_updateDrift (f : Format) (e : Nat × Nat) (h : Kept d p) : Kept d (updateDrift f e p) := by
  unfold updateDrift
  dsimp only
  split
  · exact h.same rfl
  · exact kept_bump _ (h.same rfl)

theorem kept_enterLost (n : Word32) (h : Kept d p) : Kept d (enterLost n p) :=
  kept_bump _ (kept_logRecord _ (kept_raiseEdge _ _ (h.same rfl)))

theorem kept_invalidEdgeLine (f : Format) (n : Word32) (h : Kept d p) : Kept d (invalidEdgeLine f n p) := by
  unfold invalidEdgeLine
  dsimp only
  split
  · split
    · exact kept_enterLost n (h.same rfl)
    · exact h.same rfl
  · split
    · exact kept_enterLost n (h.same rfl)
    · exact h.same rfl
  · exact h.same rfl

theorem kept_relock (f : Format) (n : Word32) (e : Nat × Nat) (h : Kept d p) : Kept d (relock f n e p) :=
  kept_logRecord _ (kept_raiseEdge _ _ (kept_updateDrift f e (h.same rfl)))

theorem kept_validEdgeLine (f : Format) (n : Word32) (e : Nat × Nat) (h : Kept d p) :
    Kept d (validEdgeLine f n e p) := by
  unfold validEdgeLine
  dsimp only
  split
  · exact kept_updateDrift f e h
  · exact kept_updateDrift f e (h.same rfl)
  · split
    · exact kept_relock f n e h
    · exact h.same rfl

theorem kept_trackEdges (f : Format) (n : Word32) (x : LineKind) (h : Kept d p) : Kept d (trackEdges f n x p) := by
  unfold trackEdges
  split
  · split
    · exact kept_validEdgeLine _ _ _ h
    · exact kept_invalidEdgeLine _ _ h
  · exact kept_invalidEdgeLine _ _ h
  · exact h

theorem kept_putTrack (t : Fin 104) (r : TrackRec) (h : Kept d p) : Kept d (putTrack t r p) := h.same rfl

theorem kept_runTrack (f : Format) (n : Word32) (x : LineKind) (acc : Part × List TrackEvent) (t : Fin 104)
    (h : Kept d acc.1) : Kept d (runTrack f n x acc t).1 := by
  unfold runTrack
  generalize hs : stepTrack f n (lineSample f acc.1.strip.drift x t.val acc.1.strip.tracks[t])
    acc.1.strip.tracks[t] = s
  dsimp only
  rw [hs]
  have h1 : Kept d (if s.spurious = true then bump .spuriousRuns (putTrack t s.record acc.1)
      else putTrack t s.record acc.1) := by
    split
    · exact kept_bump _ (kept_putTrack _ _ h)
    · exact kept_putTrack _ _ h
  split <;> exact h1

theorem kept_runTracks (f : Format) (n : Word32) (x : LineKind) (h : Kept d p) : Kept d (runTracks f n x p).1 := by
  have hf : ∀ (l : List (Fin 104)) (acc : Part × List TrackEvent), Kept d acc.1 →
      Kept d (l.foldl (runTrack f n x) acc).1 := by
    intro l
    induction l with
    | nil => exact fun _ ha => ha
    | cons t rest ih => exact fun acc ha => ih _ (kept_runTrack f n x acc t ha)
  exact hf _ _ h

theorem kept_closeTracksFrom (c : Nat) (h : Kept d p) : Kept d (closeTracksFrom c p) :=
  kept_foldl _ _ (fun _ _ hq => kept_putTrack _ _ hq) h

/-! ## The Shading Unit and the Timebase Unit -/

theorem length_pushHistory (l : List HistoryEntry) (e : HistoryEntry) (hl : l.length ≤ 8) :
    (pushHistory l e).length ≤ 8 := by
  unfold pushHistory
  split
  · rw [List.length_append, List.length_singleton]; omega
  · rw [List.length_append, List.length_tail, List.length_singleton]; omega

theorem kept_closeLine (f : Format) (n due : Word32) (per : Nat) (ev : List TrackEvent) (h : Kept d p) :
    Kept d (closeLine f n due per ev p) :=
  ⟨⟨h.lawful.memory, h.lawful.notices, h.lawful.position, h.lawful.figures, h.lawful.transposeLow,
    h.lawful.transposeHigh, length_pushHistory _ _ h.lawful.history, h.lawful.claims,
    h.lawful.ring, h.lawful.counters, h.lawful.volumes, h.lawful.hostBudget⟩, h.since⟩

theorem kept_advanceLine (h : Kept d p) : Kept d (advanceLine p) := h.same rfl

/-! ## The Leader Decoder -/

theorem kept_writeLeaderRecord (h : Kept d p) : Kept d (writeLeaderRecord p) := kept_putWord _ _ (kept_putWords _ _ h)

theorem kept_decideOutcome (r : PageResult) (h : Kept d p) : Kept d (decideOutcome r p) := by
  unfold decideOutcome
  dsimp only
  exact kept_closeTracksFrom _ (kept_enterEngine _ _ (kept_logRecord _ (kept_raise _
    (kept_writeLeaderRecord (h.same rfl)))))

/-- The Leader Decoder's own state is none of what `Kept` reads. -/
theorem Kept.setLeader (h : Kept d p) (l : Leader) : Kept d { p with leader := l } := h.same rfl

theorem kept_leaderLine (f : Format) (ev : List TrackEvent) (h : Kept d p) : Kept d (leaderLine f ev p) := by
  have hd : ∀ (c : Prop) [Decidable c] (l : Leader) (r : PageResult),
      Kept d (if c then decideOutcome r { p with leader := l } else { p with leader := l }) := by
    intro c _ l r
    split
    · exact kept_decideOutcome _ (h.setLeader _)
    · exact h.setLeader _
  exact hd _ _ _

/-! ## Strikes and releases -/

theorem kept_carrySteal (k : Key) (i : Word32) (h : Kept d p) : Kept d (carrySteal k i p) := by
  unfold carrySteal
  dsimp only
  split
  · exact h
  · refine kept_putKey_same k _ (kept_moveAction _ _ h) ?_
    unfold moveAction
    split <;> rfl

theorem kept_seatStrike (st : Strike) (h : Kept d p) : Kept d (seatStrike st p) := by
  unfold seatStrike
  dsimp only
  split
  · exact kept_putKey_same _ _ h rfl
  · exact kept_putKey_same _ _ (kept_suppressQueued _ _ h) rfl

theorem kept_scheduleStrike (st : Strike) (h : Kept d p) : Kept d (scheduleStrike st p) := by
  unfold scheduleStrike
  dsimp only
  split
  · exact kept_reportSuppressedStrike _ _ h
  · refine kept_placeAction _ _ (kept_placeAction _ _ (kept_seatStrike _ ?_))
    have h1 : Kept d (match (decideRepetition (keyRec st.key p) (classOf st.key p) p.time.clock st.planned).steal with
        | some i => carrySteal st.key i p
        | none => p) := by
      split
      · exact kept_carrySteal _ _ h
      · exact h
    split
    · exact kept_bump _ h1
    · exact h1

theorem kept_strikeOnset (f : Format) (k : Key) (n : Word32) (h : Kept d p) : Kept d (strikeOnset f k n p) := by
  unfold strikeOnset
  dsimp only
  have h1 : Kept d { p with strikes := { p.strikes with tagCounter := p.strikes.tagCounter + 1 } } := h.same rfl
  split
  · exact h
  · split
    · exact kept_reportSuppress _ _ _ _ _ h1
    · split
      · exact kept_scheduleStrike _ (kept_bump _ h1)
      · exact kept_scheduleStrike _ h1

theorem kept_planRelease (k : Key) (n : Word32) (h : Kept d p) : Kept d (planRelease k n p) := by
  unfold planRelease
  dsimp only
  split
  · exact h
  · rename_i e _
    have h1 : Kept d (match (keyRec k p).queued with
        | none => p
        | some qd =>
          if qd.strike.release.isSome = true then p
          else
            placeAction (.release k qd.strike.tag) (releaseInstant qd.strike (classOf k p) e.due)
              (putKey k { keyRec k p with queued := some { qd with
                strike := { qd.strike with release := some (releaseInstant qd.strike (classOf k p) e.due) } } } p)) := by
      split
      · exact h
      · split
        · exact h
        · exact kept_placeAction _ _ (kept_putKey_same k _ h rfl)
    split
    · exact h1
    · split
      · exact h1
      · exact kept_placeAction _ _ (kept_putKey_same k _ h rfl)

theorem kept_keyEvent (f : Format) (e : KeyEvent) (h : Kept d p) : Kept d (keyEvent f p e) := by
  unfold keyEvent
  split
  · exact kept_strikeOnset _ _ _ h
  · exact kept_planRelease _ _ h

theorem kept_placeDepress (x : Pedal) (t : Word32) (k : Key) (h : Kept d p) : Kept d (placeDepress x t k p) := by
  unfold placeDepress
  dsimp only
  split
  · exact h
  · split
    · exact kept_placeAction _ _ h
    · exact h

theorem kept_planPedal (f : Format) (n : Word32) (ev : List TrackEvent) (x : Pedal) (h : Kept d p) :
    Kept d (planPedal f n ev x p) := by
  have hd : ∀ (c : Bool) (i : Word32) {q : Part}, Kept d q → Kept d (if c = true then forKeys (placeDepress x i) q else q) := by
    intro c i q hq
    split
    · exact kept_forKeys _ (fun _ k hr => kept_placeDepress x i k hr) hq
    · exact hq
  unfold planPedal
  dsimp only
  split
  · exact h
  · exact hd _ _ (kept_placeAction _ _ (kept_putPedal x _ h rfl))

theorem kept_planPedals (f : Format) (n : Word32) (ev : List TrackEvent) (h : Kept d p) :
    Kept d (planPedals f n ev p) := kept_forPedals _ (fun _ x hq => kept_planPedal f n ev x hq) h

/-! ## Roll lines -/

theorem kept_putStruckKey (t : Nat) (k : Option Key) (h : Kept d p) : Kept d (putStruckKey t k p) := by
  unfold putStruckKey
  split
  · exact kept_putTrack _ _ h
  · exact h

theorem kept_noteEvent (f : Format) (n : Word32) (acc : Part × List KeyEvent) (e : TrackEvent) (h : Kept d acc.1) :
    Kept d (noteEvent f n acc e).1 := by
  unfold noteEvent
  split
  · split
    · unfold noteOnset
      split
      · exact kept_putStruckKey _ _ h
      · exact kept_reportSuppress _ _ _ _ _ h
    · unfold noteOffset
      split
      · exact kept_putStruckKey _ _ h
      · exact h
  · exact h

theorem kept_noteEvents (f : Format) (n : Word32) (ev : List TrackEvent) (h : Kept d p) :
    Kept d (noteEvents f n ev p).1 := by
  have hf : ∀ (l : List TrackEvent) (acc : Part × List KeyEvent), Kept d acc.1 →
      Kept d (l.foldl (noteEvent f n) acc).1 := by
    intro l
    induction l with
    | nil => exact fun _ ha => ha
    | cons t rest ih => exact fun acc ha => ih _ (kept_noteEvent f n acc t ha)
  exact hf _ _ h

theorem kept_endTests (f : Format) (n : Word32) (ev : List TrackEvent) (h : Kept d p) : Kept d (endTests f n ev p) := by
  unfold endTests
  split
  · exact kept_stopFinish h
  · exact h

theorem kept_leaderWork (f : Format) (ev : List TrackEvent) (h : Kept d p) : Kept d (leaderWork f ev p) :=
  kept_advanceLine (kept_leaderLine f ev h)

theorem kept_musicWork (f : Format) (n : Word32) (ev : List TrackEvent) (h : Kept d p) :
    Kept d (musicWork f n ev p) := by
  unfold musicWork
  dsimp only
  exact kept_planPedals _ _ _ (kept_foldl _ _ (fun _ e hq => kept_keyEvent f e hq)
    (kept_advanceLine (kept_closeLine _ _ _ _ _ (kept_noteEvents f n _ (h.same rfl)))))

theorem kept_lineTaken (x : LineKind) (h : Kept d p) : Kept d (lineTaken x p) := by
  unfold lineTaken
  split
  · exact kept_bump _ (kept_advanceTakeMark h)
  · exact kept_bump _ (kept_bump _ (kept_advanceTakeMark h))
  · exact kept_bump _ h

theorem kept_processLine (x : LineKind) (h : Kept d p) : Kept d (processLine x p) := by
  unfold processLine
  have h1 := kept_runTracks (formatInForce p) p.time.nextLine x
    (kept_trackEdges (formatInForce p) p.time.nextLine x h)
  have h2 := kept_lineTaken x h1
  dsimp only
  refine kept_endTests _ _ _ ?_
  split
  · exact kept_leaderWork _ _ h2
  · exact kept_musicWork _ _ _ h2

theorem kept_putHeld (x : Option HeldSlot) (h : Kept d p) : Kept d (putHeld x p) := h.same rfl

theorem kept_takeHeld (x : HeldSlot) (h : Kept d p) : Kept d (takeHeld x p) := by
  unfold takeHeld
  split
  · exact kept_processLine _ (kept_putHeld _ h)
  · exact kept_processLine _ (kept_putHeld _ h)

theorem kept_takeOne (h : Kept d p) : Kept d (takeOne p) := by
  unfold takeOne
  dsimp only
  split
  · exact kept_takeHeld _ h
  · split
    · exact kept_bump _ (kept_advanceTakeMark h)
    · exact kept_takeHeld _ h

theorem kept_readyToTake (h : Kept d p) : Kept d (readyToTake p) := by
  unfold readyToTake
  split
  · exact kept_leaveStarved h
  · exact h

theorem kept_reportWanted (h : Kept d p) : Kept d (reportWanted p) := h.same rfl
theorem kept_reportCause (c : Cause) (h : Kept d p) : Kept d (reportCause c p) := h.same rfl

theorem kept_considerLines (n : Nat) (h : Kept d p) : Kept d (considerLines n p) := by
  induction n generalizing p with
  | zero => exact h
  | succ n ih =>
    unfold considerLines
    dsimp only
    split
    · split
      · exact ih (kept_takeOne (kept_readyToTake (kept_reportWanted h)))
      · exact kept_reportCause _ (kept_reportWanted h)
    · exact h

theorem kept_consider (h : Kept d p) : Kept d (consider p) := kept_considerLines _ h

end Sys2Proof.Machine
end

