-- ==== Sys2Proof/Laws/LawfulCommands.lean ====
section
/-! SUPPORT. The turns of the wheel, the requests, the restart and the accesses at the port keep a part lawful and never
turn drive time back. -/

namespace Sys2Proof.Machine

variable {d : Nat} {p q : Part}

/-! ## The wheel -/

theorem kept_handAction (a : Action) (h : Kept d p) : Kept d (handAction a p) := by
  unfold handAction
  split
  · exact kept_takeLaunch _ _ h
  · exact kept_takeExpire _ _ h
  · exact kept_takeRelease _ _ h
  · exact kept_forKeys _ (fun _ k hq => kept_serve (kept_releaseAllKey k hq)) h
  · exact kept_takeDepress _ _ _ h
  · exact kept_takePedal _ _ _ _ h
  · exact kept_forPedals _ (fun _ x hq => kept_restPedal x hq) h

theorem kept_walkAction (a : Action) (h : Kept d p) : Kept d (walkAction a p) :=
  kept_consider (kept_returnEntry (kept_serve (kept_handAction a (kept_removeAction a h))))

theorem kept_walkSlot (x n : Nat) (h : Kept d p) : Kept d (walkSlot x n p) := by
  induction n generalizing p with
  | zero => exact h
  | succ n ih =>
    unfold walkSlot
    split
    · exact h
    · exact ih (kept_walkAction _ h)

theorem nextPosition_multiple (i : Word32) (hi : i.toNat % 100 = 0) : (nextPosition i).toNat % 100 = 0 := by
  unfold nextPosition
  split
  · rfl
  · rename_i hn
    have hlt := i.isLt
    have hne : i.toNat ≠ 4294967200 := fun e => hn (BitVec.eq_of_toNat_eq (by rw [e]; rfl))
    unfold plusTime
    rw [BitVec.toNat_add]
    have h1 : (BitVec.ofNat 32 Config.slotTime).toNat = 100 := rfl
    rw [h1]
    obtain ⟨n, hn⟩ : ∃ n, i.toNat = 100 * n := ⟨i.toNat / 100, by omega⟩
    have h2 : i.toNat + 100 < 2 ^ 32 := by omega
    rw [Nat.mod_eq_of_lt h2]
    omega

theorem kept_takeSlotActions (h : Kept d p) : Kept d (takeSlotActions p) := by
  unfold takeSlotActions
  dsimp only
  exact kept_drainTest (kept_walkSlot _ _ ⟨⟨h.lawful.memory, h.lawful.notices,
    nextPosition_multiple _ h.lawful.position, h.lawful.figures, h.lawful.transposeLow,
    h.lawful.transposeHigh, h.lawful.history, h.lawful.claims,
    h.lawful.ring, h.lawful.counters, h.lawful.volumes, h.lawful.hostBudget⟩, h.since⟩)

theorem kept_turnWheel (h : Kept d p) : Kept d (turnWheel p) := by
  unfold turnWheel
  split
  · exact kept_takeSlotActions (kept_planTo _ h)
  · exact h

theorem kept_reachLookahead (h : Kept d p) : Kept d (reachLookahead p) := by
  unfold reachLookahead
  split
  · exact kept_consider (kept_planTo _ h)
  · exact h

theorem kept_starveIf (c : Prop) [Decidable c] (h : Kept d p) : Kept d (if c then enterStarved p else p) := by
  split
  · exact kept_enterStarved h
  · exact h

theorem kept_considerIf (c : Prop) [Decidable c] (h : Kept d p) : Kept d (if c then p else consider p) := by
  split
  · exact h
  · exact kept_consider h

theorem kept_reachGuard (h : Kept d p) : Kept d (reachGuard p) := by
  unfold reachGuard
  split
  · exact kept_starveIf _ (kept_considerIf _ (kept_planTo _ h))
  · exact h

/-! ## Restart -/

theorem claimsHeld_zero (hk : ∀ k, (keyRec k p).claim = 0) (hx : ∀ x, (pedalRec x p).claim = 0) : claimsHeld p = 0 := by
  have h1 : ∀ l : List Nat, (∀ a ∈ l, a = 0) → l.sum = 0 := by
    intro l
    induction l with
    | nil => exact fun _ => rfl
    | cons a rest ih =>
      intro hl
      rw [List.sum_cons, hl a (List.mem_cons_self ..), ih fun b hb => hl b (List.mem_cons_of_mem _ hb)]
  unfold claimsHeld
  rw [h1, h1]
  · intro a ha
    obtain ⟨r, hr, rfl⟩ := List.mem_map.mp ha
    obtain ⟨i, hi, rfl⟩ := List.getElem_of_mem hr
    have hi' : i < 3 := by simpa using hi
    have := hx (if i = 0 then .damper else if i = 1 then .shift else .middle)
    interval_cases i <;> exact this
  · intro a ha
    obtain ⟨r, hr, rfl⟩ := List.mem_map.mp ha
    obtain ⟨i, hi, rfl⟩ := List.getElem_of_mem hr
    have hi' : i < 88 := by simpa using hi
    exact hk ⟨i, hi'⟩

/-- What a restart keeps until the claims are cleared: everything lawful but the committed current. -/
structure KeptBut (d : Nat) (p : Part) : Prop where
  memory : Memory.wf p.mem = true
  notices : NoticesSettled p.window
  position : p.wheel.position.toNat % 100 = 0
  figures : ∀ k, KeyFigures (keyRec k p)
  transposeLow : -12 ≤ p.strip.transpose
  transposeHigh : p.strip.transpose ≤ 12
  history : p.shading.history.length ≤ 8
  ring : RingPlaced p.log
  counters : CountersInRange p.log
  volumes : p.strikes.volBass ≤ 255 ∧ p.strikes.volTreble ≤ 255
  hostBudget : p.budget.ibud ≤ 4000
  since : d ≤ p.clocks.drive

theorem Kept.but (h : Kept d p) : KeptBut d p :=
  ⟨h.lawful.memory, h.lawful.notices, h.lawful.position, h.lawful.figures, h.lawful.transposeLow,
    h.lawful.transposeHigh, h.lawful.history, h.lawful.ring, h.lawful.counters, h.lawful.volumes,
    h.lawful.hostBudget, h.since⟩

theorem KeptBut.kept (h : KeptBut d p) (hc : p.budget.committed = claimsHeld p) : Kept d p :=
  ⟨⟨h.memory, h.notices, h.position, h.figures, h.transposeLow, h.transposeHigh, h.history, hc, h.ring,
    h.counters, h.volumes, h.hostBudget⟩, h.since⟩

theorem restartRest_figures (p : Part) (k : Key) (r : KeyRec) (h : KeyFigures r) : KeyFigures (restartRest p k r) := by
  unfold restartRest
  dsimp only
  split <;> first | exact h | exact ⟨h.heat, h.trimLow, h.trimHigh, h.misses⟩ | skip
  all_goals
    split
    · split <;> exact ⟨h.heat, h.trimLow, h.trimHigh, h.misses⟩
    · exact ⟨h.heat, h.trimLow, h.trimHigh, h.misses⟩

theorem keptBut_restartKey (k : Key) (h : KeptBut d p) : KeptBut d (restartKey k p) := by
  refine ⟨h.memory, h.notices, h.position, fun j => ?_, h.transposeLow, h.transposeHigh, h.history, h.ring,
    h.counters, h.volumes, h.hostBudget, h.since⟩
  unfold restartKey
  by_cases hj : j = k
  · subst hj
    rw [keyRec_putKey_same]
    have f := restartRest_figures p j _ (h.figures j)
    exact ⟨f.heat, f.trimLow, f.trimHigh, f.misses⟩
  · rw [keyRec_putKey_other hj]; exact h.figures j

theorem keptBut_restartPedal (x : Pedal) (h : KeptBut d p) : KeptBut d (restartPedal x p) :=
  ⟨h.memory, h.notices, h.position, h.figures, h.transposeLow, h.transposeHigh, h.history, h.ring,
    h.counters, h.volumes, h.hostBudget, h.since⟩

/-- After an operation carried out for every key, what it settles at its own key and keeps at the others holds at every
key. -/
theorem forKeys_all (f : Key → Part → Part) (P : Key → Part → Prop) (hs : ∀ k p, P k (f k p))
    (ho : ∀ j k p, P j p → P j (f k p)) (p : Part) (j : Key) : P j (forKeys f p) := by
  have hf : ∀ (l : List Key) (p : Part), (j ∈ l ∨ P j p) → P j (l.foldl (fun q k => f k q) p) := by
    intro l
    induction l with
    | nil => intro p h; exact h.resolve_left (by simp)
    | cons k rest ih =>
      intro p h
      refine ih _ ?_
      rcases h with h | h
      · rcases List.mem_cons.mp h with rfl | h
        · exact .inr (hs _ _)
        · exact .inl h
      · exact .inr (ho _ _ _ h)
  exact hf _ _ (.inl (List.mem_finRange j))

/-- The same for pedals. -/
theorem forPedals_all (f : Pedal → Part → Part) (P : Pedal → Part → Prop) (hs : ∀ k p, P k (f k p))
    (ho : ∀ j k p, P j p → P j (f k p)) (p : Part) (j : Pedal) : P j (forPedals f p) := by
  cases j
  · exact ho _ .middle _ (ho _ .shift _ (hs .damper _))
  · exact ho _ .middle _ (hs .shift _)
  · exact hs .middle _

/-- A property that an operation keeps for every key holds after it. -/
theorem forKeys_keeps (f : Key → Part → Part) (P : Part → Prop) (hf : ∀ k p, P p → P (f k p)) (p : Part) (h : P p) :
    P (forKeys f p) := by
  have : ∀ (l : List Key) (p : Part), P p → P (l.foldl (fun q k => f k q) p) := by
    intro l
    induction l with
    | nil => exact fun _ h => h
    | cons k rest ih => exact fun p h => ih _ (hf k p h)
  exact this _ _ h

/-- A property that an operation keeps for every pedal holds after it. -/
theorem forPedals_keeps (f : Pedal → Part → Part) (P : Part → Prop) (hf : ∀ k p, P p → P (f k p)) (p : Part) (h : P p) :
    P (forPedals f p) := hf _ _ (hf _ _ (hf _ _ h))

/-- The part of a restart in which every claim is given up. -/
def restartClaims (p : Part) : Part :=
  forPedals restartPedal (restartBudget (emptyWheel (forKeys restartKey (forKeys cutWindow p))))

theorem claim_restartKey_same (k : Key) (p : Part) : (keyRec k (restartKey k p)).claim = 0 := by
  unfold restartKey
  rw [keyRec_putKey_same]

theorem claim_restartKey_other (j k : Key) (p : Part) (h : (keyRec j p).claim = 0) :
    (keyRec j (restartKey k p)).claim = 0 := by
  by_cases e : j = k
  · subst e; exact claim_restartKey_same j p
  · unfold restartKey; rw [keyRec_putKey_other e]; exact h

theorem claim_restartPedal_same (x : Pedal) (p : Part) : (pedalRec x (restartPedal x p)).claim = 0 := by
  unfold restartPedal
  rw [pedalRec_putPedal_same]

theorem claim_restartPedal_other (x y : Pedal) (p : Part) (h : (pedalRec x p).claim = 0) :
    (pedalRec x (restartPedal y p)).claim = 0 := by
  by_cases e : x = y
  · subst e; exact claim_restartPedal_same x p
  · unfold restartPedal; rw [pedalRec_putPedal_other e]; exact h

theorem keyRec_restartPedal (k : Key) (x : Pedal) (p : Part) : keyRec k (restartPedal x p) = keyRec k p := rfl
theorem budget_restartPedal (x : Pedal) (p : Part) : (restartPedal x p).budget = p.budget := rfl

/-- No key holds a claim once every key has been restarted. -/
theorem claims_restartKeys (p : Part) (j : Key) : (keyRec j (forKeys restartKey p)).claim = 0 :=
  forKeys_all restartKey (fun k p => (keyRec k p).claim = 0) claim_restartKey_same claim_restartKey_other p j

/-- The restart of the budget, the wheel and the pedals gives up every claim. -/
theorem kept_restartRest (h : KeptBut d p) (hk : ∀ k, (keyRec k p).claim = 0) :
    Kept d (forPedals restartPedal (restartBudget (emptyWheel p))) := by
  have h3 : KeptBut d (restartBudget (emptyWheel p)) :=
    ⟨h.memory, h.notices, h.position, h.figures, h.transposeLow, h.transposeHigh, h.history, h.ring,
    h.counters, h.volumes, h.hostBudget, h.since⟩
  have hk3 : ∀ k, (keyRec k (restartBudget (emptyWheel p))).claim = 0 := hk
  have hc3 : (restartBudget (emptyWheel p)).budget.committed = 0 := rfl
  generalize restartBudget (emptyWheel p) = r at h3 hk3 hc3 ⊢
  have h4 := forPedals_keeps restartPedal (KeptBut d) (fun k _ hq => keptBut_restartPedal k hq) r h3
  have hx := forPedals_all restartPedal (fun x p => (pedalRec x p).claim = 0) claim_restartPedal_same
    claim_restartPedal_other r
  have hk4 := forPedals_keeps restartPedal (fun p => ∀ k, (keyRec k p).claim = 0)
    (fun x p hq k => by rw [keyRec_restartPedal]; exact hq k) r hk3
  have hc := forPedals_keeps restartPedal (fun p => p.budget.committed = 0)
    (fun x p hq => by rw [budget_restartPedal]; exact hq) r hc3
  refine h4.kept ?_
  rw [claimsHeld_zero hk4 hx]
  exact hc

theorem kept_restartClaims (h : Kept d p) : Kept d (restartClaims p) :=
  kept_restartRest (forKeys_keeps restartKey (KeptBut d) (fun k _ hq => keptBut_restartKey k hq) _
    (kept_forKeys cutWindow (fun _ k hq => kept_cutWindow k hq) h).but) (claims_restartKeys _)

theorem kept_reapplyForce (x : Pedal) (h : Kept d p) : Kept d (reapplyForce x p) := by
  unfold reapplyForce
  split
  · exact h
  · exact h
  · dsimp only
    split
    · exact h
    · split
      · split
        · exact kept_captureTest (kept_putDriving _ _ _ (kept_setPedalClaim _ _ h))
        · exact kept_putDriving _ _ _ (kept_setPedalClaim _ _ h)
      · exact kept_putPedal x _ (kept_deferPedal _ _ _ h) rfl

theorem kept_restartEngineState (h : Kept d p) : Kept d (restartEngineState p) := by
  unfold restartEngineState
  dsimp only
  have h1 : Kept d { p with
    time := { p.time with returnState := none, starveCause := none, wanted := false }
    leader := { p.leader with seq := .inactive }
    formats := { p.formats with inUse := none } } := h.same rfl
  split
  · exact h1
  · exact kept_enterEngine _ _ h1

theorem kept_clearShading (h : Kept d p) : Kept d { p with capture := Capture.reset, shading := Shading.reset } :=
  ⟨⟨h.lawful.memory, h.lawful.notices, h.lawful.position, h.lawful.figures, h.lawful.transposeLow,
    h.lawful.transposeHigh, Nat.zero_le _, h.lawful.claims,
    h.lawful.ring, h.lawful.counters, h.lawful.volumes, h.lawful.hostBudget⟩, h.since⟩

theorem kept_restart (h : Kept d p) : Kept d (restart p) :=
  kept_forPedals _ (fun _ x hq => kept_reapplyForce x hq)
    (kept_restartEngineState (kept_putTakeMark _ (kept_prepareStrip (kept_clearShading (kept_restartClaims h)))))

/-! ## Requests -/

@[simp] theorem carriedOut_part (m : Word) (p : Part) : (carriedOut m p).part = p := rfl
@[simp] theorem refuse_part (c : ResultCode) (p : Part) : (refuse c p).part = p := rfl

theorem kept_startKey (k : Key) (h : Kept d p) : Kept d (startKey k p) := kept_putKey_same k _ h rfl
theorem kept_startPedal (x : Pedal) (h : Kept d p) : Kept d (startPedal x p) := kept_putPedal x _ h rfl

theorem clampTo_high (a b v : Nat) (h : a ≤ b) : clampTo a b v ≤ b := by
  unfold clampTo
  omega

theorem kept_startBudget (s : Setup) (h : Kept d p) (hb : s.volBass ≤ 255) (ht : s.volTreble ≤ 255) (hi : s.ibud ≤ 4000) :
    Kept d (startBudget s p) :=
  kept_formBudget ⟨⟨h.lawful.memory, h.lawful.notices, h.lawful.position, h.lawful.figures, h.lawful.transposeLow,
    h.lawful.transposeHigh, h.lawful.history, h.lawful.claims, h.lawful.ring, h.lawful.counters, ⟨hb, ht⟩, hi⟩,
    h.since⟩

theorem kept_startPerformance (slot : Nat) (i : Fin 4) (h : Kept d p) : Kept d (startPerformance slot i p) := by
  unfold startPerformance
  dsimp only
  refine kept_serve (kept_enterEngine _ _ (kept_writeLeaderRecord (kept_prepareStrip
    (kept_forKeys _ (fun _ k hq => kept_startKey k hq) (kept_forPedals _ (fun _ x hq => kept_startPedal x hq)
      (kept_startBudget _ ?_ (clampTo_high _ _ _ (by decide)) (clampTo_high _ _ _ (by decide))
        (clampTo_high _ _ _ (by decide))))))))
  exact ⟨⟨h.lawful.memory, h.lawful.notices, rfl, h.lawful.figures, h.lawful.transposeLow, h.lawful.transposeHigh,
    Nat.zero_le _, h.lawful.claims, h.lawful.ring, h.lawful.counters, h.lawful.volumes, h.lawful.hostBudget⟩, h.since⟩

theorem kept_requestStart (slot : Nat) (h : Kept d p) : Kept d (requestStart slot p).part := by
  unfold requestStart
  split
  · exact h
  · split
    · split
      · exact h
      · rw [carriedOut_part]; exact kept_startPerformance _ _ h
    · exact h

theorem kept_requestStop (slot : Nat) (h : Kept d p) : Kept d (requestStop slot p).part := by
  unfold requestStop
  dsimp only
  split
  · split
    · exact h
    · rw [carriedOut_part]; exact kept_stopFinish h
  · split
    · rw [carriedOut_part]; exact kept_restart h
    · exact h

theorem kept_pauseKey (k : Key) (h : Kept d p) : Kept d (pauseKey k p) := by
  unfold pauseKey
  split
  · exact kept_releaseKey k h
  · exact h

theorem kept_releaseHeld (h : Kept d p) : Kept d (releaseHeld p) :=
  kept_serve (kept_forKeys _ (fun _ k hr => kept_pauseKey k hr) h)

theorem kept_pauseEngine (h : Kept d p) : Kept d (pauseEngine p) := kept_enterEngine _ _ (h.same rfl)

theorem kept_requestPause (slot : Nat) (h : Kept d p) : Kept d (requestPause slot p).part := by
  have hd : ∀ (c : Bool) {q : Part}, Kept d q → Kept d (carriedOut 0 (if c = true then releaseHeld q else q)).part := by
    intro c q hq
    rw [carriedOut_part]
    split
    · exact kept_releaseHeld hq
    · exact hq
  unfold requestPause
  dsimp only
  split
  · exact hd _ (kept_pauseEngine h)
  · exact h

theorem kept_resumeEngine (h : Kept d p) : Kept d (resumeEngine p) := (kept_enterEngine _ _ h).same rfl

theorem kept_requestResume (slot : Nat) (h : Kept d p) : Kept d (requestResume slot p).part := by
  unfold requestResume
  split
  · rw [carriedOut_part]; exact kept_starveTest (kept_consider (kept_resumeEngine h))
  · exact h

theorem kept_requestSetTempo (slot : Nat) (h : Kept d p) : Kept d (requestSetTempo slot p).part := h.same rfl
theorem kept_requestSetTrim (slot : Nat) (h : Kept d p) : Kept d (requestSetTrim slot p).part :=
  ⟨⟨h.lawful.memory, h.lawful.notices, h.lawful.position, h.lawful.figures, h.lawful.transposeLow,
    h.lawful.transposeHigh, h.lawful.history, h.lawful.claims, h.lawful.ring, h.lawful.counters,
    ⟨Nat.min_le_left _ _, Nat.min_le_left _ _⟩, h.lawful.hostBudget⟩, h.since⟩

theorem kept_requestTranspose (slot : Nat) (h : Kept d p) : Kept d (requestTranspose slot p).part :=
  ⟨⟨h.lawful.memory, h.lawful.notices, h.lawful.position, h.lawful.figures, le_max_left _ _,
    max_le (by decide) (min_le_left _ _), h.lawful.history, h.lawful.claims,
    h.lawful.ring, h.lawful.counters, h.lawful.volumes, h.lawful.hostBudget⟩, h.since⟩

theorem kept_requestPedalOverride (slot : Nat) (h : Kept d p) : Kept d (requestPedalOverride slot p).part := by
  unfold requestPedalOverride
  split
  · exact h
  · dsimp only
    split
    · rw [carriedOut_part]; exact kept_overrideOn _ _ h
    · split
      · rw [carriedOut_part]; exact kept_overrideOn _ _ h
      · split
        · rw [carriedOut_part]; exact kept_overrideOff _ h
        · exact h

theorem kept_requestLoadFormat (slot : Nat) (h : Kept d p) : Kept d (requestLoadFormat slot p).part := by
  unfold requestLoadFormat
  dsimp only
  split
  · split
    · exact h
    · split
      · exact h
      · exact h.same rfl
  · exact h

theorem kept_requestLoadVoicing (slot : Nat) (h : Kept d p) : Kept d (requestLoadVoicing slot p).part := by
  unfold requestLoadVoicing
  dsimp only
  split
  · exact h
  · split
    · exact h
    · exact h.same rfl

theorem kept_requestSenseReset (slot : Nat) (h : Kept d p) : Kept d (requestSenseReset slot p).part := by
  unfold requestSenseReset
  dsimp only
  split
  · rw [carriedOut_part]; exact kept_forKeys _ (fun _ k hq => kept_senseResetKey _ k hq) h
  · split
    · rw [carriedOut_part]; exact kept_senseResetKey _ _ h
    · exact h

theorem kept_setIbud (n : Nat) (hn : n ≤ 4000) (h : Kept d p) : Kept d { p with budget := { p.budget with ibud := n } } :=
  ⟨⟨h.lawful.memory, h.lawful.notices, h.lawful.position, h.lawful.figures, h.lawful.transposeLow,
    h.lawful.transposeHigh, h.lawful.history, h.lawful.claims, h.lawful.ring, h.lawful.counters, h.lawful.volumes, hn⟩,
    h.since⟩

theorem kept_requestSetBudget (slot : Nat) (h : Kept d p) : Kept d (requestSetBudget slot p).part := by
  unfold requestSetBudget
  dsimp only
  rw [carriedOut_part]
  exact kept_serve (kept_formBudget (kept_setIbud _ (Nat.min_le_left _ _) h))

theorem kept_requestSetLog (slot : Nat) (h : Kept d p) : Kept d (requestSetLog slot p).part := by
  unfold requestSetLog
  dsimp only
  split
  · exact h
  · split
    · exact h
    · split
      · exact h
      · rename_i h1 h2
        rw [carriedOut_part]
        refine kept_putWord _ _ (h.setLog _ (fun _ => ?_) h.lawful.counters)
        rw [not_or, Nat.not_lt, not_not] at h1 h2
        exact ⟨h1.1, h1.2, List.contains_iff_mem.mp h2.1, h2.2⟩

theorem kept_dispatchRequest (kind slot : Nat) (h : Kept d p) : Kept d (dispatchRequest kind slot p).part := by
  unfold dispatchRequest
  split
  · exact kept_requestStart _ h
  · exact kept_requestStop _ h
  · exact kept_requestPause _ h
  · exact kept_requestResume _ h
  · exact kept_requestSetTempo _ h
  · exact kept_requestSetTrim _ h
  · exact kept_requestTranspose _ h
  · exact kept_requestPedalOverride _ h
  · exact kept_requestLoadFormat _ h
  · exact kept_requestLoadVoicing _ h
  · exact kept_requestSenseReset _ h
  · exact kept_requestSetBudget _ h
  · exact kept_requestSetLog _ h
  · exact h

theorem kept_completeRequest (slot : Nat) (a : Answer) (h : Kept d a.part) : Kept d (completeRequest slot a) :=
  kept_raise _ (kept_putWord _ _ (kept_putWord _ _ (kept_putWord _ _ h)))

theorem kept_takeSlot (slot : Nat) (h : Kept d p) : Kept d (takeSlot p slot) := by
  unfold takeSlot
  split
  · exact kept_completeRequest _ _ (kept_dispatchRequest _ _ h)
  · exact h

/-- Of the Window Unit's own state only the notice registers are read by `Kept`. -/
theorem Kept.setWindowRest (h : Kept d p) (w : Window) (e : (w.nstat, w.nmask, w.ncfg, w.pendingSet)
    = (p.window.nstat, p.window.nmask, p.window.ncfg, p.window.pendingSet)) : Kept d { p with window := w } := by
  simp only [Prod.mk.injEq] at e
  obtain ⟨e1, e2, e3, e4⟩ := e
  refine h.same ?_
  simp only [lawView, e1, e2, e3, e4]

theorem kept_sweepBody (h : Kept d p) : Kept d (sweepBody p) :=
  kept_foldl _ _ (fun _ slot hq => kept_takeSlot slot hq)
    (kept_writeGap (kept_takeReadMark _ (h.setWindowRest _ rfl)))

/-! ## The port -/

theorem kept_setBusy (op : BusyOp) (h : Kept d p) : Kept d (setBusy op p) := h.same rfl
theorem kept_rejectCommand (h : Kept d p) : Kept d (rejectCommand p) := h.same rfl

theorem keyRec_reset (k : Key) : keyRec k Part.reset = KeyRec.reset := Vector.getElem_replicate ..
theorem pedalRec_reset (x : Pedal) : pedalRec x Part.reset = PedalRec.reset := Vector.getElem_replicate ..

theorem claimsHeld_reset : claimsHeld Part.reset = 0 :=
  claimsHeld_zero (fun k => by rw [keyRec_reset]; rfl) (fun x => by rw [pedalRec_reset]; rfl)

theorem keyFigures_reset : KeyFigures KeyRec.reset := ⟨by decide, by decide, by decide, by decide⟩

theorem kept_fullReset (h : Kept d p) : Kept d (fullReset p) := by
  refine ⟨⟨Memory.wf_writeWord _ _ _ (Memory.wf_writeWord _ _ _ (Memory.wf_clearControlPage _ h.lawful.memory)),
    fun hp => absurd rfl hp, rfl, fun k => ?_, (by decide : (-12 : Int) ≤ 0),
    (by decide : (0 : Int) ≤ 12), Nat.zero_le _, claimsHeld_reset.symm, fun hc => Bool.noConfusion (hc : false = true),
    inRange_zero LogWriter.reset, (by decide : 128 ≤ 255 ∧ 128 ≤ 255), (by decide : 800 ≤ 4000)⟩, h.since⟩
  show KeyFigures (keyRec k Part.reset)
  rw [keyRec_reset]
  exact keyFigures_reset

theorem kept_takeSnapshot (h : Kept d p) : Kept d (takeSnapshot p) :=
  kept_putWord _ _ ((kept_putWords _ _ h).setWindowRest _ rfl)

theorem kept_cmdWrite (c : Word) (h : Kept d p) : Kept d (cmdWrite c p) := by
  unfold cmdWrite
  split
  · exact kept_rejectCommand h
  · split
    · exact kept_setBusy _ (kept_restart h)
    · split
      · exact kept_setBusy _ (kept_fullReset h)
      · split
        · exact kept_setBusy _ (kept_clearCounters h)
        · split
          · exact kept_setBusy _ (kept_takeSnapshot h)
          · exact kept_rejectCommand h

theorem kept_makeDeferredSweep (h : Kept d p) : Kept d (makeDeferredSweep p) := by
  unfold makeDeferredSweep
  split
  · exact kept_sweepBody (h.setWindowRest _ rfl)
  · exact h

theorem kept_restartSweeps (h : Kept d p) : Kept d (restartSweeps p) := h.same rfl

theorem kept_clearBusy (h : Kept d p) : Kept d (clearBusy p) := by
  unfold clearBusy
  split
  · exact h
  · have h1 : Kept d { p with window := { p.window with busy := none } } := h.setWindowRest _ rfl
    unfold endOperation
    split
    · exact kept_restartSweeps h1
    · exact kept_makeDeferredSweep (kept_restartSweeps h1)
    · exact kept_makeDeferredSweep h1
    · exact h1
    · exact h1

theorem kept_sweepOrWait (c : Clocks) (h : Kept d p) (e : c.drive = p.clocks.drive) :
    Kept d (if sweepHeld { p with clocks := c } = true
      then { p with clocks := c, window := { p.window with sweepDeferred := true } }
      else sweepBody { p with clocks := c }) := by
  have h1 : Kept d { p with clocks := c } := by
    refine h.same ?_
    simp only [lawView, e]
  split
  · exact h1.setWindowRest _ rfl
  · exact kept_sweepBody h1

theorem kept_reachSweep (h : Kept d p) : Kept d (reachSweep p) :=
  kept_sweepOrWait _ (kept_driveTo p.clocks.nextSweep h) rfl

/-! ## Notice registers -/

/-- Replacing the Window Unit's notice registers and settling the pending set keeps a part lawful where a set pending set
comes with HOLDOFF. -/
theorem kept_settle (w : Window) (hw : w.pendingSet ≠ 0 → w.ncfg.getLsbD 7 = true) (h : Kept d p) :
    Kept d (settlePending { p with window := w }) := by
  unfold settlePending
  split
  · rename_i ha
    exact h.setWindow _ fun hp => ⟨hw hp, by simpa [noticeAsserted] using ha⟩
  · exact h.setWindow _ fun hp => absurd rfl hp

theorem kept_clearNotices (b : BitVec 9) (h : Kept d p) : Kept d (clearNotices b p) :=
  kept_settle _ (fun hp => (h.lawful.notices hp).1) h

theorem kept_writeNmask (v : Word) (h : Kept d p) : Kept d (writeNmask v p) :=
  kept_settle _ (fun hp => (h.lawful.notices hp).1) h

theorem kept_writeNcfg (v : Word) (h : Kept d p) : Kept d (writeNcfg v p) := by
  unfold writeNcfg
  dsimp only
  split
  · rename_i hh
    exact kept_settle _ (fun _ => hh) h
  · exact h.setWindow _ fun hp => absurd rfl hp

theorem kept_putReadData (v : Word) (h : Kept d p) : Kept d (putReadData v p) := h.same rfl

theorem kept_readNstat (h : Kept d p) : Kept d (readNstat p) := by
  unfold readNstat
  dsimp only
  split
  · exact kept_clearNotices _ (kept_putReadData _ h)
  · exact kept_putReadData _ h

theorem kept_readStatus (h : Kept d p) : Kept d (readStatus p) := h.same rfl

theorem kept_registerWrite (r : BitVec 3) (v : Word) (h : Kept d p) : Kept d (registerWrite r v p) := by
  unfold registerWrite
  split
  · exact kept_cmdWrite v h
  · split
    · exact kept_clearNotices _ h
    · split
      · exact kept_writeNmask v h
      · split
        · exact kept_writeNcfg v h
        · exact h

theorem kept_writeFillMark (v : Word) (h : Kept d p) : Kept d (writeFillMark v p) := kept_consider (kept_putWord _ _ h)

theorem kept_writeMemory (a : BitVec 15) (v : Word) (h : Kept d p) : Kept d (writeMemory a v p) := by
  unfold writeMemory
  split
  · exact kept_writeFillMark v h
  · exact kept_putWord _ _ h

theorem kept_assertReset (h : Kept d p) : Kept d (assertReset p) := h.same rfl

/-! ## Timed events -/

theorem kept_timerEvent (s : KeyState) (f : Key → Part → Part) (hf : ∀ k q, Kept d q → Kept d (f k q)) (k : Key)
    (h : Kept d p) : Kept d (timerEvent s f k p) := by
  unfold timerEvent
  dsimp only
  split
  · exact h
  · split
    · exact hf _ _ (kept_driveTo _ h)
    · exact h

theorem kept_settleHold (k : Key) (h : Kept d p) : Kept d (settleHold k p) :=
  kept_serve (kept_reliefTest k (kept_serve h))

theorem kept_pulseRunsOut (k : Key) (h : Kept d p) : Kept d (pulseRunsOut k p) := kept_settleHold k (kept_endPulse k h)
theorem kept_depressRunsOut (k : Key) (h : Kept d p) : Kept d (depressRunsOut k p) :=
  kept_settleHold k (kept_passToHold k h)
theorem kept_reliefDelayRunsOut (k : Key) (h : Kept d p) : Kept d (reliefDelayRunsOut k p) :=
  kept_serve (kept_reliefTest k (kept_putKey_same k _ h rfl))

/-- The schedules and the pins are none of what `Kept` reads. -/
theorem Kept.setSchedule (h : Kept d p) (c : Clocks) (x : Pins) (e : c.drive = p.clocks.drive) :
    Kept d { p with clocks := c, pins := x } := by
  refine h.same ?_
  simp only [lawView, e]

theorem kept_reachHeat (h : Kept d p) : Kept d (reachHeat p) := by
  unfold reachHeat
  have h1 := kept_driveTo p.clocks.nextHeat h
  generalize driveTo p.clocks.nextHeat p = q at h1 ⊢
  exact kept_forKeys _ (fun _ k hq => kept_heatKey k hq) (h1.setSchedule _ q.pins rfl)

theorem kept_reachRail (s : BitVec 10) (h : Kept d p) : Kept d (reachRail s p) := by
  unfold reachRail
  have h1 := kept_driveTo p.clocks.nextRail h
  generalize driveTo p.clocks.nextRail p = q at h1 ⊢
  exact kept_serve (kept_railConversion _ (h1.setSchedule _ _ rfl))

theorem kept_reachPedal (x : Pedal) (s : BitVec 10) (h : Kept d p) : Kept d (reachPedal x s p) := by
  unfold reachPedal
  have h1 := kept_driveTo p.clocks.nextPedal[pedalIndex x] h
  dsimp only
  generalize driveTo p.clocks.nextPedal[pedalIndex x] p = q at h1 ⊢
  exact kept_pedalConversion x s (h1.setSchedule _ _ rfl)

theorem kept_reachTravelEnd (x : Pedal) (h : Kept d p) : Kept d (reachTravelEnd x p) := by
  unfold reachTravelEnd
  dsimp only
  split
  · exact h
  · split
    · exact kept_becomeStuck x (kept_driveTo _ h)
    · exact h

theorem kept_reachScan (l : BitVec 88) (h : Kept d p) : Kept d (reachScan l p) := by
  unfold reachScan
  have h1 := kept_driveTo p.clocks.nextScan h
  generalize driveTo p.clocks.nextScan p = q at h1 ⊢
  exact kept_scanInputs l (h1.setSchedule _ q.pins rfl)

/-! ## Who may act -/

theorem kept_atPort (f : Part → Part) (hf : ∀ q, Kept d q → Kept d (f q)) (h : Kept d p) : Kept d (atPort f p) := by
  unfold atPort
  split
  · exact hf _ h
  · exact h

theorem kept_readAtPort (f : Part → Part) (hf : ∀ q, Kept d q → Kept d (f q)) (h : Kept d p) :
    Kept d (readAtPort f p) := by
  unfold readAtPort
  split
  · exact hf _ h
  · exact kept_putReadData _ h

theorem kept_inTime (f : Part → Part) (hf : ∀ q, Kept d q → Kept d (f q)) (h : Kept d p) : Kept d (inTime f p) := by
  unfold inTime
  split
  · exact h
  · exact hf _ h

theorem kept_forKeyNumber (n : Nat) (f : Key → Part → Part) (hf : ∀ k q, Kept d q → Kept d (f k q)) (h : Kept d p) :
    Kept d (forKeyNumber n f p) := by
  unfold forKeyNumber
  split
  · exact hf _ _ h
  · exact h

end Sys2Proof.Machine
end

