-- ==== Sys2Proof/Laws/PerInstr.lean ====
section
/-! SUPPORT. Laws of the commands as syntax, one lemma per constructor: a well-formed command that names a key by number
names a key of the keyboard. -/

namespace Sys2Proof.Laws

open Sys2Proof.Machine

/-- The key number that a command carries, if it carries one. -/
def keyOperand : Instr → Option Nat
  | .powerOn => none
  | .restartEngine => none
  | .fullReset => none
  | .clearCounters => none
  | .snapshot => none
  | .cmdReject _ => none
  | .statusRead => none
  | .nstatRead => none
  | .nstatWrite _ => none
  | .nmaskWrite _ => none
  | .ncfgWrite _ => none
  | .registerWriteIgnored _ _ => none
  | .fillMarkWrite _ => none
  | .sweep => none
  | .lookaheadInstant => none
  | .guardInstant => none
  | .wheelSlot => none
  | .pulseEnd k => some k
  | .reliefDelayEnd k => some k
  | .depressEnd k => some k
  | .gapEnd k => some k
  | .heatUpdate => none
  | .railSample _ => none
  | .pedalPositionSample _ _ => none
  | .travelTimeout _ => none
  | .senseScan _ => none
  | .hostMemoryWrite _ _ => none
  | .busyClear => none
  | .resetAsserted => none

/-- A number in range names a key. -/
theorem keyOfNumber_inRange (n : Nat) (h : keyInRange n = true) : ∃ k, keyOfNumber n = some k ∧ keyNumber k = n := by
  have h' : 1 ≤ n ∧ n ≤ 88 := by simpa [keyInRange] using h
  refine ⟨⟨n - 1, by omega⟩, by simp [keyOfNumber, h'], ?_⟩
  simp only [keyNumber]
  omega

/-- A well-formed command's key number names a key. -/
def KeyNamed.Statement (i : Instr) : Prop :=
  i.wellFormed = true → ∀ n, keyOperand i = some n → ∃ k, keyOfNumber n = some k ∧ keyNumber k = n

/-- A command without a key number satisfies the statement. -/
theorem noKey {i : Instr} (h : keyOperand i = none) : KeyNamed.Statement i := fun _ n e => by simp [h] at e

theorem KeyNamed.powerOn : KeyNamed.Statement .powerOn := noKey rfl
theorem KeyNamed.restartEngine : KeyNamed.Statement .restartEngine := noKey rfl
theorem KeyNamed.fullReset : KeyNamed.Statement .fullReset := noKey rfl
theorem KeyNamed.clearCounters : KeyNamed.Statement .clearCounters := noKey rfl
theorem KeyNamed.snapshot : KeyNamed.Statement .snapshot := noKey rfl
theorem KeyNamed.cmdReject (code : Word) : KeyNamed.Statement (.cmdReject code) := noKey rfl
theorem KeyNamed.statusRead : KeyNamed.Statement .statusRead := noKey rfl
theorem KeyNamed.nstatRead : KeyNamed.Statement .nstatRead := noKey rfl
theorem KeyNamed.nstatWrite (value : Word) : KeyNamed.Statement (.nstatWrite value) := noKey rfl
theorem KeyNamed.nmaskWrite (value : Word) : KeyNamed.Statement (.nmaskWrite value) := noKey rfl
theorem KeyNamed.ncfgWrite (value : Word) : KeyNamed.Statement (.ncfgWrite value) := noKey rfl
theorem KeyNamed.registerWriteIgnored (position : BitVec 3) (value : Word) : KeyNamed.Statement (.registerWriteIgnored position value) := noKey rfl
theorem KeyNamed.fillMarkWrite (value : Word) : KeyNamed.Statement (.fillMarkWrite value) := noKey rfl
theorem KeyNamed.sweep : KeyNamed.Statement .sweep := noKey rfl
theorem KeyNamed.lookaheadInstant : KeyNamed.Statement .lookaheadInstant := noKey rfl
theorem KeyNamed.guardInstant : KeyNamed.Statement .guardInstant := noKey rfl
theorem KeyNamed.wheelSlot : KeyNamed.Statement .wheelSlot := noKey rfl
theorem KeyNamed.pulseEnd (key : Nat) : KeyNamed.Statement (.pulseEnd key) := by
  intro h n e
  cases e
  exact keyOfNumber_inRange _ h
theorem KeyNamed.reliefDelayEnd (key : Nat) : KeyNamed.Statement (.reliefDelayEnd key) := by
  intro h n e
  cases e
  exact keyOfNumber_inRange _ h
theorem KeyNamed.depressEnd (key : Nat) : KeyNamed.Statement (.depressEnd key) := by
  intro h n e
  cases e
  exact keyOfNumber_inRange _ h
theorem KeyNamed.gapEnd (key : Nat) : KeyNamed.Statement (.gapEnd key) := by
  intro h n e
  cases e
  exact keyOfNumber_inRange _ h
theorem KeyNamed.heatUpdate : KeyNamed.Statement .heatUpdate := noKey rfl
theorem KeyNamed.railSample (sample : BitVec 10) : KeyNamed.Statement (.railSample sample) := noKey rfl
theorem KeyNamed.pedalPositionSample (pedal : Pedal) (sample : BitVec 10) : KeyNamed.Statement (.pedalPositionSample pedal sample) := noKey rfl
theorem KeyNamed.travelTimeout (pedal : Pedal) : KeyNamed.Statement (.travelTimeout pedal) := noKey rfl
theorem KeyNamed.senseScan (levels : BitVec 88) : KeyNamed.Statement (.senseScan levels) := noKey rfl
theorem KeyNamed.hostMemoryWrite (address : BitVec 15) (value : Word) : KeyNamed.Statement (.hostMemoryWrite address value) := noKey rfl
theorem KeyNamed.busyClear : KeyNamed.Statement .busyClear := noKey rfl
theorem KeyNamed.resetAsserted : KeyNamed.Statement .resetAsserted := noKey rfl

end Sys2Proof.Laws
end

