-- ==== Sys2Proof/Laws/Serve.lean ====
section
/-! SUPPORT. What serving the deferral queues can do, said once: nothing without a cause or a waiting holder, and else the
grants of its rounds; and how a dated line is told to lie in the leader window. -/

namespace Sys2Proof.Machine

variable {p q : Part}

/-- While all queues are empty a cause starts nothing (R139). -/
theorem noteCause_of_nobodyWaits (h : NobodyWaits p.budget) : noteCause p = p := by
  obtain ⟨h1, h2, h3⟩ := h
  simp [noteCause, queuesEmpty, h1, h2, h3]

/-- A round finds nothing to grant where nobody waits (R140). -/
theorem serveRound_of_nobodyWaits (h : NobodyWaits p.budget) : serveRound p = none := by
  obtain ⟨h1, h2, h3⟩ := h
  have hb : ∀ x : Half, fittingHead x p.budget = none := by
    intro x; cases x <;> simp [fittingHead, halfQueue, h2, h3]
  simp [serveRound, fittingPedal, h1, hb]

/-- All that one round of serving can do: it grants the head of PEDAL, or the head of a half's queue, and that head fits
(R140). -/
theorem serveRound_cases (h : serveRound p = some q) :
    (∃ e, p.budget.pedalQ.head? = some e ∧ fits e.amount p.budget = true ∧ q = grantPedal e p)
      ∨ ∃ x e, (halfQueue x p.budget).head? = some e ∧ fits e.amount p.budget = true ∧ q = grantKey x e p := by
  have hp : ∀ e, fittingPedal p.budget = some e → p.budget.pedalQ.head? = some e ∧ fits e.amount p.budget = true := by
    intro e he
    unfold fittingPedal at he
    split at he
    · cases he
    · next _ _ hq =>
      split at he
      · next hf => cases he; exact ⟨by rw [hq]; rfl, hf⟩
      · cases he
  have hk : ∀ x e, fittingHead x p.budget = some e →
      (halfQueue x p.budget).head? = some e ∧ fits e.amount p.budget = true := by
    intro x e he
    unfold fittingHead at he
    split at he
    · cases he
    · next _ _ hq =>
      split at he
      · next hf => cases he; exact ⟨by rw [hq]; rfl, hf⟩
      · cases he
  unfold serveRound at h
  dsimp only at h
  split at h
  · next e he => cases h; exact .inl ⟨e, (hp e he).1, (hp e he).2, rfl⟩
  · split at h
    · next e he => cases h; exact .inr ⟨_, e, (hk _ e he).1, (hk _ e he).2, rfl⟩
    · split at h
      · next e he => cases h; exact .inr ⟨_, e, (hk _ e he).1, (hk _ e he).2, rfl⟩
      · cases h

/-- Without a cause nothing is served (R139). -/
theorem serve_of_no_cause (h : p.budget.serveCause = false) : serve p = p := by
  simp [serve, servings, h]

/-- Serving where nobody waits only puts the cause away (R139). -/
theorem serve_of_nobodyWaits (h : NobodyWaits p.budget) :
    serve p = { p with budget := { p.budget with serveCause := false } } := by
  have hr : ∀ n, serveRounds n p = p := by
    intro n; cases n <;> simp [serveRounds, serveRound_of_nobodyWaits h]
  have ho : serveOnce p = { p with budget := { p.budget with serveCause := false } } := by
    simp [serveOnce, hr]
  have hs : pedalSettled p { p with budget := { p.budget with serveCause := false } } = false := by
    simp [pedalSettled, pedalRec]
  by_cases hc : p.budget.serveCause = true
  · simp [serve, servings, hc, ho, hs]
  · have hc : p.budget.serveCause = false := by simpa using hc
    rw [serve_of_no_cause hc]
    simp [← hc]

/-- Line numbers before the first music line, as far back as the leader is long, lie in the leader window, and no others do
(R42). -/
theorem inLeaderWindow_iff (l : Leader) (age : Nat) :
    inLeaderWindow l age = true ↔ ∃ back, 1 ≤ back ∧ back ≤ l.windowCount ∧ age = l.musicLines + back := by
  simp only [inLeaderWindow, decide_eq_true_eq]
  exact ⟨fun ⟨h1, h2⟩ => ⟨age - l.musicLines, by omega, by omega, by omega⟩, fun ⟨b, h1, h2, h3⟩ => by omega⟩

end Sys2Proof.Machine
end

