-- ==== Sys2Proof/Laws/Shape.lean ====
section
/-! SUPPORT. What the reporting operations can do, said once: a notice changes only the Window Unit, a log record only
memory, the Window Unit and the Log Writer, and a counter only memory and its own value; and which bytes they leave. -/

namespace Sys2Proof.Machine

variable {p q : Part}

/-! ## Notices -/

/-- A raised notice changes NSTAT or the pending set, and nothing else. -/
theorem raise_shape (n : Notice) (p : Part) :
    raise n p = { p with window := { p.window with
      nstat := if holdoffSet p && noticeAsserted p then p.window.nstat else p.window.nstat ||| n.bit
      pendingSet := if holdoffSet p && noticeAsserted p then p.window.pendingSet ||| n.bit
        else p.window.pendingSet } } := by
  unfold raise
  split <;> rfl

/-- A notice raised by an edge changes only the Window Unit. -/
theorem raiseEdge_shape (n : Notice) (e : Edge) (p : Part) : ∃ w, raiseEdge n e p = { p with window := w } := by
  unfold raiseEdge
  split
  · exact ⟨_, raise_shape n p⟩
  · exact ⟨p.window, rfl⟩

/-! ## Counters -/

/-- A counter's increment changes its value and its words in memory, and nothing else. -/
theorem bumpBy_shape (c : Counter) (n : Nat) (p : Part) :
    ∃ m, bumpBy c n p = { p with
      mem := m
      log := { p.log with counters := p.log.counters.set c.index (c.add (counterOf c p) n) } } := by
  unfold bumpBy
  dsimp only
  split
  · exact ⟨p.mem, rfl⟩
  · exact ⟨_, rfl⟩

/-- The counter incremented has its new value. -/
theorem counterOf_bumpBy_same (c : Counter) (n : Nat) (p : Part) :
    counterOf c (bumpBy c n p) = c.add (counterOf c p) n := by
  obtain ⟨m, e⟩ := bumpBy_shape c n p
  rw [e]
  show (p.log.counters.set c.index.val _)[c.index.val] = _
  rw [Vector.getElem_set_self]

/-- Every other counter keeps its value. -/
theorem counterOf_bumpBy_other {c c' : Counter} (h : c.index.val ≠ c'.index.val) (n : Nat) (p : Part) :
    counterOf c' (bumpBy c n p) = counterOf c' p := by
  obtain ⟨m, e⟩ := bumpBy_shape c n p
  rw [e]
  show (p.log.counters.set c.index.val _)[c'.index.val] = _
  rw [Vector.getElem_set_ne _ _ h]
  rfl

/-- The number of words of a counter. -/
theorem length_words (c : Counter) (v : Nat) : (c.words v).length = if c.wide then 2 else 1 := by
  unfold Counter.words
  split <;> rfl

/-- Every byte outside a counter's words reads as before its increment. -/
theorem read_bumpBy_other (c : Counter) (n a : Nat) (p : Part)
    (h : a < c.offset ∨ c.offset + (if c.wide then 4 else 2) ≤ a) :
    Memory.read (bumpBy c n p).mem a = Memory.read p.mem a := by
  unfold bumpBy
  dsimp only
  split
  · rfl
  refine Memory.read_writeWords_other _ _ _ _ ?_
  rw [length_words]
  split at h <;> rename_i hw <;> simp only [hw] <;> simp <;> omega

/-! ## Log records -/

/-- With no Log Ring a record leaves no trace. -/
theorem logRecord_unconfigured (r : Record) (p : Part) (h : p.log.configured = false) : logRecord r p = p := by
  unfold logRecord
  rw [h]
  rfl

/-- Storing a record's words changes only memory. -/
theorem storeRecord_shape (r : Record) (p : Part) : ∃ m, storeRecord r p = { p with mem := m } := by
  unfold storeRecord
  dsimp only
  split
  · exact ⟨_, rfl⟩
  · exact ⟨_, rfl⟩

/-- Advancing the Log Write Mark changes only its word, the mark and the Window Unit. -/
theorem advanceWriteMark_shape (n : Nat) (p : Part) :
    ∃ w, advanceWriteMark n p = { p with
      mem := Memory.writeWord p.mem Config.logWriteMarkOffset (p.log.writeMark + natWord n)
      window := w
      log := { p.log with writeMark := p.log.writeMark + natWord n } } := by
  unfold advanceWriteMark
  dsimp only
  split
  · rw [raise_shape]; exact ⟨_, rfl⟩
  · exact ⟨p.window, rfl⟩

/-- Writing a record changes only memory, the Window Unit and the Log Write Mark. -/
theorem writeRecord_shape (r : Record) (p : Part) :
    ∃ m w, writeRecord r p = { p with
      mem := m, window := w, log := { p.log with writeMark := p.log.writeMark + natWord (recordSlots r) } } := by
  unfold writeRecord
  obtain ⟨w, e⟩ := advanceWriteMark_shape (recordSlots r) (storeRecord r p)
  obtain ⟨m, e'⟩ := storeRecord_shape r p
  rw [e, e']
  exact ⟨_, w, rfl⟩

/-- Handing over a record changes only memory, the Window Unit and the Log Writer, whose ring and filter stay. -/
theorem logRecord_shape (r : Record) (p : Part) :
    ∃ m w l, logRecord r p = { p with mem := m, window := w, log := l } ∧ l.configured = p.log.configured
      ∧ l.base = p.log.base ∧ l.slots = p.log.slots ∧ l.filter = p.log.filter ∧ l.notify = p.log.notify
      ∧ l.readMark = p.log.readMark := by
  unfold logRecord
  split
  · split
    · obtain ⟨m, e⟩ := bumpBy_shape .logDropped 1 { p with log := { p.log with
        dropped := min 65535 (p.log.dropped + 1), droppedKinds := p.log.droppedKinds ||| (1#16 <<< (r.kind - 1)) } }
      exact ⟨m, _, _, e, rfl, rfl, rfl, rfl, rfl, rfl⟩
    · obtain ⟨m, w, e⟩ := writeRecord_shape r p
      exact ⟨m, w, _, e, rfl, rfl, rfl, rfl, rfl, rfl⟩
  · exact ⟨p.mem, p.window, p.log, rfl, rfl, rfl, rfl, rfl, rfl, rfl⟩

/-- A log slot lies within the ring. -/
theorem logSlot_inRing (l : LogWriter) (h : 0 < l.slots) (m : Word) :
    l.base ≤ logSlotOffset l m ∧ logSlotOffset l m + 16 ≤ l.base + 16 * l.slots := by
  have := Nat.mod_lt m.toNat h
  unfold logSlotOffset
  omega

/-- A ring that SET_LOG accepts has slots. -/
theorem RingPlaced.slots_pos {l : LogWriter} (h : RingPlaced l) (hc : l.configured = true) : 0 < l.slots := by
  obtain ⟨-, -, h3, -⟩ := h hc
  simp only [logSlotCounts, List.mem_cons, List.not_mem_nil, or_false] at h3
  omega

/-- Storing a record with at most eight extension words leaves every byte outside the ring. -/
theorem read_storeRecord_other (r : Record) (p : Part) (a : Nat) (hs : 0 < p.log.slots)
    (hx : ∀ ws, r.extension = some ws → ws.length ≤ 8)
    (ha : a < p.log.base ∨ p.log.base + 16 * p.log.slots ≤ a) :
    Memory.read (storeRecord r p).mem a = Memory.read p.mem a := by
  have first : Memory.read (putWords (logSlotOffset p.log p.log.writeMark) (recordWords r p) p).mem a
      = Memory.read p.mem a := by
    refine Memory.read_writeWords_other _ _ _ _ ?_
    have := logSlot_inRing p.log hs p.log.writeMark
    have : (recordWords r p).length = 8 := rfl
    omega
  unfold storeRecord
  dsimp only
  split
  · exact first
  · rename_i ws hws
    refine Eq.trans (Memory.read_writeWords_other _ _ _ _ ?_) first
    have := logSlot_inRing p.log hs (p.log.writeMark + 1)
    have := hx ws hws
    omega

/-- Handing over a record with at most eight extension words leaves every byte but those of the ring, the Log Write Mark
and LogDropped. -/
theorem read_logRecord_other (r : Record) (p : Part) (a : Nat) (hr : RingPlaced p.log)
    (hx : ∀ ws, r.extension = some ws → ws.length ≤ 8) (ha : ¬ logByte p.log a) :
    Memory.read (logRecord r p).mem a = Memory.read p.mem a := by
  unfold logByte at ha
  simp only [not_or] at ha
  obtain ⟨h1, h2, h3, h4, h5⟩ := ha
  unfold logRecord
  split
  · rename_i hc
    rw [Bool.and_eq_true] at hc
    have hs := hr.slots_pos hc.1
    split
    · refine read_bumpBy_other _ _ _ _ ?_
      have ew : Counter.wide .logDropped = false := by decide
      rw [ew]
      simp only [Bool.false_eq_true, if_false]
      omega
    · unfold writeRecord
      obtain ⟨w, e⟩ := advanceWriteMark_shape (recordSlots r) (storeRecord r p)
      rw [e]
      refine (Memory.read_writeWord_other _ _ _ _ h2 h3).trans (read_storeRecord_other r p a hs hx ?_)
      by_contra hn
      exact h1 ⟨hc.1, by omega, by omega⟩
  · rfl

/-! ## The engine -/

/-- A change of engine state changes only memory, the Window Unit, the Log Writer and the engine state. -/
theorem enterEngine_shape (e : EngineState) (c : Nat) (p : Part) :
    ∃ m w l, enterEngine e c p = { p with mem := m, window := w, log := l, time := { p.time with engine := e } } := by
  unfold enterEngine
  dsimp only
  obtain ⟨m, w, l, h, -⟩ := logRecord_shape
    (engineRecord e p.time.engine c
      (putWord Config.engineStateOffset (natWord (engineCode e)) { p with time := { p.time with engine := e } }).time.nextLine)
    (raise .engine (putWord Config.engineStateOffset (natWord (engineCode e)) { p with time := { p.time with engine := e } }))
  rw [h, raise_shape]
  exact ⟨_, _, _, rfl⟩

end Sys2Proof.Machine
end

