-- ==== Sys2Proof/Tests/Slice0.lean ====
section
/-! SUPPORT. Small tests of the model: the checks of WellFormed, worked values of the manual, and for every statement with
hypotheses a concrete state and operands that meet them together. -/

namespace Sys2Proof.Tests

set_option Elab.async false

open Sys2Proof Sys2Proof.Machine

/-! ## States -/

/-- The reset state with its part changed. -/
def onPart (f : Part → Part) : State := { State.reset with part := f State.reset.part }

/-- The part that a meaning answers with. -/
def partAfter (c : Instr) (s : State) : Part :=
  match exec c s with
  | .next t => t.part
  | .fault _ => s.part
  | .refused _ => s.part

/-- A format with no Shading Map. -/
def format0 : Format :=
  { emptyFormat with
    formatId := 880, trackCount := 88, trackOrigin := 1000, trackPitch := 64, apertureHalf := 1, apertureThreshold := 2
    onsetLines := 2, offsetLines := 3, nominalCentre := 4096, nominalWidth := 400, widthTolerance := 8, edgeRun := 4
    driftSmoothing := 2, driftMax := 64, coastLimit := 3, relockLines := 2, linePitch := 300, defaultTempo := 70
    firstNoteTrack := 4, noteTrackCount := 80, firstNoteKey := 5, splitKey := 43, floor := 100, midCap := 300
    ceiling := 900, rampMax := 600, restRate := 200, restLevel := 50, softOffset := 40 }

/-- The words of a Format record that is valid. -/
def formatWords : List Word :=
  [880, 88, 1000, 64, 1, 2, 2, 3, 4096, 400, 8, 4, 2, 64, 3, 2, 300, 70, 0, 0, 4, 80, 5, 43, 100, 300, 900, 600, 200, 50,
    40, 0]

/-- A strike of key 5. -/
def strike5 : Strike :=
  { tag := 7, key := 4, cls := 0, half := .bass, datedLine := 3, due := 200000, v := 500, w := 4000, d := 40000, u := 200
    lead := 45000, planned := 155000, launchAt := 155000, iLaunch := 196, iHold := 78, wEff := none, late := false
    derated := false, deferred := false, stolen := false, compensated := false, lateness := 0, release := none
    releaseTaken := false }

/-- The engine in a state. -/
def inEngine (e : EngineState) (p : Part) : Part := { p with time := { p.time with engine := e } }

/-- A budget in force of 800 with this much committed. -/
def withBudget (committed : Nat) (p : Part) : Part :=
  { p with budget := { p.budget with committed := committed, inForce := 800 } }

/-- Key 5 in a state that holds a claim, its timer at 100. -/
def key5In (state : KeyState) (claim : Nat) (p : Part) : Part :=
  withBudget claim (putKey 4 { KeyRec.reset with state := state, current := some strike5, timer := some 100, claim := claim } p)

/-- The part in HOLD on key 5, its strike's release still to come. -/
def holdState : State := onPart (inEngine .running ∘ key5In .hold 78)

/-- A Log Ring of 64 slots at 0x5200. -/
def withLog (p : Part) : Part :=
  { p with log := { p.log with configured := true, base := 0x5200, slots := 64, filter := 0x1FFF } }

/-- BUSY set for an operation. -/
def busyWith (op : BusyOp) (p : Part) : Part := { p with window := { p.window with busy := some op } }

/-- RESET_N low. -/
def unserved (p : Part) : Part := { p with pins := { p.pins with resetLow := true } }

/-- Bytes on both sides of the end of the Control Page. -/
def withBytes (p : Part) : Part := { p with mem := Memory.write (Memory.write p.mem 0x3FF 5) 0x400 6 }

/-- A request with its parameters POSTED in a slot. -/
def posted (slot kind : Nat) (params : List Word) (p : Part) : Part :=
  putWords (slotWordOffset slot 0) ([1, natWord kind] ++ params) p

/-- The slot that the Take Mark 0 names, with this Line Word, is filled; a line is on its way in the format above. -/
def withSlot (lineWord : Word) (p : Part) : Part :=
  putWord (Config.stripOffset + 64) lineWord
    (putWord Config.fillMarkOffset 1
      { p with
        formats := { slots := (Vector.replicate 4 none).set 1 (some format0), inUse := some 1 }
        time := { p.time with
          engine := .running, due := 120000 * 65536, lookahead := 120000, tempo := 70
          p16 := basePeriod 300 70 } })

/-! ## WellFormed refuses what it is for -/

theorem test_key_zero_is_ill_formed :
    Instr.wellFormed (.pulseEnd 0) = false ∧ Instr.wellFormed (.reliefDelayEnd 0) = false
      ∧ Instr.wellFormed (.depressEnd 0) = false ∧ Instr.wellFormed (.gapEnd 0) = false := by decide
theorem test_key_eighty_nine_is_ill_formed :
    Instr.wellFormed (.pulseEnd 89) = false ∧ Instr.wellFormed (.reliefDelayEnd 89) = false
      ∧ Instr.wellFormed (.depressEnd 89) = false ∧ Instr.wellFormed (.gapEnd 89) = false := by decide
theorem test_ignored_write_to_a_served_register_is_ill_formed :
    Instr.wellFormed (.registerWriteIgnored 0 1) = false ∧ Instr.wellFormed (.registerWriteIgnored 2 1) = false
      ∧ Instr.wellFormed (.registerWriteIgnored 4 1) = false := by decide
theorem test_memory_write_to_the_fill_mark_is_ill_formed : Instr.wellFormed (.hostMemoryWrite 4 1) = false := by decide
theorem test_well_formed_commands :
    Instr.wellFormed (.gapEnd 88) = true ∧ Instr.wellFormed (.registerWriteIgnored 1 1) = true
      ∧ Instr.wellFormed (.registerWriteIgnored 7 1) = true ∧ Instr.wellFormed (.hostMemoryWrite 5 1) = true := by decide

/-! ## The machine -/

theorem test_empty_queue_passes_a_microsecond :
    ∃ t, step State.reset = .next t ∧ t.part.clocks.drive = State.reset.part.clocks.drive + 1 ∧ t.pending = [] :=
  ⟨_, rfl, rfl, rfl⟩

theorem lawful_holdState : Lawful holdState.part where
  memory := by decide +kernel
  notices := by unfold NoticesSettled; decide +kernel
  position := by decide +kernel
  figures := fun k => by
    have h : ∀ k : Key, (keyRec k holdState.part).heat ≤ 65535 ∧ -5000 ≤ (keyRec k holdState.part).trim
        ∧ (keyRec k holdState.part).trim ≤ 5000 ∧ (keyRec k holdState.part).missCount ≤ 15 := by decide +kernel
    exact ⟨(h k).1, (h k).2.1, (h k).2.2.1, (h k).2.2.2⟩
  transposeLow := by decide +kernel
  transposeHigh := by decide +kernel
  history := by decide +kernel
  claims := by decide +kernel
  ring := by unfold RingPlaced; decide +kernel
  counters := fun c => by cases c <;> decide +kernel
  volumes := by decide +kernel
  hostBudget := by decide +kernel

theorem witness_StepKeepsLawful : Lawful holdState.part ∧ ∃ t, step holdState = .next t := ⟨lawful_holdState, _, rfl⟩

theorem witness_DriveTimeNeverGoesBack :
    Lawful holdState.part ∧ holdState.pending.head? ≠ some .powerOn ∧ ∃ t, step holdState = .next t :=
  ⟨lawful_holdState, by decide, _, rfl⟩

/-! ## Resets and CMD operations -/

def busyFree : State := onPart withBytes

theorem witness_FullResetEffect :
    Memory.wf busyFree.part.mem = true ∧ portServed busyFree.part = true ∧ busyFree.part.window.busy = none := by
  decide +kernel

theorem test_full_reset_clears_the_control_page_only :
    Memory.read (partAfter .fullReset busyFree).mem 0x3FF = 0 ∧ Memory.read (partAfter .fullReset busyFree).mem 0x400 = 6 := by
  decide +kernel

/-- A performance in hand: key 5 in HOLD, key 6 RELIEVED to a later gap end, key 7 in LIFTING, key 8 in ARMED, the MIDDLE
pedal under FORCE(0). -/
def performing : State := onPart fun p =>
  putPedal .middle { pedalRec .middle p with override := .force 0, state := .lowering, timer := some 900 } <|
  putKey 5 { KeyRec.reset with state := .relieved, current := some strike5, gapEnd := some 5000, coverDamper := true }
    (putKey 6 { KeyRec.reset with state := .lifting, gapEnd := some 300, timer := some 300 }
      (putKey 7 { KeyRec.reset with state := .armed, current := some strike5 } (inEngine .running (key5In .hold 78 p))))

theorem witness_RestartEffect :
    Memory.wf performing.part.mem = true ∧ RingPlaced performing.part.log ∧ portServed performing.part = true
      ∧ performing.part.window.busy = none ∧ ∀ d w, (pedalRec d performing.part).override = .force w → w = 0 := by
  refine ⟨by decide +kernel, ?_, by decide +kernel, by decide +kernel, ?_⟩
  · unfold RingPlaced; decide +kernel
  · intro d w
    have h : (pedalRec .damper performing.part).override = .follow ∧ (pedalRec .shift performing.part).override = .follow
        ∧ (pedalRec .middle performing.part).override = .force 0 := by decide +kernel
    cases d
    · rw [h.1]; exact fun x => Override.noConfusion x
    · rw [h.2.1]; exact fun x => Override.noConfusion x
    · rw [h.2.2]; exact fun x => (Override.force.inj x).symm

theorem witness_RestartEffect_states :
    (keyRec 4 performing.part).state = .hold ∧ (keyRec 5 performing.part).state = .relieved
      ∧ (keyRec 6 performing.part).state = .lifting ∧ (keyRec 7 performing.part).state = .armed
      ∧ (keyRec 8 performing.part).state = .idle ∧ performing.part.time.engine ≠ .idle := by decide +kernel

theorem test_restart_lifts_a_held_key :
    (keyRec 4 (partAfter .restartEngine performing)).gapEnd = some 30000
      ∧ (keyRec 5 (partAfter .restartEngine performing)).timer = some 5000 := by decide +kernel

/-- The performance in hand with MIDDLE under FORCE(200) at a position, and a budget in force. -/
def forcing (position inForce : Nat) : State := { performing with
  part := { putPedal .middle { pedalRec .middle performing.part with override := .force 200, position := position }
      performing.part with budget := { performing.part.budget with inForce := inForce } } }

theorem witness_RestartReappliesForce :
    Memory.wf (forcing 0 800).part.mem = true ∧ portServed (forcing 0 800).part = true
      ∧ (forcing 0 800).part.window.busy = none ∧ 0 < 200
      ∧ (pedalRec .middle (forcing 0 800).part).override = .force 200
      ∧ (∀ x w, x ≠ .middle → (pedalRec x (forcing 0 800).part).override = .force w → w = 0)
      ∧ moveClaim (pedalVoicing .middle (forcing 0 800).part) ≤ 800 := by
  refine ⟨by decide +kernel, by decide +kernel, by decide +kernel, by decide, by decide +kernel, ?_, by decide +kernel⟩
  intro x w hx
  have h : (pedalRec .damper (forcing 0 800).part).override = .follow
      ∧ (pedalRec .shift (forcing 0 800).part).override = .follow := by decide +kernel
  cases x
  · rw [h.1]; exact fun y => Override.noConfusion y
  · rw [h.2]; exact fun y => Override.noConfusion y
  · exact absurd rfl hx
theorem witness_RestartReappliesForce_deferred :
    (forcing 0 100).part.budget.inForce < moveClaim (pedalVoicing .middle (forcing 0 100).part)
      ∧ (forcing 0 100).part.window.busy = none := by decide +kernel
theorem test_forced_pedal_after_a_restart :
    (pedalRec .middle (partAfter .restartEngine (forcing 0 800))).state = .raising
      ∧ (pedalRec .middle (partAfter .restartEngine (forcing 196 800))).state = .settled
      ∧ (pedalRec .middle (partAfter .restartEngine (forcing 0 100))).state = .rest
      ∧ (partAfter .restartEngine (forcing 0 100)).budget.pedalQ.length = 1 := by decide +kernel

theorem witness_ClearCountersEffect :
    Memory.wf busyFree.part.mem = true ∧ portServed busyFree.part = true ∧ busyFree.part.window.busy = none :=
  witness_FullResetEffect

theorem witness_SnapshotEffect :
    Memory.wf performing.part.mem = true ∧ portServed performing.part = true ∧ performing.part.window.busy = none :=
  ⟨witness_RestartEffect.1, witness_RestartEffect.2.2.1, witness_RestartEffect.2.2.2.1⟩

/-- A saturated counter whose word the host has overwritten is not written again (R198). -/
theorem test_saturated_counter_keeps_the_word :
    (bump .deferrals { State.reset.part with log := { State.reset.part.log with
      counters := State.reset.part.log.counters.set Counter.deferrals.index 65535 } }).mem = State.reset.part.mem := by
  decide +kernel

def busyState : State := onPart (busyWith .snapshot)

theorem witness_CmdRejectEffect_busy :
    portServed busyState.part = true ∧ busyState.part.window.busy ≠ none := by decide +kernel
theorem witness_CmdRejectEffect_code :
    portServed State.reset.part = true ∧ State.reset.part.window.busy = none
      ∧ ((0x7E00 : Word) ≠ 0x7E01 ∧ (0x7E00 : Word) ≠ 0x7E0F ∧ (0x7E00 : Word) ≠ 0x7E20 ∧ (0x7E00 : Word) ≠ 0x7E40) := by
  decide +kernel

def busyPowerOn : State := onPart (busyWith .powerOn)
def busyReset : State := onPart (busyWith .fullReset)
def sweepWaits : State := onPart fun p =>
  { busyWith .restart p with window := { (busyWith .restart p).window with sweepDeferred := true } }

theorem witness_BusyClearEffect :
    busyState.part.window.busy = some .snapshot ∧ busyState.part.window.sweepDeferred = false := by decide +kernel
theorem witness_BusyClearEffect_power :
    busyPowerOn.part.window.busy = some .powerOn ∧ busyPowerOn.part.window.sweepDeferred = false
      ∧ busyReset.part.window.busy = some .fullReset ∧ busyReset.part.window.sweepDeferred = false := by decide +kernel
theorem witness_BusyClearEffect_sweep :
    sweepWaits.part.window.busy = some .restart ∧ sweepWaits.part.window.sweepDeferred = true
      ∧ (∀ i, i < 8 → slotWord i 0 sweepWaits.part ≠ 1) ∧ sweepWaits.part.log.dropped = 0 := by decide +kernel

def silent : State := onPart unserved

theorem witness_PortUnserved :
    silent.part.pins.resetLow = true
      ∧ Instr.fillMarkWrite 1 ∈ [Instr.restartEngine, .fullReset, .clearCounters, .snapshot, .cmdReject 1, .nstatWrite 1,
          .nmaskWrite 1, .ncfgWrite 1, .registerWriteIgnored 0 1, .fillMarkWrite 1, .hostMemoryWrite 0 1]
      ∧ Instr.nstatRead ∈ [Instr.statusRead, .nstatRead] := by decide +kernel

/-! ## Registers and memory -/

theorem witness_port_served : portServed State.reset.part = true := by decide +kernel
theorem witness_RegisterReads : portServed State.reset.part = true := witness_port_served
theorem test_status_after_reset : (partAfter .statusRead State.reset).pins.readData = 0x0206 := by decide +kernel

/-- Notices REQ and LOG stand, PEDAL is pending under HOLDOFF, REQ is unmasked, COR is set. -/
def noticed : State := onPart fun p =>
  { p with window := { p.window with nstat := 0x081, nmask := 0x1FE, ncfg := 0xC0, pendingSet := 0x020 } }

theorem witness_RegisterReads_cor :
    portServed noticed.part = true ∧ noticed.part.window.ncfg.getLsbD 6 = true := by decide +kernel
theorem test_nstat_read_takes_up_the_pending_set :
    (partAfter .nstatRead noticed).pins.readData = 0x081 ∧ (partAfter .nstatRead noticed).window.nstat = 0x020 := by
  decide +kernel
theorem witness_RegisterWrites : portServed noticed.part = true := by decide +kernel
theorem test_nstat_write_keeps_the_pending_set_back :
    (partAfter (.nstatWrite 0x080) noticed).window.nstat = 0x001
      ∧ (partAfter (.nstatWrite 0x001) noticed).window.nstat = 0x0A0 := by decide +kernel
theorem witness_RegisterWrites_ncfg : NoticesSettled noticed.part.window ∧ portServed noticed.part = true := by
  unfold NoticesSettled; decide +kernel
theorem witness_RegisterWrites_ignored : (7 : BitVec 3) = 1 ∨ (7 : BitVec 3) = 5 ∨ (7 : BitVec 3) = 6 ∨ (7 : BitVec 3) = 7 := by
  decide
theorem witness_MemoryWrites :
    Memory.wf busyFree.part.mem = true ∧ portServed busyFree.part = true ∧ (0x7FFF : BitVec 15) ≠ 4 := by decide +kernel
theorem test_memory_word_is_little_endian :
    (partAfter (.hostMemoryWrite 0x7FFF 0x1234) State.reset).mem
      = [(0, 0x80), (1, 0x08), (2, 0x03), (3, 0x01), (0xFFFE, 0x34), (0xFFFF, 0x12)] := by decide +kernel

theorem witness_MemoryWrites_fillMark :
    Memory.wf busyFree.part.mem = true ∧ portServed busyFree.part = true ∧ busyFree.part.time.engine = .idle := by
  decide +kernel

/-- A line is on its way in an empty ring whose first slot carries REPEAT. -/
def repeatWaits : State := onPart fun p => putWord Config.fillMarkOffset 0 (withSlot 1 p)

theorem witness_FillMarkWriteTakesRepeatSlot :
    Memory.wf repeatWaits.part.mem = true ∧ portServed repeatWaits.part = true
      ∧ repeatWaits.part.time.engine = .running ∧ lookaheadReached repeatWaits.part = true
      ∧ 320 ≤ repeatWaits.part.wheel.free ∧ repeatWaits.part.strip.held = none
      ∧ lineRepeat (lineWord repeatWaits.part.strip.takeMark repeatWaits.part) = true := by decide +kernel

/-! ## Sweeps and requests -/

theorem witness_SweepWithNothingPosted :
    timeStands State.reset.part = false ∧ sweepHeld State.reset.part = false
      ∧ (∀ i, i < 8 → slotWord i 0 State.reset.part ≠ 1) ∧ State.reset.part.log.dropped = 0 := by decide +kernel
theorem witness_SweepWithNothingPosted_busy :
    sweepWaits.part.window.busy = some .restart ∧ busyReset.part.window.busy = some .fullReset := by decide +kernel

def transposeAsked (asked : Word) : State := onPart (posted 7 7 [asked])

theorem witness_SweepTakesTranspose :
    7 < 8 ∧ Memory.wf (transposeAsked 0xFFF3).part.mem = true ∧ timeStands (transposeAsked 0xFFF3).part = false
      ∧ sweepHeld (transposeAsked 0xFFF3).part = false ∧ (transposeAsked 0xFFF3).part.log.configured = false
      ∧ (transposeAsked 0xFFF3).part.log.dropped = 0 ∧ slotWord 7 0 (transposeAsked 0xFFF3).part = 1
      ∧ slotWord 7 1 (transposeAsked 0xFFF3).part = 7
      ∧ ∀ j, j < 8 → j ≠ 7 → slotWord j 0 (transposeAsked 0xFFF3).part ≠ 1 := by decide +kernel
theorem test_transpose_is_clamped :
    (partAfter .sweep (transposeAsked 0xFFF3)).strip.transpose = -12
      ∧ (partAfter .sweep (transposeAsked 12)).strip.transpose = 12 := by decide +kernel

theorem witness_RequestCompletes :
    slotWord 7 0 (transposeAsked 13).part = 1
      ∧ Memory.wf (dispatchRequest (slotWord 7 1 (transposeAsked 13).part).toNat 7 (transposeAsked 13).part).part.mem = true := by
  decide +kernel

theorem witness_RefusedRequestsChangeNothing :
    (dispatchRequest 4 0 State.reset.part).code = .busy ∧ (14 = 0 ∨ 13 < 14) := by decide +kernel

/-- A START is asked of a loaded slot 1, with no leader lines, or with more than there may be. -/
def startAsked (lines : Word) : State :=
  onPart fun p => posted 0 1 [1, lines] { withLog (withSlot 0 p) with time := Timebase.reset }

theorem witness_StartPrepares :
    (startAsked 0).part.time.engine = .idle ∧ NobodyWaits (startAsked 0).part.budget
      ∧ (param 0 1 (startAsked 0).part).toNat = 1 ∧ (startAsked 0).part.formats.slots[1] = some format0
      ∧ Memory.wf (startAsked 0).part.mem = true ∧ RingPlaced (startAsked 0).part.log := by
  unfold NobodyWaits RingPlaced; decide +kernel
theorem test_start_enters_leader_or_running :
    (dispatchRequest 1 0 (startAsked 0).part).part.time.engine = .running
      ∧ (dispatchRequest 1 0 (startAsked 8193).part).part.leader.lines = 8192
      ∧ (dispatchRequest 1 0 (startAsked 8193).part).part.time.engine = .leader := by decide +kernel

theorem witness_SettingRequests :
    NobodyWaits State.reset.part.budget ∧ RingPlaced State.reset.part.log ∧ State.reset.part.time.engine = .idle
      ∧ Memory.wf State.reset.part.mem = true := by unfold NobodyWaits RingPlaced; decide +kernel
/-- A request of a kind with these parameters in slot 0. -/
def asking (kind : Nat) (params : List Word) (p : Part) : Part := posted 0 kind params p
theorem witness_SettingRequests_keys :
    88 < (param 0 1 (asking 11 [89] State.reset.part)).toNat ∧ (param 0 1 (asking 11 [88] State.reset.part)).toNat ≤ 88
      ∧ (param 0 1 (asking 11 [0] State.reset.part)).toNat = 0 := by decide +kernel
theorem witness_SettingRequests_log :
    ¬ (0x5200 ≤ (param 0 1 (asking 13 [0x51F0, 64] State.reset.part)).toNat)
      ∧ (param 0 1 (asking 13 [0xFC00, 64] State.reset.part)).toNat % 16 = 0
      ∧ (param 0 1 (asking 13 [0xFC00, 64] State.reset.part)).toNat
        + 16 * (param 0 2 (asking 13 [0xFC00, 64] State.reset.part)).toNat ≤ 65536
      ∧ 65536 < (param 0 1 (asking 13 [0xFC10, 64] State.reset.part)).toNat
        + 16 * (param 0 2 (asking 13 [0xFC10, 64] State.reset.part)).toNat := by decide +kernel
theorem test_set_log_places_its_ring :
    (dispatchRequest 13 0 (asking 13 [0x51F0, 64] State.reset.part)).detail = 1
      ∧ (dispatchRequest 13 0 (asking 13 [0xFC00, 64] State.reset.part)).code = .ok
      ∧ (dispatchRequest 13 0 (asking 13 [0xFC10, 64] State.reset.part)).detail = 2 := by decide +kernel
theorem test_set_trim_and_set_budget_clamp :
    (dispatchRequest 6 0 (asking 6 [256, 255] State.reset.part)).detail = 1
      ∧ (dispatchRequest 12 0 (asking 12 [4001] State.reset.part)).part.budget.ibud = 4000
      ∧ (dispatchRequest 12 0 (asking 12 [4000] State.reset.part)).code = .ok := by decide +kernel

/-- A PAUSE with these flags is asked while key 5 is in HOLD. -/
def pauseAsked (flags : Word) : Part := asking 3 [flags] (withLog holdState.part)
theorem witness_EngineRequests_pause :
    RingPlaced (pauseAsked 1).log ∧ Memory.wf (pauseAsked 1).mem = true ∧ (pauseAsked 1).time.engine = .running
      ∧ (param 0 1 (pauseAsked 1)).getLsbD 0 = true ∧ NobodyWaits (pauseAsked 1).budget
      ∧ (∀ k : Key, 0 < (classOf k (pauseAsked 1)).repeatGap) ∧ (param 0 1 (pauseAsked 0)).getLsbD 0 = false
      ∧ (pauseAsked 0).time.engine = .running := by unfold RingPlaced NobodyWaits; decide +kernel
theorem test_pause_releases_held_keys :
    (keyRec 4 (dispatchRequest 3 0 (pauseAsked 1)).part).state = .lifting
      ∧ (dispatchRequest 3 0 (pauseAsked 1)).part.budget.committed = 0
      ∧ (keyRec 4 (dispatchRequest 3 0 (pauseAsked 0)).part).state = .hold := by decide +kernel
/-- The engine is PAUSED, to return to RUNNING, at a clock; the line at hand is due at 200,000 µs. -/
def pausedAt (clock : Word32) : Part :=
  let p := withLog State.reset.part
  { p with time := { p.time with
    engine := .paused, returnState := some .running, due := 200000 * 65536, lookahead := 120000, clock := clock } }
theorem witness_EngineRequests_resume :
    RingPlaced (pausedAt 79999).log ∧ Memory.wf (pausedAt 79999).mem = true ∧ (pausedAt 79999).time.engine = .paused
      ∧ (pausedAt 79999).time.returnState = some .running ∧ lookaheadReached (pausedAt 79999) = false
      ∧ atOrAfter (pausedAt 79999).time.clock (guardInstant (pausedAt 79999)) = false := by
  unfold RingPlaced; decide +kernel
theorem witness_EngineRequests_resume_starves :
    (pausedAt 131000).time.engine = .paused ∧ (pausedAt 131000).time.returnState = some .running
      ∧ lookaheadReached (pausedAt 131000) = true
      ∧ atOrAfter (pausedAt 131000).time.clock (guardInstant (pausedAt 131000)) = true
      ∧ atOrAfter (pausedAt 130999).time.clock (guardInstant (pausedAt 130999)) = false
      ∧ stripSpan (pausedAt 131000) = 0 ∧ (pausedAt 131000).strip.held = none := by decide +kernel
theorem witness_EngineRequests_stop :
    RingPlaced (asking 2 [0] holdState.part).log ∧ Memory.wf (asking 2 [0] holdState.part).mem = true
      ∧ param 0 1 (asking 2 [0] holdState.part) = 0 ∧ (asking 2 [0] holdState.part).time.engine ≠ .idle
      ∧ (asking 2 [0] holdState.part).time.engine ≠ .draining ∧ portServed (asking 2 [1] holdState.part) = true
      ∧ (asking 2 [1] holdState.part).window.busy = none ∧ param 0 1 (asking 2 [1] holdState.part) = 1 := by
  unfold RingPlaced; decide +kernel
theorem test_stop_finishes_or_ends :
    (dispatchRequest 2 0 (asking 2 [0] holdState.part)).part.time.engine = .draining
      ∧ (dispatchRequest 2 0 (asking 2 [1] holdState.part)).part.time.engine = .idle
      ∧ (dispatchRequest 2 0 (asking 2 [2] holdState.part)).code = .range := by decide +kernel

/-- PEDAL_OVERRIDE of MIDDLE in a mode with a value is asked while the pedal has this record and the budget in force is
this. -/
def overrideAsked (mode value : Word) (r : PedalRec) (inForce : Nat) : Part :=
  let p := putPedal .middle r (inEngine .running State.reset.part)
  asking 8 [2, mode, value] { p with budget := { p.budget with committed := r.claim, inForce := inForce } }
/-- MIDDLE at 200, SETTLED for 200 with its hold claim. -/
def settledPedal : PedalRec :=
  { PedalRec.reset with state := .settled, target := 200, position := 200, claim := 100, rollTarget := 90 }
theorem witness_PedalOverrideRequest_range :
    2 < (param 0 1 (asking 8 [3, 0] State.reset.part)).toNat ∧ 2 < (param 0 2 (asking 8 [0, 3] State.reset.part)).toNat := by
  decide +kernel
/-- The premises on the part, in a part for each clause. -/
theorem witness_PedalOverrideRequest :
    ∀ p ∈ [overrideAsked 1 0 PedalRec.reset 800, overrideAsked 1 300 PedalRec.reset 235, overrideAsked 1 300 PedalRec.reset 234,
        overrideAsked 2 0 settledPedal 800, overrideAsked 1 0 settledPedal 800, overrideAsked 1 200 settledPedal 800,
        overrideAsked 0 0 settledPedal 800, overrideAsked 1 255 settledPedal 234],
      (param 0 1 p).toNat = (pedalIndex .middle).val ∧ (param 0 2 p).toNat ≤ 2 ∧ RingPlaced p.log ∧ NobodyWaits p.budget
        ∧ p.time.engine ≠ .draining ∧ ∀ k : Key, (keyRec k p).state = .idle := by
  unfold RingPlaced NobodyWaits; decide +kernel
/-- What each of those parts comes to: REST kept at 0; the move claim granted, and deferred; OFF; the fall from SETTLED; the
same target and state; a lower target; a refused rise. -/
theorem test_pedal_override_clauses :
    moveClaim (pedalVoicing .middle State.reset.part) = 235
      ∧ (pedalRec .middle (dispatchRequest 8 0 (overrideAsked 1 0 PedalRec.reset 800)).part).state = .rest
      ∧ (pedalRec .middle (dispatchRequest 8 0 (overrideAsked 1 300 PedalRec.reset 235)).part).state = .raising
      ∧ (dispatchRequest 8 0 (overrideAsked 1 300 PedalRec.reset 234)).part.budget.pedalQ.length = 1
      ∧ (pedalRec .middle (dispatchRequest 8 0 (overrideAsked 2 0 settledPedal 800)).part).state = .off
      ∧ (pedalRec .middle (dispatchRequest 8 0 (overrideAsked 1 0 settledPedal 800)).part).state = .lowering
      ∧ (pedalRec .middle (dispatchRequest 8 0 (overrideAsked 1 200 settledPedal 800)).part).claim = 100
      ∧ (pedalRec .middle (dispatchRequest 8 0 (overrideAsked 0 0 settledPedal 800)).part).target = 90
      ∧ (pedalRec .middle (dispatchRequest 8 0 (overrideAsked 1 255 settledPedal 234)).part).wanted = some 255 := by
  decide +kernel

def loadAsked : State := onPart fun p => posted 0 9 [2] (putWords (Config.formatOffset + 512) formatWords p)

theorem witness_AcceptedFormatsAreValid :
    (param 0 1 loadAsked.part).toNat = 2 ∧ (dispatchRequest 9 0 loadAsked.part).code = .ok := by decide +kernel

/-- The words of a Voicing Area: every key class, curve and pedal as the built-in Voicing has it (Table 5-4). -/
def voicingTable (i : Nat) : Nat :=
  if i < 96 then [0, 250, 80, 20000, 30000, 0, 10000, 5000, 40, 60, 40000, 0].getD (i % 12) 0
  else if i < 640 then
    let j := (i - 96) % 68 / 4
    [1200 + 400 * j, 64000 - 3500 * j, 0, min 255 (128 + 8 * j)].getD ((i - 96) % 4) 0
  else if i < 816 then 0
  else
    [24000, 28000, 32000, 8, 4, 1, 0, 0, 300, 200, 60, 60, 200, 4, 30000, 0, 300, 200, 60, 60, 200, 4, 30000, 0,
      300, 200, 60, 60, 200, 4, 30000, 0, 160, 160, 66].getD (i - 816) 0

/-- Performance Memory with these words in the Voicing Area. -/
def voicingMemory : Memory :=
  Memory.writeWords [] Config.voicingOffset ((List.range 851).map fun i => natWord (voicingTable i))

/-- A part in IDLE whose Voicing Area holds these words. -/
def voicingAsked : Part := { State.reset.part with mem := voicingMemory }

theorem voicingAsked_mem : voicingAsked.mem = voicingMemory := by rw [voicingAsked]

theorem voicingAsked_words : voicingWord voicingAsked = voicingTable := by
  have bound : ∀ i, i < 851 → voicingTable i < 65536 := by decide +kernel
  funext i
  rewrite [voicingWord, wordAt, voicingAsked_mem]
  by_cases h : i < 851
  · rw [voicingMemory, Memory.readWord_writeWords_same _ _ _ i rfl (by simpa using h)]
    simpa [natWord] using Nat.mod_eq_of_lt (bound i h)
  · rw [voicingMemory, Memory.readWord_writeWords_other _ _ _ _ (by simp; omega)]
    have h1 : ¬ i < 96 ∧ ¬ i < 640 ∧ ¬ i < 816 ∧ 35 ≤ i - 816 := by omega
    rw [voicingTable, if_neg h1.1, if_neg h1.2.1, if_neg h1.2.2.1, List.getD_eq_default _ _ h1.2.2.2]
    simp [Memory.readWord, Memory.read, Memory.unlisted]

theorem witness_LoadVoicingRequest :
    voicingAsked.time.engine = .idle ∧ (dispatchRequest 10 0 voicingAsked).code = .ok := by
  have h : voicingFailure (voicingWord voicingAsked) = none := by rw [voicingAsked_words]; decide +kernel
  have e : voicingAsked.time.engine = .idle := rfl
  refine ⟨e, ?_⟩
  have d : ∀ p, dispatchRequest 10 0 p = requestLoadVoicing 0 p := fun _ => rfl
  simp only [d, requestLoadVoicing, h, e, ne_eq, not_true_eq_false, if_false]
theorem test_voicing_field_at_its_bound :
    voicingFailure (fun i => if i = 820 then 15 else voicingTable i) = none
      ∧ voicingFailure (fun i => if i = 820 then 16 else voicingTable i) = some (820, .fieldRange) := by decide +kernel

/-! ## Lines, the clock and the wheel -/

/-- A BLANK slot waits for the lookahead instant of the line at hand. -/
def blankReady : State := onPart (withSlot 2)

theorem witness_LookaheadTakesBlankLine :
    Memory.wf blankReady.part.mem = true ∧ timeStands blankReady.part = false ∧ blankReady.part.time.engine = .running
      ∧ blankReady.part.time.wanted = false ∧ blankReady.part.formats.inUse = some 1
      ∧ blankReady.part.formats.slots[1] = some format0 ∧ blankReady.part.strip.held = none
      ∧ 320 ≤ blankReady.part.wheel.free ∧ fillMark blankReady.part = blankReady.part.strip.takeMark + 1
      ∧ lineRepeat (lineWord blankReady.part.strip.takeMark blankReady.part) = false
      ∧ lineBlank (lineWord blankReady.part.strip.takeMark blankReady.part) = true
      ∧ lineSkip (lineWord blankReady.part.strip.takeMark blankReady.part) = 0
      ∧ blankReady.part.strip.tracking = .locked ∧ 2 ≤ format0.coastLimit
      ∧ (∀ t : Fin 104, blankReady.part.strip.tracks[t].state = .closed
        ∧ blankReady.part.strip.tracks[t].lastSample = false)
      ∧ blankReady.part.time.endLine = 0
      ∧ lookaheadReached (advanceLine
          (planTo (minusTime (dueInt blankReady.part.time.due) blankReady.part.time.lookahead) blankReady.part)) = false := by
  decide +kernel
theorem witness_LookaheadTakesBlankLine_pedals : ∀ d : Pedal, (pedalRec d blankReady.part).plannedTarget = 0 := by
  intro d; cases d <;> decide +kernel

/-- An event dated into the leader is dated anew to the first music line, and so is no event dated before the leader, or
after the leader's lines have passed from memory (R42). -/
theorem test_events_of_the_leader_are_redated :
    let l (music : Nat) : Leader :=
      { Leader.reset with seq := .decided, windowCount := 100, firstMusicLine := some 1000, musicLines := music }
    let dated (n : Word32) : TrackEvent := { track := 30, onset := true, dated := n }
    redate (l 2) 1002 (dated 999) = dated 1000 ∧ redate (l 2) 1002 (dated 900) = dated 1000
      ∧ redate (l 2) 1002 (dated 1001) = dated 1001
      ∧ redate (l (2 ^ 31)) (1000 + 2 ^ 31) (dated (999 + 2 ^ 31)) = dated (999 + 2 ^ 31) := by decide +kernel

theorem witness_LookaheadWaits_mark :
    timeStands (onPart fun p => putWord Config.fillMarkOffset 257 (withSlot 0 p)).part = false
      ∧ (onPart fun p => putWord Config.fillMarkOffset 257 (withSlot 0 p)).part.time.engine = .running
      ∧ (onPart fun p => putWord Config.fillMarkOffset 257 (withSlot 0 p)).part.time.wanted = false
      ∧ 257 ≤ (fillMark (onPart fun p => putWord Config.fillMarkOffset 257 (withSlot 0 p)).part
        - (onPart fun p => putWord Config.fillMarkOffset 257 (withSlot 0 p)).part.strip.takeMark).toNat := by decide +kernel
theorem witness_LookaheadWaits_lines :
    timeStands repeatWaits.part = false ∧ repeatWaits.part.time.engine = .running
      ∧ repeatWaits.part.time.wanted = false
      ∧ (fillMark repeatWaits.part - repeatWaits.part.strip.takeMark).toNat = 0 ∧ repeatWaits.part.strip.held = none := by
  decide +kernel
theorem witness_LookaheadWaits_pool :
    timeStands (onPart fun p => { withSlot 0 p with wheel := { p.wheel with free := 319 } }).part = false
      ∧ (onPart fun p => { withSlot 0 p with wheel := { p.wheel with free := 319 } }).part.time.engine = .running
      ∧ (onPart fun p => { withSlot 0 p with wheel := { p.wheel with free := 319 } }).part.time.wanted = false
      ∧ (onPart fun p => { withSlot 0 p with wheel := { p.wheel with free := 319 } }).part.wheel.free < 320 := by
  decide +kernel

def wantedLine : State := onPart fun p =>
  let q := withLog (putWord Config.fillMarkOffset 0 (withSlot 0 p))
  { q with time := { q.time with wanted := true, lastCause := some .lines } }

theorem witness_GuardStarves :
    Memory.wf wantedLine.part.mem = true ∧ RingPlaced wantedLine.part.log ∧ timeStands wantedLine.part = false
      ∧ wantedLine.part.time.engine = .running ∧ wantedLine.part.time.wanted = true := by
  unfold RingPlaced; decide +kernel
theorem test_starved_at_the_guard_instant :
    (partAfter .guardInstant wantedLine).time.engine = .starved ∧ (partAfter .guardInstant wantedLine).time.clock = 51000 := by
  decide +kernel

def lastSlot : State := onPart fun p => inEngine .running { p with wheel := { p.wheel with position := 4294967200 } }

theorem witness_WheelSlotAdvances :
    timeStands lastSlot.part = false ∧ clockRuns lastSlot.part = true ∧ lastSlot.part.time.engine ≠ .draining
      ∧ (∀ a ∈ lastSlot.part.wheel.actions, a.slot ≠ slotOf lastSlot.part.wheel.position ∨ isBefore a.instant 0 = false) := by
  decide +kernel
theorem test_wheel_position_wraps : (partAfter .wheelSlot lastSlot).wheel.position = 0 := by decide +kernel

def release5 : Action := { kind := .release 4 7, instant := 50, slot := 0 }
def releaseDue : State := onPart fun p =>
  let q := inEngine .running (key5In .hold 78 p)
  { q with
    wheel := { actions := [release5], position := 0, free := 1023 }
    time := { q.time with due := 200000 * 65536, lookahead := 120000 } }

theorem witness_WheelSlotReleasesHeldKey :
    RingPlaced releaseDue.part.log ∧ timeStands releaseDue.part = false ∧ releaseDue.part.time.engine = .running
      ∧ NobodyWaits releaseDue.part.budget ∧ 0 < (classOf 4 releaseDue.part).repeatGap
      ∧ (keyRec 4 releaseDue.part).state = .hold ∧ (keyRec 4 releaseDue.part).current = some strike5
      ∧ release5.kind = .release 4 strike5.tag ∧ releaseDue.part.wheel.actions = [release5]
      ∧ release5.slot = slotOf releaseDue.part.wheel.position ∧ isBefore release5.instant 100 = true
      ∧ lookaheadReached (planTo releaseDue.part.wheel.position releaseDue.part) = false := by
  unfold RingPlaced NobodyWaits; decide +kernel

theorem witness_StaleActionsDoNothing :
    (∀ st, (keyRec 4 holdState.part).current = some st → st.tag ≠ 8)
      ∧ (∀ qd, (keyRec 4 holdState.part).queued = some qd → qd.strike.tag ≠ 8)
      ∧ ActionKind.release 4 8 ∈ [ActionKind.launch 4 8, .expire 4 8, .release 4 8, .depress 4 8 0] := by
  refine ⟨fun st h => ?_, fun qd h => ?_, by decide⟩
  · have e : (keyRec 4 holdState.part).current = some strike5 := by decide +kernel
    cases h.symm.trans e; decide
  · have e : (keyRec 4 holdState.part).queued = none := by decide +kernel
    cases h.symm.trans e

/-! ## Keys -/

/-- Key 5 in DRIVE with its launch claim. -/
def driveState : State := onPart (key5In .drive 196)
/-- Key 5 in DEPRESSING with its depress claim. -/
def depressState : State := onPart (key5In .depressing 58)
/-- Key 5 in DRIVE, release-pending. -/
def pendingState : State := onPart fun p =>
  let q := key5In .drive 196 p
  putKey 4 { keyRec 4 q with releasePending := true } q
/-- Key 5 in DEPRESSING where the rise to the hold claim is refused: the budget is full. -/
def fullState : State := onPart fun p =>
  let q := key5In .drive 58 p
  { q with budget := { q.budget with committed := 781 } }
/-- Key 5 in LIFTING with a queued strike, its LAUNCH taken or not. -/
def queuedState (taken : Bool) : State := onPart fun p =>
  withBudget 0
    (putKey 4 { KeyRec.reset with state := .lifting, timer := some 100, gapEnd := some 100, queued := some ⟨strike5, taken⟩ } p)

/-- The setup of a performance. -/
def performanceSetup (p : Part) : Part :=
  { p with window := { p.window with setup := { p.window.setup with
      reliefDelay := 100, reliefDamper := true, vnom := 240, sagLevel := 200, lowLevel := 160, railHyst := 5 } } }

def driveHolds : State := { driveState with part := performanceSetup driveState.part }
def depressHolds : State := { depressState with part := performanceSetup depressState.part }

theorem witness_PulseAndDepressEndHold_pulse :
    timeStands driveHolds.part = false ∧ NobodyWaits driveHolds.part.budget
      ∧ (keyRec 4 driveHolds.part).timer = some 100 ∧ (keyRec 4 driveHolds.part).current = some strike5
      ∧ strike5.iHold ≤ (keyRec 4 driveHolds.part).claim ∧ 0 < driveHolds.part.window.setup.reliefDelay
      ∧ (keyRec 4 driveHolds.part).state = .drive ∧ (keyRec 4 driveHolds.part).releasePending = false := by
  unfold NobodyWaits; decide +kernel
theorem witness_PulseAndDepressEndHold_depress :
    timeStands depressHolds.part = false ∧ NobodyWaits depressHolds.part.budget
      ∧ (keyRec 4 depressHolds.part).timer = some 100 ∧ (keyRec 4 depressHolds.part).current = some strike5
      ∧ depressHolds.part.budget.committed + (strike5.iHold - (keyRec 4 depressHolds.part).claim)
        ≤ depressHolds.part.budget.inForce
      ∧ 0 < depressHolds.part.window.setup.reliefDelay ∧ (keyRec 4 depressHolds.part).state = .depressing := by
  unfold NobodyWaits; decide +kernel
theorem test_pulse_end_leaves_the_hold_claim :
    (partAfter (.pulseEnd 5) driveHolds).budget.committed = 78
      ∧ (keyRec 4 (partAfter (.pulseEnd 5) driveHolds)).timer = some 100100 := by decide +kernel
theorem test_depress_end_raises_the_claim :
    (partAfter (.depressEnd 5) depressHolds).budget.committed = 78 := by decide +kernel

theorem witness_PulseEndReleases_pending :
    RingPlaced pendingState.part.log ∧ timeStands pendingState.part = false ∧ NobodyWaits pendingState.part.budget
      ∧ pendingState.part.time.engine ≠ .draining ∧ 0 < (classOf 4 pendingState.part).repeatGap
      ∧ (keyRec 4 pendingState.part).state = .drive ∧ (keyRec 4 pendingState.part).timer = some 100
      ∧ (keyRec 4 pendingState.part).current = some strike5 ∧ (keyRec 4 pendingState.part).releasePending = true := by
  unfold RingPlaced NobodyWaits; decide +kernel
theorem witness_PulseEndReleases_full :
    RingPlaced fullState.part.log ∧ timeStands fullState.part = false ∧ NobodyWaits fullState.part.budget
      ∧ fullState.part.time.engine ≠ .draining ∧ 0 < (classOf 4 fullState.part).repeatGap
      ∧ (keyRec 4 fullState.part).state = .drive ∧ (keyRec 4 fullState.part).timer = some 100
      ∧ (keyRec 4 fullState.part).current = some strike5 ∧ (keyRec 4 fullState.part).claim < strike5.iHold
      ∧ fullState.part.budget.inForce
        < fullState.part.budget.committed + (strike5.iHold - (keyRec 4 fullState.part).claim) := by
  unfold RingPlaced NobodyWaits; decide +kernel

/-- Key 5 in DEPRESSING where the rise to the hold claim is refused. -/
def depressFull : State := onPart fun p =>
  let q := key5In .depressing 58 p
  { q with budget := { q.budget with committed := 781 } }
theorem witness_PulseEndReleases_depress :
    RingPlaced depressFull.part.log ∧ timeStands depressFull.part = false ∧ NobodyWaits depressFull.part.budget
      ∧ depressFull.part.time.engine ≠ .draining ∧ 0 < (classOf 4 depressFull.part).repeatGap
      ∧ (keyRec 4 depressFull.part).state = .depressing ∧ (keyRec 4 depressFull.part).timer = some 100
      ∧ (keyRec 4 depressFull.part).current = some strike5 ∧ (keyRec 4 depressFull.part).claim < strike5.iHold
      ∧ depressFull.part.budget.inForce
        < depressFull.part.budget.committed + (strike5.iHold - (keyRec 4 depressFull.part).claim) := by
  unfold RingPlaced NobodyWaits; decide +kernel
theorem test_refused_depress_end_releases :
    (keyRec 4 (partAfter (.depressEnd 5) depressFull)).state = .lifting
      ∧ (keyRec 4 (partAfter (.depressEnd 5) { depressFull with
          part := { depressFull.part with budget := { depressFull.part.budget with committed := 780 } } })).state = .hold := by
  decide +kernel

/-- Key 5 in HOLD under a DAMPER pedal that is SETTLED at its top, or under none. -/
def reliefState (position : Nat) : State := onPart fun p =>
  putPedal .damper { pedalRec .damper p with state := .settled, target := 255, position := position }
    (performanceSetup (key5In .hold 78 p))

theorem witness_ReliefDelayEndEffect :
    timeStands (reliefState 160).part = false ∧ NobodyWaits (reliefState 160).part.budget
      ∧ (keyRec 4 (reliefState 160).part).state = .hold ∧ (keyRec 4 (reliefState 160).part).timer = some 100
      ∧ mayRelieve .damper 4 (reliefState 160).part = true := by unfold NobodyWaits; decide +kernel
theorem witness_ReliefDelayEndEffect_stays :
    timeStands (reliefState 159).part = false ∧ NobodyWaits (reliefState 159).part.budget
      ∧ (keyRec 4 (reliefState 159).part).state = .hold ∧ (keyRec 4 (reliefState 159).part).timer = some 100
      ∧ ¬ (mayRelieve .damper 4 (reliefState 159).part = true ∨ mayRelieve .middle 4 (reliefState 159).part = true) := by
  unfold NobodyWaits; decide +kernel
theorem test_relief_from_free_level_up :
    (keyRec 4 (partAfter (.reliefDelayEnd 5) (reliefState 160))).state = .relieved
      ∧ (keyRec 4 (partAfter (.reliefDelayEnd 5) (reliefState 159))).state = .hold := by decide +kernel

theorem witness_GapEndEffect :
    timeStands (queuedState false).part = false ∧ (queuedState false).part.time.engine ≠ .draining
      ∧ (keyRec 4 (queuedState false).part).state = .lifting ∧ (keyRec 4 (queuedState false).part).timer = some 100
      ∧ (keyRec 4 (queuedState false).part).queued = some ⟨strike5, false⟩ := by decide +kernel

theorem witness_GapEndLaunches :
    RingPlaced (queuedState true).part.log ∧ timeStands (queuedState true).part = false
      ∧ NobodyWaits (queuedState true).part.budget ∧ (keyRec 4 (queuedState true).part).state = .lifting
      ∧ (keyRec 4 (queuedState true).part).timer = some 100
      ∧ (keyRec 4 (queuedState true).part).queued = some { strike := strike5, launchTaken := true }
      ∧ (keyRec 4 (queuedState true).part).claim = 0
      ∧ (queuedState true).part.budget.committed + strike5.iLaunch ≤ (queuedState true).part.budget.inForce
      ∧ (senseRec 4 (queuedState true).part).window ≠ .opened := by
  unfold RingPlaced NobodyWaits; decide +kernel
theorem test_queued_strike_launches_at_the_gap_end :
    (keyRec 4 (partAfter (.gapEnd 5) (queuedState true))).state = .drive
      ∧ (partAfter (.gapEnd 5) (queuedState true)).budget.committed = 196 := by decide +kernel

theorem witness_LaunchAdmission :
    (keyRec 4 driveState.part).current = some strike5 ∧ halfQueue strike5.half driveState.part.budget = []
      ∧ driveState.part.budget.pedalQ = []
      ∧ driveState.part.budget.committed + strike5.iLaunch ≤ driveState.part.budget.inForce := by decide +kernel
theorem witness_LaunchAdmission_full :
    (keyRec 4 fullState.part).current = some strike5
      ∧ ¬ (fullState.part.budget.committed + strike5.iLaunch ≤ fullState.part.budget.inForce) := by decide +kernel

/-- Key 5 waits for its launch in BASS, key 60 for its depress in TREBLE, the MIDDLE pedal for 200 in PEDAL, with this much
committed and the Priority Pattern at its start. -/
def waitingPart (committed : Nat) : Part :=
  let p := withBudget committed State.reset.part
  let p := putKey 4 { KeyRec.reset with state := .waiting .launch, current := some strike5 } p
  let p := putKey 59 { KeyRec.reset with state := .waiting .depress, current := some { strike5 with key := 59, half := .treble } } p
  let p := putPedal .middle { pedalRec .middle p with wanted := some 200 } p
  { p with budget := { p.budget with
    pedalQ := [⟨.middle, 235, .raising⟩], bassQ := [⟨4, .launch, 196⟩], trebleQ := [⟨59, .depress, 58⟩] } }
/-- The premises of the four ends of a round: PEDAL fits; only BASS, which the pattern prefers, and TREBLE fit; only TREBLE
fits; none fits. -/
theorem witness_ServingRound :
    (waitingPart 565).budget.committed + 235 ≤ (waitingPart 565).budget.inForce
      ∧ ¬ (waitingPart 566).budget.committed + 235 ≤ (waitingPart 566).budget.inForce
      ∧ (waitingPart 566).window.setup.priorityPattern.getLsbD (waitingPart 566).budget.patternPos.val = true
      ∧ (waitingPart 604).budget.committed + 196 ≤ (waitingPart 604).budget.inForce
      ∧ ¬ (waitingPart 605).budget.committed + 196 ≤ (waitingPart 605).budget.inForce
      ∧ (waitingPart 742).budget.committed + 58 ≤ (waitingPart 742).budget.inForce
      ∧ ¬ (waitingPart 743).budget.committed + 58 ≤ (waitingPart 743).budget.inForce := by decide +kernel
theorem witness_ServingRound_keys :
    RingPlaced (waitingPart 604).log ∧ halfQueue .bass (waitingPart 604).budget = [⟨4, .launch, 196⟩]
      ∧ (keyRec 4 (waitingPart 604)).current = some strike5 ∧ (keyRec 4 (waitingPart 604)).claim = 0
      ∧ (senseRec 4 (waitingPart 604)).window ≠ .opened
      ∧ halfQueue .treble (waitingPart 604).budget = [⟨59, .depress, 58⟩]
      ∧ (keyRec 59 (waitingPart 604)).current = some { strike5 with key := 59, half := .treble }
      ∧ (keyRec 59 (waitingPart 604)).claim = 0 := by unfold RingPlaced; decide +kernel
theorem witness_ServingRound_pedal :
    RingPlaced (waitingPart 565).log ∧ (waitingPart 565).budget.pedalQ = [⟨.middle, 235, .raising⟩] ∧ 0 < 200
      ∧ (pedalRec .middle (waitingPart 565)).wanted = some 200 ∧ (pedalRec .middle (waitingPart 565)).claim = 0
      ∧ (∀ k : Key, inCover .middle (keyRec k (waitingPart 565)) = false)
      ∧ (waitingPart 565).capture.engaged = false ∧ (waitingPart 565).capture.keys = [] := by
  unfold RingPlaced; decide +kernel
theorem test_serving_goes_on_while_a_head_fits :
    let served (committed : Nat) : Part :=
      let p := waitingPart committed
      serve { p with budget := { p.budget with serveCause := true } }
    (pedalRec .middle (served 565)).state = .raising ∧ (keyRec 4 (served 566)).state = .drive
      ∧ (keyRec 59 (served 605)).state = .depressing ∧ (served 743).budget.committed = 743
      ∧ (served 311).budget.committed = 800 := by decide +kernel

theorem witness_HeatUpdateEffect : timeStands holdState.part = false := by decide +kernel

/-! ## Rail and pedals -/

/-- The rail state NORMAL under a setup of 160, 200 and 5. -/
def railState : State := onPart fun p => performanceSetup { p with analog := { p.analog with rail := .normal } }

theorem witness_RailSampleEffect :
    RingPlaced railState.part.log ∧ timeStands railState.part = false ∧ NobodyWaits railState.part.budget := by
  unfold RingPlaced NobodyWaits; decide +kernel
theorem test_rail_states_at_their_levels :
    (partAfter (.railSample 159) railState).analog.rail = .low ∧ (partAfter (.railSample 160) railState).analog.rail = .sag
      ∧ (partAfter (.railSample 199) railState).analog.rail = .sag
      ∧ (partAfter (.railSample 200) railState).analog.rail = .normal
      ∧ (partAfter (.railSample 205) railState).analog.rail = .normal := by decide +kernel
theorem test_budget_at_a_sag :
    (partAfter (.railSample 180) railState).budget.inForce = 400
      ∧ (partAfter (.railSample 160) railState).budget.inForce = 0 := by decide +kernel

/-- The MIDDLE pedal in RAISING to 200 with its move claim. -/
def raisingState : State := onPart fun p =>
  withBudget 235
    (putPedal .middle { pedalRec .middle p with state := .raising, target := 200, timer := some 500, claim := 235 } p)

theorem witness_PedalSampleSettles :
    RingPlaced raisingState.part.log ∧ timeStands raisingState.part = false ∧ NobodyWaits raisingState.part.budget
      ∧ (∀ k : Key, (keyRec k raisingState.part).state = .idle) ∧ (pedalRec .middle raisingState.part).state = .raising
      ∧ (pedalRec .middle raisingState.part).wanted = none
      ∧ (pedalRec .middle raisingState.part).target
        ≤ (784 : BitVec 10).toNat / 4 + (pedalVoicing .middle raisingState.part).tol
      ∧ (pedalVoicing .middle raisingState.part).ifull
          * min 255 ((pedalVoicing .middle raisingState.part).holdBase
            + (pedalVoicing .middle raisingState.part).holdSlope * (pedalRec .middle raisingState.part).target / 255) / 255
        ≤ (pedalRec .middle raisingState.part).claim := by
  unfold RingPlaced NobodyWaits; decide +kernel
/-- MIDDLE in LOWERING to a target, at position 230. -/
def loweringState (target claim : Nat) : State := onPart fun p =>
  withBudget claim (putPedal .middle { pedalRec .middle p with
    state := .lowering, target := target, position := 230, timer := some 500, claim := claim } p)
theorem witness_PedalSampleSettles_lowering :
    ∀ s ∈ [loweringState 200 122, loweringState 0 0],
      RingPlaced s.part.log ∧ timeStands s.part = false ∧ NobodyWaits s.part.budget
        ∧ (∀ k : Key, (keyRec k s.part).state = .idle) ∧ (pedalRec .middle s.part).wanted = none
        ∧ (pedalRec .middle s.part).state = .lowering ∧ s.part.time.engine ≠ .draining := by
  unfold RingPlaced NobodyWaits; decide +kernel
theorem witness_PedalSampleSettles_arrivals :
    (pedalVoicing .middle State.reset.part).tol = 4 ∧ (819 : BitVec 10).toNat / 4 ≤ 200 + 4
      ∧ ¬ (820 : BitVec 10).toNat / 4 ≤ 200 + 4 ∧ (19 : BitVec 10).toNat / 4 ≤ 4 ∧ ¬ (20 : BitVec 10).toNat / 4 ≤ 4 := by
  decide +kernel
theorem test_lowering_pedal_arrives :
    (pedalRec .middle (partAfter (.pedalPositionSample .middle 819) (loweringState 200 122))).state = .settled
      ∧ (pedalRec .middle (partAfter (.pedalPositionSample .middle 820) (loweringState 200 122))).state = .lowering
      ∧ (pedalRec .middle (partAfter (.pedalPositionSample .middle 19) (loweringState 0 0))).state = .rest
      ∧ (pedalRec .middle (partAfter (.pedalPositionSample .middle 20) (loweringState 0 0))).state = .lowering := by
  decide +kernel
/-- MIDDLE in RAISING to 200 with a claim below its hold claim, and nothing left of the budget. -/
def refusedState : State := onPart fun p =>
  withBudget 800
    (putPedal .middle { pedalRec .middle p with state := .raising, target := 200, timer := some 500, claim := 100 } p)
theorem witness_PedalSampleKeeps_refused :
    timeStands refusedState.part = false ∧ NobodyWaits refusedState.part.budget
      ∧ (∀ k : Key, (keyRec k refusedState.part).state = .idle) ∧ (pedalRec .middle refusedState.part).wanted = none
      ∧ (pedalRec .middle refusedState.part).state = .raising ∧ 200 ≤ (784 : BitVec 10).toNat / 4 + 4
      ∧ (pedalRec .middle refusedState.part).claim < holdClaim (pedalVoicing .middle refusedState.part) 200
      ∧ refusedState.part.budget.inForce < refusedState.part.budget.committed
        + (holdClaim (pedalVoicing .middle refusedState.part) 200 - (pedalRec .middle refusedState.part).claim) := by
  unfold NobodyWaits; decide +kernel
theorem test_refused_arrival_stays_raising :
    (pedalRec .middle (partAfter (.pedalPositionSample .middle 784) refusedState)).state = .raising
      ∧ (pedalRec .middle (partAfter (.pedalPositionSample .middle 784) refusedState)).timer = none := by decide +kernel

theorem witness_PedalSampleKeeps :
    timeStands raisingState.part = false ∧ NobodyWaits raisingState.part.budget
      ∧ (∀ k : Key, (keyRec k raisingState.part).state = .idle) ∧ (pedalRec .middle raisingState.part).wanted = none
      ∧ (pedalRec .middle raisingState.part).state = .raising
      ∧ (783 : BitVec 10).toNat / 4 + (pedalVoicing .middle raisingState.part).tol
        < (pedalRec .middle raisingState.part).target := by
  unfold NobodyWaits; decide +kernel
theorem test_pedal_settles_within_its_tolerance :
    (pedalRec .middle (partAfter (.pedalPositionSample .middle 784) raisingState)).state = .settled
      ∧ (pedalRec .middle (partAfter (.pedalPositionSample .middle 783) raisingState)).state = .raising := by
  decide +kernel

theorem witness_TravelTimeoutSticks :
    RingPlaced raisingState.part.log ∧ timeStands raisingState.part = false ∧ NobodyWaits raisingState.part.budget
      ∧ raisingState.part.time.engine ≠ .draining
      ∧ (∀ k : Key, (keyRec k raisingState.part).state ≠ .relieved ∧ (keyRec k raisingState.part).state ≠ .waiting .depress)
      ∧ (pedalRec .middle raisingState.part).state = .raising
      ∧ (pedalRec .middle raisingState.part).timer = some 500 := by
  unfold RingPlaced NobodyWaits; decide +kernel

/-! ## The sense scan -/

/-- The scan before read every input at its rest level. -/
def scanState : State := onPart fun p => { p with senseLevels := some 0 }
/-- Key 5 in DRIVE with its window OPEN since 0, its lead 45,000 µs. -/
def flightState (launch : Nat) : State := onPart fun p =>
  putSense 4 { senseRec 4 p with window := .opened, launchTime := some launch, lead := 45000, windowEnd := launch + 90000 }
    { key5In .drive 196 p with
      senseLevels := some 0
      clocks := { p.clocks with drive := 90000, nextScan := 90000 } }

theorem witness_SenseScanQuiet :
    timeStands scanState.part = false ∧ (∀ k : Key, (senseRec k scanState.part).window = .closed)
      ∧ scanState.part.senseLevels = some 0
      ∧ ∀ k : Key, (0 : BitVec 88).getLsbD k.val = (0 : BitVec 88).getLsbD k.val := by decide +kernel

/-- Key 5's window in a state, its end at 90,000 µs, with the next scan at an instant; its key's miss count. -/
def windowState (window : WindowState) (scan misses : Nat) : State := onPart fun p =>
  let q := putSense 4 { senseRec 4 p with window := window, launchTime := some 0, lead := 45000, windowEnd := 90000 }
    (putKey 4 { KeyRec.reset with missCount := misses } (withLog p))
  { q with senseLevels := some 0, clocks := { q.clocks with drive := 80000, nextScan := scan } }
/-- The premises of the windows that a scan closes: HEARD, CUT and OPEN past their end, on a scan that shows no edge. -/
theorem witness_SenseScanQuiet_closes :
    ∀ s ∈ [windowState .heard 90050 0, windowState .cut 90050 0, windowState .opened 90050 3],
      timeStands s.part = false ∧ RingPlaced s.part.log
        ∧ (∀ j : Key, j ≠ 4 → (senseRec j s.part).window = .closed) ∧ s.part.senseLevels = some 0
        ∧ ¬ ((senseRec 4 s.part).window = .closed
          ∨ (driveTo s.part.clocks.nextScan s.part).clocks.drive ≤ (senseRec 4 s.part).windowEnd) := by
  unfold RingPlaced; decide +kernel
theorem test_windows_close_past_their_end :
    (senseRec 4 (partAfter (.senseScan 0) (windowState .heard 90000 0))).window = .heard
      ∧ (senseRec 4 (partAfter (.senseScan 0) (windowState .heard 90050 0))).window = .closed
      ∧ (keyRec 4 (partAfter (.senseScan 0) (windowState .opened 90050 3))).deaf = true
      ∧ (partAfter (.senseScan 0) (windowState .opened 90050 2)).window.nstat = 0 := by decide +kernel

/-- Key 5, DEAF or not, in flight since 0 with a lead, its recovery run at a count. -/
def flightOf (deaf : Bool) (recovery lead : Nat) : State := { flightState 0 with
  part := putKey 4 { keyRec 4 (flightState 0).part with deaf := deaf, missCount := 9 }
    (putSense 4 { senseRec 4 (flightState 0).part with recovery := recovery, lead := lead } (flightState 0).part) }
theorem witness_SenseScanFlight_clauses :
    ∀ s ∈ [flightOf true 0 45000, flightOf true 1 45000, flightOf true 1 44999, flightOf false 0 180002],
      timeStands s.part = false ∧ RingPlaced s.part.log ∧ s.part.senseLevels = some 0
        ∧ (∀ j : Key, j ≠ 4 → (senseRec j s.part).window = .closed)
        ∧ (senseRec 4 s.part).window = .opened ∧ (senseRec 4 s.part).launchTime = some 0
        ∧ (driveTo s.part.clocks.nextScan s.part).clocks.drive ≤ (senseRec 4 s.part).windowEnd := by
  unfold RingPlaced; decide +kernel
/-- A flight of 90,000 µs is in range of a lead from 45,000 to 180,001 µs and out of range on either side. -/
theorem test_deaf_key_recovers_on_its_second_flight :
    (senseRec 4 (partAfter (.senseScan 16) (flightOf true 0 45000))).recovery = 1
      ∧ (keyRec 4 (partAfter (.senseScan 16) (flightOf true 1 45000))).deaf = false
      ∧ (keyRec 4 (partAfter (.senseScan 16) (flightOf true 1 45000))).missCount = 0
      ∧ (senseRec 4 (partAfter (.senseScan 16) (flightOf true 1 44999))).recovery = 0
      ∧ counterOf .senseOutliers (partAfter (.senseScan 16) (flightOf false 0 180002)) = 1
      ∧ counterOf .senseOutliers (partAfter (.senseScan 16) (flightOf false 0 180001)) = 0 := by decide +kernel

theorem witness_SenseScanFlight :
    timeStands (flightState 0).part = false ∧ (flightState 0).part.senseLevels = some 0
      ∧ (∀ j : Key, j ≠ 4 → (senseRec j (flightState 0).part).window = .closed
        ∧ (16 : BitVec 88).getLsbD j.val = (0 : BitVec 88).getLsbD j.val)
      ∧ (0 : BitVec 88).getLsbD 4 = (flightState 0).part.strikes.voicing.fallingEdge
      ∧ (16 : BitVec 88).getLsbD 4 = !(flightState 0).part.strikes.voicing.fallingEdge
      ∧ (senseRec 4 (flightState 0).part).window = .opened ∧ (senseRec 4 (flightState 0).part).launchTime = some 0
      ∧ (keyRec 4 (flightState 0).part).deaf = false
      ∧ (driveTo (flightState 0).part.clocks.nextScan (flightState 0).part).clocks.drive
        ≤ (senseRec 4 (flightState 0).part).windowEnd
      ∧ 45000 / 2 ≤ 90000 - 0 ∧ 90000 - 0 ≤ 2 * 45000 := by decide +kernel
theorem test_flight_trim_is_clamped :
    (keyRec 4 (partAfter (.senseScan 16) (flightState 0))).trim = 5000
      ∧ (keyRec 4 (partAfter (.senseScan 16) (flightState 60000))).trim = -1875 := by decide +kernel

theorem witness_SenseScanManualStrike :
    RingPlaced scanState.part.log ∧ timeStands scanState.part = false ∧ scanState.part.senseLevels = some 0
      ∧ (∀ j : Key, (senseRec j scanState.part).window = .closed)
      ∧ (∀ j : Key, j ≠ 4 → (16 : BitVec 88).getLsbD j.val = (0 : BitVec 88).getLsbD j.val)
      ∧ (0 : BitVec 88).getLsbD 4 = scanState.part.strikes.voicing.fallingEdge
      ∧ (16 : BitVec 88).getLsbD 4 = !scanState.part.strikes.voicing.fallingEdge
      ∧ (keyRec 4 scanState.part).state ≠ .depressing := by unfold RingPlaced; decide +kernel

/-- Key 5 in DEPRESSING, its depress not heard yet or heard, with a depress duty trim. -/
def depressScan (heard : Bool) (trim : Int) : State := onPart fun p =>
  putSense 4 { senseRec 4 p with depressHeard := heard }
    (putKey 4 { KeyRec.reset with state := .depressing, current := some strike5, depressTrim := trim }
      { p with senseLevels := some 0 })
theorem witness_SenseScanManualStrike_depress :
    ∀ s ∈ [depressScan false 0, depressScan true 0, depressScan false (-42)],
      RingPlaced s.part.log ∧ timeStands s.part = false ∧ s.part.senseLevels = some 0
        ∧ (∀ j : Key, (senseRec j s.part).window = .closed) ∧ (keyRec 4 s.part).state = .depressing := by
  unfold RingPlaced; decide +kernel
theorem test_depress_edge_lowers_the_trim_once :
    (keyRec 4 (partAfter (.senseScan 16) (depressScan false 0))).depressTrim = -4
      ∧ (keyRec 4 (partAfter (.senseScan 16) (depressScan true 0))).depressTrim = 0
      ∧ (keyRec 4 (partAfter (.senseScan 16) (depressScan false (-42)))).depressTrim = -44 := by decide +kernel

/-- Key 5 one miss short of MissLimit. -/
def missState : State := onPart fun p => withLog (putKey 4 { KeyRec.reset with missCount := 3 } p)
theorem witness_MissJudged : RingPlaced missState.part.log ∧ missState.part.strikes.voicing.missLimit = 4 := by
  unfold RingPlaced; decide +kernel
theorem test_fourth_miss_makes_a_key_deaf :
    (keyRec 4 (judgeMiss 4 missState.part)).deaf = true ∧ (judgeMiss 4 missState.part).window.nstat = 0x040 := by
  decide +kernel

/-! ## Operations of a line -/

/-- Track 30 with this record. -/
def track30 (r : TrackRec) : Part := putTrack 30 r State.reset.part
/-- A roll line on which every pixel is clear, and one on which none is. -/
def clearLine : LineKind := .imaged (BitVec.allOnes 512)
def opaqueLine : LineKind := .imaged 0

/-- The premises of the statement on the opening side: two onset lines, and one. -/
theorem witness_OpeningSide :
    1 ≤ format0.onsetLines ∧ counterOf .spuriousRuns (track30 TrackRec.reset) ≤ 65535
      ∧ (track30 TrackRec.reset).strip.tracks[30].state = .closed
      ∧ lineSample format0 0 clearLine 30 TrackRec.reset = true ∧ lineSample format0 0 opaqueLine 30 TrackRec.reset = false
      ∧ format0.onsetLines ≠ 1 ∧ { format0 with onsetLines := 1 }.onsetLines = 1 := by decide +kernel
theorem witness_OpeningSide_run :
    (track30 { TrackRec.reset with state := .opening, run := 1 }).strip.tracks[30].state = .opening
      ∧ 1 + 1 < { format0 with onsetLines := 3 }.onsetLines ∧ format0.onsetLines ≤ 1 + 1 := by decide +kernel
theorem witness_ClosingSide :
    1 ≤ format0.offsetLines ∧ (track30 { TrackRec.reset with state := .opened }).strip.tracks[30].state = .opened
      ∧ format0.offsetLines ≠ 1 ∧ { format0 with offsetLines := 1 }.offsetLines = 1
      ∧ lineSample format0 0 clearLine 30 TrackRec.reset = true
      ∧ lineSample format0 0 opaqueLine 30 TrackRec.reset = false := by decide +kernel
theorem witness_ClosingSide_run :
    (track30 { TrackRec.reset with state := .closing, run := 2 }).strip.tracks[30].state = .closing
      ∧ 1 + 1 < format0.offsetLines ∧ format0.offsetLines ≤ 2 + 1 := by decide +kernel
theorem test_onset_is_dated_to_its_first_line :
    (stepTrack format0 9 true { TrackRec.reset with state := .opening, run := 1, firstLine := 8 }).event = some (true, 8) := by
  decide +kernel

/-- Paper from pixel 57 to pixel 456. -/
def paper : BitVec 512 := BitVec.ofNat 512 (2 ^ 57 - 1 + (2 ^ 512 - 2 ^ 457))
theorem witness_PaperEdgesMeasured : 1 ≤ 4 ∧ paperEdges 4 paper = some (57, 456) ∧ paperEdges 4 (BitVec.allOnes 512) = none := by
  decide +kernel

/-- The Leader Decoder after a first page. -/
def leader1 : Leader := { Leader.reset with seq := .reading, lines := 100, prevToggle := some false, pages := 1 }
theorem witness_LeaderPages :
    { Leader.reset with seq := .awaitingFirst }.fault = none ∧ (0x0800 : Word).getLsbD 11 = true
      ∧ (0x1001 : Word).getLsbD 11 = false ∧ leader1.fault = none ∧ leader1.seq = .reading
      ∧ leader1.prevToggle = some ((0x1001 : Word).getLsbD 11) ∧ leader1.prevToggle ≠ some ((0x0800 : Word).getLsbD 11) := by
  decide +kernel
theorem test_seventeenth_page_is_a_fault :
    (judgePage 0x0801 { leader1 with pages := 16 }).1.fault = some .tooMany
      ∧ (judgePage 0x0801 { leader1 with pages := 15 }).1.fault = none := by decide +kernel

/-- Pages of each kind after a first page, each the last of its leader or not. -/
theorem test_page_kinds :
    (judgePage 0x0805 leader1).2 = .lastPage
      ∧ (judgePage 0x0805 { leader1 with formatIdRead := some 6 }).1.fault = some .twoFormats
      ∧ (judgePage 0x380A leader1).1.tempoRead = some 20 ∧ (judgePage 0x280A leader1).1.fault = some .noFormatPage
      ∧ (judgePage 0x5FFF leader1).1.spoolRead = some (-16) ∧ (judgePage 0x7805 leader1).1.texts = [5]
      ∧ (judgePage 0x9805 leader1).1.unknowns = 1 := by decide +kernel

/-- Timebases on both sides of the bounds of a line's period. -/
def spooled (intervals : Nat) (step : Int) : Timebase :=
  { Timebase.reset with p16 := 65536 * 1000, intervals := intervals, spoolInterval := 256, spoolStep := step }
theorem witness_LinePeriodRule :
    (spooled 1 100).spoolInterval ≠ 0 ∧ linePeriod (spooled 1 100) = 65536100
      ∧ linePeriod (spooled 16777215 (-32767)) = 32768000 ∧ linePeriod (spooled 16777215 32767) = 131072000
      ∧ Timebase.reset.spoolInterval = 0 := by decide +kernel
/-- A format with a RISE of the bass half on track 2 and a FALL of both halves on track 3. -/
def rampFormat : Format := { format0 with map := [⟨2, .bass, .rise, 300⟩, ⟨3, .both, .fall, 100⟩] }
/-- Track 2 or 3 open, or both, or neither. -/
def rampPart (rise fall : Bool) : Part :=
  let p := if rise then putTrack 2 { TrackRec.reset with state := .opened } State.reset.part else State.reset.part
  if fall then putTrack 3 { TrackRec.reset with state := .closing } p else p
theorem witness_RampRule :
    openValues .rise .bass rampFormat (rampPart true false) = [300]
      ∧ openValues .fall .bass rampFormat (rampPart true false) = []
      ∧ openValues .rise .bass rampFormat (rampPart false true) = []
      ∧ openValues .fall .bass rampFormat (rampPart false true) = [100]
      ∧ openValues .rise .bass rampFormat (rampPart true true) ≠ []
      ∧ openValues .fall .bass rampFormat (rampPart true true) ≠ []
      ∧ openValues .rise .bass rampFormat (rampPart false false) = []
      ∧ openValues .fall .bass rampFormat (rampPart false false) = [] := by decide +kernel
theorem test_resting_ramp_stops_at_its_target :
    rampAfter 3276000 [] [] format0 10000000 = 3276800 ∧ rampAfter 3276800 [] [] format0 10000000 = 3276800 := by
  decide +kernel
theorem witness_CloseBoundsShade :
    format0.floor ≤ format0.midCap ∧ format0.midCap ≤ format0.ceiling ∧ format0.restLevel ≤ format0.rampMax
      ∧ State.reset.part.shading.bass.ramp ≤ format0.rampMax * 65536
      ∧ State.reset.part.shading.treble.ramp ≤ format0.rampMax * 65536
      ∧ State.reset.part.shading.history.length ≤ 8 := by decide +kernel
theorem witness_ComputedStrike : (classOf 4 State.reset.part).velFloor ≤ 512 := by decide +kernel

/-! ## The log -/

/-- A log with room for one record. -/
def nearlyFull : Part :=
  let p := withLog State.reset.part
  { p with log := { p.log with writeMark := 62, readMark := 0xFFFF } }
theorem witness_LogRecordStored :
    Memory.wf nearlyFull.mem = true ∧ RingPlaced nearlyFull.log ∧ nearlyFull.log.configured = true
      ∧ filterKeeps (releaseRecord 4 7) nearlyFull = true ∧ (releaseRecord 4 7).extension = none
      ∧ (nearlyFull.log.writeMark - nearlyFull.log.readMark).toNat < nearlyFull.log.slots := by
  unfold RingPlaced; decide +kernel
theorem test_release_record :
    wordAt (0x5200 + 16 * 62) (logRecord (releaseRecord 4 7) nearlyFull) = 3
      ∧ wordAt (0x5200 + 16 * 62 + 2) (logRecord (releaseRecord 4 7) nearlyFull) = 5
      ∧ wordAt 0x0E (logRecord (releaseRecord 4 7) nearlyFull) = 63 := by decide +kernel

end Sys2Proof.Tests
end

section
/-! The transitions of one track on one sample: an equation for each state and sample, what `runTrack` makes of a
transition, and the two sides of a track (R18, R19). -/

namespace Sys2Proof.Machine

/-! ## The transition, one equation for each state and sample (R18, R19) -/

section Transition

variable {f : Format} {n : Word32} {r : TrackRec}

theorem stepTrack_closed_true (h : r.state = .closed) : stepTrack f n true r =
    if f.onsetLines ≤ 1 then confirmStep { r with lastSample := true, firstLine := n } .opened true n
    else quietStep { r with lastSample := true, state := .opening, run := 1, firstLine := n } := by
  cases r; cases h; rfl

theorem stepTrack_closed_false (h : r.state = .closed) :
    stepTrack f n false r = quietStep { r with lastSample := false } := by
  cases r; cases h; rfl

theorem stepTrack_opening_true (h : r.state = .opening) : stepTrack f n true r =
    if f.onsetLines ≤ r.run + 1 then confirmStep { r with lastSample := true } .opened true r.firstLine
    else quietStep { r with lastSample := true, run := r.run + 1 } := by
  cases r; cases h; rfl

theorem stepTrack_opening_false (h : r.state = .opening) :
    stepTrack f n false r = spuriousStep { r with lastSample := false } .closed := by
  cases r; cases h; rfl

theorem stepTrack_opened_true (h : r.state = .opened) :
    stepTrack f n true r = quietStep { r with lastSample := true } := by
  cases r; cases h; rfl

theorem stepTrack_opened_false (h : r.state = .opened) : stepTrack f n false r =
    if f.offsetLines ≤ 1 then confirmStep { r with lastSample := false, firstLine := n } .closed false n
    else quietStep { r with lastSample := false, state := .closing, run := 1, firstLine := n } := by
  cases r; cases h; rfl

theorem stepTrack_closing_true (h : r.state = .closing) :
    stepTrack f n true r = spuriousStep { r with lastSample := true } .opened := by
  cases r; cases h; rfl

theorem stepTrack_closing_false (h : r.state = .closing) : stepTrack f n false r =
    if f.offsetLines ≤ r.run + 1 then confirmStep { r with lastSample := false } .closed false r.firstLine
    else quietStep { r with lastSample := false, run := r.run + 1 } := by
  cases r; cases h; rfl

/-- No transition touches the struck key. -/
theorem stepTrack_struckKey (sample : Bool) : (stepTrack f n sample r).record.struckKey = r.struckKey := by
  cases sample <;> cases h : r.state
  case true.closed => rw [stepTrack_closed_true h]; split <;> rfl
  case false.closed => rw [stepTrack_closed_false h]; rfl
  case true.opening => rw [stepTrack_opening_true h]; split <;> rfl
  case false.opening => rw [stepTrack_opening_false h]; rfl
  case true.opened => rw [stepTrack_opened_true h]; rfl
  case false.opened => rw [stepTrack_opened_false h]; split <;> rfl
  case true.closing => rw [stepTrack_closing_true h]; rfl
  case false.closing => rw [stepTrack_closing_false h]; split <;> rfl

end Transition

/-! ## What a line makes of a track's transition -/

/-- The transition that line `n` gives track `t` (R16, R18, R19). -/
def lineStep (f : Format) (n : Word32) (kind : LineKind) (p : Part) (t : Fin 104) : TrackStep :=
  stepTrack f n (lineSample f p.strip.drift kind t.val p.strip.tracks[t]) p.strip.tracks[t]

/-- The events that a transition of track `t` hands on: one, if it confirms one (R20). -/
def handedOn (t : Fin 104) (s : TrackStep) : List TrackEvent :=
  match s.event with
  | none => []
  | some (onset, dated) => [{ track := t.val, onset := onset, dated := dated }]

section Line

variable {f : Format} {n : Word32} {kind : LineKind} {p : Part} {events : List TrackEvent} {t : Fin 104}
  {r : TrackRec}

theorem lineStep_of_sample {sample : Bool}
    (h : lineSample f p.strip.drift kind t.val p.strip.tracks[t] = sample) :
    lineStep f n kind p t = stepTrack f n sample p.strip.tracks[t] := by
  rw [lineStep, h]

/-- The part after a track's transition: its record is replaced, and a spurious run is counted. -/
theorem runTrack_part : (runTrack f n kind (p, events) t).1 =
    if (lineStep f n kind p t).spurious then bump .spuriousRuns (putTrack t (lineStep f n kind p t).record p)
    else putTrack t (lineStep f n kind p t).record p := by
  unfold runTrack lineStep
  dsimp only
  split <;> rfl

theorem runTrack_events :
    (runTrack f n kind (p, events) t).2 = events ++ handedOn t (lineStep f n kind p t) := by
  generalize hs : lineStep f n kind p t = s
  unfold lineStep at hs
  unfold runTrack handedOn
  dsimp only
  rw [hs]
  cases s.event with
  | none => exact (List.append_nil events).symm
  | some e => rfl

theorem runTrack_strip : (runTrack f n kind (p, events) t).1.strip =
    { p.strip with tracks := p.strip.tracks.set t (lineStep f n kind p t).record } := by
  rw [runTrack_part]
  split
  · exact bump_strip _ _
  · rfl

/-- SpuriousRuns counts a spurious run and stays at 65,535 (R198). -/
theorem spuriousRuns_runTrack (hc : counterOf .spuriousRuns p ≤ 65535) :
    counterOf .spuriousRuns (runTrack f n kind (p, events) t).1 =
      min 65535 (counterOf .spuriousRuns p + (lineStep f n kind p t).spurious.toNat) := by
  rw [runTrack_part]
  cases (lineStep f n kind p t).spurious with
  | true => exact counterOf_bumpBy_same _ _ _
  | false => exact (min_eq_right hc).symm

/-- The outcome of a track's sample is what its transition says: the new record, the events it hands on, and the spurious
run it counts. -/
theorem trackOutcome_of_lineStep {s : TrackStep} (h : lineStep f n kind p t = s)
    (hc : counterOf .spuriousRuns p ≤ 65535) :
    trackOutcome f n kind p events t s.record.state (some s.record.run) (some s.record.firstLine) (handedOn t s)
      s.spurious.toNat := by
  subst h
  have hself : (runTrack f n kind (p, events) t).1.strip.tracks[t] = (lineStep f n kind p t).record := by
    rw [runTrack_strip]
    exact Vector.getElem_set_self _
  have hstruck : (lineStep f n kind p t).record.struckKey = p.strip.tracks[t].struckKey := stepTrack_struckKey _
  refine ⟨by rw [hself], ?_, ?_, by rw [hself, hstruck], runTrack_events, spuriousRuns_runTrack hc, ?_⟩
  · rintro x ⟨⟩; rw [hself]
  · rintro x ⟨⟩; rw [hself]
  · intro u hu
    rw [runTrack_strip]
    exact Vector.getElem_set_ne t.isLt u.isLt fun e => hu (Fin.ext e.symm)

/-- An outcome that gives the run count is one that leaves it open. -/
theorem trackOutcome_forget_run {state : TrackState} {run : Option Nat} {line : Option Word32} {event : List TrackEvent}
    {spurious : Nat} (h : trackOutcome f n kind p events t state run line event spurious) :
    trackOutcome f n kind p events t state none line event spurious := by
  obtain ⟨hstate, -, hrest⟩ := h
  exact ⟨hstate, fun _ e => (Option.some_ne_none _ e.symm).elim, hrest⟩

/-- An outcome that gives the first line is one that leaves it open. -/
theorem trackOutcome_forget_firstLine {state : TrackState} {run : Option Nat} {line : Option Word32}
    {event : List TrackEvent} {spurious : Nat} (h : trackOutcome f n kind p events t state run line event spurious) :
    trackOutcome f n kind p events t state run none event spurious := by
  obtain ⟨hstate, hrun, -, hrest⟩ := h
  exact ⟨hstate, hrun, fun _ e => (Option.some_ne_none _ e.symm).elim, hrest⟩

theorem trackOutcome_of_quiet (h : lineStep f n kind p t = quietStep r)
    (hc : counterOf .spuriousRuns p ≤ 65535) :
    trackOutcome f n kind p events t r.state (some r.run) (some r.firstLine) [] 0 :=
  trackOutcome_of_lineStep h hc

theorem trackOutcome_of_confirm {state : TrackState} {onset : Bool} {dated : Word32}
    (h : lineStep f n kind p t = confirmStep r state onset dated) (hc : counterOf .spuriousRuns p ≤ 65535) :
    trackOutcome f n kind p events t state (some 0) none [{ track := t.val, onset := onset, dated := dated }] 0 :=
  trackOutcome_forget_firstLine (trackOutcome_of_lineStep h hc)

theorem trackOutcome_of_spurious {state : TrackState}
    (h : lineStep f n kind p t = spuriousStep r state) (hc : counterOf .spuriousRuns p ≤ 65535) :
    trackOutcome f n kind p events t state (some 0) none [] 1 :=
  trackOutcome_forget_firstLine (trackOutcome_of_lineStep h hc)

end Line

/-! ## The two sides of a track -/

/-- Settles O52, by the equation of `stepTrack` for each state and sample of the opening side. -/
theorem openingSide : Obligations.OpeningSide := by
  intro f n kind p events t hlines hc
  refine ⟨?begins, ?atOnce, ?rests, ?runs, ?confirms, ?spurious⟩
  case begins =>
    intro hstate hsample hmany
    refine trackOutcome_of_quiet (r := { p.strip.tracks[t] with
      lastSample := true, state := .opening, run := 1, firstLine := n }) ?_ hc
    rw [lineStep_of_sample hsample, stepTrack_closed_true hstate, if_neg (by omega)]
  case atOnce =>
    intro hstate hsample hone
    refine trackOutcome_forget_run (trackOutcome_of_confirm (r := { p.strip.tracks[t] with
      lastSample := true, firstLine := n }) ?_ hc)
    rw [lineStep_of_sample hsample, stepTrack_closed_true hstate, if_pos (by omega)]
  case rests =>
    intro hstate hsample
    rw [← hstate]
    refine trackOutcome_of_quiet (r := { p.strip.tracks[t] with lastSample := false }) ?_ hc
    rw [lineStep_of_sample hsample, stepTrack_closed_false hstate]
  case runs =>
    intro hstate hsample hshort
    rw [← hstate]
    refine trackOutcome_of_quiet (r := { p.strip.tracks[t] with
      lastSample := true, run := p.strip.tracks[t].run + 1 }) ?_ hc
    rw [lineStep_of_sample hsample, stepTrack_opening_true hstate, if_neg (by omega)]
  case confirms =>
    intro hstate hsample hlong
    refine trackOutcome_of_confirm (r := { p.strip.tracks[t] with lastSample := true }) ?_ hc
    rw [lineStep_of_sample hsample, stepTrack_opening_true hstate, if_pos hlong]
  case spurious =>
    intro hstate hsample
    refine trackOutcome_of_spurious (r := { p.strip.tracks[t] with lastSample := false }) ?_ hc
    rw [lineStep_of_sample hsample, stepTrack_opening_false hstate]

/-- Settles O53, by the equation of `stepTrack` for each state and sample of the closing side. -/
theorem closingSide : Obligations.ClosingSide := by
  intro f n kind p events t hlines hc
  refine ⟨?begins, ?atOnce, ?rests, ?runs, ?confirms, ?spurious⟩
  case begins =>
    intro hstate hsample hmany
    refine trackOutcome_of_quiet (r := { p.strip.tracks[t] with
      lastSample := false, state := .closing, run := 1, firstLine := n }) ?_ hc
    rw [lineStep_of_sample hsample, stepTrack_opened_false hstate, if_neg (by omega)]
  case atOnce =>
    intro hstate hsample hone
    refine trackOutcome_forget_run (trackOutcome_of_confirm (r := { p.strip.tracks[t] with
      lastSample := false, firstLine := n }) ?_ hc)
    rw [lineStep_of_sample hsample, stepTrack_opened_false hstate, if_pos (by omega)]
  case rests =>
    intro hstate hsample
    rw [← hstate]
    refine trackOutcome_of_quiet (r := { p.strip.tracks[t] with lastSample := true }) ?_ hc
    rw [lineStep_of_sample hsample, stepTrack_opened_true hstate]
  case runs =>
    intro hstate hsample hshort
    rw [← hstate]
    refine trackOutcome_of_quiet (r := { p.strip.tracks[t] with
      lastSample := false, run := p.strip.tracks[t].run + 1 }) ?_ hc
    rw [lineStep_of_sample hsample, stepTrack_closing_false hstate, if_neg (by omega)]
  case confirms =>
    intro hstate hsample hlong
    refine trackOutcome_of_confirm (r := { p.strip.tracks[t] with lastSample := false }) ?_ hc
    rw [lineStep_of_sample hsample, stepTrack_closing_false hstate, if_pos hlong]
  case spurious =>
    intro hstate hsample
    refine trackOutcome_of_spurious (r := { p.strip.tracks[t] with lastSample := true }) ?_ hc
    rw [lineStep_of_sample hsample, stepTrack_closing_true hstate]

end Sys2Proof.Machine
end

section
/-! Stage 2 of the close of a line: the largest rate of a list, the entries of the Shading Map that are open for a half, an
equation of `rampAfter` for each case of the open entries, and the ramp rule (R66, R73, R74). -/

namespace Sys2Proof.Machine

/-! ## The largest of a list and the open entries (R66) -/

/-- Of a list that is not empty, `largest` is the library's maximum: its starting value 0 is not above the head. -/
theorem max?_eq_largest {vs : List Nat} (h : vs ≠ []) : vs.max? = some (largest vs) := by
  cases vs with
  | nil => exact absurd rfl h
  | cons x xs => rw [List.max?_cons', largest, List.foldl_cons, Nat.zero_max]

theorem largest_mem {vs : List Nat} (h : vs ≠ []) : largest vs ∈ vs :=
  List.max?_mem (max?_eq_largest h)

theorem le_largest {vs : List Nat} {x : Nat} (hx : x ∈ vs) : x ≤ largest vs :=
  (List.max?_le_iff (max?_eq_largest (List.ne_nil_of_mem hx))).1 le_rfl x hx

theorem mem_openValues {a : MapAction} {h : Half} {f : Format} {p : Part} {v : Nat} :
    v ∈ openValues a h f p
      ↔ ∃ e ∈ f.map, e.action = a ∧ actsOn e h = true ∧ trackOpen e.track p = true ∧ e.value = v := by
  simp only [openValues, List.mem_map, List.mem_filter, Bool.and_eq_true, decide_eq_true_eq, and_assoc]

/-! ## The ramp, one equation for each case of the open entries (R73, R74) -/

section Ramp

variable {ramp period : Nat} {rises falls : List Nat} {f : Format}

theorem rampStep_zero : rampStep 0 period = 0 := by simp [rampStep]

theorem rampAfter_rise (h : rises ≠ []) :
    rampAfter ramp rises [] f period = min (ramp + rampStep (largest rises) period) (f.rampMax * 65536) := by
  simp [rampAfter, h]

theorem rampAfter_fall (h : falls ≠ []) :
    rampAfter ramp [] falls f period = ramp - rampStep (largest falls) period := by
  simp [rampAfter, h]

theorem rampAfter_both (hr : rises ≠ []) (hf : falls ≠ []) : rampAfter ramp rises falls f period = ramp := by
  simp [rampAfter, hr, hf]

theorem rampAfter_below (h : ramp < f.restLevel * 65536) :
    rampAfter ramp [] [] f period = min (ramp + rampStep f.restRate period) (f.restLevel * 65536) :=
  if_pos h

theorem rampAfter_not_below (h : f.restLevel * 65536 ≤ ramp) :
    rampAfter ramp [] [] f period = max (ramp - rampStep f.restRate period) (f.restLevel * 65536) :=
  if_neg (Nat.not_lt.2 h)

/-- A ramp at its resting level stays there, whatever the resting rate. -/
theorem rampAfter_at_rest (h : ramp = f.restLevel * 65536) : rampAfter ramp [] [] f period = ramp := by
  rw [rampAfter_not_below h.ge, ← h]
  exact max_eq_right (Nat.sub_le ..)

/-- With a resting rate of 0 the ramp holds wherever it stands. -/
theorem rampAfter_of_restRate_zero (h : f.restRate = 0) : rampAfter ramp [] [] f period = ramp := by
  rcases Nat.lt_or_ge ramp (f.restLevel * 65536) with below | above
  · rw [rampAfter_below below, h, rampStep_zero]
    exact min_eq_left below.le
  · rw [rampAfter_not_below above, h, rampStep_zero]
    exact max_eq_left above

/-- The drift ends between where the ramp stood and the resting level, so it keeps the ramp within RampMax. -/
theorem rampAfter_drift_le (hlevel : f.restLevel ≤ f.rampMax) (hramp : ramp ≤ f.rampMax * 65536) :
    rampAfter ramp [] [] f period ≤ f.rampMax * 65536 := by
  have target : f.restLevel * 65536 ≤ f.rampMax * 65536 := Nat.mul_le_mul_right _ hlevel
  rcases Nat.lt_or_ge ramp (f.restLevel * 65536) with below | above
  · rw [rampAfter_below below]
    exact (min_le_right ..).trans target
  · rw [rampAfter_not_below above]
    exact max_le ((Nat.sub_le ..).trans hramp) target

end Ramp

/-! ## The ramp rule -/

theorem closeHalf_ramp (h : Half) (f : Format) (period : Nat) (events : List TrackEvent) (p : Part) (s : HalfShade) :
    (closeHalf h f period events p s).ramp
      = rampAfter s.ramp (openValues .rise h f p) (openValues .fall h f p) f period := rfl

/-- Settles O57, by the equation of `rampAfter` for each case of the open entries. -/
theorem rampRule : Obligations.RampRule := by
  intro h f period events p s
  dsimp only
  rw [closeHalf_ramp]
  refine ⟨fun _ _ => mem_openValues, ?rises, ?falls, ?holds, ?drifts⟩
  case rises =>
    intro hrise hfall
    refine ⟨_, largest_mem hrise, fun _ => le_largest, ?_⟩
    rw [hfall, rampAfter_rise hrise, rampStep]
  case falls =>
    intro hrise hfall
    refine ⟨_, largest_mem hfall, fun _ => le_largest, ?_⟩
    rw [hrise, rampAfter_fall hfall, rampStep]
  case holds => exact rampAfter_both
  case drifts =>
    intro hrise hfall
    rw [hrise, hfall]
    exact ⟨rampAfter_below, fun above => rampAfter_not_below above.le, rampAfter_at_rest, rampAfter_of_restRate_zero,
      rampAfter_drift_le⟩

end Sys2Proof.Machine
end

section
/-! What a step can do, and what every step keeps: the command at the front of the queue, an event of the part's own, or
1 µs of drive time; each keeps the part lawful, and all but POWER_ON keep drive time from going back. -/

namespace Sys2Proof.Machine

variable {d : Nat} {i : Instr} {s t : State}

/-! ## A command changes the part and leaves the queue -/

/-- Every command answers a next state with the queue it found. -/
theorem exec_goesOn (i : Instr) (s : State) : ∃ q, exec i s = .next { s with part := q } := by
  cases i <;> exact ⟨_, rfl⟩

/-- All that a step can do: it carries out one command with the rest of the queue, which is the front command or, with none
waiting, an event of the part's own; or 1 µs passes. -/
theorem step_cases (s : State) :
    (∃ i, (s.pending.head? = some i ∨ dueEvent s.part = some i) ∧ step s = exec i { s with pending := s.pending.tail })
      ∨ step s = .next { pending := s.pending.tail, part := passTime 1 s.part } := by
  obtain ⟨pending, p⟩ := s
  cases pending with
  | cons i rest => exact .inl ⟨i, .inl rfl, rfl⟩
  | nil =>
    cases h : dueEvent p with
    | none => exact .inr (by simp only [step, idle, h, List.tail_nil])
    | some i => exact .inl ⟨i, .inr rfl, by simp only [step, idle, h, List.tail_nil]⟩

/-! ## The part's own events are never a reset -/

theorem eventIf_eq_some {c : Bool} {j : Instr} (h : eventIf c j = some i) : i = j := by
  unfold eventIf at h
  split at h
  · exact (Option.some.inj h).symm
  · cases h

theorem dueKeyEvent_ne_powerOn {p : Part} {k : Key} (h : dueKeyEvent p k = some i) : i ≠ .powerOn := by
  unfold dueKeyEvent at h
  dsimp only at h
  split at h
  · cases h
  split at h
  · cases h
  split at h <;> cases h <;> exact Instr.noConfusion

theorem dueTravel_ne_powerOn {p : Part} {x : Pedal} (h : dueTravel p x = some i) : i ≠ .powerOn := by
  unfold dueTravel at h
  dsimp only at h
  split at h
  · cases h
  split at h <;> cases h
  exact Instr.noConfusion

theorem duePedalSample_ne_powerOn {p : Part} {x : Pedal} (h : duePedalSample p x = some i) : i ≠ .powerOn := by
  unfold duePedalSample at h
  split at h <;> cases h
  exact Instr.noConfusion

/-- No event that the part takes of its own accord is POWER_ON. -/
theorem dueEvent_ne_powerOn {p : Part} (h : dueEvent p = some i) : i ≠ .powerOn := by
  obtain ⟨e, he, hi⟩ := List.exists_of_findSome?_eq_some h
  cases hi
  simp only [ownEvents, List.mem_cons, List.not_mem_nil, or_false] at he
  rcases he with h | h | h | h | h | h | h | h | h | h | h
  case inr.inl =>
    obtain ⟨k, -, hk⟩ := List.exists_of_findSome?_eq_some h.symm
    exact dueKeyEvent_ne_powerOn hk
  case inr.inr.inl =>
    obtain ⟨x, -, hx⟩ := List.exists_of_findSome?_eq_some h.symm
    exact dueTravel_ne_powerOn hx
  case inr.inr.inr.inr.inr.inr.inl =>
    obtain ⟨x, -, hx⟩ := List.exists_of_findSome?_eq_some h.symm
    exact duePedalSample_ne_powerOn hx
  all_goals
    rw [eventIf_eq_some h.symm]
    exact Instr.noConfusion

/-! ## What every command keeps -/

theorem kept_withPart {f : Part → Part} (h : Kept d (f s.part)) (e : withPart f s = .next t) : Kept d t.part := by
  cases e
  exact h

/-- Every command but POWER_ON keeps the part lawful and drive time at or after `d`. -/
theorem kept_exec (hi : i ≠ .powerOn) (h : Kept d s.part) (e : exec i s = .next t) : Kept d t.part := by
  cases i with
  | powerOn => exact absurd rfl hi
  | restartEngine => exact kept_withPart (kept_atPort _ (fun _ => kept_cmdWrite _) h) e
  | fullReset => exact kept_withPart (kept_atPort _ (fun _ => kept_cmdWrite _) h) e
  | clearCounters => exact kept_withPart (kept_atPort _ (fun _ => kept_cmdWrite _) h) e
  | snapshot => exact kept_withPart (kept_atPort _ (fun _ => kept_cmdWrite _) h) e
  | cmdReject code => exact kept_withPart (kept_atPort _ (fun _ => kept_cmdWrite _) h) e
  | statusRead => exact kept_withPart (kept_readAtPort _ (fun _ => kept_readStatus) h) e
  | nstatRead => exact kept_withPart (kept_readAtPort _ (fun _ => kept_readNstat) h) e
  | nstatWrite v => exact kept_withPart (kept_atPort _ (fun _ => kept_clearNotices _) h) e
  | nmaskWrite v => exact kept_withPart (kept_atPort _ (fun _ => kept_writeNmask _) h) e
  | ncfgWrite v => exact kept_withPart (kept_atPort _ (fun _ => kept_writeNcfg _) h) e
  | registerWriteIgnored r v => exact kept_withPart (kept_atPort _ (fun _ => kept_registerWrite _ _) h) e
  | fillMarkWrite v => exact kept_withPart (kept_atPort _ (fun _ => kept_writeFillMark _) h) e
  | sweep => exact kept_withPart (kept_inTime _ (fun _ => kept_reachSweep) h) e
  | lookaheadInstant => exact kept_withPart (kept_inTime _ (fun _ => kept_reachLookahead) h) e
  | guardInstant => exact kept_withPart (kept_inTime _ (fun _ => kept_reachGuard) h) e
  | wheelSlot => exact kept_withPart (kept_inTime _ (fun _ => kept_turnWheel) h) e
  | pulseEnd n =>
    exact kept_withPart (kept_inTime _ (fun _ => kept_forKeyNumber _ _ fun k _ =>
      kept_timerEvent _ _ (fun k _ => kept_pulseRunsOut k) k) h) e
  | reliefDelayEnd n =>
    exact kept_withPart (kept_inTime _ (fun _ => kept_forKeyNumber _ _ fun k _ =>
      kept_timerEvent _ _ (fun k _ => kept_reliefDelayRunsOut k) k) h) e
  | depressEnd n =>
    exact kept_withPart (kept_inTime _ (fun _ => kept_forKeyNumber _ _ fun k _ =>
      kept_timerEvent _ _ (fun k _ => kept_depressRunsOut k) k) h) e
  | gapEnd n =>
    exact kept_withPart (kept_inTime _ (fun _ => kept_forKeyNumber _ _ fun k _ =>
      kept_timerEvent _ _ (fun k _ => kept_enterIdle k) k) h) e
  | heatUpdate => exact kept_withPart (kept_inTime _ (fun _ => kept_reachHeat) h) e
  | railSample x => exact kept_withPart (kept_inTime _ (fun _ => kept_reachRail x) h) e
  | pedalPositionSample y x => exact kept_withPart (kept_inTime _ (fun _ => kept_reachPedal y x) h) e
  | travelTimeout y => exact kept_withPart (kept_inTime _ (fun _ => kept_reachTravelEnd y) h) e
  | senseScan l => exact kept_withPart (kept_inTime _ (fun _ => kept_reachScan l) h) e
  | hostMemoryWrite a v => exact kept_withPart (kept_atPort _ (fun _ => kept_writeMemory _ _) h) e
  | busyClear => exact kept_withPart (kept_clearBusy h) e
  | resetAsserted => exact kept_withPart (kept_assertReset h) e

/-- The part right after reset is lawful, and no drive time has passed. -/
theorem kept_reset : Kept 0 Part.reset :=
  ⟨⟨by decide, fun h => absurd rfl h, rfl, fun k => by rw [keyRec_reset]; exact keyFigures_reset,
    (by decide : (-12 : Int) ≤ 0), (by decide : (0 : Int) ≤ 12), Nat.zero_le _, claimsHeld_reset.symm,
    fun h => Bool.noConfusion (h : false = true), inRange_zero LogWriter.reset, (by decide : 128 ≤ 255 ∧ 128 ≤ 255),
    (by decide : 800 ≤ 4000)⟩, Nat.zero_le _⟩

theorem kept_powerUp (p : Part) : Kept 0 (powerUp p) := kept_setBusy .powerOn (kept_reset.same rfl)

/-- Every step but that of POWER_ON keeps the part lawful and drive time at or after `d`. -/
theorem kept_step (hp : s.pending.head? ≠ some .powerOn) (h : Kept d s.part) (e : step s = .next t) :
    Kept d t.part := by
  rcases step_cases s with ⟨i, hi, hs⟩ | hs
  · rw [hs] at e
    refine kept_exec (s := { pending := s.pending.tail, part := s.part }) ?_ h e
    rcases hi with hi | hi
    · exact fun he => hp (he ▸ hi)
    · exact dueEvent_ne_powerOn hi
  · rw [hs] at e
    cases e
    exact kept_passTime 1 h

/-! ## The statements -/

/-- Settles O1: the step on a queue with a front command is that command's meaning. -/
theorem stepRunsFrontCommand : Obligations.StepRunsFrontCommand := fun _ _ _ => rfl

/-- Settles O2, by the cases of a step: a command keeps the queue it is given. -/
theorem everyStepGoesOn : Obligations.EveryStepGoesOn := by
  intro s
  rcases step_cases s with ⟨i, -, hs⟩ | hs
  · obtain ⟨q, hq⟩ := exec_goesOn i { s with pending := s.pending.tail }
    exact ⟨_, hs.trans hq, rfl⟩
  · exact ⟨_, hs, rfl⟩

/-- Settles O3. -/
theorem resetIsLawful : Obligations.ResetIsLawful := kept_reset.lawful

/-- Settles O5: POWER_ON gives the reset values, and every other step keeps what `Kept` holds. -/
theorem stepKeepsLawful : Obligations.StepKeepsLawful := by
  intro s t h e
  by_cases hp : s.pending.head? = some .powerOn
  · obtain ⟨pending, p⟩ := s
    obtain ⟨rest, rfl⟩ := List.head?_eq_some_iff.1 hp
    cases e
    exact (kept_powerUp p).lawful
  · exact (kept_step hp ⟨h, le_rfl⟩ e).lawful

/-- Settles O6: every step but POWER_ON keeps drive time at or after where it stood. -/
theorem driveTimeNeverGoesBack : Obligations.DriveTimeNeverGoesBack :=
  fun _ _ h hp e => (kept_step hp ⟨h, le_rfl⟩ e).since

end Sys2Proof.Machine
end

section
/-! The port and the resets: who is served, what a write to CMD starts, what the reads and writes of the registers do, and the
values after a reset (R179, R185 to R190, R198). -/

namespace Sys2Proof.Machine

variable {p : Part} {s : State}

/-! ## Who is served -/

theorem atPort_served (h : portServed p = true) (f : Part → Part) : atPort f p = f p := if_pos h
theorem readAtPort_served (h : portServed p = true) (f : Part → Part) : readAtPort f p = f p := if_pos h

theorem portServed_of_low (h : p.pins.resetLow = true) : portServed p = false := by simp [portServed, h]

theorem atPort_unserved (h : portServed p = false) (f : Part → Part) : atPort f p = p :=
  if_neg (by rw [h]; exact Bool.false_ne_true)

theorem readAtPort_unserved (h : portServed p = false) (f : Part → Part) : readAtPort f p = putReadData 0 p :=
  if_neg (by rw [h]; exact Bool.false_ne_true)

/-- A command that is one access at the port does that access where the port is served. -/
theorem withPart_atPort (h : portServed s.part = true) (f : Part → Part) :
    withPart (atPort f) s = .next { s with part := f s.part } := by rw [withPart, atPort_served h]

theorem withPart_atPort_unserved (h : portServed s.part = false) (f : Part → Part) :
    withPart (atPort f) s = .next s := by rw [withPart, atPort_unserved h]

/-! ## CMD, one equation for each word (R186) -/

theorem cmdWrite_busy (h : p.window.busy ≠ none) (code : Word) : cmdWrite code p = rejectCommand p :=
  if_pos (Option.isSome_iff_ne_none.2 h)

theorem not_isSome_of_idle (h : p.window.busy = none) : ¬ p.window.busy.isSome = true := by simp [h]

theorem cmdWrite_restart (h : p.window.busy = none) :
    cmdWrite Config.cmdRestart p = setBusy .restart (restart p) := if_neg (not_isSome_of_idle h)

theorem cmdWrite_fullReset (h : p.window.busy = none) :
    cmdWrite Config.cmdFullReset p = setBusy .fullReset (fullReset p) := if_neg (not_isSome_of_idle h)

theorem cmdWrite_clearCounters (h : p.window.busy = none) :
    cmdWrite Config.cmdClearCounters p = setBusy .clearCounters (clearCounters p) := if_neg (not_isSome_of_idle h)

theorem cmdWrite_snapshot (h : p.window.busy = none) :
    cmdWrite Config.cmdSnapshot p = setBusy .snapshot (takeSnapshot p) := if_neg (not_isSome_of_idle h)

/-- A word that is none of the four codes is rejected. -/
theorem cmdWrite_other {code : Word} (h1 : code ≠ 0x7E01) (h2 : code ≠ 0x7E0F) (h3 : code ≠ 0x7E20)
    (h4 : code ≠ 0x7E40) : cmdWrite code p = rejectCommand p := by
  simp only [cmdWrite, Config.cmdRestart, Config.cmdFullReset, Config.cmdClearCounters, Config.cmdSnapshot, h1, h2, h3,
    h4, if_false, ite_self]

/-! ## Bytes and words of memory (R180) -/

theorem read_eq_low_readWord (m : Memory) (a : Nat) : Memory.read m a = (Memory.readWord m a).extractLsb' 0 8 :=
  (BitVec.extractLsb'_append_eq_right).symm

theorem read_succ_eq_high_readWord (m : Memory) (a : Nat) :
    Memory.read m (a + 1) = (Memory.readWord m a).extractLsb' 8 8 :=
  (BitVec.extractLsb'_append_eq_left).symm

/-- A block of words all 0 reads 0 byte by byte. -/
theorem read_writeWords_zero (m : Memory) (hm : Memory.wf m = true) (off n a : Nat) (h : off ≤ a) (h' : a < off + 2 * n) :
    Memory.read (Memory.writeWords m off (List.replicate n 0)) a = 0 := by
  have word (i : Nat) (hi : i < n) : Memory.readWord (Memory.writeWords m off (List.replicate n 0)) (off + 2 * i) = 0 := by
    rw [Memory.readWord_writeWords_same _ _ _ _ hm (by simpa using hi), List.getElem_replicate]
  obtain ⟨i, hi | hi⟩ : ∃ i, a = off + 2 * i ∨ a = off + 2 * i + 1 := ⟨(a - off) / 2, by omega⟩
  · rw [hi, read_eq_low_readWord, word i (by omega)]; rfl
  · rw [hi, read_succ_eq_high_readWord, word i (by omega)]; rfl

/-- Writing a word below an address that is read, or past it, leaves the byte. -/
theorem read_putWord_other {off a : Nat} (h : ¬ wordBytes off a) (v : Word) (p : Part) :
    Memory.read (putWord off v p).mem a = Memory.read p.mem a :=
  Memory.read_writeWord_other _ _ _ _ (fun e => h (.inl e)) fun e => h (.inr e)

theorem wordAt_putWord_same (off : Nat) (v : Word) (h : Memory.wf p.mem = true) : wordAt off (putWord off v p) = v :=
  Memory.readWord_writeWord_same _ _ _ h

/-! ## Values after a reset -/

/-- The memory after power-on holds the identity words and nothing else (R187). -/
theorem read_memoryReset (a : Nat) : Memory.read memoryReset a
    = if a = 0 then 0x80 else if a = 1 then 0x08 else if a = 2 then 0x03 else if a = 3 then 0x01 else 0 := by
  simp only [memoryReset, Memory.read, Memory.unlisted, eq_comm]

/-- The Control Page cleared and given the identity words; memory outside it as it was (R187). -/
theorem read_fullReset (hm : Memory.wf p.mem = true) (a : Nat) : Memory.read (fullReset p).mem a
    = if a < 0x400 then Memory.read memoryReset a else Memory.read p.mem a := by
  have hc := Memory.wf_clearControlPage p.mem hm
  have hlow := Memory.wf_writeWord _ 0 Config.partCode hc
  have w0 : Memory.readWord (fullReset p).mem 0 = Config.partCode :=
    (Memory.readWord_writeWord_other _ _ _ _ (by omega)).trans (Memory.readWord_writeWord_same _ _ _ hc)
  have w2 : Memory.readWord (fullReset p).mem 2 = Config.revision := Memory.readWord_writeWord_same _ _ _ hlow
  by_cases h : a < 4
  · rw [if_pos (by omega)]
    obtain rfl | rfl | rfl | rfl : a = 0 ∨ a = 0 + 1 ∨ a = 2 ∨ a = 2 + 1 := by omega
    · rw [read_eq_low_readWord, w0]; rfl
    · rw [read_succ_eq_high_readWord, w0]; rfl
    · rw [read_eq_low_readWord, w2]; rfl
    · rw [read_succ_eq_high_readWord, w2]; rfl
  · have rest : Memory.read (fullReset p).mem a = Memory.read (Memory.clearControlPage p.mem) a :=
      (Memory.read_writeWord_other _ _ _ _ (by omega) (by omega)).trans
        (Memory.read_writeWord_other _ _ _ _ (by omega) (by omega))
    have zero : Memory.read memoryReset a = Memory.unlisted := by
      rw [read_memoryReset, if_neg (by omega), if_neg (by omega), if_neg (by omega), if_neg (by omega)]; rfl
    rw [rest, Memory.read_clearControlPage, zero]
    rfl

/-- Settles O4: the reset values are those of the records' own reset. -/
theorem resetValues : Obligations.ResetValues := by
  refine ⟨read_memoryReset, rfl, rfl, rfl, rfl, rfl, fun t => ?tracks, fun i => Vector.getElem_replicate _, rfl, rfl, rfl,
    rfl, rfl, rfl, rfl, rfl, rfl, rfl, rfl, rfl, rfl, rfl, rfl, rfl, rfl, rfl, ?guard, rfl, rfl, rfl, rfl, rfl, rfl,
    fun k => ⟨Vector.getElem_replicate _, Vector.getElem_replicate _⟩, rfl, rfl, rfl, ⟨rfl, rfl, rfl⟩, rfl, rfl, rfl,
    fun d => Vector.getElem_replicate _, rfl, rfl, rfl, rfl, rfl, rfl, rfl, rfl, rfl, rfl, rfl, rfl, rfl, rfl, rfl,
    fun c => Vector.getElem_replicate _, rfl, rfl, rfl⟩
  case tracks =>
    have e : State.reset.part.strip.tracks[t] = TrackRec.reset := Vector.getElem_replicate _
    rw [e]
    exact ⟨rfl, rfl, rfl, rfl⟩
  case guard => decide +kernel

/-- Settles O7: POWER_ON is the reset with BUSY set and the input pins kept. -/
theorem powerOnEffect : Obligations.PowerOnEffect := fun _ => ⟨_, rfl, rfl, rfl⟩

/-- Settles O8: the bytes by `read_fullReset`, the rest as `fullReset` writes it. -/
theorem fullResetEffect : Obligations.FullResetEffect := by
  intro s hm hs hb
  refine ⟨_, withPart_atPort hs _, rfl, ?_⟩
  rw [cmdWrite_fullReset hb]
  exact ⟨read_fullReset hm, rfl⟩

/-! ## The CMD operations -/

theorem clearCounters_eq (p : Part) : clearCounters p = { p with
    mem := Memory.writeWords p.mem 0x200 (List.replicate 28 0)
    log := { p.log with counters := Vector.replicate 26 0 } } := by
  unfold clearCounters putWords
  with_reducible rfl

/-- Every byte of the Counter Block reads 0 after it is cleared, and no other byte changes (R198). -/
theorem read_clearedBlock {m : Memory} (hm : Memory.wf m = true) (a : Nat) :
    Memory.read (Memory.writeWords m 0x200 (List.replicate 28 0)) a
      = if 0x200 ≤ a ∧ a < 0x238 then 0 else Memory.read m a := by
  split
  · rw [read_writeWords_zero m hm 0x200 28 a (by omega) (by omega)]
  · rw [Memory.read_writeWords_other _ _ _ _ (by rw [List.length_replicate]; omega)]

/-- Settles O11: a block of 28 words 0 is written, and the counters are replaced. -/
theorem clearCountersEffect : Obligations.ClearCountersEffect := by
  intro s hm hs hb
  refine ⟨_, withPart_atPort hs _, rfl, ?_⟩
  have bytes := read_clearedBlock hm
  rw [cmdWrite_clearCounters hb, clearCounters_eq]
  generalize Memory.writeWords s.part.mem 0x200 (List.replicate 28 0) = m at bytes
  exact ⟨bytes, fun c => Vector.getElem_replicate _, rfl⟩

theorem lowWord_dueInt (d : BitVec 48) : lowWord (dueInt d) = d.extractLsb' 16 16 := by
  ext i hi
  simp only [lowWord, dueInt, BitVec.getElem_extractLsb', BitVec.getLsbD_extractLsb']
  simp [show i < 32 by omega]

theorem highWord_dueInt (d : BitVec 48) : highWord (dueInt d) = d.extractLsb' 32 16 := by
  ext i hi
  simp only [highWord, dueInt, BitVec.getElem_extractLsb', BitVec.getLsbD_extractLsb']
  simp [show 16 + i < 32 by omega, ← Nat.add_assoc]

/-- The memory that holds a Snapshot: the items, then the count (R190). -/
def snapshotMemory (p : Part) : Memory :=
  Memory.writeWord (Memory.writeWords p.mem (Config.snapshotOffset + 2) (snapshotWords p)) Config.snapshotOffset
    (p.window.snapshotCount + 1)

theorem takeSnapshot_eq (p : Part) : takeSnapshot p = { p with
    mem := snapshotMemory p
    window := { p.window with snapshotCount := p.window.snapshotCount + 1 } } := by
  unfold takeSnapshot putWord putWords snapshotMemory
  with_reducible rfl

/-- The words of the Snapshot, in table order. -/
theorem readWord_snapshotMemory (hm : Memory.wf p.mem = true) :
    Memory.readWord (snapshotMemory p) Config.snapshotOffset = p.window.snapshotCount + 1 ∧
      ∀ i (hi : i < (snapshotWords p).length),
        Memory.readWord (snapshotMemory p) (Config.snapshotOffset + 2 + 2 * i) = (snapshotWords p)[i] := by
  unfold snapshotMemory
  refine ⟨Memory.readWord_writeWord_same _ _ _ (Memory.wf_writeWords _ _ _ hm), fun i hi => ?_⟩
  rw [Memory.readWord_writeWord_other _ _ _ _ (by omega), Memory.readWord_writeWords_same _ _ _ i hm hi]

theorem read_snapshotMemory_other {a : Nat} (h : a < 0x040 ∨ 0x064 ≤ a) :
    Memory.read (snapshotMemory p) a = Memory.read p.mem a := by
  have items : (snapshotWords p).length = 17 := rfl
  have offset : Config.snapshotOffset = 0x040 := rfl
  rw [snapshotMemory, Memory.read_writeWord_other _ _ _ _ (by omega) (by omega),
    Memory.read_writeWords_other _ _ _ _ (by omega)]

/-- Settles O12: the words in table order by `readWord_snapshotMemory`; no byte outside them is written. -/
theorem snapshotEffect : Obligations.SnapshotEffect := by
  intro s hm hs hb
  refine ⟨_, withPart_atPort hs _, rfl, ?_⟩
  obtain ⟨count, item⟩ := readWord_snapshotMemory hm
  have other (a : Nat) := read_snapshotMemory_other (p := s.part) (a := a)
  rw [cmdWrite_snapshot hb, takeSnapshot_eq]
  generalize snapshotMemory s.part = m at count item other
  replace item (i : Nat) (hi : i < 17) : Memory.readWord m (0x042 + 2 * i) = (snapshotWords s.part)[i]'hi := item i hi
  refine ⟨rfl, other, count, item 0 (by decide), item 1 (by decide), item 2 (by decide), item 3 (by decide),
    item 4 (by decide), ?low, ?high, item 7 (by decide), item 8 (by decide), item 9 (by decide), item 10 (by decide),
    item 11 (by decide), item 12 (by decide), item 13 (by decide), item 14 (by decide), item 15 (by decide),
    item 16 (by decide)⟩
  case low => exact (item 5 (by decide)).trans (lowWord_dueInt _)
  case high => exact (item 6 (by decide)).trans (highWord_dueInt _)

/-- Settles O13: each row is the same CMD write, which BUSY or an unknown word makes a rejection. -/
theorem cmdRejectEffect : Obligations.CmdRejectEffect := by
  intro s hs
  refine ⟨fun code h => ?_, fun c hc hb => ?_⟩
  · refine (withPart_atPort hs _).trans ?_
    rcases h with hb | ⟨h1, h2, h3, h4⟩
    · rw [cmdWrite_busy hb]; rfl
    · rw [cmdWrite_other h1 h2 h3 h4]; rfl
  · have reject (code : Word) : withPart (atPort (cmdWrite code)) s
        = .next { s with part := { s.part with window := { s.part.window with cmdReject := true } } } := by
      rw [withPart_atPort hs, cmdWrite_busy hb]; rfl
    rcases hc with rfl | rfl | rfl | rfl <;> exact reject _

/-- Settles O15: an access at a port that is not served is lost, and a read gives 0. -/
theorem portUnserved : Obligations.PortUnserved := by
  refine ⟨fun _ => rfl, fun s h => ⟨fun v r a c hc => ?_, fun c hc => ?_⟩⟩
  · have lost := withPart_atPort_unserved (s := s) (portServed_of_low h)
    simp only [List.mem_cons, List.not_mem_nil, or_false] at hc
    rcases hc with rfl | rfl | rfl | rfl | rfl | rfl | rfl | rfl | rfl | rfl | rfl <;> exact lost _
  · have zero (f : Part → Part) : withPart (readAtPort f) s
        = .next { s with part := { s.part with pins := { s.part.pins with readData := 0 } } } := by
      rw [withPart, readAtPort_unserved (portServed_of_low h)]; rfl
    simp only [List.mem_cons, List.not_mem_nil, or_false] at hc
    rcases hc with rfl | rfl <;> exact zero _

end Sys2Proof.Machine
end

section
/-! What reports change, as a calculus: `Reports` of nothing, of one report after another, and of each reporting operation;
with it the shape of the part after the operation (R188, R192 to R194, R198). -/

namespace Sys2Proof.Machine

variable {p p' q q' r : Part} {own own' : Nat → Prop} {bits bits' : BitVec 9} {counted counted' : List Counter}

/-! ## The calculus -/

/-- What `Reports` reads of a part. -/
def front (p : Part) := (p.mem, p.window, p.log)

/-- `Reports` only reads memory, the Window Unit and the Log Writer. -/
theorem Reports.congr (h : Reports p q own bits counted) (hp : front p' = front p) (hq : front q' = front q) :
    Reports p' q' own bits counted := by
  simp only [front, Prod.mk.injEq] at hp hq
  obtain ⟨pm, pw, pl⟩ := hp
  obtain ⟨qm, qw, ql⟩ := hq
  obtain ⟨memory, notices, nstatKept, pendingKept, window, log, counters⟩ := h
  unfold counterOf at counters
  constructor <;> simp only [counterOf, pm, pw, pl, qm, qw, ql] <;> assumption

/-- Where nothing that `Reports` reads differs there is nothing reported. -/
theorem Reports.of_same (h : front q = front p) : Reports p q (fun _ => False) 0 [] := by
  simp only [front, Prod.mk.injEq] at h
  obtain ⟨hm, hw, hl⟩ := h
  refine ⟨fun a _ _ => by rw [hm], ⟨0, .inl rfl, by simp [hw]⟩, by simp [hw], by simp [hw], by rw [hw], by simp [hl],
    fun c _ _ => by simp [counterOf, hl]⟩

theorem Reports.refl (p : Part) : Reports p p (fun _ => False) 0 [] := .of_same rfl

theorem logByte_congr {l l' : LogWriter} (hc : l'.configured = l.configured) (hb : l'.base = l.base)
    (hs : l'.slots = l.slots) (a : Nat) : logByte l' a ↔ logByte l a := by simp only [logByte, hc, hb, hs]

/-- Reports made one after the other. -/
theorem Reports.trans (h : Reports p q own bits counted) (h' : Reports q r own' bits' counted') :
    Reports p r (fun a => own a ∨ own' a) (bits ||| bits') (counted ++ counted') := by
  obtain ⟨logBits, hlog, hn⟩ := h.notices
  obtain ⟨logBits', hlog', hn'⟩ := h'.notices
  obtain ⟨hc, hb, hs, hf, hy, hm⟩ := h.log
  obtain ⟨hc', hb', hs', hf', hy', hm'⟩ := h'.log
  refine ⟨fun a ha hl => ?_, ⟨logBits ||| logBits', ?_, ?_⟩, ?_, ?_, ?_, ?_, fun c hx hd => ?_⟩
  · simp only [not_or] at ha
    rw [h'.memory a ha.2 (by rwa [logByte_congr hc hb hs]), h.memory a ha.1 hl]
  · rcases hlog with rfl | rfl <;> rcases hlog' with rfl | rfl <;> simp
  · rw [hn', hn]; ac_rfl
  · rw [← h.nstatKept, BitVec.and_assoc, h'.nstatKept]
  · rw [← h.pendingKept, BitVec.and_assoc, h'.pendingKept]
  · rw [← h.window, ← h'.window]
  · exact ⟨hc'.trans hc, hb'.trans hb, hs'.trans hs, hf'.trans hf, hy'.trans hy, hm'.trans hm⟩
  · simp only [List.mem_append, not_or] at hx
    rw [h'.counters c hx.2 hd, h.counters c hx.1 hd]

/-- A report may be said to own more bytes and count more, and its notices may be written in another way. -/
theorem Reports.weaken (h : Reports p q own bits counted) (ho : ∀ a, own a → own' a) (hb : bits = bits')
    (hc : ∀ c ∈ counted, c ∈ counted') : Reports p q own' bits' counted' := by
  subst hb
  exact ⟨fun a ha => h.memory a fun e => ha (ho a e), h.notices, h.nstatKept, h.pendingKept, h.window, h.log,
    fun c hx => h.counters c fun e => hx (hc c e)⟩

/-- A plain log record after other reports adds nothing of its own. -/
theorem Reports.plain (h : Reports p q own bits counted) (h' : Reports q r (fun _ => False) 0 []) :
    Reports p r own bits counted :=
  (h.trans h').weaken (fun _ ha => ha.resolve_right id) BitVec.or_zero (by simp)

/-- Reports leave the Log Ring where it lies. -/
theorem Reports.ringPlaced (h : Reports p q own bits counted) (hr : RingPlaced p.log) : RingPlaced q.log := by
  obtain ⟨hc, hb, hs, -⟩ := h.log
  unfold RingPlaced
  rw [hc, hb, hs]
  exact hr

/-- A byte below the Counter Block that is no byte of the Log Write Mark is no log byte. -/
theorem not_logByte_of_low {l : LogWriter} (hr : RingPlaced l) {a : Nat} (h : a < 0x200)
    (h1 : a ≠ 0x00E) (h2 : a ≠ 0x00F) : ¬ logByte l a := by
  have free : Config.freeAreaOffset = 0x5200 := rfl
  have mark : Config.logWriteMarkOffset = 0x00E := rfl
  have dropped : Counter.logDropped.offset = 0x226 := by decide
  rintro (⟨hc, hb, -⟩ | h | h | h | h)
  · have := (hr hc).1; omega
  all_goals omega

/-- A word that reports neither own nor may write reads as before. -/
theorem Reports.wordAt_eq (h : Reports p q own bits counted) {off : Nat} (h1 : ¬ own off) (h2 : ¬ own (off + 1))
    (h3 : ¬ logByte p.log off) (h4 : ¬ logByte p.log (off + 1)) : wordAt off q = wordAt off p := by
  rw [wordAt, wordAt, Memory.readWord, Memory.readWord, h.memory _ h1 h3, h.memory _ h2 h4]

/-! ## The reporting operations -/

theorem reports_putWord (off : Nat) (v : Word) (p : Part) : Reports p (putWord off v p) (wordBytes off) 0 [] :=
  ⟨fun _ ha _ => read_putWord_other ha v p, ⟨0, .inl rfl, by simp⟩, by simp, by simp, rfl, by simp, fun _ _ _ => rfl⟩

/-- A raised notice joins NSTAT or the pending set, and none is lost. -/
theorem reports_raise (n : Notice) (p : Part) : Reports p (raise n p) (fun _ => False) n.bit [] := by
  have kept (x b : BitVec 9) : x &&& (x ||| b) = x := by ext i hi; simp; tauto
  have swap (x y b : BitVec 9) : x ||| b ||| y = x ||| y ||| b ||| 0 :=
    Eq.trans (by ac_rfl) (BitVec.or_zero ..).symm
  unfold raise
  split
  · refine ⟨fun _ _ _ => rfl, ⟨0, .inl rfl, ?_⟩, by simp, kept _ _, rfl, by simp, fun _ _ _ => rfl⟩
    exact (BitVec.or_assoc ..).symm.trans (BitVec.or_zero ..).symm
  · refine ⟨fun _ _ _ => rfl, ⟨0, .inl rfl, ?_⟩, kept _ _, by simp, rfl, by simp, fun _ _ _ => rfl⟩
    exact swap _ _ _

theorem reports_raiseEdge (n : Notice) (e : Edge) (p : Part) :
    Reports p (raiseEdge n e p) (fun _ => False) (if edgeSelected n e p then n.bit else 0) [] := by
  unfold raiseEdge
  split
  · exact reports_raise n p
  · exact .refl p

/-- The bytes of a counter in the Counter Block (Table 11-3). -/
def counterBytes (c : Counter) (a : Nat) : Prop := c.offset ≤ a ∧ a < c.offset + if c.wide then 4 else 2

theorem counterBytes_iff {c : Counter} (h : c.wide = false) (a : Nat) : counterBytes c a ↔ wordBytes c.offset a := by
  simp only [counterBytes, wordBytes, h, Bool.false_eq_true, if_false]
  omega

theorem counterBytes_strikesMade (a : Nat) : counterBytes .strikesMade a ↔ 0x204 ≤ a ∧ a < 0x208 := by
  have offset : Counter.strikesMade.offset = 0x204 := by decide
  have wide : Counter.strikesMade.wide = true := by decide
  simp only [counterBytes, offset, wide, if_true]

theorem reports_bump (c : Counter) (p : Part) : Reports p (bump c p) (counterBytes c) 0 [c] := by
  refine ⟨fun a ha _ => read_bumpBy_other c 1 a p ?_, ⟨0, .inl rfl, by simp⟩, by simp, by simp, by simp, ?_,
    fun c' hc _ => counterOf_bumpBy_other (fun e => hc ?_) 1 p⟩
  · unfold counterBytes at ha
    omega
  · obtain ⟨m, e⟩ := bumpBy_shape c 1 p
    rw [bump, e]
    exact ⟨rfl, rfl, rfl, rfl, rfl, rfl⟩
  · rw [index_injective e]
    exact List.mem_singleton_self _

/-- A 16-bit counter incremented stays at 65,535 (R198). -/
theorem counterOf_bump_narrow {c : Counter} (h : c.wide = false) (p : Part) :
    counterOf c (bump c p) = min 65535 (counterOf c p + 1) := by
  rw [bump, counterOf_bumpBy_same, Counter.add, h]
  rfl

/-- A 32-bit counter incremented wraps (R198). -/
theorem counterOf_bump_wide {c : Counter} (h : c.wide = true) (p : Part) :
    counterOf c (bump c p) = (counterOf c p + 1) % 2 ^ 32 := by
  rw [bump, counterOf_bumpBy_same, Counter.add, h]
  rfl

/-- The extension of a record, if it has one, fills one slot (R193). -/
def ExtensionFits (r : Record) : Prop := ∀ ws, r.extension = some ws → ws.length ≤ 8

theorem extensionFits_of_none {r : Record} (h : r.extension = none) : ExtensionFits r := by
  intro ws e
  rw [h] at e
  cases e

/-- Advancing the Log Write Mark may raise LOG and no other notice (R193). -/
theorem advanceWriteMark_window (n : Nat) (p : Part) : (advanceWriteMark n p).window = p.window ∨
    ∃ p' : Part, p'.window = p.window ∧ (advanceWriteMark n p).window = (raise .log p').window := by
  unfold advanceWriteMark
  dsimp only
  split
  · exact .inr ⟨_, by rfl, rfl⟩
  · exact .inl rfl

/-- A log record reports nothing but itself. -/
theorem reports_logRecord {x : Record} (hx : ExtensionFits x) (hr : RingPlaced p.log) :
    Reports p (logRecord x p) (fun _ => False) 0 [] := by
  have ring : (logRecord x p).log.configured = p.log.configured ∧ (logRecord x p).log.base = p.log.base ∧
      (logRecord x p).log.slots = p.log.slots ∧ (logRecord x p).log.filter = p.log.filter ∧
      (logRecord x p).log.notify = p.log.notify ∧ (logRecord x p).log.readMark = p.log.readMark := by
    obtain ⟨m, w, l, e, h⟩ := logRecord_shape x p
    rw [e]
    exact h
  have window : (logRecord x p).window = p.window ∨
      ∃ p' : Part, p'.window = p.window ∧ (logRecord x p).window = (raise .log p').window := by
    unfold logRecord
    split
    · split
      · exact .inl (bumpBy_window _ _ _)
      · obtain ⟨m, e⟩ := storeRecord_shape x p
        rw [writeRecord, e]
        exact advanceWriteMark_window _ _
    · exact .inl rfl
  have counters (c : Counter) (hd : c ≠ .logDropped) : counterOf c (logRecord x p) = counterOf c p := by
    unfold logRecord
    split
    · split
      · exact counterOf_bumpBy_other (fun e => hd (index_injective e).symm) 1 _
      · obtain ⟨m, w, e⟩ := writeRecord_shape x p
        rw [e]
        rfl
    · rfl
  have memory (a : Nat) (_ : ¬ False) (ha : ¬ logByte p.log a) := read_logRecord_other x p a hr hx ha
  rcases window with hw | ⟨p', hp', hw⟩
  · exact ⟨memory, ⟨0, .inl rfl, by simp [hw]⟩, by simp [hw], by simp [hw], by rw [hw], ring, fun c _ => counters c⟩
  · obtain ⟨-, ⟨log, hlog, notices⟩, nstatKept, pendingKept, rest, -, -⟩ := reports_raise .log p'
    rw [hp'] at notices nstatKept pendingKept rest
    rw [← hw] at notices nstatKept pendingKept rest
    refine ⟨memory, ⟨Notice.log.bit ||| log, .inr ?_, ?_⟩, nstatKept, pendingKept, rest, ring, fun c _ => counters c⟩
    · rcases hlog with rfl | rfl <;> rfl
    · rw [notices]; simp [BitVec.or_assoc]

/-- A record of the log leaves the blocks but the Window Unit, memory and the Log Writer, and reports nothing but itself. -/
theorem logRecord_reports {x : Record} (hx : ExtensionFits x) (hr : RingPlaced p.log) :
    ∃ m w l, logRecord x p = { p with mem := m, window := w, log := l } ∧
      Reports p { p with mem := m, window := w, log := l } (fun _ => False) 0 [] := by
  obtain ⟨m, w, l, e, -⟩ := logRecord_shape x p
  exact ⟨m, w, l, e, e ▸ reports_logRecord hx hr⟩

/-! ## A change of engine state (R53) -/

theorem extensionFits_plainRecord (kind item : Nat) (line : Option Word32) (a b : Word) :
    ExtensionFits (plainRecord kind item line a b) := extensionFits_of_none rfl

/-- A change of engine state writes the engine state word, raises ENGINE and hands over a record (R53). -/
theorem enterEngine_reports (e : EngineState) (c : Nat) (hm : Memory.wf p.mem = true) (hr : RingPlaced p.log) :
    Reports p (enterEngine e c p) (wordBytes Config.engineStateOffset) Notice.engine.bit [] ∧
      wordAt Config.engineStateOffset (enterEngine e c p) = natWord (engineCode e) := by
  unfold enterEngine
  dsimp only
  generalize hs : putWord Config.engineStateOffset (natWord (engineCode e)) { p with time := { p.time with engine := e } } = s
  have word : wordAt Config.engineStateOffset s = natWord (engineCode e) := by
    rw [← hs]
    exact wordAt_putWord_same _ _ hm
  have stored : Reports p s (wordBytes Config.engineStateOffset) 0 [] := by
    rw [← hs]
    exact (reports_putWord _ _ _).congr rfl rfl
  have raised : Reports s (raise .engine s) (fun _ => False) Notice.engine.bit [] := reports_raise _ _
  have logged := reports_logRecord (p := raise .engine s)
    (extensionFits_plainRecord 11 (engineCode e) (some s.time.nextLine) (natWord (engineCode p.time.engine)) (natWord c))
    (raised.ringPlaced (stored.ringPlaced hr))
  refine ⟨(stored.trans (raised.plain logged)).weaken (fun a ha => ha.resolve_right id) BitVec.zero_or (by simp), ?_⟩
  have low (a : Nat) (ha : a = 4 ∨ a = 5) : ¬ logByte s.log a :=
    not_logByte_of_low (stored.ringPlaced hr) (by omega) (by omega) (by omega)
  rw [← word]
  exact (raised.plain logged).wordAt_eq id id (low _ (.inl rfl)) (low _ (.inr rfl))

end Sys2Proof.Machine
end

section
/-! The registers at the port, one statement for each read and write (R185, R188, R189). -/

namespace Sys2Proof.Machine

variable {p : Part} {s : State}

/-! ## STATUS (R185) -/

/-- The number that STATUS shows: its four flags, then the codes of the engine and of the rail (Table 10-9). -/
def statusValue (p : Part) : Nat :=
  p.window.busy.isSome.toNat + 2 * p.window.resetSeen.toNat + 4 * p.window.trackOk.toNat + 8 * p.window.cmdReject.toNat
    + 16 * engineCode p.time.engine + 256 * railCode p.analog.rail

theorem statusWord_eq (p : Part) : statusWord p = BitVec.ofNat 16 (statusValue p) := by
  have busy : (if p.window.busy = none then 0 else 1) = p.window.busy.isSome.toNat := by
    cases p.window.busy <;> rfl
  have flag (n : Nat) (b : Bool) : (if b then n else 0) = n * b.toNat := by cases b <;> simp
  simp only [statusWord, natWord, statusValue, busy, flag]

theorem engineCode_le (e : EngineState) : engineCode e ≤ 5 := by cases e <;> decide
theorem railCode_le (r : RailState) : railCode r ≤ 2 := by cases r <;> decide

theorem decide_toNat_eq_one (b : Bool) : decide (b.toNat = 1) = b := by cases b <;> rfl

/-- A bit of a number as a word shows it. -/
theorem getLsbD_ofNat_word {i : Nat} (hi : i < 16) (n : Nat) :
    (BitVec.ofNat 16 n).getLsbD i = decide (n / 2 ^ i % 2 = 1) := by
  rw [BitVec.getLsbD_ofNat, Nat.testBit_eq_decide_div_mod_eq, decide_eq_true hi, Bool.true_and]

/-- The fields of STATUS, bit by bit. -/
theorem status_fields (p : Part) :
    let v := statusWord p
    v.getLsbD 0 = p.window.busy.isSome ∧ v.getLsbD 1 = p.window.resetSeen ∧ v.getLsbD 2 = p.window.trackOk ∧
      v.getLsbD 3 = p.window.cmdReject ∧ (v.extractLsb' 4 3).toNat = engineCode p.time.engine ∧ v.getLsbD 7 = false ∧
      (v.extractLsb' 8 2).toNat = railCode p.analog.rail ∧ v.extractLsb' 10 6 = 0 := by
  have he := engineCode_le p.time.engine
  have hr := railCode_le p.analog.rail
  have h0 := Bool.toNat_le p.window.busy.isSome
  have h1 := Bool.toNat_le p.window.resetSeen
  have h2 := Bool.toNat_le p.window.trackOk
  have h3 := Bool.toNat_le p.window.cmdReject
  have small : statusValue p < 2 ^ 10 := by unfold statusValue; omega
  have bit (i : Nat) (hi : i < 16) (b : Bool) (hb : statusValue p / 2 ^ i % 2 = b.toNat) :
      (statusWord p).getLsbD i = b := by
    rw [statusWord_eq, getLsbD_ofNat_word hi, hb, decide_toNat_eq_one]
  have field (lo len n : Nat) (hn : statusValue p / 2 ^ lo % 2 ^ len = n) :
      ((statusWord p).extractLsb' lo len).toNat = n := by
    have whole : statusValue p < 2 ^ 16 := by omega
    rw [statusWord_eq, BitVec.extractLsb'_toNat, BitVec.toNat_ofNat, Nat.mod_eq_of_lt whole, Nat.shiftRight_eq_div_pow, hn]
  refine ⟨bit 0 (by decide) _ ?_, bit 1 (by decide) _ ?_, bit 2 (by decide) _ ?_, bit 3 (by decide) _ ?_, field 4 3 _ ?_,
    bit 7 (by decide) false ?_, field 8 2 _ ?_, BitVec.eq_of_toNat_eq (field 10 6 0 ?_)⟩
  all_goals simp only [statusValue, Bool.toNat_false]; omega

/-! ## NSTAT, NMASK, NCFG (R188, R189) -/

/-- Notices settle: the pending set enters NSTAT where no unmasked bit is set. -/
theorem settlePending_eq (p : Part) : settlePending p = { p with window := { p.window with
    nstat := if unmaskedBits p.window = 0 then p.window.nstat ||| p.window.pendingSet else p.window.nstat
    pendingSet := if unmaskedBits p.window = 0 then 0 else p.window.pendingSet } } := by
  by_cases h : unmaskedBits p.window = 0
  · rw [settlePending, if_neg (by simp [noticeAsserted, h]), if_pos h, if_pos h]
    rfl
  · rw [settlePending, if_pos (by simpa [noticeAsserted] using h), if_neg h, if_neg h]

/-- With COR set a read clears NSTAT, which takes up the pending set (R189). -/
theorem readNstat_cor (h : p.window.ncfg.getLsbD 6 = true) : readNstat p = { p with
    pins := { p.pins with readData := nstatWord p }
    window := { p.window with nstat := p.window.pendingSet, pendingSet := 0 } } := by
  have clear : p.window.nstat &&& ~~~p.window.nstat = 0 := BitVec.and_not_self _
  have masked : (0 : BitVec 9) &&& ~~~p.window.nmask = 0 := BitVec.zero_and
  have joined : (0 : BitVec 9) ||| p.window.pendingSet = p.window.pendingSet := BitVec.zero_or
  refine (if_pos h).trans ?_
  rw [clearNotices, settlePending_eq]
  simp only [unmaskedBits, putReadData, clear, masked, if_true, joined]

/-- Settles O16: STATUS by its fields, NSTAT by whether COR is set. -/
theorem registerReads : Obligations.RegisterReads := by
  refine ⟨fun s hs => ?_, fun s hs => ?_⟩
  · refine ⟨statusWord s.part, ?_, status_fields s.part⟩
    rw [exec, execStatusRead, withPart, readAtPort_served hs]
    have ok : (s.part.window.trackOk || decide (s.part.strip.tracking = .locked))
        = if s.part.strip.tracking = .locked then true else s.part.window.trackOk := by
      split <;> simp_all
    rw [← ok]
    rfl
  · rw [exec, execNstatRead, withPart, readAtPort_served hs]
    by_cases hc : s.part.window.ncfg.getLsbD 6 = true
    · rw [if_pos hc, readNstat_cor hc]
      rfl
    · rw [if_neg hc]
      exact congrArg (fun q => Host.Outcome.next { s with part := q }) (if_neg hc)

/-- Notices that are settled already stay as they are. -/
theorem settlePending_of_settled (h : p.window.pendingSet ≠ 0 → unmaskedBits p.window ≠ 0) : settlePending p = p := by
  by_cases hq : unmaskedBits p.window = 0
  · have hp : p.window.pendingSet = 0 := by
      by_contra hn
      exact h hn hq
    have joined : p.window.nstat ||| (0 : BitVec 9) = p.window.nstat := BitVec.or_zero
    rw [settlePending_eq, if_pos hq, if_pos hq, hp, joined, ← hp]
  · rw [settlePending_eq, if_neg hq, if_neg hq]

theorem registerWrite_ignored {r : BitVec 3} (h : r = 1 ∨ r = 5 ∨ r = 6 ∨ r = 7) (v : Word) (p : Part) :
    registerWrite r v p = p := by rcases h with rfl | rfl | rfl | rfl <;> rfl

/-- Settles O17, by what settling the notices does. -/
theorem registerWrites : Obligations.RegisterWrites := by
  refine ⟨fun s v hs => ?_, fun s v hs => ?_, fun s v hn hs => ?_, fun s r v hr => ?_⟩
  · refine (withPart_atPort hs _).trans ?_
    rw [writeNstat, clearNotices, settlePending_eq]
    rfl
  · refine (withPart_atPort hs _).trans ?_
    rw [writeNmask, settlePending_eq]
    rfl
  · refine (withPart_atPort hs _).trans ?_
    have holdoff : (v.extractLsb' 0 8).getLsbD 7 = v.getLsbD 7 := by simp
    by_cases hv : v.getLsbD 7 = true
    · rw [if_pos hv, if_pos hv]
      refine congrArg (fun q => Host.Outcome.next { s with part := q }) ((if_pos (holdoff.trans hv)).trans ?_)
      exact settlePending_of_settled fun hp => (hn hp).2
    · rw [if_neg hv, if_neg hv]
      exact congrArg (fun q => Host.Outcome.next { s with part := q }) (if_neg fun h => hv (holdoff.symm.trans h))
  · have lost : atPort (registerWrite r v) s.part = s.part := by
      unfold atPort
      split
      · exact registerWrite_ignored hr v s.part
      · rfl
    exact congrArg (fun q => Host.Outcome.next { s with part := q }) lost

end Sys2Proof.Machine
end

section
/-! Considering the next line, host writes to memory, and the sweep with its requests (R3, R50, R179, R182 to R184, R192). -/

namespace Sys2Proof.Machine

variable {p : Part} {s : State}

/-! ## A consideration (R3, R50) -/

theorem considerLines_of_not (h : (engineConsiders p && lookaheadReached p) = false) : ∀ n, considerLines n p = p
  | 0 => rfl
  | n + 1 => by rw [considerLines, h]; rfl

/-- Nothing is considered before the lookahead instant, or where the engine considers no line. -/
theorem consider_of_not (h : (engineConsiders p && lookaheadReached p) = false) : consider p = p :=
  considerLines_of_not h _

/-- A line that is not takeable is reported as wanted, with its cause. -/
theorem considerLines_waits {n : Nat} (he : engineConsiders p = true) (hl : lookaheadReached p = true)
    (ht : takeable p = false) : considerLines (n + 1) p = reportCause (waitingCause p) (reportWanted p) := by
  have ht' : takeable (reportWanted p) = false := ht
  rw [considerLines, he, hl]
  simp only [Bool.and_self, if_true, ht', Bool.false_eq_true, if_false]
  rfl

/-- A takeable line is taken, and the next one considered. -/
theorem considerLines_takes {n : Nat} (he : engineConsiders p = true) (ht : takeable p = true) :
    considerLines (n + 1) p = considerLines n (takeOne (readyToTake (reportWanted p))) := by
  have ht' : takeable (reportWanted p) = true := ht
  have hl : lookaheadReached p = true := by
    simp only [takeable, Bool.and_eq_true] at ht
    exact ht.1.1
  rw [considerLines, he, hl]
  simp only [Bool.and_self, if_true, ht']

theorem consider_waits (he : engineConsiders p = true) (hl : lookaheadReached p = true) (ht : takeable p = false) :
    consider p = reportCause (waitingCause p) (reportWanted p) := considerLines_waits he hl ht

theorem consider_takes (he : engineConsiders p = true) (ht : takeable p = true) :
    consider p = considerLines 4351 (takeOne (readyToTake (reportWanted p))) := considerLines_takes he ht

theorem engineTakesLines_iff : engineTakesLines p = true ↔ p.time.engine = .leader ∨ p.time.engine = .running := by
  simp [engineTakesLines]

theorem engineConsiders_of_takes (h : engineTakesLines p = true) : engineConsiders p = true := by
  simp [engineConsiders, h]

/-- Outside STARVED the engine is ready as it stands. -/
theorem readyToTake_of_takes (h : engineTakesLines p = true) : readyToTake p = p := by
  refine if_neg fun e => ?_
  rw [engineTakesLines_iff, e] at h
  simp at h

/-! ## Host writes to memory (R179, R180) -/

theorem writeMemory_of_ne {w : BitVec 15} (h : w ≠ fillMarkAddress) (v : Word) :
    writeMemory w v p = putWord (2 * w.toNat) v p := if_neg h

/-- A word written is read back byte by byte, its low byte first. -/
theorem read_putWord_same (off : Nat) (v : Word) (h : Memory.wf p.mem = true) :
    Memory.read (putWord off v p).mem off = v.extractLsb' 0 8
      ∧ Memory.read (putWord off v p).mem (off + 1) = v.extractLsb' 8 8 := by
  have word : Memory.readWord (putWord off v p).mem off = v := wordAt_putWord_same off v h
  rw [read_eq_low_readWord, read_succ_eq_high_readWord, word]
  exact ⟨rfl, rfl⟩

/-- Settles O18: a write to memory is one word; a write to the Fill Mark considers nothing where the engine considers no
line. -/
theorem memoryWrites : Obligations.MemoryWrites := by
  refine ⟨fun s w v hm hs hw => ?_, fun s v hm hs he => ?_⟩
  · refine ⟨_, withPart_atPort hs _, rfl, ?_⟩
    rw [writeMemory_of_ne hw]
    obtain ⟨low, high⟩ := read_putWord_same (2 * w.toNat) v hm
    exact ⟨rfl, low, high, fun a ha => read_putWord_other ha v s.part⟩
  · refine ⟨_, withPart_atPort hs _, rfl, ?_⟩
    have idle : engineConsiders (putWord Config.fillMarkOffset v s.part) = false := by
      rcases he with e | e | e <;> simp [engineConsiders, engineTakesLines, e]
    rw [writeFillMark, consider_of_not (by rw [idle]; rfl)]
    exact ⟨rfl, wordAt_putWord_same _ _ hm, fun a ha => read_putWord_other ha v s.part⟩

/-! ## The sweep (R183, R192) -/

theorem takeSlot_of_not_posted {i : Nat} (h : slotWord i 0 p ≠ 1) : takeSlot p i = p := if_neg h

/-- A walk over slots none of which is POSTED changes nothing. -/
theorem foldl_takeSlot_of_not_posted (l : List Nat) (h : ∀ i ∈ l, slotWord i 0 p ≠ 1) : l.foldl takeSlot p = p := by
  induction l with
  | nil => rfl
  | cons i l ih =>
    rw [List.foldl_cons, takeSlot_of_not_posted (h i List.mem_cons_self)]
    exact ih fun j hj => h j (List.mem_cons_of_mem i hj)

theorem writeGap_of_none_dropped (h : p.log.dropped = 0) : writeGap p = p := if_neg (by omega)

/-- The Log Read Mark taken where it describes the ring: only the read mark in force changes (R192). -/
theorem takeReadMark_eq (mark : Word) (p : Part) : takeReadMark mark p = { p with log := { p.log with
    readMark := if p.log.configured = true ∧ (p.log.writeMark - mark).toNat ≤ p.log.slots then mark
      else p.log.readMark } } := by
  unfold takeReadMark
  split
  · rfl
  · rfl

/-- The part after a sweep's reading of the Log Read Mark. -/
def readMarkSwept (p : Part) : Part :=
  let mark := wordAt Config.logReadMarkOffset p
  { p with
    window := { p.window with sweptReadMark := mark }
    log := { p.log with
      readMark := if p.log.configured = true ∧ (p.log.writeMark - mark).toNat ≤ p.log.slots then mark
        else p.log.readMark } }

/-- With no record dropped a sweep reads the Log Read Mark and walks the slots. -/
theorem sweepBody_of_none_dropped (h : p.log.dropped = 0) :
    sweepBody p = (List.range 8).foldl takeSlot (readMarkSwept p) := by
  unfold sweepBody
  dsimp only
  rw [takeReadMark_eq, writeGap_of_none_dropped (by exact h)]
  rfl

/-- With nothing POSTED besides, it only reads the Log Read Mark. -/
theorem sweepBody_of_nothing_posted (hp : ∀ i, i < 8 → slotWord i 0 p ≠ 1) (hd : p.log.dropped = 0) :
    sweepBody p = readMarkSwept p := by
  rw [sweepBody_of_none_dropped hd]
  exact foldl_takeSlot_of_not_posted _ fun i hi => hp i (List.mem_range.1 hi)

theorem withPart_inTime (h : timeStands s.part = false) (f : Part → Part) :
    withPart (inTime f) s = .next { s with part := f s.part } := by
  rw [withPart, inTime, if_neg (by rw [h]; exact Bool.false_ne_true)]

/-- Drive time comes to the sweep instant, and the next one is a period later. -/
def atSweep (p : Part) : Part :=
  let q := driveTo p.clocks.nextSweep p
  { q with clocks := { q.clocks with nextSweep := p.clocks.nextSweep + 1000 } }

theorem reachSweep_held (h : sweepHeld p = true) :
    reachSweep p = { atSweep p with window := { p.window with sweepDeferred := true } } := if_pos h

theorem reachSweep_made (h : sweepHeld p = false) : reachSweep p = sweepBody (atSweep p) :=
  if_neg fun e => Bool.false_ne_true (h.symm.trans e)

/-- Settles O20: made, the sweep only reads the mark; held, it waits. -/
theorem sweepWithNothingPosted : Obligations.SweepWithNothingPosted := by
  refine ⟨fun s ht hh hp hd => ?_, fun s hb => ?_⟩
  · refine (withPart_inTime ht _).trans ?_
    rw [reachSweep_made hh, sweepBody_of_nothing_posted (by exact hp) (by exact hd)]
    rfl
  · have time : timeStands s.part = false := by rcases hb with e | e <;> simp [timeStands, e]
    have held : sweepHeld s.part = true := by rcases hb with e | e <;> simp [sweepHeld, e]
    refine (withPart_inTime time _).trans ?_
    rw [reachSweep_held held]
    rfl

theorem clearBusy_of_busy {op : BusyOp} (h : p.window.busy = some op) :
    clearBusy p = endOperation op { p with window := { p.window with busy := none } } := by rw [clearBusy, h]

theorem makeDeferredSweep_of_none (h : p.window.sweepDeferred = false) : makeDeferredSweep p = p :=
  if_neg (by rw [h]; exact Bool.false_ne_true)

/-- With no sweep waiting the end of an operation restarts the sweeps after a reset, and does nothing else (R183). -/
theorem endOperation_of_none_waiting (op : BusyOp) (h : p.window.sweepDeferred = false) :
    endOperation op p = { p with clocks := { p.clocks with
      nextSweep := if op = .powerOn ∨ op = .fullReset then p.clocks.drive + 1000 else p.clocks.nextSweep } } := by
  cases op with
  | powerOn => rw [endOperation, if_pos (.inl rfl)]; rfl
  | fullReset => rw [endOperation, if_pos (.inr rfl), makeDeferredSweep_of_none (by exact h)]; rfl
  | restart => rw [endOperation, if_neg (by simp), makeDeferredSweep_of_none h]
  | clearCounters => rw [endOperation, if_neg (by simp)]
  | snapshot => rw [endOperation, if_neg (by simp)]

/-- Settles O14: the operation's end with no sweep waiting, and the sweep that waited. -/
theorem busyClearEffect : Obligations.BusyClearEffect := by
  refine ⟨fun s op hb hd => ?_, fun s hb hd hp hz => ?_⟩
  · rw [exec, execBusyClear, withPart, clearBusy_of_busy hb, endOperation_of_none_waiting op (by exact hd)]
  · have made : makeDeferredSweep { s.part with window := { s.part.window with busy := none } }
        = sweepBody { s.part with window := { s.part.window with busy := none, sweepDeferred := false } } := if_pos hd
    rw [exec, execBusyClear, withPart, clearBusy_of_busy hb, endOperation, made,
      sweepBody_of_nothing_posted (by exact hp) (by exact hz)]
    rfl

/-! ## Requests (R182, R184) -/

/-- A result is DONE exactly where it is OK or CLAMPED. -/
theorem resultState_eq (c : ResultCode) : resultState c = if c = .ok ∨ c = .clamped then 2 else 3 := by
  cases c <;> rfl

/-- The words of a Request Slot stand apart. -/
theorem slotWordOffset_apart (i j k l : Nat) (h : i ≠ k ∨ j ≠ l) (hj : j < 16) (hl : l < 16) :
    slotWordOffset i j + 1 < slotWordOffset k l ∨ slotWordOffset k l + 2 ≤ slotWordOffset i j := by
  unfold slotWordOffset
  omega

/-- Settles O22: the three words by the order in which they are written, the notice by what raising it does. -/
theorem requestCompletes : Obligations.RequestCompletes := by
  intro p i hp a hm q
  have taken : q = completeRequest i a := if_pos hp
  clear_value q a
  subst taken
  have apart := slotWordOffset_apart i
  have wf14 := Memory.wf_writeWord a.part.mem (slotWordOffset i 14) (natWord (resultValue a.code)) hm
  have wf15 := Memory.wf_writeWord _ (slotWordOffset i 15) a.detail wf14
  have mem : (completeRequest i a).mem = Memory.writeWord (Memory.writeWord (Memory.writeWord a.part.mem
      (slotWordOffset i 14) (natWord (resultValue a.code))) (slotWordOffset i 15) a.detail)
      (slotWordOffset i 0) (resultState a.code) := raise_mem _ _
  refine ⟨?shape, ?state, ?result, ?detail, ?notices, fun x h0 h14 h15 => ?_⟩
  case shape =>
    rw [completeRequest, raise_shape]
    rfl
  case state =>
    rw [slotWord, wordAt, mem, Memory.readWord_writeWord_same _ _ _ wf15, resultState_eq]
  case result =>
    rw [slotWord, wordAt, mem, Memory.readWord_writeWord_other _ _ _ _ (apart 14 i 0 (by simp) (by simp) (by simp)),
      Memory.readWord_writeWord_other _ _ _ _ (apart 14 i 15 (by simp) (by simp) (by simp)),
      Memory.readWord_writeWord_same _ _ _ hm, natWord]
  case detail =>
    rw [slotWord, wordAt, mem, Memory.readWord_writeWord_other _ _ _ _ (apart 15 i 0 (by simp) (by simp) (by simp)),
      Memory.readWord_writeWord_same _ _ _ wf14]
  case notices =>
    rw [completeRequest, raise_shape]
    dsimp only [putWord_window]
    split
    · ac_rfl
    · ac_rfl
  · simp only [wordBytes, not_or] at h0 h14 h15
    rw [mem, Memory.read_writeWord_other _ _ _ _ h0.1 h0.2, Memory.read_writeWord_other _ _ _ _ h15.1 h15.2,
      Memory.read_writeWord_other _ _ _ _ h14.1 h14.2]

end Sys2Proof.Machine
end

section
/-! The consideration that a Fill Mark write starts, the sweep that finds one request POSTED, requests refused, and the
Formats that LOAD_FORMAT accepts (R3, R6, R24, R26 to R30, R183, R184). -/

namespace Sys2Proof.Machine

variable {p : Part} {s : State}

/-! ## A REPEAT slot is taken (R6) -/

/-- A word below or past the words of a counter reads as before its increment. -/
theorem wordAt_bump_other (c : Counter) (off : Nat) (h : off + 1 < 0x200 ∨ 0x238 ≤ off) (p : Part) :
    wordAt off (bump c p) = wordAt off p := by
  have place : 0x200 ≤ c.offset ∧ c.offset + (if c.wide then 4 else 2) ≤ 0x238 := by cases c <;> decide
  rw [wordAt, wordAt, Memory.readWord, Memory.readWord, bump, read_bumpBy_other _ _ _ _ (by omega),
    read_bumpBy_other _ _ _ _ (by omega)]

theorem wordAt_putWord_other {off x : Nat} (h : x + 1 < off ∨ off + 2 ≤ x) (v : Word) (p : Part) :
    wordAt x (putWord off v p) = wordAt x p := Memory.readWord_writeWord_other _ _ _ _ h

/-- With a REPEAT slot at the Take Mark and nothing held, a take only discards it. -/
theorem takeOne_repeat (hh : p.strip.held = none) (hr : lineRepeat (lineWord p.strip.takeMark p) = true) :
    takeOne p = bump .repeatLines (advanceTakeMark p) := by
  rw [takeOne, hh]
  exact if_pos hr

/-- What a consideration makes of a line that cannot be had for want of slots. -/
theorem considerLines_waits_for_lines {n : Nat} (he : engineConsiders p = true) (hl : lookaheadReached p = true)
    (hspan : stripSpan p = 0) (hh : p.strip.held = none) :
    considerLines (n + 1) p = reportCause .lines (reportWanted p) := by
  have no_fault : markFault p = false := by simp [markFault, hspan]
  have nothing : lineAtHand p = false := by simp [lineAtHand, no_fault, hspan, hh]
  have cause : waitingCause p = .lines := by simp [waitingCause, no_fault, hspan, hh]
  rw [considerLines_waits he hl (by simp [takeable, nothing]), cause]

/-- Settles O19: the first consideration takes the REPEAT slot, and the second finds the ring empty. -/
theorem fillMarkWriteTakesRepeatSlot : Obligations.FillMarkWriteTakesRepeatSlot := by
  intro s hm hs he hl hfree hh hr
  generalize hp : s.part = p at *
  refine ⟨{ s with part := writeFillMark (p.strip.takeMark + 1) p }, ?_, rfl, ?_⟩
  · rw [← hp]
    exact withPart_atPort (hp ▸ hs) _
  generalize hq : reportWanted (putWord Config.fillMarkOffset (p.strip.takeMark + 1) p) = q
  have time : q.time = { p.time with wanted := true } := by rw [← hq]; rfl
  have strip : q.strip = p.strip := by rw [← hq]; rfl
  have takes : engineTakesLines (putWord Config.fillMarkOffset (p.strip.takeMark + 1) p) = true :=
    engineTakesLines_iff.2 he
  have filled : fillMark (putWord Config.fillMarkOffset (p.strip.takeMark + 1) p) = p.strip.takeMark + 1 :=
    wordAt_putWord_same _ _ hm
  have span : stripSpan (putWord Config.fillMarkOffset (p.strip.takeMark + 1) p) = 1 := by
    rw [stripSpan, filled, putWord_strip, BitVec.add_comm, BitVec.add_sub_cancel]
    rfl
  have reached : lookaheadReached (putWord Config.fillMarkOffset (p.strip.takeMark + 1) p) = true := hl
  have ready : takeable (putWord Config.fillMarkOffset (p.strip.takeMark + 1) p) = true := by
    rw [takeable, reached, lineAtHand, markFault, span]
    exact decide_eq_true hfree
  have repeated : lineRepeat (lineWord q.strip.takeMark q) = true := by
    have word : lineWord q.strip.takeMark q = lineWord p.strip.takeMark p := by
      rw [← hq]
      refine wordAt_putWord_other (.inr ?_) _ p
      rw [stripSlotOffset, Config.fillMarkOffset, Config.stripOffset]
      omega
    rwa [word]
  generalize hx : bump .repeatLines (advanceTakeMark q) = x
  have first : writeFillMark (p.strip.takeMark + 1) p = considerLines 4351 x := by
    rw [writeFillMark, consider_takes (engineConsiders_of_takes takes) ready,
      readyToTake_of_takes (p := reportWanted _) (by exact takes), hq,
      takeOne_repeat (by rw [strip]; exact hh) repeated, hx]
  have xtime : x.time = { p.time with wanted := true } := by rw [← hx, bump, bumpBy_time]; exact time
  have xstrip : x.strip = { p.strip with takeMark := p.strip.takeMark + 1 } := by
    rw [← hx, bump, bumpBy_strip, advanceTakeMark, ← strip]
    rfl
  have xfill : fillMark x = p.strip.takeMark + 1 := by
    rw [← hx, fillMark, wordAt_bump_other _ _ (by decide), ← filled, fillMark]
    refine (wordAt_putWord_other (.inl (by decide)) _ _).trans ?_
    rw [← hq]
    rfl
  have xspan : stripSpan x = 0 := by
    rw [stripSpan, xfill, xstrip, BitVec.sub_self]
    rfl
  have second : considerLines 4351 x = reportCause .lines (reportWanted x) := by
    refine considerLines_waits_for_lines (engineConsiders_of_takes ?_) ?_ xspan (by rw [xstrip]; exact hh)
    · rw [engineTakesLines_iff, xtime]
      exact he
    · rw [lookaheadReached, lookaheadInstant, xtime]
      exact hl
  have wfq : Memory.wf q.mem = true := by rw [← hq]; exact Memory.wf_writeWord _ _ _ hm
  have mark : wordAt Config.takeMarkOffset x = p.strip.takeMark + 1 := by
    rw [← hx, wordAt_bump_other _ _ (by decide), advanceTakeMark, putTakeMark, wordAt_putWord_same _ _ (by exact wfq), strip]
  have counted : counterOf .repeatLines x = min 65535 (counterOf .repeatLines p + 1) := by
    rw [← hx, counterOf_bump_narrow (by decide), ← hq]
    rfl
  have others (c : Counter) (hc : c ≠ .repeatLines) : counterOf c x = counterOf c p := by
    rw [← hx, bump, counterOf_bumpBy_other (fun e => hc (index_injective e).symm), ← hq]
    rfl
  have bytes (a : Nat) (hf : ¬ wordBytes Config.fillMarkOffset a) (ht : ¬ wordBytes Config.takeMarkOffset a)
      (hc : ¬ wordBytes 0x208 a) : Memory.read x.mem a = Memory.read p.mem a := by
    have own : ¬ counterBytes .repeatLines a := fun e => hc ((counterBytes_iff (by decide) a).1 e)
    rw [← hx, bump, read_bumpBy_other _ _ _ _ (by unfold counterBytes at own; omega)]
    refine (read_putWord_other ht _ _).trans ?_
    rw [← hq]
    exact read_putWord_other hf _ p
  rw [first, second]
  refine ⟨?_, xfill, mark, counted, others, bytes⟩
  obtain ⟨m, e⟩ := bumpBy_shape .repeatLines 1 (advanceTakeMark q)
  rw [← hx, bump, e, ← hq]
  rfl

/-! ## A sweep that finds one request POSTED (R183) -/

/-- Taking a request leaves the state words of the other slots, where its owner leaves memory. -/
theorem slotWord_takeSlot_other {i j : Nat} (hij : j ≠ i) (hp : slotWord i 0 p = 1)
    (hm : (dispatchRequest (slotWord i 1 p).toNat i p).part.mem = p.mem) (hw : Memory.wf p.mem = true) :
    slotWord j 0 (takeSlot p i) = slotWord j 0 p := by
  obtain ⟨-, -, -, -, -, bytes⟩ := requestCompletes p i hp (by rw [hm]; exact hw)
  have apart (l : Nat) (hl : l < 16) := slotWordOffset_apart j 0 i l (.inl hij) (by simp) hl
  have a0 := apart 0 (by simp)
  have a14 := apart 14 (by simp)
  have a15 := apart 15 (by simp)
  rw [slotWord, slotWord, wordAt, wordAt, Memory.readWord, Memory.readWord, bytes, bytes, hm]
  all_goals simp only [wordBytes]; omega

/-- A walk over slots of which one is POSTED, its request leaving the other state words, takes that one. -/
theorem foldl_takeSlot_single {i : Nat} (l : List Nat) (hi : i ∈ l) (hl : l.Nodup)
    (hp : ∀ j ∈ l, j ≠ i → slotWord j 0 p ≠ 1)
    (ho : ∀ j, j ≠ i → slotWord j 0 (takeSlot p i) = slotWord j 0 p) : l.foldl takeSlot p = takeSlot p i := by
  obtain ⟨before, after, rfl⟩ := List.append_of_mem hi
  rw [List.nodup_middle, List.nodup_cons, List.mem_append, not_or] at hl
  obtain ⟨⟨hb, ha⟩, -⟩ := hl
  rw [List.foldl_append, List.foldl_cons,
    foldl_takeSlot_of_not_posted before fun j hj => hp j (by simp [hj]) (fun e => hb (e ▸ hj))]
  refine foldl_takeSlot_of_not_posted after fun j hj => ?_
  have hji : j ≠ i := fun e => ha (e ▸ hj)
  rw [ho j hji]
  exact hp j (by simp [hj]) hji

theorem detailBit_zero (b : Bool) : detailBit 0 b = if b then 1 else 0 := by cases b <;> rfl

/-- A request carried out is OK where no item was changed, and CLAMPED else. -/
theorem carriedOut_changed (b : Bool) (p : Part) : carriedOut (detailBit 0 b) p
    = { part := p, code := if b then .clamped else .ok, detail := if b then 1 else 0 } := by cases b <;> rfl

/-- Settles O21: the one POSTED slot is taken, its request by its owner, and completed. -/
theorem sweepTakesTranspose : Obligations.SweepTakesTranspose := by
  intro s i hi hm ht hh hc hd hp hk hothers asked value q
  have quiet : readMarkSwept (atSweep s.part) = { q with
      clocks := { q.clocks with nextSweep := s.part.clocks.nextSweep + 1000 }
      window := { s.part.window with sweptReadMark := wordAt Config.logReadMarkOffset s.part } } := by
    have unread : ¬ (s.part.log.configured = true ∧
        (s.part.log.writeMark - wordAt Config.logReadMarkOffset s.part).toNat ≤ s.part.log.slots) := by simp [hc]
    have log : (readMarkSwept (atSweep s.part)).log = s.part.log :=
      congrArg (fun m => { s.part.log with readMark := m }) (if_neg unread)
    exact congrArg (fun l => { readMarkSwept (atSweep s.part) with log := l }) log
  generalize hx : readMarkSwept (atSweep s.part) = x at quiet
  have mem : x.mem = s.part.mem := by rw [quiet]; rfl
  have words (j l : Nat) : slotWord j l x = slotWord j l s.part := by rw [slotWord, slotWord, wordAt, wordAt, mem]
  have answer : dispatchRequest (slotWord i 1 x).toNat i x
      = { part := { x with strip := { s.part.strip with transpose := value } },
          code := if value = asked then .ok else .clamped, detail := if value = asked then 0 else 1 } := by
    rw [words, hk]
    have here : (param i 1 x).toInt = asked := congrArg BitVec.toInt (words i 2)
    show requestTranspose i x = _
    rw [requestTranspose, here]
    refine (carriedOut_changed _ _).trans ?_
    have strip : x.strip = s.part.strip := by rw [quiet]; rfl
    rw [strip]
    by_cases e : value = asked
    · simp [value, e] at *
    · simp [value, e] at *
  have posted : slotWord i 0 x = 1 := by rw [words]; exact hp
  have wf : Memory.wf x.mem = true := by rw [mem]; exact hm
  have owner : (dispatchRequest (slotWord i 1 x).toNat i x).part.mem = x.mem := by rw [answer]
  have swept : reachSweep s.part = takeSlot x i := by
    rw [reachSweep_made hh, sweepBody_of_none_dropped (by exact hd), hx]
    exact foldl_takeSlot_single _ (List.mem_range.2 hi) List.nodup_range
      (fun j hj hji => by rw [words]; exact hothers j (List.mem_range.1 hj) hji)
      fun j hji => slotWord_takeSlot_other hji posted owner wf
  refine ⟨{ s with part := takeSlot x i }, ?_, rfl, ?_⟩
  · rw [← swept]
    exact withPart_inTime ht _
  obtain ⟨shape, state, result, detail, notices, bytes⟩ := requestCompletes x i posted (by rw [owner]; exact wf)
  rw [answer] at shape state result detail notices bytes
  generalize takeSlot x i = y at *
  subst quiet
  refine ⟨shape, state.trans ?_, result.trans ?_, detail, notices, fun a h0 h14 h15 => bytes a h0 h14 h15⟩
  · split <;> simp
  · split <;> rfl

end Sys2Proof.Machine
end

section
/-! Requests that are refused, and the checks of LOAD_FORMAT and LOAD_VOICING (R26 to R30, R85 to R91, R184). -/

namespace Sys2Proof.Machine

variable {p : Part} {a : Answer}

/-! ## Refusals (R184) -/

/-- An answer that refuses leaves the part. -/
def RefusalKeeps (p : Part) (a : Answer) : Prop := a.code ≠ .ok → a.code ≠ .clamped → a.part = p

theorem refusalKeeps_refuse (c : ResultCode) (p : Part) : RefusalKeeps p (refuse c p) := fun _ _ => rfl

/-- A request that is carried out is no refusal. -/
theorem refusalKeeps_carriedOut (mask : Word) (p q : Part) : RefusalKeeps p (carriedOut mask q) := by
  intro hok hclamped
  by_cases h : mask = 0
  · exact absurd (if_pos h) hok
  · exact absurd (if_neg h) hclamped

theorem refusalKeeps_same (c : ResultCode) (d : Word) (p : Part) : RefusalKeeps p { part := p, code := c, detail := d } :=
  fun _ _ => rfl

theorem refusalKeeps_ok (d : Word) (p q : Part) : RefusalKeeps p { part := q, code := .ok, detail := d } :=
  fun hok _ => absurd rfl hok

theorem refusalKeeps_requestStart (slot : Nat) (p : Part) : RefusalKeeps p (requestStart slot p) := by
  unfold requestStart
  split
  · exact refusalKeeps_refuse _ p
  split
  · split
    · exact refusalKeeps_refuse _ p
    · exact refusalKeeps_carriedOut _ p _
  · exact refusalKeeps_refuse _ p

theorem refusalKeeps_requestStop (slot : Nat) (p : Part) : RefusalKeeps p (requestStop slot p) := by
  unfold requestStop
  dsimp only
  split
  · split
    · exact refusalKeeps_refuse _ p
    · exact refusalKeeps_carriedOut _ p _
  split
  · exact refusalKeeps_carriedOut _ p _
  · exact refusalKeeps_refuse _ p

theorem refusalKeeps_requestPause (slot : Nat) (p : Part) : RefusalKeeps p (requestPause slot p) := by
  unfold requestPause
  split
  · exact refusalKeeps_carriedOut _ p _
  · exact refusalKeeps_refuse _ p

theorem refusalKeeps_requestResume (slot : Nat) (p : Part) : RefusalKeeps p (requestResume slot p) := by
  unfold requestResume
  split
  · exact refusalKeeps_carriedOut _ p _
  · exact refusalKeeps_refuse _ p

theorem refusalKeeps_requestPedalOverride (slot : Nat) (p : Part) : RefusalKeeps p (requestPedalOverride slot p) := by
  unfold requestPedalOverride
  split
  · exact refusalKeeps_refuse _ p
  dsimp only
  split
  · exact refusalKeeps_carriedOut _ p _
  split
  · exact refusalKeeps_carriedOut _ p _
  split
  · exact refusalKeeps_carriedOut _ p _
  · exact refusalKeeps_refuse _ p

theorem refusalKeeps_requestLoadFormat (slot : Nat) (p : Part) : RefusalKeeps p (requestLoadFormat slot p) := by
  unfold requestLoadFormat
  split
  · dsimp only
    split
    · exact refusalKeeps_refuse _ p
    split
    · exact refusalKeeps_same _ _ p
    · exact refusalKeeps_ok _ p _
  · exact refusalKeeps_refuse _ p

theorem refusalKeeps_requestLoadVoicing (slot : Nat) (p : Part) : RefusalKeeps p (requestLoadVoicing slot p) := by
  unfold requestLoadVoicing
  split
  · exact refusalKeeps_refuse _ p
  dsimp only
  split
  · exact refusalKeeps_same _ _ p
  · exact refusalKeeps_ok _ p _

theorem refusalKeeps_requestSenseReset (slot : Nat) (p : Part) : RefusalKeeps p (requestSenseReset slot p) := by
  unfold requestSenseReset
  dsimp only
  split
  · exact refusalKeeps_carriedOut _ p _
  split
  · exact refusalKeeps_carriedOut _ p _
  · exact refusalKeeps_refuse _ p

theorem refusalKeeps_requestSetLog (slot : Nat) (p : Part) : RefusalKeeps p (requestSetLog slot p) := by
  unfold requestSetLog
  dsimp only
  split
  · exact refusalKeeps_refuse _ p
  split
  · exact refusalKeeps_same _ _ p
  split
  · exact refusalKeeps_same _ _ p
  · exact refusalKeeps_carriedOut _ p _

/-- Settles O23: each owner's refusals leave the part, and no owner has a kind of 0 or above 13. -/
theorem refusedRequestsChangeNothing : Obligations.RefusedRequestsChangeNothing := by
  refine ⟨fun kind slot p => ?_, fun kind slot p h => ?_⟩
  · show RefusalKeeps p _
    unfold dispatchRequest
    split
    case h_1 => exact refusalKeeps_requestStart slot p
    case h_2 => exact refusalKeeps_requestStop slot p
    case h_3 => exact refusalKeeps_requestPause slot p
    case h_4 => exact refusalKeeps_requestResume slot p
    case h_5 => exact refusalKeeps_carriedOut _ p _
    case h_6 => exact refusalKeeps_carriedOut _ p _
    case h_7 => exact refusalKeeps_carriedOut _ p _
    case h_8 => exact refusalKeeps_requestPedalOverride slot p
    case h_9 => exact refusalKeeps_requestLoadFormat slot p
    case h_10 => exact refusalKeeps_requestLoadVoicing slot p
    case h_11 => exact refusalKeeps_requestSenseReset slot p
    case h_12 => exact refusalKeeps_carriedOut _ p _
    case h_13 => exact refusalKeeps_requestSetLog slot p
    case h_14 => exact refusalKeeps_refuse _ p
  · unfold dispatchRequest
    split
    case h_14 => exact ⟨rfl, rfl⟩
    all_goals omega

/-! ## Checks that all pass -/

section Checks

variable {ρ : Type} {reason : ρ}

theorem rangeCheck_eq_none {low high v : Nat} : rangeCheck reason low high v = none ↔ low ≤ v ∧ v ≤ high := by
  unfold rangeCheck
  split <;> simp_all

theorem condCheck_eq_none {ok : Bool} : condCheck reason ok = none ↔ ok = true := by
  cases ok <;> simp [condCheck]

theorem orCheck_eq_none {a b : Option ρ} : orCheck a b = none ↔ a = none ∧ b = none := by
  cases a <;> simp [orCheck]

/-- No check fails exactly where each passes. -/
theorem firstFailure_eq_none {l : List (Nat × Option ρ)} : firstFailure l = none ↔ ∀ c ∈ l, c.2 = none := by
  induction l with
  | nil => simp [firstFailure]
  | cons c l ih =>
    obtain ⟨i, o⟩ := c
    cases o <;> simp [firstFailure, ih]

/-- Checks numbered by a list as long as theirs fail exactly where one of them fails. -/
theorem firstFailure_zip_eq_none {is : List Nat} {cs : List (Option ρ)} (h : cs.length ≤ is.length) :
    firstFailure (is.zip cs) = none ↔ ∀ c ∈ cs, c = none := by
  rw [firstFailure_eq_none, ← List.forall_mem_map (f := Prod.snd) (P := (· = none)), List.map_snd_zip h]

end Checks

/-! ## LOAD_FORMAT (R28 to R30) -/

theorem formatFailure_eq_none {w : Nat → Nat} : formatFailure w = none ↔
    (∀ c ∈ formatFieldChecks w, c = none) ∧ ∀ e, e < w 31 → ∀ c ∈ entryChecks w e, c.2 = none := by
  rw [← firstFailure_zip_eq_none (is := List.range 32) (by rfl)]
  unfold formatFailure
  split
  · next h => simp [h]
  · next h =>
    rw [firstFailure_eq_none]
    simp only [h, true_and, List.mem_flatMap, List.mem_range]
    exact ⟨fun hc e he c hce => hc c ⟨e, he, hce⟩, fun hc c ⟨e, he, hce⟩ => hc e he c hce⟩

/-- An accepted map entry names a track of the roll that is no note track (R30). -/
theorem entryChecks_track {w : Nat → Nat} {e : Nat} (h : ∀ c ∈ entryChecks w e, c.2 = none) :
    w (32 + 4 * e) < w 1 ∧ ¬ (w 20 ≤ w (32 + 4 * e) ∧ w (32 + 4 * e) < w 20 + w 21) := by
  have first := h _ List.mem_cons_self
  exact of_decide_eq_true (condCheck_eq_none.1 first)

/-- A word that is not 0x8000 reads, as a signed value, within 32,767 either way. -/
theorem toInt_bounds_of_ne {v : Word} (h : v.toNat ≠ 0x8000) : -32767 ≤ v.toInt ∧ v.toInt ≤ 32767 := by
  have := v.isLt
  rw [BitVec.toInt_eq_toNat_cond]
  split <;> omega

theorem natWord_toNat (v : Word) : natWord v.toNat = v := by simp [natWord]

/-- LOAD_FORMAT is carried out exactly where the slot named is not in use and no check fails. -/
theorem requestLoadFormat_ok {slot : Nat} {i : Fin 4} (hi : (param slot 1 p).toNat = i.val)
    (h : (requestLoadFormat slot p).code = .ok) :
    let w := fun x => (formatWord i.val x p).toNat
    p.formats.inUse ≠ some i ∧ formatFailure w = none ∧ requestLoadFormat slot p =
      { part := { p with formats := { p.formats with slots := p.formats.slots.set i (some (formatOf w)) } }
        code := .ok, detail := natWord (w 0) } := by
  have hlt : (param slot 1 p).toNat < 4 := hi ▸ i.isLt
  unfold requestLoadFormat at h ⊢
  rw [dif_pos hlt] at h ⊢
  dsimp only at h ⊢
  simp only [hi] at h ⊢
  split at h
  · cases h
  · next hu =>
    rw [if_neg hu]
    split at h
    · cases h
    · next hf =>
      rw [hf]
      exact ⟨hu, rfl, rfl⟩

/-- Settles O28, by what it says that no check fails. -/
theorem acceptedFormatsAreValid : Obligations.AcceptedFormatsAreValid := by
  intro slot p i hi h
  obtain ⟨unused, pass, e⟩ := requestLoadFormat_ok hi h
  have owner : dispatchRequest 9 slot p = requestLoadFormat slot p := rfl
  rw [owner, e]
  have spool : (formatWord i.val 19 p).toNat ≠ 0x8000 →
      -32767 ≤ (natWord (formatWord i.val 19 p).toNat).toInt ∧ (natWord (formatWord i.val 19 p).toNat).toInt ≤ 32767 := by
    rw [natWord_toNat]
    exact toInt_bounds_of_ne
  have interval : (formatWord i.val 18 p).toNat ≤ 65535 := Nat.le_of_lt_succ (formatWord i.val 18 p).isLt
  obtain ⟨fields, entries⟩ := formatFailure_eq_none.1 pass
  refine ⟨_, rfl, unused, rfl, ?_⟩
  generalize hw : (fun x => (formatWord i.val x p).toNat) = w at *
  have hw' (x : Nat) : (formatWord i.val x p).toNat = w x := congrFun hw x
  rw [hw'] at spool interval
  simp only [formatFieldChecks, List.forall_mem_cons, List.not_mem_nil, false_implies, implies_true, and_true,
    rangeCheck_eq_none, condCheck_eq_none, orCheck_eq_none, decide_eq_true_eq, Nat.zero_le, true_and] at fields
  obtain ⟨⟨id1, id2⟩, ⟨count1, count2⟩, origin, ⟨pitch1, pitch2⟩, half, ⟨threshold1, threshold2⟩, ⟨onset1, onset2⟩,
    ⟨offset1, offset2⟩, centre, ⟨width1, width2⟩, tolerance, ⟨run1, run2⟩, smoothing, drift, ⟨coast1, coast2⟩,
    ⟨relock1, relock2⟩, ⟨line1, line2⟩, ⟨tempo1, tempo2⟩, spoolInterval, spoolStep, firstTrack, ⟨⟨notes1, notes2⟩, span⟩,
    ⟨⟨key1, key2⟩, keys⟩, ⟨split1, split2⟩, -, ⟨-, floorOrder⟩, ⟨ceiling, midOrder⟩, ramp, rate, rest, soft, size⟩ := fields
  refine ⟨id1, id2, count1, count2, origin, pitch1, pitch2, half, threshold1, threshold2, onset1, onset2, offset1, offset2,
    centre, width1, width2, tolerance, smoothing, spoolInterval, interval, firstTrack, notes1, notes2, key2, split1, split2,
    soft, run1, run2, drift, coast1, coast2, relock1, relock2, line1, line2, tempo1, tempo2, (spool spoolStep).1,
    (spool spoolStep).2, span, keys, key1, floorOrder, midOrder, ceiling, ramp, rest, rate, ?_, fun x hx => ?_⟩
  · rw [formatOf, List.length_map, List.length_range]
    exact size
  · obtain ⟨n, hn, rfl⟩ := List.mem_map.1 hx
    exact entryChecks_track (entries n (hw' 31 ▸ List.mem_range.1 hn))

/-! ## LOAD_VOICING (R85 to R91) -/

theorem fieldCheck_snd {i low high v : Nat} : (fieldCheck i low high v).2 = none ↔ low ≤ v ∧ v ≤ high :=
  rangeCheck_eq_none

theorem classChecks_eq_none {w : Nat → Nat} {c : Nat} : (∀ x ∈ classChecks w c, x.2 = none) ↔
    w (12 * c) ≤ 7 ∧ (1 ≤ w (12 * c + 1) ∧ w (12 * c + 1) ≤ 500) ∧ w (12 * c + 2) ≤ 255 ∧ w (12 * c + 3) ≤ 50000
      ∧ (5000 ≤ w (12 * c + 4) + 65536 * w (12 * c + 5) ∧ w (12 * c + 4) + 65536 * w (12 * c + 5) ≤ 100000)
      ∧ w (12 * c + 6) ≤ 50000 ∧ w (12 * c + 7) ≤ 30000 ∧ w (12 * c + 8) ≤ 512
      ∧ (16 ≤ w (12 * c + 9) ∧ w (12 * c + 9) ≤ 255)
      ∧ (5000 ≤ w (12 * c + 10) + 65536 * w (12 * c + 11) ∧ w (12 * c + 10) + 65536 * w (12 * c + 11) ≤ 100000) := by
  simp only [classChecks, List.forall_mem_cons, List.not_mem_nil, false_implies, implies_true, and_true, fieldCheck_snd,
    longField, Nat.zero_le, true_and, Nat.add_assoc, Nat.reduceAdd]

theorem pointChecks_eq_none {w : Nat → Nat} {q j : Nat} : (∀ x ∈ pointChecks w q j, x.2 = none) ↔
    ∀ b, b = 96 + 68 * q + 4 * j → (200 ≤ w b ∧ w b ≤ 20000)
      ∧ (1000 ≤ w (b + 1) + 65536 * w (b + 2) ∧ w (b + 1) + 65536 * w (b + 2) ≤ 150000) ∧ w (b + 3) ≤ 255 := by
  simp only [pointChecks, pointWord, List.forall_mem_cons, List.not_mem_nil, false_implies, implies_true, and_true,
    fieldCheck_snd, longField, Nat.zero_le, true_and, forall_eq]

theorem keyMapChecks_eq_none {w : Nat → Nat} {k : Nat} : (∀ x ∈ keyMapChecks w k, x.2 = none) ↔
    w (640 + 2 * k) ≤ 7 ∧ -64 ≤ (BitVec.ofNat 16 (w (641 + 2 * k))).toInt
      ∧ (BitVec.ofNat 16 (w (641 + 2 * k))).toInt ≤ 63 := by
  have next : 640 + 2 * k + 1 = 641 + 2 * k := by omega
  simp only [keyMapChecks, List.forall_mem_cons, List.not_mem_nil, false_implies, implies_true, and_true, fieldCheck_snd,
    condCheck_eq_none, decide_eq_true_eq, signedField, natWord, Nat.zero_le, true_and, next]

theorem heatSenseChecks_eq_none {w : Nat → Nat} : (∀ x ∈ heatSenseChecks w, x.2 = none) ↔
    (w 816 < w 817 ∧ w 817 < w 818 ∧ (1 ≤ w 819 ∧ w 819 ≤ 12))
      ∧ (1 ≤ w 820 ∧ w 820 ≤ 15) ∧ w 821 ≤ 1 ∧ w 822 ≤ 1 := by
  simp only [heatSenseChecks, List.forall_mem_cons, List.not_mem_nil, false_implies, implies_true, and_true,
    fieldCheck_snd, condCheck_eq_none, decide_eq_true_eq, Nat.zero_le, true_and, and_assoc]

theorem pedalChecks_eq_none {w : Nat → Nat} {x : Nat} : (∀ c ∈ pedalChecks w x, c.2 = none) ↔
    ∀ b, b = 824 + 8 * x →
      (1 ≤ w b ∧ w b ≤ 500) ∧ w (b + 1) ≤ 255 ∧ w (b + 2) ≤ 255 ∧ w (b + 3) ≤ 255 ∧ (20 ≤ w (b + 4) ∧ w (b + 4) ≤ 1000)
        ∧ (1 ≤ w (b + 5) ∧ w (b + 5) ≤ 16) ∧ w (b + 6) + 65536 * w (b + 7) ≤ 200000 := by
  simp only [pedalChecks, List.forall_mem_cons, List.not_mem_nil, false_implies, implies_true, and_true, fieldCheck_snd,
    longField, Nat.zero_le, true_and, forall_eq]

theorem globalChecks_eq_none {w : Nat → Nat} : (∀ x ∈ globalChecks w, x.2 = none) ↔
    w 848 ≤ 255 ∧ w 849 ≤ 255 ∧ (1 ≤ w 850 ∧ w 850 ≤ 88) := by
  simp only [globalChecks, List.forall_mem_cons, List.not_mem_nil, false_implies, implies_true, and_true, fieldCheck_snd,
    Nat.zero_le, true_and]

/-- Checks of numbered groups all pass exactly where those of each group do. -/
theorem forall_mem_flatMap_range {α : Type} {n : Nat} {f : Nat → List α} {P : α → Prop} :
    (∀ x ∈ (List.range n).flatMap f, P x) ↔ ∀ i, i < n → ∀ x ∈ f i, P x := by
  simp only [List.mem_flatMap, List.mem_range]
  exact ⟨fun h i hi x hx => h x ⟨i, hi, hx⟩, fun h x ⟨i, hi, hx⟩ => h i hi x hx⟩

/-- No check of the Voicing Area fails exactly where every field lies in its range. -/
theorem voicingFailure_eq_none {w : Nat → Nat} : voicingFailure w = none ↔ VoicingInRange w := by
  rw [voicingFailure, firstFailure_eq_none]
  simp only [List.forall_mem_append, forall_mem_flatMap_range, classChecks_eq_none, pointChecks_eq_none,
    keyMapChecks_eq_none, heatSenseChecks_eq_none, pedalChecks_eq_none, globalChecks_eq_none]
  constructor
  · rintro ⟨⟨⟨⟨⟨classes, curves⟩, keyMap⟩, heat, sense⟩, pedals⟩, globals⟩
    exact ⟨classes, fun q j hq hj => curves q hq j hj, keyMap, heat, sense, pedals, globals⟩
  · rintro ⟨classes, curves, keyMap, heat, sense, pedals, globals⟩
    exact ⟨⟨⟨⟨⟨classes, fun q hq j hj => curves q j hq hj⟩, keyMap⟩, heat, sense⟩, pedals⟩, globals⟩

theorem getElem_tabulate {α : Type} {n : Nat} (f : Nat → α) (i : Nat) (hi : i < n) : (tabulate n f)[i] = f i := by
  simp [tabulate]

/-! ### The Guard (R91) -/

/-- The larger of `m` and the largest flight of a curve's points. -/
def largestFlight (m : Nat) (points : List CurvePoint) : Nat := points.foldl (fun m' pt => max m' pt.d) m

theorem le_largestFlight (m : Nat) (points : List CurvePoint) :
    m ≤ largestFlight m points ∧ ∀ pt ∈ points, pt.d ≤ largestFlight m points := by
  induction points generalizing m with
  | nil => exact ⟨le_rfl, by simp⟩
  | cons x xs ih =>
    obtain ⟨h1, h2⟩ := ih (max m x.d)
    refine ⟨(le_max_left _ _).trans h1, ?_⟩
    rintro pt (_ | ⟨_, hpt⟩)
    · exact (le_max_right _ _).trans h1
    · exact h2 pt hpt

theorem largestFlight_attained (m : Nat) (points : List CurvePoint) :
    largestFlight m points = m ∨ ∃ pt ∈ points, pt.d = largestFlight m points := by
  induction points generalizing m with
  | nil => exact .inl rfl
  | cons x xs ih =>
    rcases ih (max m x.d) with h | ⟨pt, hpt, h⟩
    · rcases le_total x.d m with hm | hm
      · exact .inl (h.trans (max_eq_left hm))
      · exact .inr ⟨x, List.mem_cons_self, (h.trans (max_eq_right hm)).symm⟩
    · exact .inr ⟨pt, List.mem_cons_of_mem _ hpt, h⟩

/-- The points of a Voicing's curves. -/
def curvePoints (v : Voicing) : List CurvePoint := v.curves.toList.flatMap Vector.toList

theorem guardOf_eq (v : Voicing) : guardOf v = largestFlight 0 (curvePoints v) + 5000 := by
  rw [guardOf, largestFlight, curvePoints, List.foldl_flatMap]

theorem mem_curvePoints {v : Voicing} {pt : CurvePoint} :
    pt ∈ curvePoints v ↔ ∃ (q : Fin 8) (j : Fin 17), v.curves[q][j] = pt := by
  simp only [curvePoints, List.mem_flatMap, Vector.mem_toList_iff, Vector.mem_iff_getElem]
  constructor
  · rintro ⟨_, ⟨q, hq, rfl⟩, j, hj, h⟩
    exact ⟨⟨q, hq⟩, ⟨j, hj⟩, h⟩
  · rintro ⟨q, j, h⟩
    exact ⟨_, ⟨q, q.isLt, rfl⟩, j, j.isLt, h⟩

/-- The Guard is the largest flight of the curves plus 5,000 µs. -/
theorem guardOf_spec (v : Voicing) : 5000 ≤ guardOf v ∧ (∀ (q : Fin 8) (j : Fin 17), v.curves[q][j].d + 5000 ≤ guardOf v) ∧
    ∃ (q : Fin 8) (j : Fin 17), v.curves[q][j].d + 5000 = guardOf v := by
  rw [guardOf_eq]
  have above (q : Fin 8) (j : Fin 17) : v.curves[q][j].d ≤ largestFlight 0 (curvePoints v) :=
    (le_largestFlight 0 _).2 _ (mem_curvePoints.2 ⟨q, j, rfl⟩)
  refine ⟨Nat.le_add_left _ _, fun q j => Nat.add_le_add_right (above q j) _, ?_⟩
  rcases largestFlight_attained 0 (curvePoints v) with h | ⟨pt, hpt, h⟩
  · have zero := above 0 0
    rw [h] at zero ⊢
    exact ⟨0, 0, by rw [Nat.le_zero.1 zero]⟩
  · obtain ⟨q, j, rfl⟩ := mem_curvePoints.1 hpt
    exact ⟨q, j, by rw [h]⟩

theorem requestLoadVoicing_ok_iff {slot : Nat} : (requestLoadVoicing slot p).code = .ok ↔
    p.time.engine = .idle ∧ voicingFailure (voicingWord p) = none := by
  unfold requestLoadVoicing
  split
  · next h => simp [h, refuse]
  · next h =>
    dsimp only
    split
    · next e => simp [e]
    · next e => simpa [e] using h

theorem requestLoadVoicing_of_ok {slot : Nat} (h : (requestLoadVoicing slot p).code = .ok) :
    let v := voicingOf (voicingWord p)
    requestLoadVoicing slot p = { part := { p with strikes := { p.strikes with voicing := v, guardTime := guardOf v } }
                                  code := .ok, detail := natWord (guardOf v / 10) } := by
  obtain ⟨idle, pass⟩ := requestLoadVoicing_ok_iff.1 h
  unfold requestLoadVoicing
  rw [if_neg (not_not_intro idle)]
  dsimp only
  rw [pass]

/-- Settles O29: the checks are the ranges, and the copy is read field by field. -/
theorem loadVoicingRequest : Obligations.LoadVoicingRequest := by
  intro slot p a w long
  have owner : a = requestLoadVoicing slot p := rfl
  clear_value a
  subst owner
  refine ⟨requestLoadVoicing_ok_iff.trans (and_congr_right' voicingFailure_eq_none), fun h => ?_⟩
  have range := voicingFailure_eq_none.1 (requestLoadVoicing_ok_iff.1 h).2
  rw [requestLoadVoicing_of_ok h]
  obtain ⟨least, above, attained⟩ := guardOf_spec (voicingOf w)
  refine ⟨voicingOf w, guardOf (voicingOf w), rfl, rfl, least, above, attained, fun c => ?_, fun q j => ?_, fun k => ?_,
    rfl, rfl, rfl, rfl, rfl, rfl, rfl, fun d => ?_, rfl, rfl, rfl⟩
  · have e : (voicingOf w).classes[c] = keyClassOf w c := getElem_tabulate _ _ c.isLt
    rw [e]
    exact ⟨Nat.mod_eq_of_lt (Nat.lt_succ_of_le (range.classes c c.isLt).1), rfl, rfl, rfl, rfl, rfl, rfl, rfl, rfl, rfl⟩
  · have e : (voicingOf w).curves[q] = tabulate 17 (pointOf w q) := getElem_tabulate _ _ q.isLt
    have e' : (tabulate 17 (pointOf w q))[j] = pointOf w q j := getElem_tabulate _ _ j.isLt
    rw [e, e', pointOf, pointWord, longField]
    have second : 96 + 68 * q.val + 4 * j.val + 1 = 97 + 68 * q.val + 4 * j.val := by omega
    have fourth : 96 + 68 * q.val + 4 * j.val + 3 = 99 + 68 * q.val + 4 * j.val := by omega
    rw [second, fourth]
  · have e : (voicingOf w).keyClass[k] = Fin.ofNat 8 (w (640 + 2 * k)) := getElem_tabulate _ _ k.isLt
    have e' : (voicingOf w).strikeTrim[k] = signedField w (641 + 2 * k) := getElem_tabulate _ _ k.isLt
    rw [e, e']
    exact ⟨Nat.mod_eq_of_lt (Nat.lt_succ_of_le (range.keyMap k k.isLt).1), rfl⟩
  · exact getElem_tabulate _ _ (pedalIndex d).isLt

end Sys2Proof.Machine
end

section
/-! Paper edges, the period of a line, and the pages of the leader (R11, R35 to R37, R45). -/

namespace Sys2Proof.Machine

/-! ## Paper edges (R11) -/

/-- Where a list is ordered, an element that passes is the first that passes, or stands after it. -/
theorem eq_or_rel_of_find? {α : Type} {R : α → α → Prop} {pass : α → Bool} {l : List α} {first y : α}
    (hl : l.Pairwise R) (h : l.find? pass = some first) (hy : y ∈ l) (hp : pass y = true) : y = first ∨ R first y := by
  induction l with
  | nil => cases hy
  | cons x xs ih =>
    rw [List.pairwise_cons] at hl
    by_cases hx : pass x = true
    · rw [List.find?_cons_of_pos hx] at h
      cases h
      exact (List.mem_cons.1 hy).imp id (hl.1 y)
    · rw [List.find?_cons_of_neg hx] at h
      rcases List.mem_cons.1 hy with rfl | hy
      · exact absurd hp hx
      · exact ih hl.2 h hy

/-- A run of `n + 1` opaque pixels starts where each of its pixels is opaque. -/
theorem getLsbD_runStarts (o : BitVec 512) (n x : Nat) :
    (runStarts o n).getLsbD x = true ↔ ∀ i, i ≤ n → o.getLsbD (x + i) = true := by
  induction n generalizing x with
  | zero => simp [runStarts]
  | succ n ih =>
    rw [runStarts, BitVec.getLsbD_and, Bool.and_eq_true, BitVec.getLsbD_ushiftRight, ih]
    constructor
    · rintro ⟨h0, h⟩ i hi
      cases i with
      | zero => exact h0
      | succ i => rw [← Nat.add_assoc, Nat.add_right_comm, Nat.add_comm x 1]; exact h i (by omega)
    · intro h
      refine ⟨h 0 (by omega), fun i hi => ?_⟩
      have := h (1 + i) (by omega)
      rwa [← Nat.add_assoc, Nat.add_comm x 1] at this

/-- The pixels at which `paperEdges` finds a run to start are those at which one starts. -/
theorem runStarts_iff_opaqueRun {pixels : BitVec 512} {len : Nat} (hlen : 1 ≤ len) (x : Nat) :
    (runStarts (~~~pixels) (len - 1)).getLsbD x = true ↔ opaqueRun pixels len x := by
  simp only [getLsbD_runStarts, opaqueRun, BitVec.getLsbD_not, Bool.and_eq_true, decide_eq_true_eq, Bool.not_eq_true']
  constructor
  · intro h
    have last := (h (len - 1) le_rfl).1
    exact ⟨by omega, fun i hi => (h i (by omega)).2⟩
  · rintro ⟨hin, h⟩ i hi
    exact ⟨by omega, h i (by omega)⟩

/-- Settles O54: the two searches find the first and the last pixel at which a run starts. -/
theorem paperEdgesMeasured : Obligations.PaperEdgesMeasured := by
  intro len pixels hlen
  have start := runStarts_iff_opaqueRun (pixels := pixels) hlen
  unfold paperEdges
  dsimp only
  generalize (runStarts (~~~pixels) (len - 1)).getLsbD = pass at start
  have inside (x : Nat) (h : opaqueRun pixels len x) : x ∈ pixelNumbers := List.mem_range.2 (by have := h.1; omega)
  have up : pixelNumbers.Pairwise (· < ·) := List.pairwise_lt_range
  have down : pixelNumbers.reverse.Pairwise (· > ·) := List.pairwise_reverse.2 up
  cases hf : pixelNumbers.find? pass with
  | none =>
    rw [List.find?_eq_none] at hf
    exact ⟨by simpa using fun x hx => hf x (inside x hx) ((start x).2 hx), fun le re h => nomatch h⟩
  | some first =>
    cases hr : pixelNumbers.reverse.find? pass with
    | none =>
      rw [List.find?_eq_none] at hr
      exact absurd (List.find?_some hf) (hr first (List.mem_reverse.2 (List.mem_of_find?_eq_some hf)))
    | some last =>
      have atFirst := (start first).1 (List.find?_some hf)
      have atLast := (start last).1 (List.find?_some hr)
      refine ⟨by simpa using ⟨first, atFirst⟩, ?_⟩
      rintro le re h
      cases h
      refine ⟨atFirst, fun x hx run => ?_, last, by omega, atLast, fun y hy run => ?_⟩
      · rcases eq_or_rel_of_find? up hf (inside x run) ((start x).2 run) with rfl | h <;> omega
      · rcases eq_or_rel_of_find? down hr (List.mem_reverse.2 (inside y run)) ((start y).2 run) with rfl | h <;> omega

/-! ## The period of a line (R45) -/

theorem linePeriod_plain {t : Timebase} (h : t.spoolInterval = 0) : linePeriod t = t.p16 := if_pos h

/-- With spool correction, the period as a whole number. -/
theorem linePeriod_spooled {t : Timebase} (h : t.spoolInterval ≠ 0) : (linePeriod t : Int)
    = max ((t.p16 / 2 : Nat) : Int) (min ((2 * t.p16 : Nat) : Int) ((t.p16 : Int) + t.intervals * t.spoolStep)) := by
  rw [linePeriod, if_neg h]
  exact Int.toNat_of_nonneg ((Int.natCast_nonneg _).trans (le_max_left _ _))

theorem countInterval_counts (t : Timebase) : ((countInterval t).intervals, (countInterval t).intervalLines)
    = if 0 < t.spoolInterval ∧ t.spoolInterval ≤ min 65535 (t.intervalLines + 1)
      then (min 16777215 (t.intervals + 1), 0) else (t.intervals, min 65535 (t.intervalLines + 1)) := by
  unfold countInterval
  dsimp only
  split <;> rfl

/-- Settles O56. -/
theorem linePeriodRule : Obligations.LinePeriodRule := by
  intro t
  refine ⟨linePeriod_plain, fun h => ?_, ?_⟩
  · have period := linePeriod_spooled h
    generalize (t.intervals : Int) * t.spoolStep = move at period ⊢
    refine ⟨?_, ?_, fun _ _ => ?_, fun _ => ?_, fun _ => ?_⟩ <;> omega
  · rintro p rfl
    exact ⟨rfl, rfl, countInterval_counts p.time⟩

/-! ## The pages of the leader (R35 to R37) -/

section Pages

variable {w : Word} {l : Leader}

/-- The leader once a page has been accepted and counted. -/
def countedPage (w : Word) (l : Leader) : Leader :=
  { l with seq := .reading, prevToggle := some (w.getLsbD 11), pages := l.pages + 1 }

theorem actOnKind_format (h : pageKind w = 0) : actOnKind w l = { l with
    formatIdRead := match l.formatIdRead with
      | none => some (pagePayload w)
      | some x => some x
    fault := match l.formatIdRead with
      | none => l.fault
      | some x => if x = pagePayload w then l.fault else some .twoFormats } := by
  rw [actOnKind, h]
  obtain ⟨_, _, _, _, _, read, _⟩ := l
  cases read with
  | none => rfl
  | some x => by_cases hx : x = pagePayload w <;> simp [hx]

theorem actOnKind_tempo (h : pageKind w = 1) :
    actOnKind w l = { l with tempoRead := some (max 20 (min 200 (pagePayload w))) } := by rw [actOnKind, h]; rfl

theorem actOnKind_spool (h : pageKind w = 2) : actOnKind w l = { l with spoolRead := some (spoolOfPage w) } := by
  rw [actOnKind, h]; rfl

theorem actOnKind_text (h : pageKind w = 3) : actOnKind w l
    = { l with texts := if l.texts.length < 8 then l.texts ++ [pagePayload w] else l.texts } := by
  rw [actOnKind, h]
  by_cases few : l.texts.length < 8 <;> simp [few]

theorem actOnKind_unknown (h : 4 ≤ pageKind w) :
    actOnKind w l = { l with unknowns := min 65535 (l.unknowns + 1) } := by
  unfold actOnKind
  dsimp only
  split
  case h_5 => rfl
  all_goals omega

/-- Only a second, other FormatId makes a page's kind a fault. -/
theorem actOnKind_fault (hl : l.fault = none) : (actOnKind w l).fault
    = if pageKind w = 0 ∧ ∃ x, l.formatIdRead = some x ∧ x ≠ pagePayload w then some .twoFormats else none := by
  have other (h : pageKind w ≠ 0) : ¬ (pageKind w = 0 ∧ ∃ x, l.formatIdRead = some x ∧ x ≠ pagePayload w) :=
    fun e => h e.1
  obtain h | h | h | h | h : pageKind w = 0 ∨ pageKind w = 1 ∨ pageKind w = 2 ∨ pageKind w = 3 ∨ 4 ≤ pageKind w := by omega
  · rw [actOnKind_format h]
    cases e : l.formatIdRead with
    | none => simp [hl]
    | some x => by_cases hx : x = pagePayload w <;> simp [hl, h, hx]
  · rw [actOnKind_tempo h, if_neg (other (by omega))]; exact hl
  · rw [actOnKind_spool h, if_neg (other (by omega))]; exact hl
  · rw [actOnKind_text h, if_neg (other (by omega))]; exact hl
  · rw [actOnKind_unknown h, if_neg (other (by omega))]; exact hl

/-- A page of kind FORMAT leaves a FormatId read. -/
theorem actOnKind_format_read (h : pageKind w = 0) : (actOnKind w l).formatIdRead ≠ none := by
  rw [actOnKind_format h]
  cases l.formatIdRead <;> exact Option.some_ne_none _

/-- The fault in which an accepted page leaves the leader (R36, R37). -/
def pageFault (w : Word) (l : Leader) : Option LeaderFault :=
  if l.fault.isNone && !pageMore w && l.formatIdRead.isNone then some .noFormatPage else l.fault

/-- The faults of an accepted page that is acted on (R36, R37). -/
theorem pageFault_actOnKind (hl : l.fault = none) :
    let r := actOnKind w l
    let second := pageKind w = 0 ∧ ∃ x, l.formatIdRead = some x ∧ x ≠ pagePayload w
    (pageFault w r = some .twoFormats ↔ second) ∧
      (pageFault w r = some .noFormatPage ↔ w.getLsbD 12 = false ∧ r.formatIdRead = none) ∧
      pageFault w r ≠ some .firstToggle ∧ pageFault w r ≠ some .tooMany := by
  dsimp only
  have fault := actOnKind_fault (w := w) hl
  unfold pageFault
  by_cases second : pageKind w = 0 ∧ ∃ x, l.formatIdRead = some x ∧ x ≠ pagePayload w
  · rw [if_pos second] at fault
    have read := actOnKind_format_read (l := l) second.1
    simp [fault, second, read]
  · rw [if_neg second] at fault
    by_cases missing : w.getLsbD 12 = false ∧ (actOnKind w l).formatIdRead = none
    · simp [fault, second, missing, pageMore]
    · have found : (!pageMore w && (actOnKind w l).formatIdRead.isNone) = false := by
        rw [Bool.and_eq_false_iff]
        cases e : w.getLsbD 12 <;> simp_all [pageMore, Option.isSome_iff_ne_none]
      simpa [fault, second, found] using missing

theorem lastPage_fault (w : Word) (r : Leader) :
    (if r.fault.isNone && !pageMore w && r.formatIdRead.isNone then { r with fault := some .noFormatPage } else r)
      = { r with fault := pageFault w r } := by
  unfold pageFault
  split <;> rfl

theorem acceptPage_many (h : 16 < l.pages + 1) :
    acceptPage w l = ({ countedPage w l with fault := some .tooMany }, .fault) := if_pos h

theorem acceptPage_counted (h : l.pages + 1 ≤ 16) :
    let r := actOnKind w (countedPage w l)
    acceptPage w l = ({ r with fault := pageFault w r }, resultOf { r with fault := pageFault w r } (pageMore w)) := by
  refine (if_neg (not_lt.2 h)).trans ?_
  exact congrArg (fun q => (q, resultOf q (pageMore w))) (lastPage_fault w (actOnKind w (countedPage w l)))

theorem judgePage_first_toggle (hs : l.seq = .awaitingFirst) (h : w.getLsbD 11 = true) :
    judgePage w l = ({ l with fault := some .firstToggle }, .fault) := by
  rw [judgePage, hs]
  exact if_pos h

theorem judgePage_repeat (hs : l.seq = .reading) (h : l.prevToggle = some (w.getLsbD 11)) :
    judgePage w l = ({ l with repeats := min 65535 (l.repeats + 1) }, .goesOn) := by
  rw [judgePage, hs]
  exact if_pos h

theorem judgePage_accepted (h : (l.seq = .awaitingFirst ∧ w.getLsbD 11 = false)
    ∨ (l.seq = .reading ∧ l.prevToggle ≠ some (w.getLsbD 11))) : judgePage w l = acceptPage w l := by
  rcases h with ⟨hs, h⟩ | ⟨hs, h⟩
  · rw [judgePage, hs]
    exact if_neg (by rw [pageToggle, h]; exact Bool.false_ne_true)
  · rw [judgePage, hs]
    exact if_neg h

theorem resultOf_eq_fault {more : Bool} : resultOf l more = .fault ↔ l.fault.isSome = true := by
  unfold resultOf
  split
  · simp_all
  · split <;> simp_all

theorem resultOf_eq_lastPage {more : Bool} : resultOf l more = .lastPage ↔ l.fault = none ∧ more = false := by
  unfold resultOf
  split
  · simp_all [Option.isSome_iff_ne_none]
  · cases more <;> simp_all

/-- Settles O55: the page is judged by its toggle; an accepted one is acted on by its kind. -/
theorem leaderPages : Obligations.LeaderPages := by
  intro w l hl
  refine ⟨judgePage_first_toggle, judgePage_repeat, fun h => ?_⟩
  rw [judgePage_accepted h]
  dsimp only
  by_cases many : 16 < l.pages + 1
  · rw [acceptPage_many many]
    exact ⟨by simp, by simp, fun _ => rfl, fun few => absurd many (not_lt.2 few)⟩
  · have few : l.pages + 1 ≤ 16 := not_lt.1 many
    rw [acceptPage_counted few]
    obtain ⟨second, missing, toggle, tooMany⟩ := pageFault_actOnKind (w := w) (l := countedPage w l) hl
    refine ⟨resultOf_eq_fault, resultOf_eq_lastPage, fun h => absurd h many, fun _ => ⟨second, missing, toggle, tooMany,
      fun h => ?_, fun h => ?_, fun h => ?_, fun h => ?_, fun h => ?_⟩⟩
    · rw [actOnKind_format h]; rfl
    · rw [actOnKind_tempo h]; rfl
    · rw [actOnKind_spool h]; rfl
    · rw [actOnKind_text h]; rfl
    · rw [actOnKind_unknown h]; rfl

end Pages

end Sys2Proof.Machine
end

section
/-! What a rule that reports leaves behind: the part that the rule's own effect makes, with only memory, the Window Unit and
the Log Writer further on (R188, R192 to R194, R198); the miss of a key, and stale actions (R108, R172, R173). -/

namespace Sys2Proof.Machine

variable {p q r : Part} {own own' : Nat → Prop} {bits bits' : BitVec 9} {counted counted' : List Counter}

/-! ## A part further on by reports -/

/-- `q` is `p` but for reports: what they may change is what `Reports` says, and no other block differs. -/
structure Tells (p q : Part) (own : Nat → Prop) (bits : BitVec 9) (counted : List Counter) : Prop where
  shape : q = { p with mem := q.mem, window := q.window, log := q.log }
  reports : Reports p q own bits counted

theorem Tells.refl (p : Part) : Tells p p (fun _ => False) 0 [] := ⟨rfl, .refl p⟩

theorem Tells.trans (h : Tells p q own bits counted) (h' : Tells q r own' bits' counted') :
    Tells p r (fun a => own a ∨ own' a) (bits ||| bits') (counted ++ counted') := by
  refine ⟨?_, h.reports.trans h'.reports⟩
  have shape := h'.shape
  rw [h.shape] at shape
  exact shape

theorem Tells.weaken (h : Tells p q own bits counted) (ho : ∀ a, own a → own' a) (hb : bits = bits')
    (hc : ∀ c ∈ counted, c ∈ counted') : Tells p q own' bits' counted' := ⟨h.shape, h.reports.weaken ho hb hc⟩

/-- A report before or after one that owns nothing and raises nothing. -/
theorem Tells.plain (h : Tells p q own bits counted) (h' : Tells q r (fun _ => False) 0 []) : Tells p r own bits counted :=
  ⟨(h.trans h').shape, h.reports.plain h'.reports⟩

theorem Tells.after (h : Tells p q (fun _ => False) 0 []) (h' : Tells q r own bits counted) : Tells p r own bits counted :=
  (h.trans h').weaken (fun _ ha => ha.resolve_left id) BitVec.zero_or (by simp)

/-- A change of blocks that reports do not touch may be made before a report as well as after it. -/
theorem Tells.lift (h : Tells p q own bits counted) (f : Part → Part)
    (hf : ∀ x m w l, f { x with mem := m, window := w, log := l } = { f x with mem := m, window := w, log := l }) :
    Tells (f p) (f q) own bits counted := by
  have keeps (x : Part) : front (f x) = front x := by
    have e := hf x x.mem x.window x.log
    exact (congrArg front e).trans rfl
  refine ⟨?_, h.reports.congr (keeps p) (keeps q)⟩
  have front := keeps q
  simp only [Machine.front, Prod.mk.injEq] at front
  rw [front.1, front.2.1, front.2.2]
  conv_lhs => rw [h.shape]
  exact hf ..

section Blocks

variable (h : Tells p q own bits counted)
include h

theorem Tells.keys : q.keys = p.keys := by rw [h.shape]
theorem Tells.sense : q.sense = p.sense := by rw [h.shape]
theorem Tells.pedals : q.pedals = p.pedals := by rw [h.shape]
theorem Tells.budget : q.budget = p.budget := by rw [h.shape]
theorem Tells.clocks : q.clocks = p.clocks := by rw [h.shape]
theorem Tells.time : q.time = p.time := by rw [h.shape]
theorem Tells.strikes : q.strikes = p.strikes := by rw [h.shape]
theorem Tells.wheel : q.wheel = p.wheel := by rw [h.shape]
theorem Tells.analog : q.analog = p.analog := by rw [h.shape]
theorem Tells.capture : q.capture = p.capture := by rw [h.shape]
theorem Tells.keyRec (k : Key) : keyRec k q = keyRec k p := by rw [Machine.keyRec, Machine.keyRec, h.keys]
theorem Tells.senseRec (k : Key) : senseRec k q = senseRec k p := by rw [Machine.senseRec, Machine.senseRec, h.sense]
theorem Tells.pedalRec (d : Pedal) : pedalRec d q = pedalRec d p := by rw [Machine.pedalRec, Machine.pedalRec, h.pedals]
theorem Tells.ringPlaced (hr : RingPlaced p.log) : RingPlaced q.log := h.reports.ringPlaced hr

theorem Tells.setup : q.window.setup = p.window.setup := (congrArg Window.setup h.reports.window :)

theorem Tells.counterOf {c : Counter} (hc : c ∉ counted) (hd : c ≠ .logDropped) : counterOf c q = counterOf c p :=
  h.reports.counters c hc hd

end Blocks

theorem tells_bump (c : Counter) (p : Part) : Tells p (bump c p) (counterBytes c) 0 [c] := by
  refine ⟨?_, reports_bump c p⟩
  obtain ⟨m, e⟩ := bumpBy_shape c 1 p
  rw [bump, e]

theorem tells_raise (n : Notice) (p : Part) : Tells p (raise n p) (fun _ => False) n.bit [] :=
  ⟨by rw [raise_shape], reports_raise n p⟩

theorem tells_logRecord {x : Record} (hx : ExtensionFits x) (hr : RingPlaced p.log) :
    Tells p (logRecord x p) (fun _ => False) 0 [] := by
  refine ⟨?_, reports_logRecord hx hr⟩
  obtain ⟨m, w, l, e, -⟩ := logRecord_shape x p
  rw [e]

theorem tells_record (x : Record) (hx : x.extension = none) (hr : RingPlaced p.log) :
    Tells p (logRecord x p) (fun _ => False) 0 [] := tells_logRecord (extensionFits_of_none hx) hr

theorem narrowBytes {c : Counter} {off : Nat} (h : c.wide = false) (ho : c.offset = off) (a : Nat) (ha : counterBytes c a) :
    wordBytes off a := ho ▸ (counterBytes_iff h a).1 ha

/-! ## A miss (R172, R173) -/

/-- The miss count after a miss. -/
def missesAfter (k : Key) (p : Part) : Nat := min 15 ((keyRec k p).missCount + 1)

/-- The miss count after a miss has reached MissLimit. -/
abbrev missFails (k : Key) (p : Part) : Prop := p.strikes.voicing.missLimit ≤ missesAfter k p

/-- The key's records after a miss. -/
def missed (k : Key) (p : Part) : Part :=
  { p with
    keys := p.keys.set k { keyRec k p with missCount := missesAfter k p, deaf := (keyRec k p).deaf || decide (missFails k p) }
    sense := if (keyRec k p).deaf = true ∨ missFails k p then p.sense.set k { senseRec k p with recovery := 0 } else p.sense }

/-- The work of a miss, cut into the count, the key's records, and the report of a key that becomes DEAF. -/
theorem judgeMiss_eq (k : Key) (p : Part) :
    let b := bump .senseMisses p
    let q := missed k b
    judgeMiss k p = if (keyRec k b).deaf = false ∧ missFails k b then logRecord (senseRecord k (keyRec k q)) (raise .sense q) else q := by
  dsimp only
  unfold judgeMiss
  dsimp only
  generalize bump .senseMisses p = b
  have fails : decide ((voicing b).missLimit ≤ min 15 ((keyRec k b).missCount + 1)) = decide (missFails k b) := rfl
  have kept : keyRec k (missed k b) = { keyRec k b with missCount := missesAfter k b, deaf := (keyRec k b).deaf || decide (missFails k b) } :=
    keyRec_putKey_same k _ b
  rw [fails, kept]
  unfold missed
  cases (keyRec k b).deaf <;> by_cases h : missFails k b <;> simp [h] <;> rfl

/-- A miss changes the key's records and reports. -/
theorem judgeMiss_tells (k : Key) (p : Part) (hr : RingPlaced p.log) :
    Tells (missed k p) (judgeMiss k p) (wordBytes 0x220)
      (if (keyRec k p).deaf = false ∧ missFails k p then Notice.sense.bit else 0) [.senseMisses] ∧
      counterOf .senseMisses (judgeMiss k p) = min 65535 (counterOf .senseMisses p + 1) := by
  have bumped := (tells_bump .senseMisses p).weaken (narrowBytes (off := 0x220) (by decide) (by decide)) rfl (fun _ h => h)
  have count := counterOf_bump_narrow (c := .senseMisses) (by decide) p
  rw [judgeMiss_eq]
  generalize bump .senseMisses p = b at bumped count ⊢
  have records := bumped.lift (missed k) fun _ _ _ _ => rfl
  have fails : missFails k b = missFails k p := by rw [missFails, missFails, missesAfter, missesAfter, bumped.strikes, bumped.keyRec]
  have kept : counterOf .senseMisses (missed k b) = counterOf .senseMisses b := rfl
  simp only [fails, bumped.keyRec]
  split
  · have raised := tells_raise .sense (missed k b)
    have logged := raised.plain (tells_record (senseRecord k (keyRec k (missed k b))) rfl (raised.ringPlaced (bumped.ringPlaced hr)))
    refine ⟨(records.trans logged).weaken (fun _ ha => ha.resolve_right id) BitVec.zero_or (by simp), ?_⟩
    rw [← count, ← kept]
    exact logged.counterOf (by simp) (by decide)
  · exact ⟨records, count⟩

/-- Settles O51. -/
theorem missJudged : Obligations.MissJudged := by
  intro k p hr
  obtain ⟨tells, count⟩ := judgeMiss_tells k p hr
  exact ⟨tells.shape, tells.reports.congr rfl rfl, count⟩

/-! ## Stale actions (R108) -/

theorem isCurrentTag_eq_false {tag : Word} {x : KeyRec} (h : ∀ st, x.current = some st → st.tag ≠ tag) :
    isCurrentTag tag x = false := by
  unfold isCurrentTag
  cases e : x.current with
  | none => rfl
  | some st => exact decide_eq_false (h st e)

theorem isQueuedTag_eq_false {tag : Word} {x : KeyRec} (h : ∀ qd, x.queued = some qd → qd.strike.tag ≠ tag) :
    isQueuedTag tag x = false := by
  unfold isQueuedTag
  cases e : x.queued with
  | none => rfl
  | some qd => exact decide_eq_false (h qd e)

/-- Settles O35: the owner of each kind first looks for the strike that the tag names. -/
theorem staleActionsDoNothing : Obligations.StaleActionsDoNothing := by
  intro p k tag claim instant slot kind hc hq hk
  have current := isCurrentTag_eq_false hc
  have queued := isQueuedTag_eq_false hq
  simp only [List.mem_cons, List.not_mem_nil, or_false] at hk
  rcases hk with rfl | rfl | rfl | rfl
  · simp [handAction, takeLaunch, current, queued]
  · simp [handAction, takeExpire, current, queued]
  · simp [handAction, takeRelease, current, queued]
  · simp [handAction, takeDepress, current]

end Sys2Proof.Machine
end

section
/-! The close of a line, the computed strike, and a record stored in the Log Ring (Chapters 4, 5 and 11). -/

namespace Sys2Proof.Machine

/-! ## The close of a line for one half (R71, R73 to R77) -/

theorem mem_latchOnsets {h : Half} {f : Format} {events : List TrackEvent} {a : MapAction}
    (ha : a ∈ latchOnsets h f events) : a = .latchSet ∨ a = .latchClear ∨ a = .latchToggle := by
  simp only [latchOnsets, List.mem_map, List.mem_filter, Bool.and_eq_true, decide_eq_true_eq] at ha
  obtain ⟨e, ⟨-, ⟨action, -⟩, -⟩, rfl⟩ := ha
  exact action

/-- The latch follows its onsets in turn, a SET and a CLEAR at one line setting it (R71). -/
theorem latchAfter_eq (b : Bool) {onsets : List MapAction}
    (h : ∀ a ∈ onsets, a = .latchSet ∨ a = .latchClear ∨ a = .latchToggle) :
    latchAfter b onsets = if .latchSet ∈ onsets ∧ .latchClear ∈ onsets then true
      else onsets.foldl (fun b a => if a = .latchToggle then !b else decide (a = .latchSet)) b := by
  have steps : onsets.foldl latchStep b
      = onsets.foldl (fun b a => if a = .latchToggle then !b else decide (a = .latchSet)) b := by
    refine List.foldl_ext _ _ _ fun x a ha => ?_
    rcases h a ha with rfl | rfl | rfl <;> rfl
  rw [latchAfter, steps]
  simp only [Bool.and_eq_true, List.contains_iff_mem]

theorem largest_eq_zero_or_mem (vs : List Nat) : largest vs = 0 ∨ largest vs ∈ vs := by
  by_cases h : vs = []
  · exact .inl (by rw [h]; rfl)
  · exact .inr (largest_mem h)

/-- The shade is the sum of its parts held from Floor to the cap (R77). -/
theorem shadeOf_eq {f : Format} (h1 : f.floor ≤ f.midCap) (h2 : f.midCap ≤ f.ceiling) (latch : Bool) (ramp steps : Nat) :
    shadeOf f latch ramp steps
      = max f.floor (min (if latch = true then f.midCap else f.ceiling) (f.floor + steps + ramp / 65536)) := by
  have cap : f.floor ≤ if latch = true then f.midCap else f.ceiling := by split <;> omega
  unfold shadeOf
  dsimp only
  rw [if_neg (by omega)]
  omega

/-- The ramp stays within RampMax whatever its open entries (R73, R74). -/
theorem rampAfter_le {f : Format} {ramp period : Nat} (hlevel : f.restLevel ≤ f.rampMax) (hramp : ramp ≤ f.rampMax * 65536)
    (rises falls : List Nat) : rampAfter ramp rises falls f period ≤ f.rampMax * 65536 := by
  by_cases hr : rises = [] <;> by_cases hf : falls = []
  · rw [hr, hf]
    exact rampAfter_drift_le hlevel hramp
  · rw [hr, rampAfter_fall hf]
    exact (Nat.sub_le ..).trans hramp
  · rw [hf, rampAfter_rise hr]
    exact min_le_right ..
  · rw [rampAfter_both hr hf]
    exact hramp

/-- The entries that `openValues` reads. -/
theorem mem_openValues_iff {a : MapAction} {h : Half} {f : Format} {p : Part} {v : Nat} : v ∈ openValues a h f p ↔
    ∃ e ∈ f.map, (e.action = a ∧ trackOpen e.track p = true) ∧ actsOn e h = true ∧ e.value = v := by
  simp only [openValues, List.mem_map, List.mem_filter, Bool.and_eq_true, decide_eq_true_eq]
  exact ⟨fun ⟨e, ⟨hm, ⟨ha, hh⟩, ho⟩, hv⟩ => ⟨e, hm, ⟨ha, ho⟩, hh, hv⟩,
    fun ⟨e, hm, ⟨ha, ho⟩, hh, hv⟩ => ⟨e, ⟨hm, ⟨ha, hh⟩, ho⟩, hv⟩⟩

/-- The planned shift state follows the SHIFT pedal's override (R78). -/
theorem shiftPlan_iff (f : Format) (p : Part) : shiftPlan f p = true ↔
    ((pedalRec .shift p).override = .follow ∧ ∃ e ∈ f.map, e.action = .soft ∧ trackOpen e.track p = true)
      ∨ ∃ v, (pedalRec .shift p).override = .force v ∧ 128 ≤ v := by
  unfold shiftPlan anyOpen
  cases (pedalRec .shift p).override <;> simp

/-- The newest entry of the Shade History stands last, and a ninth replaces the oldest (R79). -/
theorem pushHistory_spec {h : List HistoryEntry} (e : HistoryEntry) (hlen : h.length ≤ 8) :
    (pushHistory h e).getLast? = some e ∧ (pushHistory h e).length = min 8 (h.length + 1) := by
  unfold pushHistory
  split
  · exact ⟨List.getLast?_concat .., by rw [List.length_append, List.length_singleton]; omega⟩
  · exact ⟨List.getLast?_concat .., by rw [List.length_append, List.length_tail, List.length_singleton]; omega⟩

/-- Settles O58: the stages of each half, the planned shift state, and the history entry. -/
theorem closeBoundsShade : Obligations.CloseBoundsShade := by
  intro f n due period events p hfloor hcap hlevel hbass htreble hlen
  dsimp only
  refine ⟨fun h hh => ?_, shiftPlan_iff f p, ⟨_, (pushHistory_spec _ hlen).1, rfl, rfl, rfl, rfl, rfl, rfl, rfl⟩,
    (pushHistory_spec _ hlen).2, rfl⟩
  have half : ∃ s, (if h = .bass then p.shading.bass else p.shading.treble) = s ∧ s.ramp ≤ f.rampMax * 65536 ∧
      (if h = .bass then (closeLine f n due period events p).shading.bass else (closeLine f n due period events p).shading.treble)
        = closeHalf h f period events p s := by
    simp only [List.mem_cons, List.not_mem_nil, or_false] at hh
    rcases hh with rfl | rfl
    · exact ⟨_, rfl, hbass, rfl⟩
    · exact ⟨_, rfl, htreble, rfl⟩
  obtain ⟨s, before, hramp, after⟩ := half
  rw [before, after]
  have shade : (closeHalf h f period events p s).shade = _ := shadeOf_eq hfloor hcap ..
  refine ⟨latchAfter_eq _ fun a => mem_latchOnsets, rfl, fun e he ho ha => ?_, ?_, shade, ?_, ?_, fun hl => ?_,
    rampAfter_le hlevel hramp ..⟩
  · exact le_largest (mem_openValues_iff.2 ⟨e, he, ho, ha, rfl⟩)
  · exact (largest_eq_zero_or_mem _).imp id mem_openValues_iff.1
  · rw [shade]; exact le_max_left ..
  · rw [shade]; split <;> omega
  · rw [shade, if_pos (show latchAfter s.latch (latchOnsets h f events) = true from hl)]; omega

/-! ## The computed strike (R94, R95, R97 to R100) -/

/-- Rounding toward the lower point, interpolation stays a width, a flight or a duty: it does not fall below 0 (R98). -/
theorem interpolate_eq (x0 x1 : Nat) {f : Nat} (hf : f ≤ 64) :
    (interpolate x0 x1 f : Int) = x0 + Int.tdiv (((x1 : Int) - x0) * f) 64 := by
  refine Int.toNat_of_nonneg ?_
  rcases Nat.le_total x0 x1 with up | down
  · have := Int.tdiv_nonneg (a := ((x1 : Int) - x0) * f) (b := 64) (mul_nonneg (by omega) (by omega)) (by omega)
    omega
  · have flip : ((x1 : Int) - x0) * f = -(((x0 - x1) * f : Nat) : Int) := by
      rw [Nat.cast_mul, Nat.cast_sub down]; ring
    rw [flip, Int.neg_tdiv, Int.tdiv_eq_ediv_of_nonneg (by omega)]
    have : (x0 - x1) * f / 64 ≤ x0 - x1 := Nat.div_le_of_le_mul (by rw [Nat.mul_comm 64]; exact Nat.mul_le_mul_left _ hf)
    omega

theorem curvePoint_eq (pts : Vector CurvePoint 17) {j : Nat} (hj : j < 17) : curvePoint pts j = pts[j] := by
  rw [curvePoint, Vector.getElem?_eq_getElem hj]
  rfl

/-- A strike code lies between its floor and 1,023 (R95). -/
theorem strikeCode_bounds {velFloor : Nat} (h : velFloor ≤ 512) (s volume : Nat) (trim : Int) (soft : Nat) (shift : Bool) :
    velFloor ≤ strikeCode s volume trim soft shift velFloor ∧ strikeCode s volume trim soft shift velFloor ≤ 1023 := by
  unfold strikeCode
  dsimp only
  omega

/-- Heat lowers a strike code, not below its floor (R97). -/
theorem deratedCode_bounds {velFloor code : Nat} (h : velFloor ≤ 512) (hc : code ≤ 1023) (heat : Nat) (v : Voicing) :
    velFloor ≤ deratedCode code heat velFloor v ∧ deratedCode code heat velFloor v ≤ 1023 := by
  have factor : deratingFactor heat v ≤ 256 := by unfold deratingFactor; omega
  have lowered : code * deratingFactor heat v / 256 ≤ code :=
    Nat.div_le_of_le_mul (by rw [Nat.mul_comm 256]; exact Nat.mul_le_mul_left _ factor)
  unfold deratedCode
  omega

/-- Stages 1 to 3 of a strike (R94, R95, R97). -/
def codeOf (f : Format) (k : Key) (e : HistoryEntry) (p : Part) : Nat :=
  let code := strikeCode (strikeShade (halfOfKey f k) e) (volumeOf (halfOfKey f k) p) p.strikes.voicing.strikeTrim[k]
    f.softOffset e.shiftPlanned (classOf k p).velFloor
  if p.strikes.voicing.warmLimit < (keyRec k p).heat
    then deratedCode code (keyRec k p).heat (classOf k p).velFloor p.strikes.voicing else code

theorem computeStrike_v (f : Format) (k : Key) (n : Word32) (tag : Word) (e : HistoryEntry) (p : Part) :
    (computeStrike f k n tag e p).v = codeOf f k e p := by
  unfold computeStrike codeOf
  simp only [decide_eq_true_eq]
  rfl

/-- Settles O59. -/
theorem computedStrike : Obligations.ComputedStrike := by
  intro f k n tag e p hfloor
  dsimp only
  have code := computeStrike_v f k n tag e p
  have bounds : (classOf k p).velFloor ≤ codeOf f k e p ∧ codeOf f k e p ≤ 1023 := by
    have cool := strikeCode_bounds hfloor (strikeShade (halfOfKey f k) e) (volumeOf (halfOfKey f k) p)
      p.strikes.voicing.strikeTrim[k] f.softOffset e.shiftPlanned
    unfold codeOf
    split
    · exact deratedCode_bounds hfloor cool.2 ..
    · exact cool
  have half : halfOfKey f k = if k.val + 1 ≤ f.splitKey then .bass else .treble := rfl
  refine ⟨?_, by rw [code]; exact bounds.1, by rw [code]; exact bounds.2, fun j hj hjv => ?_, ?_, rfl, rfl, rfl, rfl, rfl,
    half, decide_eq_true_iff, rfl, rfl, rfl⟩
  · rw [code, codeOf, half]
    split
    all_goals split
    all_goals rfl
  · subst hjv
    have low := curvePoint_eq p.strikes.voicing.curves[(classOf k p).curve] (j := codeOf f k e p / 64) (by omega)
    have high := curvePoint_eq p.strikes.voicing.curves[(classOf k p).curve] (j := codeOf f k e p / 64 + 1) (by omega)
    have point : ((computeStrike f k n tag e p).w, (computeStrike f k n tag e p).d, (computeStrike f k n tag e p).u)
        = ((curveAt p.strikes.voicing.curves[(classOf k p).curve] (codeOf f k e p)).w,
          (curveAt p.strikes.voicing.curves[(classOf k p).curve] (codeOf f k e p)).d,
          (curveAt p.strikes.voicing.curves[(classOf k p).curve] (codeOf f k e p)).u) := by
      rw [← code]
      rfl
    simp only [Prod.mk.injEq] at point
    obtain ⟨w, d, u⟩ := point
    rw [w, d, u, curveAt, low, high]
    simp only [code]
    have frac : codeOf f k e p % 64 ≤ 64 := by omega
    exact ⟨interpolate_eq _ _ frac, interpolate_eq _ _ frac, interpolate_eq _ _ frac⟩
  · exact Int.toNat_of_nonneg (by omega)

end Sys2Proof.Machine
end

section
/-! A record stored in the Log Ring (R192, R193, R195). -/

namespace Sys2Proof.Machine

variable {p : Part} {r : Record}

/-- A kept record of one slot with room is stored, and the mark advances by one (R193). -/
theorem logRecord_stored (hc : p.log.configured = true) (hk : filterKeeps r p = true) (hx : r.extension = none)
    (room : logFill p < p.log.slots) : ∃ w, logRecord r p = { p with
      mem := Memory.writeWord (Memory.writeWords p.mem (logSlotOffset p.log p.log.writeMark) (recordWords r p))
        Config.logWriteMarkOffset (p.log.writeMark + 1)
      window := w
      log := { p.log with writeMark := p.log.writeMark + 1 } } := by
  have one : recordSlots r = 1 := by rw [recordSlots, if_pos hx]
  have stored : storeRecord r p = putWords (logSlotOffset p.log p.log.writeMark) (recordWords r p) p := by
    unfold storeRecord
    rw [hx]
  obtain ⟨w, e⟩ := advanceWriteMark_shape 1 (storeRecord r p)
  refine ⟨w, ?_⟩
  rw [logRecord, hc, hk, if_pos (by rfl), one, if_neg (by omega), writeRecord, one, e, stored]
  rfl

/-- Two slots of a ring that marks less than its size apart name are not the same one (R192). -/
theorem ringSlot_apart {slots : Nat} (hs : slots ∈ logSlotCounts) {a b : Word} {j : Nat} (hj : j < (b - a).toNat)
    (hb : (b - a).toNat < slots) : (a + BitVec.ofNat 16 j).toNat % slots ≠ b.toNat % slots := by
  have fill : b.toNat = (a.toNat + (b - a).toNat) % 65536 := by
    rw [← BitVec.toNat_add]
    congr 1
    rw [BitVec.add_comm, BitVec.sub_add_cancel]
  have other : (a + BitVec.ofNat 16 j).toNat = (a.toNat + j) % 65536 := by
    have := (b - a).isLt
    rw [BitVec.toNat_add, BitVec.toNat_ofNat, Nat.mod_eq_of_lt (a := j) (by omega)]
  rw [fill, other]
  generalize (b - a).toNat = n at hj hb
  simp only [logSlotCounts, List.mem_cons, List.not_mem_nil, or_false] at hs
  rcases hs with rfl | rfl | rfl | rfl | rfl | rfl <;> omega

/-- Settles O60. -/
theorem logRecordStored : Obligations.LogRecordStored := by
  intro r p hm hr hc hk hx room
  obtain ⟨w, e⟩ := logRecord_stored hc hk hx room
  obtain ⟨base, -, counts, -⟩ := hr hc
  have free : Config.freeAreaOffset = 0x5200 := rfl
  have mark : Config.logWriteMarkOffset = 0x00E := rfl
  have slots : p.log.slots ≤ 2048 := by
    simp only [logSlotCounts, List.mem_cons, List.not_mem_nil, or_false] at counts
    omega
  have len : (recordWords r p).length = 8 := rfl
  generalize hws : recordWords r p = ws at e len
  have filled : wordAt Config.logWriteMarkOffset (logRecord r p) = p.log.writeMark + 1 := by
    rw [e]
    exact Memory.readWord_writeWord_same _ _ _ (Memory.wf_writeWords _ _ _ hm)
  have words (i : Nat) (hi : i < 8) :
      wordAt (logSlotOffset p.log p.log.writeMark + 2 * i) (logRecord r p) = ws[i] := by
    have above : p.log.base ≤ logSlotOffset p.log p.log.writeMark := Nat.le_add_right ..
    rw [e, wordAt, Memory.readWord_writeWord_other _ _ _ _ (by omega), Memory.readWord_writeWords_same _ _ _ i hm (len ▸ hi)]
  have unread (j : Nat) (hj : j < (p.log.writeMark - p.log.readMark).toNat) (b : Nat) (hb : b < 16) :
      Memory.read (logRecord r p).mem (logSlotOffset p.log (p.log.readMark + BitVec.ofNat 16 j) + b)
        = Memory.read p.mem (logSlotOffset p.log (p.log.readMark + BitVec.ofNat 16 j) + b) := by
    have apart := ringSlot_apart counts hj room
    have above : p.log.base ≤ logSlotOffset p.log (p.log.readMark + BitVec.ofNat 16 j) := Nat.le_add_right ..
    rw [e, Memory.read_writeWord_other _ _ _ _ (by omega) (by omega),
      Memory.read_writeWords_other _ _ _ _ (by unfold logSlotOffset; omega)]
  have fill : (p.log.writeMark + 1 - p.log.readMark).toNat ≤ p.log.slots := by bv_omega
  subst hws
  generalize logRecord r p = q at e filled words unread
  have line : (match r.line with | some n => n | none => p.time.nextLine) = r.line.getD p.time.nextLine := by
    cases r.line <;> rfl
  dsimp only
  have log : q.log = { p.log with writeMark := p.log.writeMark + 1 } := by rw [e]
  refine ⟨by rw [log], filled, by rw [log]; exact fill, unread, words 0 (by omega), words 1 (by omega), (words 2 (by omega)).trans (congrArg lowWord line.symm),
    (words 3 (by omega)).trans (congrArg highWord line.symm), words 4 (by omega), words 5 (by omega), words 6 (by omega), words 7 (by omega), ?_⟩
  have shape : q = { p with mem := q.mem, window := q.window, log := q.log } := by rw [e]
  rw [log] at shape ⊢
  exact shape

end Sys2Proof.Machine
end

section
/-! Every key in turn; the heat update and the rail sample (R127, R128, R132, R134 to R136). -/

namespace Sys2Proof.Machine

variable {p : Part} {f : Key → Part → Part}

/-! ## Every key in turn -/

theorem mem_allKeys (k : Key) : k ∈ allKeys := List.mem_finRange k

theorem allKeys_nodup : allKeys.Nodup := List.nodup_finRange 88

/-- A fold whose steps leave the accumulator as it is. -/
theorem foldl_of_fixed {α β : Type} {g : β → α → β} {b : β} {l : List α} (h : ∀ x ∈ l, g b x = b) : l.foldl g b = b := by
  induction l with
  | nil => rfl
  | cons x xs ih =>
    rw [List.foldl_cons, h x (List.mem_cons_self ..)]
    exact ih fun y hy => h y (List.mem_cons_of_mem _ hy)

/-- A fold only one of whose steps does anything. -/
theorem foldl_of_single {α β : Type} {g : β → α → β} {b : β} {l : List α} {j : α} (hn : l.Nodup) (hj : j ∈ l)
    (before : ∀ x, x ≠ j → g b x = b) (after : ∀ x, x ≠ j → g (g b j) x = g b j) : l.foldl g b = g b j := by
  induction l with
  | nil => cases hj
  | cons x xs ih =>
    rw [List.nodup_cons] at hn
    by_cases hx : x = j
    · subst hx
      exact foldl_of_fixed fun y hy => after y fun e => hn.1 (e ▸ hy)
    · rw [List.foldl_cons, before x hx]
      exact ih hn.2 ((List.mem_cons.1 hj).resolve_left fun e => hx e.symm)

/-- Work at every key that changes nothing. -/
theorem forKeys_of_fixed (h : ∀ k, f k p = p) : forKeys f p = p := foldl_of_fixed fun k _ => h k

/-- Work at every key that only does something at one of them. -/
theorem forKeys_of_single (j : Key) (before : ∀ k, k ≠ j → f k p = p) (after : ∀ k, k ≠ j → f k (f j p) = f j p) :
    forKeys f p = f j p := foldl_of_single allKeys_nodup (mem_allKeys j) before after

/-- Work at every key that replaces its record by one that the part before gives, whatever became of other keys. -/
theorem forKeys_records (g : Key → KeyRec)
    (hf : ∀ k q, q = { p with keys := q.keys } → keyRec k q = keyRec k p → f k q = putKey k (g k) q) :
    forKeys f p = { p with keys := (forKeys f p).keys } ∧ ∀ k, keyRec k (forKeys f p) = g k := by
  have fold (l : List Key) (hn : l.Nodup) : ∀ q : Part, q = { p with keys := q.keys } → (∀ k ∈ l, keyRec k q = keyRec k p) →
      l.foldl (fun q k => f k q) q = { p with keys := (l.foldl (fun q k => f k q) q).keys } ∧
        ∀ k, keyRec k (l.foldl (fun q k => f k q) q) = if k ∈ l then g k else keyRec k q := by
    induction l with
    | nil => exact fun q hq _ => ⟨hq, fun k => rfl⟩
    | cons x xs ih =>
      intro q hq untouched
      rw [List.nodup_cons] at hn
      have eq : f x q = putKey x (g x) q := hf x q hq (untouched x (List.mem_cons_self ..))
      have step : f x q = { p with keys := (f x q).keys } := by
        rw [eq]
        generalize g x = r
        conv_lhs => rw [hq]
        rfl
      have others (k : Key) (hk : k ≠ x) : keyRec k (f x q) = keyRec k q := by rw [eq, keyRec_putKey_other hk]
      obtain ⟨shape, records⟩ := ih hn.2 (f x q) step fun k hk =>
        (others k fun e => hn.1 (e ▸ hk)).trans (untouched k (List.mem_cons_of_mem _ hk))
      refine ⟨shape, fun k => ?_⟩
      rw [List.foldl_cons, records k]
      by_cases hk : k = x
      · subst hk
        rw [if_neg hn.1, if_pos (List.mem_cons_self ..), eq, keyRec_putKey_same]
      · rw [others k hk]
        simp only [List.mem_cons, hk, false_or]
  obtain ⟨shape, records⟩ := fold allKeys allKeys_nodup p rfl fun _ _ => rfl
  exact ⟨shape, fun k => (records k).trans (if_pos (mem_allKeys k))⟩

/-! ## The heat update (R127, R128) -/

theorem heatingDuty_eq (r : KeyRec) :
    heatingDuty r = if r.state = .hold ∨ r.state = .depressing then r.output.getD 0 else 0 := by
  unfold heatingDuty
  cases r.state <;> simp

/-- Settles O43. -/
theorem heatUpdateEffect : Obligations.HeatUpdateEffect := by
  intro s ht
  dsimp only
  let q := { driveTo s.part.clocks.nextHeat s.part with
    clocks := { (driveTo s.part.clocks.nextHeat s.part).clocks with nextHeat := s.part.clocks.nextHeat + 10000 } }
  let heated (r : KeyRec) : Nat := min 65535 (r.heat - r.heat / 2 ^ s.part.strikes.voicing.heatShift + heatingDuty r)
  obtain ⟨shape, records⟩ := forKeys_records (p := q) (f := heatKey)
    (fun k => { keyRec k q with
      heat := heated (keyRec k q), cut := judgedCut (heated (keyRec k q)) (keyRec k q).cut s.part.strikes.voicing })
    (fun k x hx hk => by
      have same : voicing x = s.part.strikes.voicing := by rw [hx]; rfl
      rw [heatKey, same, hk])
  refine ⟨_, withPart_inTime ht _, rfl, shape, fun k => ?_⟩
  refine (records k).trans ?_
  simp only [heated, heatingDuty_eq]
  rfl

/-! ## The rail sample (R134 to R136) -/

theorem railAfter_eq (before : RailState) (v : Nat) (c : Setup) : railAfter before v c =
    if v < c.lowLevel then .low
    else if c.sagLevel + c.railHyst ≤ v then .normal
    else if before = .normal ∧ c.sagLevel ≤ v then .normal
    else if before = .low ∧ v < c.lowLevel + c.railHyst then .low
    else .sag := by
  unfold railAfter
  cases before <;> simp only [true_and, false_and, reduceCtorEq, if_false]
  by_cases h : v < c.sagLevel
  · rw [if_pos h, if_neg (Nat.not_le.2 h)]
  · rw [if_neg h, if_pos (Nat.not_lt.1 h)]

theorem budgetFor_eq (ibud : Nat) (a : Analog) : budgetFor ibud a =
    if a.rail = .normal then ibud else if a.rail = .low then 0
    else min ibud (ibud * (a.vrail - a.judgedLow) / (a.judgedSag - a.judgedLow)) := by
  unfold budgetFor
  cases a.rail <;> rfl

theorem formBudget_of_nobodyWaits (h : NobodyWaits p.budget) :
    formBudget p = { p with budget := { p.budget with inForce := budgetFor p.budget.ibud p.analog } } := by
  unfold formBudget
  dsimp only
  rw [noteCause_of_nobodyWaits (by exact h), ite_self]

/-- The rail and budget after a rail sample where nobody waits. -/
def railSampled (sample : Nat) (p : Part) : Part :=
  let analog : Analog := {
    vrail := sample, rail := railAfter p.analog.rail sample p.window.setup
    judgedSag := p.window.setup.sagLevel, judgedLow := p.window.setup.lowLevel }
  { p with analog := analog, budget := { p.budget with inForce := budgetFor p.budget.ibud analog } }

theorem railConversion_eq (sample : Nat) (hn : NobodyWaits p.budget) :
    let after := railAfter p.analog.rail sample p.window.setup
    let q := railSampled sample p
    railConversion sample p = if after = p.analog.rail then q
      else logRecord (railRecord p.analog.rail after sample q.budget.inForce)
        (raiseEdge .rail (if railFalls p.analog.rail after then .entry else .leave) q) := by
  unfold railConversion
  dsimp only
  rw [formBudget_of_nobodyWaits (by exact hn)]
  rfl

theorem tells_raiseEdge (n : Notice) (e : Edge) (p : Part) :
    Tells p (raiseEdge n e p) (fun _ => False) (if edgeSelected n e p then n.bit else 0) [] := by
  refine ⟨?_, reports_raiseEdge n e p⟩
  obtain ⟨w, shape⟩ := raiseEdge_shape n e p
  rw [shape]

/-- A rail sample changes the rail and the budget, and reports a change of the rail state. -/
theorem railConversion_spec (sample : Nat) (hr : RingPlaced p.log) (hn : NobodyWaits p.budget) :
    let after := railAfter p.analog.rail sample p.window.setup
    (after = p.analog.rail → railConversion sample p = railSampled sample p) ∧
      Tells (railSampled sample p) (railConversion sample p) (fun _ => False)
        (if after ≠ p.analog.rail ∧ p.window.ncfg.getLsbD (if railCode p.analog.rail < railCode after then 4 else 5) = true
          then Notice.rail.bit else 0) [] := by
  dsimp only
  rw [railConversion_eq sample hn]
  by_cases same : railAfter p.analog.rail sample p.window.setup = p.analog.rail
  · rw [if_pos same]
    refine ⟨fun _ => rfl, ?_⟩
    rw [if_neg fun h => h.1 same]
    exact .refl _
  · rw [if_neg same]
    refine ⟨fun h => absurd h same, ?_⟩
    set e : Edge := if railFalls p.analog.rail (railAfter p.analog.rail sample p.window.setup) then .entry else .leave with he
    have selected : edgeSelected .rail e (railSampled sample p) = p.window.ncfg.getLsbD
        (if railCode p.analog.rail < railCode (railAfter p.analog.rail sample p.window.setup) then 4 else 5) := by
      rw [he, railFalls]
      simp only [decide_eq_true_eq]
      split <;> rfl
    have raised := tells_raiseEdge .rail e (railSampled sample p)
    rw [selected] at raised
    simp only [ne_eq, same, not_false_eq_true, true_and]
    exact raised.plain (tells_record _ rfl (raised.ringPlaced hr))

/-- Settles O44: the budget formed anew, and the report of a change. -/
theorem railSampleEffect : Obligations.RailSampleEffect := by
  intro s sample hr ht hn
  dsimp only
  rw [← railAfter_eq s.part.analog.rail sample.toNat s.part.window.setup]
  let q : Part := { driveTo s.part.clocks.nextRail s.part with
    clocks := { (driveTo s.part.clocks.nextRail s.part).clocks with nextRail := s.part.clocks.nextRail + 1000 }
    pins := { (driveTo s.part.clocks.nextRail s.part).pins with rail := sample } }
  obtain ⟨same, tells⟩ := railConversion_spec (p := q) sample.toNat hr hn
  have nobody : NobodyWaits (railConversion sample.toNat q).budget := by rw [tells.budget]; exact hn
  have served : reachRail sample s.part
      = { railConversion sample.toNat q with budget := { (railConversion sample.toNat q).budget with serveCause := false } } :=
    serve_of_nobodyWaits nobody
  have told := tells.lift (fun x => { x with budget := { x.budget with serveCause := false } }) fun _ _ _ _ => rfl
  simp only [← served] at told
  refine ⟨_, withPart_inTime ht _, rfl, told.shape.trans ?_, fun h => ?_, told.reports.congr rfl rfl⟩
  · simp only [railSampled, budgetFor_eq]
    rfl
  · dsimp only
    rw [served, same h]
    exact ⟨rfl, rfl, rfl⟩

end Sys2Proof.Machine
end

section
/-! The wheel slot with nothing due, the wait for a line, and STARVED (R50, R51, R106). -/

namespace Sys2Proof.Machine

variable {p : Part}

/-! ## The wheel slot -/

theorem drainTest_of_not_draining (h : p.time.engine ≠ .draining) : drainTest p = p := if_neg fun e => h e.1

/-- A slot in whose chain no action is due is walked at once. -/
theorem walkSlot_of_none_due {x : Nat} (h : p.wheel.actions.find? (dueInSlot x p.wheel) = none) (fuel : Nat) :
    walkSlot x fuel p = p := by
  cases fuel with
  | zero => rfl
  | succ fuel => rw [walkSlot, h]

theorem planTo_shape (i : Word32) (p : Part) : ∃ t x, planTo i p = { p with clocks := x, time := { p.time with clock := t } } := by
  unfold planTo
  split
  · exact ⟨p.time.clock, p.clocks, rfl⟩
  · exact ⟨_, _, rfl⟩

/-- Settles O33: no action of the slot's chain has come, so the walk ends at once. -/
theorem wheelSlotAdvances : Obligations.WheelSlotAdvances := by
  intro s ht hc he
  dsimp only
  intro ha
  refine (withPart_inTime ht turnWheel).trans (congrArg (fun q => Host.Outcome.next { s with part := q }) ?_)
  obtain ⟨t, x, shape⟩ := planTo_shape s.part.wheel.position s.part
  rw [turnWheel, hc, if_pos (by rfl), takeSlotActions, shape]
  dsimp only
  rw [walkSlot_of_none_due, drainTest_of_not_draining (by exact he)]
  · rfl
  · refine List.find?_eq_none.2 fun a hm => ?_
    rw [dueInSlot, Bool.and_eq_true, decide_eq_true_eq]
    rintro ⟨slot, due⟩
    refine (ha a hm).elim (fun h => h slot) fun h => ?_
    exact Bool.false_ne_true (h.symm.trans due)

/-! ## The wait for a line (R50) -/

/-- A clock brought to a later instant is at or after it. -/
theorem atOrAfter_planTo (i : Word32) (hruns : clockRuns p = true) : atOrAfter (planTo i p).time.clock i = true := by
  unfold planTo
  split
  · assumption
  · have clock : (passTime (i - p.time.clock).toNat p).time.clock = i := by
      simp only [passTime, hruns, if_true, plusTime, BitVec.ofNat_toNat, BitVec.setWidth_eq]
      rw [BitVec.add_comm, BitVec.sub_add_cancel]
    rw [clock, atOrAfter, BitVec.sub_self]
    rfl

theorem clockRuns_of_takes (h : engineTakesLines p = true) : clockRuns p = true := by
  rw [engineTakesLines_iff] at h
  rcases h with h | h <;> rw [clockRuns, h]

/-- A line cannot be taken with a mark fault, with no slot at hand, or with too few entries free (R50). -/
theorem takeable_eq_false (h : 257 ≤ stripSpan p ∨ (stripSpan p = 0 ∧ p.strip.held = none) ∨ p.wheel.free < 320) :
    takeable p = false := by
  have pool : Config.poolForLine = 320 := rfl
  rcases h with h | ⟨h1, h2⟩ | h
  · simp [takeable, lineAtHand, markFault, h]
  · simp [takeable, lineAtHand, h1, h2]
  · simp [takeable, pool, h]

/-- Settles O31: the instant is the one at which the line may be considered, and nothing else is at hand. -/
theorem lookaheadWaits : Obligations.LookaheadWaits := by
  intro s ht he hw
  dsimp only
  intro hno
  have takes : engineTakesLines s.part = true := engineTakesLines_iff.2 he
  refine (withPart_inTime ht reachLookahead).trans (congrArg (fun q => Host.Outcome.next { s with part := q }) ?_)
  have reached := atOrAfter_planTo (lookaheadInstant s.part) (clockRuns_of_takes takes)
  rw [reachLookahead, takes, hw, if_pos (by rfl)]
  obtain ⟨t, x, shape⟩ := planTo_shape (lookaheadInstant s.part) s.part
  have goal : planTo (minusTime (dueInt s.part.time.due) s.part.time.lookahead) s.part = planTo (lookaheadInstant s.part) s.part := rfl
  rw [goal]
  rw [shape] at reached ⊢
  rw [consider_waits (engineConsiders_of_takes (by exact takes)) (by exact reached) (takeable_eq_false (by exact hno))]
  simp only [waitingCause, markFault, decide_eq_true_eq]
  rfl

/-! ## STARVED (R51) -/

/-- A change of engine state changes the state, and reports. -/
theorem enterEngine_tells (e : EngineState) (c : Nat) (hm : Memory.wf p.mem = true) (hr : RingPlaced p.log) :
    Tells { p with time := { p.time with engine := e } } (enterEngine e c p) (wordBytes Config.engineStateOffset) Notice.engine.bit [] ∧
      wordAt Config.engineStateOffset (enterEngine e c p) = natWord (engineCode e) := by
  obtain ⟨reports, word⟩ := enterEngine_reports e c hm hr
  refine ⟨⟨?_, reports.congr rfl rfl⟩, word⟩
  obtain ⟨m, w, l, shape⟩ := enterEngine_shape e c p
  rw [shape]

/-- The Playback Controller in STARVED, before it reports. -/
def starved (p : Part) : Part :=
  { p with time := { p.time with
    engine := .starved, returnState := some p.time.engine, starveCause := p.time.lastCause } }

theorem enterStarved_eq (p : Part) : ∃ cause, enterStarved p =
    let q := raiseEdge .starve .entry
      { p with time := { p.time with returnState := some p.time.engine, starveCause := p.time.lastCause } }
    let q := enterEngine .starved cause q
    bump .starvations (logRecord (starveRecord cause q.time.nextLine (dueInt q.time.due)) q) := ⟨_, rfl⟩

/-- Entry into STARVED changes the engine's state and what it records of it, and reports (R51). -/
theorem enterStarved_spec (hm : Memory.wf p.mem = true) (hr : RingPlaced p.log) :
    Tells (starved p) (enterStarved p) (fun a => wordBytes Config.engineStateOffset a ∨ wordBytes 0x214 a)
      (Notice.engine.bit ||| if p.window.ncfg.getLsbD 0 = true then Notice.starve.bit else 0) [.starvations] ∧
      wordAt Config.engineStateOffset (enterStarved p) = 4 ∧
      counterOf .starvations (enterStarved p) = min 65535 (counterOf .starvations p + 1) := by
  obtain ⟨cause, eq⟩ := enterStarved_eq p
  rw [eq]
  clear eq
  dsimp only
  set s : Part := { p with time := { p.time with returnState := some p.time.engine, starveCause := p.time.lastCause } } with hs
  have raised := tells_raiseEdge .starve .entry s
  have memory : (raiseEdge .starve .entry s).mem = p.mem := by
    obtain ⟨w, e⟩ := raiseEdge_shape .starve .entry s
    rw [e]
  generalize raiseEdge .starve .entry s = a at raised memory ⊢
  obtain ⟨entered, word⟩ := enterEngine_tells .starved cause (p := a) (memory ▸ hm) (raised.ringPlaced hr)
  have before : Tells (starved p) { a with time := { a.time with engine := .starved } } (fun _ => False)
      (if p.window.ncfg.getLsbD 0 = true then Notice.starve.bit else 0) [] :=
    raised.lift (fun x => { x with time := { x.time with engine := .starved } }) fun _ _ _ _ => rfl
  generalize enterEngine .starved cause a = b at entered word ⊢
  have logged := tells_record (p := b) (starveRecord cause b.time.nextLine (dueInt b.time.due)) rfl
    (entered.ringPlaced (before.ringPlaced hr))
  have count := counterOf_bump_narrow (c := .starvations) (by decide) (logRecord (starveRecord cause b.time.nextLine (dueInt b.time.due)) b)
  generalize logRecord (starveRecord cause b.time.nextLine (dueInt b.time.due)) b = c at logged count ⊢
  have counted := (tells_bump .starvations c).weaken (narrowBytes (off := 0x214) (by decide) (by decide)) rfl (fun _ h => h)
  have after := logged.after counted
  refine ⟨((before.trans entered).trans after).weaken ?_ ?_ (by simp), ?_, ?_⟩
  · rintro x ((h | h) | h)
    · exact h.elim
    · exact .inl h
    · exact .inr h
  · exact (BitVec.or_zero ..).trans (BitVec.or_comm ..)
  · refine Eq.trans ?_ word
    have low (x : Nat) (hx : x = 4 ∨ x = 5) : ¬ wordBytes 0x214 x ∧ ¬ logByte b.log x :=
      ⟨fun h => by unfold wordBytes at h; omega,
        not_logByte_of_low (entered.ringPlaced (before.ringPlaced hr)) (by omega) (by omega) (by omega)⟩
    exact after.reports.wordAt_eq (low _ (.inl rfl)).1 (low _ (.inr rfl)).1 (low _ (.inl rfl)).2 (low _ (.inr rfl)).2
  · rw [count, logged.counterOf (by simp) (by decide), entered.counterOf (by simp) (by decide)]
    exact congrArg (fun n => min 65535 (n + 1)) (raised.counterOf (by simp) (by decide))

/-- A line that is wanted is still untaken at its Guard instant (R51). -/
theorem reachGuard_of_wanted (h : engineTakesLines p = true) (hw : p.time.wanted = true) :
    reachGuard p = enterStarved (planTo (guardInstant p) p) := by
  obtain ⟨t, x, shape⟩ := planTo_shape (guardInstant p) p
  have wanted : (planTo (guardInstant p) p).time.wanted = true := by rw [shape]; exact hw
  have takes : engineTakesLines (planTo (guardInstant p) p) = true := by rw [shape]; exact h
  rw [reachGuard, if_pos h]
  simp only [wanted, takes, if_true, and_self]

/-- Settles O32. -/
theorem guardStarves : Obligations.GuardStarves := by
  intro s hm hr ht he hw
  dsimp only
  obtain ⟨t, x, shape⟩ := planTo_shape (guardInstant s.part) s.part
  have takes : engineTakesLines s.part = true := engineTakesLines_iff.2 he
  have goal : planTo (minusTime (dueInt s.part.time.due) s.part.strikes.guardTime) s.part = planTo (guardInstant s.part) s.part := rfl
  have starves := reachGuard_of_wanted takes hw
  rw [goal]
  rw [shape] at starves ⊢
  generalize hp : { s.part with clocks := x, time := { s.part.time with clock := t } } = p at starves ⊢
  obtain ⟨tells, word, count⟩ := enterStarved_spec (p := p) (by rw [← hp]; exact hm) (by rw [← hp]; exact hr)
  have state := withPart_inTime ht reachGuard
  rw [starves] at state
  refine ⟨_, state, rfl, ?_, ?_, word, ?_⟩
  · refine tells.shape.trans ?_
    rw [starved, ← hp]
  · have kept := tells.reports.congr (p' := p) (q' := enterStarved p) rfl rfl
    rw [← hp] at kept ⊢
    exact kept
  · dsimp only
    rw [count, ← hp]
    rfl

end Sys2Proof.Machine
end

section
/-! The rules of a key: its claim, release, HOLD, RELIEVED, DRIVE and IDLE (R115 to R126), where no holder waits. -/

namespace Sys2Proof.Machine

variable {p q : Part} {k : Key} {r r' : KeyRec} {st : Strike} {own : Nat → Prop} {bits : BitVec 9} {counted : List Counter}

/-! ## A key's record replaced, the committed current with its claim -/

/-- The key's record is replaced, and the committed current follows its claim (R130). -/
def rekey (k : Key) (r : KeyRec) (p : Part) : Part :=
  { p with
    keys := p.keys.set k r
    budget := { p.budget with committed := p.budget.committed - (keyRec k p).claim + r.claim } }

@[simp] theorem keyRec_rekey_same : keyRec k (rekey k r p) = r := Vector.getElem_set_self ..

theorem putKey_putKey : putKey k r (putKey k r' p) = putKey k r p := by
  simp only [putKey, Vector.set_set]

/-- Only the claim of a record counts for the committed current. -/
theorem putKey_rekey (h : r.claim = r'.claim) : putKey k r (rekey k r' p) = rekey k r p := by
  simp only [putKey, rekey, Vector.set_set, h]

theorem rekey_putKey (h : r'.claim = (keyRec k p).claim) : rekey k r (putKey k r' p) = rekey k r p := by
  rw [rekey, keyRec_putKey_same, h]
  simp only [putKey, Vector.set_set]
  rfl

theorem rekey_of_same_claim (h : r.claim = (keyRec k p).claim) (hc : (keyRec k p).claim ≤ p.budget.committed) :
    rekey k r p = putKey k r p := by
  simp only [rekey, h, Nat.sub_add_cancel hc]
  rfl

/-- A claim set is the record replaced, but for the cause of serving that a fall gives (R131). -/
theorem setKeyClaim_shape (k : Key) (amount : Nat) (p : Part) : ∃ c, setKeyClaim k amount p =
    let q := rekey k { keyRec k p with claim := amount } p
    { q with budget := { q.budget with serveCause := c } } := by
  unfold setKeyClaim
  dsimp only
  split
  · unfold noteCause
    split
    · exact ⟨_, rfl⟩
    · exact ⟨_, rfl⟩
  · exact ⟨_, rfl⟩

theorem setKeyClaim_eq {amount : Nat} (h : NobodyWaits p.budget ∨ (keyRec k p).claim ≤ amount) :
    setKeyClaim k amount p = rekey k { keyRec k p with claim := amount } p := by
  unfold setKeyClaim
  dsimp only
  split
  · next falls =>
    rw [noteCause_of_nobodyWaits (by exact h.resolve_right (Nat.not_le.2 falls))]
    rfl
  · rfl

/-! ## Serving where nobody waits -/

/-- The part with the cause of serving put away. -/
def calm (p : Part) : Part := { p with budget := { p.budget with serveCause := false } }

theorem serve_eq_calm (h : NobodyWaits p.budget) : serve p = calm p := serve_of_nobodyWaits h

theorem Tells.calm (h : Tells p q own bits counted) : Tells (calm p) (calm q) own bits counted :=
  h.lift Machine.calm fun _ _ _ _ => rfl

theorem reliefTest_of_not_ready (h : (keyRec k p).state ≠ .hold ∨ (keyRec k p).reliefReady = false) : reliefTest k p = p := by
  refine if_neg ?_
  rintro ⟨hs, hr, -⟩
  rcases h with h | h
  · exact h hs
  · rw [h] at hr
    exact Bool.false_ne_true hr

/-- A key that is not ready for relief is settled by putting the cause away. -/
theorem settleHold_eq (hn : NobodyWaits p.budget) (h : (keyRec k p).state ≠ .hold ∨ (keyRec k p).reliefReady = false) :
    settleHold k p = calm p := by
  rw [settleHold, serve_eq_calm hn, reliefTest_of_not_ready (by exact h), serve_eq_calm (by exact hn)]
  rfl

/-! ## Events of a key -/

theorem keyOfNumber_succ (k : Key) : keyOfNumber (k.val + 1) = some k := by
  unfold keyOfNumber
  simp

/-- A drive timer that runs out in its state carries out the state's rule at its instant. -/
theorem timerEvent_eq {state : KeyState} {t : Nat} (f : Key → Part → Part) (hs : (keyRec k p).state = state)
    (ht : (keyRec k p).timer = some t) : timerEvent state f k p = f k (driveTo t p) := by
  unfold timerEvent
  dsimp only
  rw [ht]
  exact if_pos hs

theorem withPart_timerEvent {s : State} {state : KeyState} {t : Nat} (f : Key → Part → Part) (h : timeStands s.part = false)
    (hs : (keyRec k s.part).state = state) (ht : (keyRec k s.part).timer = some t) :
    withPart (inTime (forKeyNumber (k.val + 1) (timerEvent state f))) s = .next { s with part := f k (driveTo t s.part) } := by
  rw [withPart_inTime h, forKeyNumber, keyOfNumber_succ]
  exact congrArg (fun q => Host.Outcome.next { s with part := q }) (timerEvent_eq f hs ht)

/-! ## Release (R120) -/

/-- The record of a key released into LIFTING. -/
def releasedRecord (k : Key) (p : Part) : KeyRec :=
  let gap := p.clocks.drive + (classOf k p).repeatGap
  { keyRec k p with
    state := .lifting, current := none, releasePending := false, reliefReady := false, output := none
    coverDamper := false, coverMiddle := false, claim := 0, gapEnd := some gap, timer := some gap
    lastRelease := some p.time.clock }

/-- The part with a key released into LIFTING, before the RELEASE record. -/
def released (k : Key) (p : Part) : Part := rekey k (releasedRecord k p) p

theorem liftOrIdle_lifts {t : Nat} (h : (keyRec k p).gapEnd = some t) (ht : p.clocks.drive < t)
    (he : p.time.engine ≠ .draining) :
    liftOrIdle k p = putKey k { keyRec k p with state := .lifting, timer := some t } p := by
  unfold liftOrIdle
  dsimp only
  rw [h]
  dsimp only
  rw [if_pos ht, drainTest_of_not_draining (by exact he)]

/-- The RELEASE record of a key that has a strike. -/
def logRelease (k : Key) (p q : Part) : Part :=
  match (keyRec k p).current with
  | some st => logRecord (releaseRecord k st.tag) q
  | none => q

theorem logRelease_tells (k : Key) (p : Part) (hr : RingPlaced q.log) : Tells q (logRelease k p q) (fun _ => False) 0 [] := by
  unfold logRelease
  split
  · exact tells_record _ rfl hr
  · exact .refl q

theorem releaseKey_eq (hn : NobodyWaits p.budget) (hon : driveOn (keyRec k p) = true) : releaseKey k p
    = liftOrIdle k (logRelease k p (rekey k { releasedRecord k p with state := (keyRec k p).state } p)) := by
  unfold releaseKey
  rw [setKeyClaim_eq (.inl hn), hon]
  simp only [if_true, keyRec_rekey_same]
  rw [putKey_rekey (by rfl)]
  rfl

/-- A key whose drive is on is released into LIFTING, its claim freed and its strike reported (R120). -/
theorem releaseKey_tells (hr : RingPlaced p.log) (hn : NobodyWaits p.budget) (he : p.time.engine ≠ .draining)
    (hg : 0 < (classOf k p).repeatGap) (hon : driveOn (keyRec k p) = true) :
    Tells (released k p) (releaseKey k p) (fun _ => False) 0 [] := by
  rw [releaseKey_eq hn hon]
  set x := rekey k { releasedRecord k p with state := (keyRec k p).state } p with hx
  have logged := logRelease_tells (q := x) k p hr
  generalize logRelease k p x = y at logged ⊢
  have record : keyRec k y = { releasedRecord k p with state := (keyRec k p).state } := by
    rw [logged.keyRec, hx, keyRec_rekey_same]
  rw [liftOrIdle_lifts (by rw [record]; rfl) (by rw [logged.clocks]; exact Nat.lt_add_of_pos_right hg)
    (by rw [logged.time]; exact he), record]
  have lifted := logged.lift (putKey k (releasedRecord k p)) fun _ _ _ _ => rfl
  rw [hx, putKey_rekey (by rfl)] at lifted
  exact lifted

/-! ## HOLD (R118, R119, R126) -/

theorem keyClaimPasses_iff {h : Half} {amount : Nat} : keyClaimPasses h amount p.budget = true ↔
    halfQueue h p.budget = [] ∧ p.budget.pedalQ = [] ∧ p.budget.committed + amount ≤ p.budget.inForce := by
  simp [keyClaimPasses, fits, and_assoc]

theorem keyClaimPasses_of_nobodyWaits (hn : NobodyWaits p.budget) (h : Half) (amount : Nat) :
    keyClaimPasses h amount p.budget = true ↔ p.budget.committed + amount ≤ p.budget.inForce := by
  obtain ⟨hp, hb, ht⟩ := hn
  rw [keyClaimPasses_iff]
  cases h <;> simp [halfQueue, hp, hb, ht]

/-- The record of a key that enters HOLD with a ReliefDelay above 0. -/
def heldRecord (k : Key) (claim : Nat) (p : Part) : KeyRec :=
  { keyRec k p with
    state := .hold, output := some (classOf k p).holdDuty, reliefReady := false
    timer := some (p.clocks.drive + p.window.setup.reliefDelay * 1000), claim := claim }

/-- The hold claim is no increase, or one that fits. -/
def holdFits (k : Key) (st : Strike) (p : Part) : Prop :=
  st.iHold ≤ (keyRec k p).claim ∨ p.budget.committed + (st.iHold - (keyRec k p).claim) ≤ p.budget.inForce

theorem passToHold_holds (hn : NobodyWaits p.budget) (hc : (keyRec k p).current = some st) (hf : holdFits k st p)
    (hd : 0 < p.window.setup.reliefDelay) : passToHold k p = rekey k (heldRecord k st.iHold p) p := by
  unfold passToHold
  dsimp only
  rw [hc]
  dsimp only
  rw [if_pos (hf.imp id (keyClaimPasses_of_nobodyWaits hn ..).2), setKeyClaim_eq (.inl hn)]
  unfold enterHold
  have delay : (rekey k { keyRec k p with claim := st.iHold } p).window.setup.reliefDelay * 1000 ≠ 0 :=
    Nat.mul_ne_zero (Nat.pos_iff_ne_zero.1 hd) (by omega)
  simp only [keyRec_rekey_same, delay, decide_false, if_false]
  rw [putKey_rekey (by rfl)]
  rfl

theorem passToHold_releases (hn : NobodyWaits p.budget) (hc : (keyRec k p).current = some st) (hf : ¬ holdFits k st p) :
    passToHold k p = releaseKey k p := by
  unfold passToHold
  dsimp only
  rw [hc]
  dsimp only
  exact if_neg fun h => hf (h.imp id (keyClaimPasses_of_nobodyWaits hn ..).1)

/-- Settles O36: the pulse and the depress end in the same rule. -/
theorem pulseAndDepressEndHold : Obligations.PulseAndDepressEndHold := by
  intro s k st t hs hn ht hc hf hd
  dsimp only
  have nobody : NobodyWaits (driveTo t s.part).budget := hn
  have holds : passToHold k (driveTo t s.part) = _ := passToHold_holds nobody (k := k) hc hf hd
  have settled : settleHold k (passToHold k (driveTo t s.part)) = calm (rekey k (heldRecord k st.iHold (driveTo t s.part)) (driveTo t s.part)) := by
    rw [holds]
    exact settleHold_eq nobody (.inr (by rw [keyRec_rekey_same]; rfl))
  refine ⟨fun state pending => ?_, fun state => ?_⟩
  · refine (withPart_timerEvent pulseRunsOut hs state ht).trans (congrArg (fun q => Host.Outcome.next { s with part := q }) ?_)
    have ends : endPulse k (driveTo t s.part) = passToHold k (driveTo t s.part) := if_neg (by rw [show (keyRec k (driveTo t s.part)).releasePending = false from pending]; exact Bool.false_ne_true)
    rw [pulseRunsOut, ends]
    exact settled
  · exact (withPart_timerEvent depressRunsOut hs state ht).trans (congrArg (fun q => Host.Outcome.next { s with part := q }) settled)

/-- Settles O37: both ends come to the release, after which the key is not ready for relief. -/
theorem pulseEndReleases : Obligations.PulseEndReleases := by
  intro s k st t hr hs hn he hg ht hc
  dsimp only
  intro c hcase
  set p := driveTo t s.part with hp
  have notHeld (h : (keyRec k s.part).claim < st.iHold
      ∧ s.part.budget.inForce < s.part.budget.committed + (st.iHold - (keyRec k s.part).claim)) : ¬ holdFits k st p := by
    rintro (fits | fits)
    · exact absurd fits (Nat.not_le.2 h.1)
    · exact absurd fits (Nat.not_le.2 h.2)
  have settled (hon : driveOn (keyRec k p) = true) :
      Tells (calm (released k p)) (settleHold k (releaseKey k p)) (fun _ => False) 0 [] := by
    have tells := releaseKey_tells (p := p) hr hn he hg hon
    rw [settleHold_eq (by rw [tells.budget]; exact hn)
      (.inl (by rw [tells.keyRec, released, keyRec_rekey_same]; exact KeyState.noConfusion))]
    exact tells.calm
  have outcome : driveOn (keyRec k p) = true ∧ exec c s = .next { s with part := settleHold k (releaseKey k p) } := by
    rcases hcase with ⟨rfl, state, why⟩ | ⟨rfl, state, refused⟩
    · refine ⟨decide_eq_true (.inl state), (withPart_timerEvent pulseRunsOut hs state ht).trans ?_⟩
      have ends : endPulse k p = releaseKey k p := by
        unfold endPulse
        split
        · rfl
        · next pending => exact passToHold_releases (p := p) hn hc (notHeld (why.resolve_left pending))
      rw [pulseRunsOut, ends]
    · refine ⟨decide_eq_true (.inr (.inr state)), (withPart_timerEvent depressRunsOut hs state ht).trans ?_⟩
      rw [depressRunsOut, passToHold_releases (p := p) hn hc (notHeld refused)]
  have told := settled outcome.1
  exact ⟨_, outcome.2, rfl, told.shape, told.reports.congr rfl rfl⟩

/-! ## Relief (R125, R161) -/

/-- The record of a key that enters RELIEVED. -/
def relievedRecord (k : Key) (p : Part) : KeyRec :=
  { keyRec k p with
    state := .relieved, output := none, reliefReady := false, timer := none, claim := 0
    gapEnd := some (p.clocks.drive + (classOf k p).repeatGap)
    coverDamper := covers .damper k p, coverMiddle := covers .middle k p }

theorem relieveKey_eq (hn : NobodyWaits p.budget) : relieveKey k p = rekey k (relievedRecord k p) p := by
  unfold relieveKey
  rw [setKeyClaim_eq (.inl hn)]
  simp only [keyRec_rekey_same]
  rw [putKey_rekey (by rfl)]
  rfl

/-- Settles O38. -/
theorem reliefDelayEndEffect : Obligations.ReliefDelayEndEffect := by
  intro s k t hs hn state ht
  dsimp only
  refine (withPart_timerEvent reliefDelayRunsOut hs state ht).trans (congrArg (fun q => Host.Outcome.next { s with part := q }) ?_)
  set p := driveTo t s.part with hp
  set ready := putKey k { keyRec k p with reliefReady := true, timer := none } p with hready
  have record : keyRec k ready = { keyRec k p with reliefReady := true, timer := none } := keyRec_putKey_same ..
  have nobody : NobodyWaits ready.budget := hn
  have condition : ((keyRec k ready).state = .hold ∧ (keyRec k ready).reliefReady = true ∧
      (mayRelieve .damper k ready || mayRelieve .middle k ready) = true)
        ↔ mayRelieve .damper k s.part = true ∨ mayRelieve .middle k s.part = true := by
    rw [record, Bool.or_eq_true]
    exact ⟨fun h => h.2.2, fun h => ⟨state, rfl, h⟩⟩
  rw [reliefDelayRunsOut, ← hready, reliefTest]
  by_cases may : mayRelieve .damper k s.part = true ∨ mayRelieve .middle k s.part = true
  · rw [if_pos may, if_pos (condition.2 may), relieveKey_eq nobody, serve_eq_calm (by exact nobody)]
    have relieved : rekey k (relievedRecord k ready) ready = rekey k (relievedRecord k p) p := by
      have same : relievedRecord k ready = relievedRecord k p := by
        unfold relievedRecord
        rw [record]
        rfl
      rw [same, hready]
      exact rekey_putKey (by rfl)
    rw [relieved]
    rfl
  · rw [if_neg may, if_neg fun h => may (condition.1 h), serve_eq_calm nobody]
    rfl

/-! ## IDLE (R124) -/

/-- Settles O39. -/
theorem gapEndEffect : Obligations.GapEndEffect := by
  intro s k t hs he state ht hq
  dsimp only
  refine (withPart_timerEvent enterIdle hs state ht).trans (congrArg (fun q => Host.Outcome.next { s with part := q }) ?_)
  have queued : (keyRec k (driveTo t s.part)).queued = (keyRec k s.part).queued := rfl
  unfold enterIdle
  dsimp only
  rw [queued]
  cases e : (keyRec k s.part).queued with
  | none => exact drainTest_of_not_draining (by exact he)
  | some qd =>
    dsimp only
    rw [hq qd e]
    rfl

end Sys2Proof.Machine
end

section
/-! A key's launch (R115, R116, R137, R169), and the RELEASE action of a key in HOLD (R106, R120). -/

namespace Sys2Proof.Machine

variable {p : Part} {k : Key} {st : Strike}

/-! ## DRIVE (R103, R116, R169) -/

/-- The record of a key that enters DRIVE with a strike, from the record `r`. -/
def drivenRecord (r : KeyRec) (st : Strike) (p : Part) : KeyRec :=
  let wEff := effectiveWidth st.w p.window.setup.vnom p.analog.vrail
  let heat := min 65535 (r.heat + launchHeat wEff st.u)
  { r with
    state := .drive, current := some (grantedStrike p st), releasePending := false, output := some st.u
    timer := some (p.clocks.drive + wEff), heat := heat, cut := judgedCut heat r.cut (voicing p) }

/-- The Key Sense record of a launch at the present drive time (R169). -/
def launchWindow (k : Key) (lead : Nat) (p : Part) : SenseRec :=
  { senseRec k p with
    window := .opened, launchTime := some p.clocks.drive, lead := lead, windowEnd := p.clocks.drive + 2 * lead }

/-- The part with a key in DRIVE, before its reports. -/
def driven (k : Key) (st : Strike) (p : Part) : Part :=
  putSense k (launchWindow k st.lead p) (putKey k (drivenRecord (keyRec k p) st p) p)

theorem extensionFits_strikeRecord (st : Strike) : ExtensionFits (strikeRecord st) := by
  rintro ws e
  cases e
  exact le_rfl

theorem enterDrive_eq (hc : (keyRec k p).current = some st) : enterDrive k p = bump .strikesMade
    (logRecord (strikeRecord (grantedStrike p st)) (openWindow k st.lead (putKey k (drivenRecord (keyRec k p) st p) p))) := by
  unfold enterDrive
  dsimp only
  rw [hc]
  rfl

/-- A key that enters DRIVE with no window OPEN changes its records, and its strike is reported and counted (R116). -/
theorem enterDrive_tells (hr : RingPlaced p.log) (hw : (senseRec k p).window ≠ .opened) (hc : (keyRec k p).current = some st) :
    Tells (driven k st p) (enterDrive k p) (fun a => 0x204 ≤ a ∧ a < 0x208) 0 [.strikesMade] ∧
      counterOf .strikesMade (enterDrive k p) = (counterOf .strikesMade p + 1) % 2 ^ 32 := by
  have opens : openWindow k st.lead (putKey k (drivenRecord (keyRec k p) st p) p) = driven k st p := by
    unfold openWindow
    dsimp only
    rw [if_neg (by exact hw)]
    rfl
  rw [enterDrive_eq hc, opens]
  have logged := tells_logRecord (p := driven k st p) (extensionFits_strikeRecord (grantedStrike p st)) hr
  have count := counterOf_bump_wide (c := .strikesMade) (by decide) (logRecord (strikeRecord (grantedStrike p st)) (driven k st p))
  generalize logRecord (strikeRecord (grantedStrike p st)) (driven k st p) = q at logged count ⊢
  refine ⟨(logged.after (tells_bump .strikesMade q)).weaken (fun a => (counterBytes_strikesMade a).1) rfl fun _ h => h, ?_⟩
  rw [count, logged.counterOf (by simp) (by decide)]
  rfl

/-! ## A launch claim (R115, R137) -/

/-- What stays of a key's record and of the budget where the key's window is judged. -/
structure Unmoved (k : Key) (p q : Part) : Prop where
  state : (keyRec k q).state = (keyRec k p).state
  claim : (keyRec k q).claim = (keyRec k p).claim
  budget : q.budget = p.budget

theorem judgeMiss_unmoved (k : Key) (p : Part) : Unmoved k p (judgeMiss k p) := by
  rw [judgeMiss_eq]
  have record (b : Part) : keyRec k (missed k b) = { keyRec k b with missCount := missesAfter k b, deaf := (keyRec k b).deaf || decide (missFails k b) } :=
    keyRec_putKey_same k _ b
  have budget (b : Part) : (missed k b).budget = b.budget := rfl
  split <;> constructor <;> simp [record, budget]

theorem openWindow_unmoved (k : Key) (lead : Nat) (p : Part) : Unmoved k p (openWindow k lead p) := by
  unfold openWindow
  dsimp only
  split
  · have judged := judgeMiss_unmoved k p
    exact ⟨by simp [judged.state], by simp [judged.claim], by simp [judged.budget]⟩
  · constructor <;> simp

theorem enterDrive_enters (hc : (keyRec k p).current = some st) : (keyRec k (enterDrive k p)).state = .drive ∧
    (keyRec k (enterDrive k p)).claim = (keyRec k p).claim ∧ (enterDrive k p).budget = p.budget := by
  have opened := openWindow_unmoved k st.lead (putKey k (drivenRecord (keyRec k p) st p) p)
  rw [enterDrive_eq hc]
  refine ⟨?_, ?_, ?_⟩
  · rw [keyRec_bump, keyRec_logRecord, opened.state, keyRec_putKey_same]; rfl
  · rw [keyRec_bump, keyRec_logRecord, opened.claim, keyRec_putKey_same]; rfl
  · rw [bump_budget, logRecord_budget, opened.budget]; rfl

theorem halfQueue_putHalfQueue (h : Half) (q : List KeyClaim) (b : Budget) : halfQueue h (putHalfQueue h q b) = q := by
  cases h <;> rfl

theorem putHalfQueue_committed (h : Half) (q : List KeyClaim) (b : Budget) : (putHalfQueue h q b).committed = b.committed := by
  cases h <;> rfl

theorem askLaunch_granted (hc : (keyRec k p).current = some st) (h : keyClaimPasses st.half st.iLaunch p.budget = true) :
    askLaunch k p = enterDrive k (setKeyClaim k st.iLaunch p) := by
  unfold askLaunch
  rw [hc]
  exact if_pos h

theorem askLaunch_deferred (hc : (keyRec k p).current = some st) (h : ¬ keyClaimPasses st.half st.iLaunch p.budget = true) :
    askLaunch k p = putKey k { keyRec k p with state := .waiting .launch, current := some { st with deferred := true } }
      (bump .deferrals { p with
        budget := putHalfQueue st.half
          (halfQueue st.half p.budget ++ [{ key := k, kind := .launch, amount := st.iLaunch }]) p.budget }) := by
  have half : halfOf (keyRec k p) = st.half := by rw [halfOf, hc]
  have record (q : Part) (hq : q.keys = p.keys) : keyRec k q = keyRec k p := by rw [keyRec, keyRec, hq]
  unfold askLaunch
  rw [hc]
  refine (if_neg h).trans ?_
  unfold deferKey
  dsimp only
  rw [half, record (bump .deferrals _) (by rw [bump_keys])]
  unfold mapCurrent
  dsimp only
  rw [hc]
  rfl

/-- Settles O41. -/
theorem launchAdmission : Obligations.LaunchAdmission := by
  intro p k st hc
  dsimp only
  refine ⟨fun passes => ?_, fun refused => ?_⟩
  · rw [askLaunch_granted hc (keyClaimPasses_iff.2 passes)]
    obtain ⟨c, claimed⟩ := setKeyClaim_shape k st.iLaunch p
    rw [claimed]
    dsimp only
    have record : keyRec k { rekey k { keyRec k p with claim := st.iLaunch } p with
        budget := { (rekey k { keyRec k p with claim := st.iLaunch } p).budget with serveCause := c } }
          = { keyRec k p with claim := st.iLaunch } := keyRec_rekey_same (p := p)
    obtain ⟨state, claim, budget⟩ := enterDrive_enters (st := st) (by rw [record]; exact hc)
    exact ⟨state, by rw [claim, record], by rw [budget]; rfl⟩
  · rw [askLaunch_deferred hc fun h => refused (keyClaimPasses_iff.1 h)]
    refine ⟨keyRec_putKey_same .., ?_, ?_, ?_⟩
    · rw [putKey_budget, bump_budget, halfQueue_putHalfQueue]
    · rw [putKey_budget, bump_budget, putHalfQueue_committed]
    · exact counterOf_bump_narrow (by decide) _

theorem grantedStrike_eq (p : Part) (st : Strike) : grantedStrike p st =
    let wEff := effectiveWidth st.w p.window.setup.vnom p.analog.vrail
    let behind := (p.time.clock - st.planned).toInt
    { st with
      wEff := some wEff, compensated := if wEff = st.w then st.compensated else true
      lateness := if 0 < behind then behind.toNat else st.lateness } := by
  have flag (w : Nat) : (st.compensated || decide (w ≠ st.w)) = if w = st.w then st.compensated else true := by
    by_cases h : w = st.w <;> simp [h]
  simp only [grantedStrike, flag]
  rfl

/-- Settles O40. -/
theorem gapEndLaunches : Obligations.GapEndLaunches := by
  intro s k st t hr hs hn state ht hq hclaim hfits hw
  dsimp only
  set p := driveTo t s.part with hp
  let armed : KeyRec := { keyRec k p with state := .armed, current := some st, queued := none, timer := none }
  have record : keyRec k (putKey k armed p) = armed := keyRec_putKey_same ..
  have starts : enterIdle k p = askLaunch k (putKey k armed p) := by
    have queued : (keyRec k p).queued = some { strike := st, launchTaken := true } := hq
    unfold enterIdle
    dsimp only
    rw [queued]
    rfl
  have nobody : NobodyWaits (putKey k armed p).budget := hn
  have asks : askLaunch k (putKey k armed p) = enterDrive k (rekey k { armed with claim := st.iLaunch } p) := by
    rw [askLaunch_granted (by rw [record]) ((keyClaimPasses_of_nobodyWaits nobody ..).2 hfits), setKeyClaim_eq (.inl nobody), record,
      rekey_putKey (by rfl)]
  obtain ⟨tells, count⟩ := enterDrive_tells (p := rekey k { armed with claim := st.iLaunch } p) (k := k) (st := st) hr hw
    (by rw [keyRec_rekey_same])
  have outcome := withPart_timerEvent enterIdle hs state ht
  rw [← hp, starts, asks] at outcome
  refine ⟨_, outcome, rfl, tells.shape.trans ?_, tells.reports.congr rfl rfl, count⟩
  set x := rekey k { armed with claim := st.iLaunch } p with hx
  have driven_eq : driven k st x = putSense k (launchWindow k st.lead p) (rekey k (drivenRecord (keyRec k x) st x) p) := by
    rw [driven, hx, putKey_rekey (by rw [keyRec_rekey_same]; rfl)]
    rfl
  rw [driven_eq, hx, keyRec_rekey_same, ← hx]
  have strike : grantedStrike x st = _ := grantedStrike_eq p st
  rw [drivenRecord, strike]
  simp only [putSense, rekey]
  rw [show (keyRec k p).claim = 0 from hclaim]
  rfl

/-! ## The RELEASE action of a key in HOLD (R106, R120) -/

theorem takeRelease_held (hs : (keyRec k p).state = .hold) (hc : (keyRec k p).current = some st) :
    takeRelease k st.tag p = releaseKey k p := by
  have current : isCurrentTag st.tag (keyRec k p) = true := by rw [isCurrentTag, hc]; exact decide_eq_true rfl
  rw [takeRelease, if_pos current, releaseCurrent, hs]

theorem walkSlot_single {x : Nat} {a : Action} (h : p.wheel.actions.find? (dueInSlot x p.wheel) = some a) :
    walkSlot x 1 p = walkAction a p := by
  rw [walkSlot, h]
  rfl

/-- The walk of a slot with a single action, which is due. -/
theorem takeSlotActions_single {a : Action} (ha : p.wheel.actions = [a]) (hx : a.slot = slotOf p.wheel.position)
    (hd : isBefore a.instant (nextPosition p.wheel.position) = true) : takeSlotActions p
      = drainTest (walkAction a { p with wheel := { p.wheel with position := nextPosition p.wheel.position } }) := by
  have one : p.wheel.actions.length = 1 := by rw [ha, List.length_singleton]
  rw [takeSlotActions]
  dsimp only
  rw [one, walkSlot_single]
  dsimp only
  rw [ha, List.find?_cons_of_pos]
  rw [dueInSlot, decide_eq_true hx, hd]
  rfl

/-- Settles O34. -/
theorem wheelSlotReleasesHeldKey : Obligations.WheelSlotReleasesHeldKey := by
  intro s k st a hr hs he hn hg state hc kind actions slot
  dsimp only
  intro before late
  obtain ⟨t, x, shape⟩ := planTo_shape s.part.wheel.position s.part
  have runs : clockRuns s.part = true := clockRuns_of_takes (engineTakesLines_iff.2 (.inr he))
  set p := planTo s.part.wheel.position s.part with hp
  set next := nextPosition s.part.wheel.position with hnext
  set taken : Part := { p with wheel := { actions := [], position := next, free := s.part.wheel.free } } with htaken
  have draining : p.time.engine ≠ .draining := by rw [shape]; exact fun e => EngineState.noConfusion (he.symm.trans e)
  have hon : driveOn (keyRec k taken) = true := by
    rw [htaken, shape]
    exact decide_eq_true (.inr (.inl state))
  have nobody : NobodyWaits taken.budget := by rw [htaken, shape]; exact hn
  have tells := releaseKey_tells (p := taken) (k := k) (by rw [htaken, shape]; exact hr) nobody draining
    (by rw [htaken, shape]; exact hg) hon
  have handed : handAction a (removeAction a { p with wheel := { p.wheel with position := next } }) = releaseKey k taken := by
    have removed : removeAction a { p with wheel := { p.wheel with position := next } } = taken := by
      rw [removeAction, htaken, shape]
      dsimp only
      rw [actions, List.erase_cons_head]
    rw [removed, handAction, kind]
    exact takeRelease_held (by rw [htaken, shape]; exact state) (by rw [htaken, shape]; exact hc)
  have told := tells.calm.lift returnEntry fun _ _ _ _ => rfl
  have served : serve (releaseKey k taken) = calm (releaseKey k taken) := serve_eq_calm (by rw [tells.budget]; exact nobody)
  have walked : turnWheel s.part = returnEntry (calm (releaseKey k taken)) := by
    rw [turnWheel, runs, if_pos rfl, ← hp, takeSlotActions_single (a := a) (by rw [shape]; exact actions) (by rw [shape]; exact slot)
      (by rw [shape]; exact before), walkAction]
    rw [show nextPosition p.wheel.position = next by rw [shape], handed, served, consider_of_not, drainTest_of_not_draining]
    · rw [told.time]; exact draining
    · have same : lookaheadReached (returnEntry (calm (releaseKey k taken))) = lookaheadReached p := by
        rw [lookaheadReached, lookaheadReached, lookaheadInstant, lookaheadInstant, told.time]
        rfl
      rw [same, late, Bool.and_false]
  rw [← walked] at told
  have outcome := withPart_inTime hs turnWheel
  generalize turnWheel s.part = after at told outcome
  refine ⟨_, outcome, rfl, told.shape.trans ?_, told.reports.congr ?_ rfl⟩
  · rw [htaken, shape]
    rfl
  · rw [htaken, shape]
    rfl

end Sys2Proof.Machine
end

section
/-! The sense scan: windows closed, edges found, flights, outliers, manual strikes and depress edges (Chapter 9). -/

namespace Sys2Proof.Machine

variable {p q : Part} {k : Key} {falling : Bool} {old levels : BitVec 88} {s : State}

/-! ## The scan as its two passes and what it records -/

/-- The work of the scan at one key's input. -/
def handleKey (falling : Bool) (old levels : BitVec 88) (k : Key) (p : Part) : Part :=
  if edgeFound falling old levels k then senseEdge k p else p

/-- The levels of a scan are kept for the next one. -/
def levelsRead (levels : BitVec 88) (p : Part) : Part :=
  { p with senseLevels := some levels, pins := { p.pins with sense := levels } }

/-- The part at a sense scan: drive time has come to it, and the next one is set. -/
def atScan (p : Part) : Part :=
  let q := driveTo p.clocks.nextScan p
  { q with clocks := { q.clocks with nextScan := p.clocks.nextScan + 50 } }

theorem reachScan_first (h : p.senseLevels = none) : reachScan levels p = levelsRead levels (forKeys closeWindow (atScan p)) := by
  have first : (atScan p).senseLevels = none := h
  change scanInputs levels (atScan p) = _
  unfold scanInputs
  dsimp only
  rw [first]
  generalize forKeys closeWindow (atScan p) = y
  rfl

theorem reachScan_later (h : p.senseLevels = some old) : reachScan levels p
    = levelsRead levels (forKeys (handleKey p.strikes.voicing.fallingEdge old levels) (forKeys closeWindow (atScan p))) := by
  have later : (atScan p).senseLevels = some old := h
  change scanInputs levels (atScan p) = _
  unfold scanInputs
  dsimp only
  rw [later, show (voicing (atScan p)).fallingEdge = p.strikes.voicing.fallingEdge from rfl]
  generalize forKeys closeWindow (atScan p) = y
  have same : (fun k x => if edgeFound p.strikes.voicing.fallingEdge old levels k = true then senseEdge k x else x)
      = handleKey p.strikes.voicing.fallingEdge old levels := rfl
  dsimp only
  rw [same]
  rfl

/-- An input as it was, or away from the active level, shows no edge (R167). -/
theorem edgeFound_eq_false (h : levels.getLsbD k.val = old.getLsbD k.val ∨ levels.getLsbD k.val = falling) :
    edgeFound falling old levels k = false := by
  unfold edgeFound
  cases falling <;> rcases h with h | h <;> rw [h] <;> simp

/-- A change toward the active level is an edge (R167). -/
theorem edgeFound_eq_true (ho : old.getLsbD k.val = falling) (hl : levels.getLsbD k.val = !falling) :
    edgeFound falling old levels k = true := by
  unfold edgeFound
  rw [ho, hl]
  cases falling <;> rfl

theorem handleKey_quiet (h : levels.getLsbD k.val = old.getLsbD k.val ∨ levels.getLsbD k.val = falling) (p : Part) :
    handleKey falling old levels k p = p := by
  rw [handleKey, edgeFound_eq_false h]
  rfl

theorem handleKey_ignored (h : (senseRec k p).window = .heard ∨ (senseRec k p).window = .cut) :
    handleKey falling old levels k p = p := by
  unfold handleKey senseEdge
  split
  · rcases h with h | h <;> rw [h]
  · rfl

/-- The edges of a scan that one key only shows. -/
theorem handleKeys_single (quiet : ∀ j, j ≠ k → levels.getLsbD j.val = old.getLsbD j.val ∨ levels.getLsbD j.val = falling)
    (ho : old.getLsbD k.val = falling) (hl : levels.getLsbD k.val = !falling) (p : Part) :
    forKeys (handleKey falling old levels) p = senseEdge k p := by
  rw [forKeys_of_single k (fun j hj => handleKey_quiet (quiet j hj) p) (fun j hj => handleKey_quiet (quiet j hj) _),
    handleKey, edgeFound_eq_true ho hl]
  rfl

/-! ## Windows closed (R172) -/

theorem closeWindow_keeps (h : (senseRec k p).window = .closed ∨ p.clocks.drive ≤ (senseRec k p).windowEnd) :
    closeWindow k p = p := by
  refine if_neg ?_
  rintro ⟨opened, past⟩
  rcases h with h | h
  · exact opened h
  · exact absurd past (Nat.not_lt.2 h)

/-- A HEARD or CUT window past its end is closed without judgement. -/
theorem closeWindow_ignored (h : (senseRec k p).window = .heard ∨ (senseRec k p).window = .cut)
    (past : (senseRec k p).windowEnd < p.clocks.drive) :
    closeWindow k p = putSense k { senseRec k p with window := .closed } p := by
  unfold closeWindow
  dsimp only
  rcases h with h | h <;> rw [h, if_pos ⟨WindowState.noConfusion, past⟩, if_neg WindowState.noConfusion]

/-- The Key Sense record of a key whose OPEN window is closed as a miss. -/
def missedWindow (k : Key) (p : Part) : SenseRec :=
  { senseRec k p with
    window := .closed, recovery := if (keyRec k p).deaf = true ∨ missFails k p then 0 else (senseRec k p).recovery }

theorem senseRec_missed (k : Key) (p : Part) : senseRec k (missed k p) = { senseRec k p with
    recovery := if (keyRec k p).deaf = true ∨ missFails k p then 0 else (senseRec k p).recovery } := by
  unfold missed
  split
  · exact senseRec_putSense_same ..
  · rfl

/-- An OPEN window past its end is closed as a miss. -/
theorem closeWindow_missed (h : (senseRec k p).window = .opened) (past : (senseRec k p).windowEnd < p.clocks.drive)
    (hr : RingPlaced p.log) :
    Tells (putSense k (missedWindow k p) (missed k p)) (closeWindow k p) (wordBytes 0x220)
      (if (keyRec k p).deaf = false ∧ missFails k p then Notice.sense.bit else 0) [.senseMisses] ∧
      counterOf .senseMisses (closeWindow k p) = min 65535 (counterOf .senseMisses p + 1) := by
  obtain ⟨tells, count⟩ := judgeMiss_tells k p hr
  have closes : closeWindow k p = putSense k (missedWindow k p) (judgeMiss k p) := by
    unfold closeWindow
    dsimp only
    rw [h, if_pos ⟨WindowState.noConfusion, past⟩, if_pos rfl, tells.senseRec, senseRec_missed]
    rfl
  rw [closes]
  exact ⟨tells.lift (putSense k (missedWindow k p)) fun _ _ _ _ => rfl, count⟩

/-- Only one window is closed. -/
theorem closeWindows_single (others : ∀ j, j ≠ k → (senseRec j p).window = .closed ∨ p.clocks.drive ≤ (senseRec j p).windowEnd)
    (hs : ∀ j, j ≠ k → senseRec j (closeWindow k p) = senseRec j p) (hc : (closeWindow k p).clocks = p.clocks) :
    forKeys closeWindow p = closeWindow k p :=
  forKeys_of_single k (fun j hj => closeWindow_keeps (others j hj))
    fun j hj => closeWindow_keeps (by rw [hs j hj, hc]; exact others j hj)

/-- A scan that handles no edge after its windows are closed. -/
theorem reachScan_quiet {y : Part} (closed : forKeys closeWindow (atScan p) = y)
    (quiet : ∀ old, p.senseLevels = some old → ∀ j, handleKey p.strikes.voicing.fallingEdge old levels j y = y) :
    reachScan levels p = levelsRead levels y := by
  cases h : p.senseLevels with
  | none => rw [reachScan_first h, closed]
  | some old => rw [reachScan_later h, closed, forKeys_of_fixed (quiet old h)]

theorem senseRec_missed_other {j : Key} (h : j ≠ k) : senseRec j (putSense k (missedWindow k p) (missed k p)) = senseRec j p := by
  rw [senseRec_putSense_other h]
  unfold missed
  split
  · exact senseRec_putSense_other h ..
  · rfl

theorem putSense_missed (x : SenseRec) : putSense k x (missed k p) = { p with
    keys := p.keys.set k { keyRec k p with missCount := missesAfter k p, deaf := (keyRec k p).deaf || decide (missFails k p) }
    sense := p.sense.set k x } := by
  unfold missed putSense
  split
  · simp only [Vector.set_set]
  · rfl

/-- Settles O48: the windows are judged first, and then no key has an edge that is handled. -/
theorem senseScanQuiet : Obligations.SenseScanQuiet := by
  intro s levels ht
  dsimp only
  have outcome := withPart_inTime ht (reachScan levels)
  refine ⟨fun h => ?_, fun k others quiet notOpen => ⟨fun ignored => ?_, fun opened hr => ?_⟩⟩
  · have closed : forKeys closeWindow (atScan s.part) = atScan s.part := forKeys_of_fixed fun j => closeWindow_keeps (h j).1
    rw [reachScan_quiet closed fun old ho j =>
      (h j).2.elim (fun quiet => handleKey_quiet (quiet old ho) _) fun ignored => handleKey_ignored ignored] at outcome
    exact outcome
  · have past : (senseRec k (atScan s.part)).windowEnd < (atScan s.part).clocks.drive :=
      Nat.not_le.1 fun le => notOpen (.inr le)
    have closes := closeWindow_ignored (p := atScan s.part) ignored past
    have closed := closeWindows_single (p := atScan s.part) (fun j hj => (others j hj).1)
      (fun j hj => by rw [closes]; exact senseRec_putSense_other hj ..) (by rw [closes]; rfl)
    rw [closes] at closed
    rw [reachScan_quiet closed fun old ho j => ?_] at outcome
    · exact outcome
    · by_cases hj : j = k
      · exact handleKey_quiet (hj ▸ quiet old ho) _
      · exact (others j hj).2.elim (fun quiet => handleKey_quiet (quiet old ho) _)
          fun ignored => handleKey_ignored (by rw [senseRec_putSense_other hj]; exact ignored)
  · have past : (senseRec k (atScan s.part)).windowEnd < (atScan s.part).clocks.drive :=
      Nat.not_le.1 fun le => notOpen (.inr le)
    obtain ⟨tells, count⟩ := closeWindow_missed (p := atScan s.part) opened past hr
    have kept (j : Key) (hj : j ≠ k) : senseRec j (closeWindow k (atScan s.part)) = senseRec j (atScan s.part) :=
      (tells.senseRec j).trans (senseRec_missed_other hj)
    have closed := closeWindows_single (p := atScan s.part) (fun j hj => (others j hj).1) kept (tells.clocks.trans rfl)
    rw [reachScan_quiet closed fun old ho j => ?_] at outcome
    · have told := tells.lift (levelsRead levels) fun _ _ _ _ => rfl
      have counted : counterOf .senseMisses (levelsRead levels (closeWindow k (atScan s.part))) = _ := count
      generalize levelsRead levels (closeWindow k (atScan s.part)) = after at told outcome counted
      refine ⟨_, outcome, rfl, told.shape.trans ?_, told.reports.congr rfl rfl, counted⟩
      rw [putSense_missed]
      rfl
    · by_cases hj : j = k
      · exact handleKey_quiet (hj ▸ quiet old ho) _
      · exact (others j hj).2.elim (fun quiet => handleKey_quiet (quiet old ho) _)
          fun ignored => handleKey_ignored (by rw [kept j hj]; exact ignored)

/-! ## A flight edge (R170, R171, R173) -/

/-- A scan with no window past its end and the edge of one key. -/
theorem reachScan_edge (ho : s.part.senseLevels = some old)
    (open_ : ∀ j, (senseRec j s.part).window = .closed ∨ (atScan s.part).clocks.drive ≤ (senseRec j s.part).windowEnd)
    (quiet : ∀ j, j ≠ k → levels.getLsbD j.val = old.getLsbD j.val ∨ levels.getLsbD j.val = s.part.strikes.voicing.fallingEdge)
    (hb : old.getLsbD k.val = s.part.strikes.voicing.fallingEdge)
    (hl : levels.getLsbD k.val = !s.part.strikes.voicing.fallingEdge) :
    reachScan levels s.part = levelsRead levels (senseEdge k (atScan s.part)) := by
  have closed : forKeys closeWindow (atScan s.part) = atScan s.part := forKeys_of_fixed fun j => closeWindow_keeps (open_ j)
  rw [reachScan_later ho, closed, handleKeys_single quiet hb hl]

/-- The part with a key's window HEARD. -/
def heardWindow (k : Key) (recovery : Nat) (p : Part) : Part :=
  putSense k { senseRec k p with window := .heard, recovery := recovery } p

theorem flightEdge_eq {launch : Nat} (h : (senseRec k p).launchTime = some launch) : flightEdge k p =
    if flightInRange (p.clocks.drive - launch) (senseRec k p).lead
      then inRangeFlight k (p.clocks.drive - launch) (heardWindow k (senseRec k p).recovery p)
      else outlierFlight k (heardWindow k (senseRec k p).recovery p) := by
  have flight : p.clocks.drive - (senseRec k p).launchTime.getD p.clocks.drive = p.clocks.drive - launch := by rw [h]; rfl
  unfold flightEdge
  dsimp only
  rw [flight]
  rfl

theorem senseRec_heardWindow (k : Key) (n : Nat) (p : Part) :
    senseRec k (heardWindow k n p) = { senseRec k p with window := .heard, recovery := n } := senseRec_putSense_same ..

theorem putSense_heardWindow (n : Nat) (x : SenseRec) : putSense k x (heardWindow k n p) = putSense k x p := by
  simp only [heardWindow, putSense, Vector.set_set]

/-- The record of a SENSING key after a flight in range (R171). -/
def flownRecord (k : Key) (f : Nat) (p : Part) : KeyRec :=
  { keyRec k p with
    missCount := 0
    trim := if p.strikes.voicing.adapt = true then adaptedTrim (keyRec k p).trim f (senseRec k p).lead else (keyRec k p).trim }

theorem inRangeFlight_sensing (f n : Nat) (hd : (keyRec k p).deaf = false) :
    inRangeFlight k f (heardWindow k n p) = putKey k (flownRecord k f p) (heardWindow k n p) := by
  have deaf : (keyRec k (heardWindow k n p)).deaf = false := hd
  unfold inRangeFlight
  refine (if_neg (by rw [deaf]; exact Bool.false_ne_true)).trans ?_
  rw [senseRec_heardWindow]
  rfl

theorem inRangeFlight_first (f : Nat) (hd : (keyRec k p).deaf = true) :
    inRangeFlight k f (heardWindow k 0 p) = heardWindow k 1 p := by
  have deaf : (keyRec k (heardWindow k 0 p)).deaf = true := hd
  have first : ¬ 2 ≤ (senseRec k (heardWindow k 0 p)).recovery + 1 := by
    rw [senseRec_heardWindow]
    exact Nat.not_succ_le_self 1
  unfold inRangeFlight
  refine (if_pos deaf).trans ((if_neg first).trans ?_)
  rw [putSense_heardWindow, senseRec_heardWindow]
  rfl

/-- The second flight in range in a row makes a DEAF key SENSING, and is reported (R173). -/
theorem inRangeFlight_recovers (f : Nat) {n : Nat} (hn : 1 ≤ n) (hd : (keyRec k p).deaf = true) (hr : RingPlaced p.log) :
    Tells (putKey k { keyRec k p with deaf := false, missCount := 0 } (heardWindow k 0 p))
      (inRangeFlight k f (heardWindow k n p)) (fun _ => False) 0 [] := by
  have deaf : (keyRec k (heardWindow k n p)).deaf = true := hd
  have second : 2 ≤ (senseRec k (heardWindow k n p)).recovery + 1 := by
    rw [senseRec_heardWindow]
    exact Nat.succ_le_succ hn
  unfold inRangeFlight
  dsimp only
  rw [if_pos deaf, if_pos second, senseRec_heardWindow]
  have same : putSense k { senseRec k p with window := .heard, recovery := 0 }
      (putKey k { keyRec k p with deaf := false, missCount := 0 } (heardWindow k n p))
        = putKey k { keyRec k p with deaf := false, missCount := 0 } (heardWindow k 0 p) := by
    simp only [heardWindow, putSense, putKey, Vector.set_set]
  have logged := tells_record (p := putKey k { keyRec k p with deaf := false, missCount := 0 } (heardWindow k 0 p))
    (senseRecord k { keyRec k p with deaf := false, missCount := 0 }) rfl hr
  rw [← same] at logged ⊢
  exact logged

/-- An outlier is counted, and ends a DEAF key's recovery (R170). -/
theorem outlierFlight_tells (n : Nat) (p : Part) :
    Tells (heardWindow k (if (keyRec k p).deaf = true then 0 else n) p) (outlierFlight k (heardWindow k n p))
      (wordBytes 0x222) 0 [.senseOutliers] ∧
      counterOf .senseOutliers (outlierFlight k (heardWindow k n p)) = min 65535 (counterOf .senseOutliers p + 1) := by
  have bumped := (tells_bump .senseOutliers (heardWindow k n p)).weaken (narrowBytes (off := 0x222) (by decide) (by decide)) rfl (fun _ h => h)
  have count := counterOf_bump_narrow (c := .senseOutliers) (by decide) (heardWindow k n p)
  unfold outlierFlight
  dsimp only
  generalize bump .senseOutliers (heardWindow k n p) = b at bumped count ⊢
  rw [bumped.keyRec, bumped.senseRec, senseRec_heardWindow]
  have deaf : (keyRec k (heardWindow k n p)).deaf = (keyRec k p).deaf := rfl
  rw [deaf]
  split
  · have told := bumped.lift (putSense k { senseRec k p with window := .heard, recovery := 0 }) fun _ _ _ _ => rfl
    rw [putSense_heardWindow] at told
    exact ⟨told, count⟩
  · exact ⟨bumped, count⟩

/-- Settles O49: the edge is that of an OPEN window, and its flight is judged by the window's lead. -/
theorem senseScanFlight : Obligations.SenseScanFlight := by
  intro s k old levels launch ht ho others hb hl opened hlaunch
  dsimp only
  intro inTime
  have outcome := withPart_inTime ht (reachScan levels)
  rw [reachScan_edge ho (fun j => if hj : j = k then .inr (hj ▸ inTime) else .inl (others j hj).1) (fun j hj => (others j hj).2) hb hl] at outcome
  have edge : senseEdge k (atScan s.part) = flightEdge k (atScan s.part) := by
    have window : (senseRec k (atScan s.part)).window = .opened := opened
    unfold senseEdge
    rw [window]
  rw [edge, flightEdge_eq (p := atScan s.part) hlaunch] at outcome
  set f := (atScan s.part).clocks.drive - launch with hf
  set lead := (senseRec k (atScan s.part)).lead with hlead
  refine ⟨fun inRange deaf => ?_, fun inRange deaf first => ?_, fun inRange deaf second hr => ?_, fun outlier hr => ?_⟩
  · rw [if_pos (show flightInRange f lead = true from decide_eq_true inRange), inRangeFlight_sensing (p := atScan s.part) _ _ deaf] at outcome
    exact outcome
  · rw [if_pos (show flightInRange f lead = true from decide_eq_true inRange), show (senseRec k (atScan s.part)).recovery = 0 from first, inRangeFlight_first (p := atScan s.part) _ deaf] at outcome
    refine outcome.trans (congrArg (fun q => Host.Outcome.next { s with part := q }) ?_)
    have same : s.part.keys.set k (keyRec k s.part) = s.part.keys := Vector.set_getElem_self ..
    rw [same]
    rfl
  · rw [if_pos (show flightInRange f lead = true from decide_eq_true inRange)] at outcome
    have told := (inRangeFlight_recovers ((atScan s.part).clocks.drive - launch) second deaf (p := atScan s.part) hr).lift (levelsRead levels) fun _ _ _ _ => rfl
    refine ⟨_, outcome, rfl, told.shape, told.reports.congr rfl rfl⟩
  · rw [if_neg (show ¬ flightInRange f lead = true from fun h => outlier (of_decide_eq_true h))] at outcome
    obtain ⟨tells, count⟩ := outlierFlight_tells (k := k) (senseRec k (atScan s.part)).recovery (atScan s.part)
    have told := tells.lift (levelsRead levels) fun _ _ _ _ => rfl
    refine ⟨_, outcome, rfl, told.shape.trans ?_, told.reports.congr rfl rfl, count⟩
    have same : s.part.keys.set k (keyRec k s.part) = s.part.keys := Vector.set_getElem_self ..
    dsimp only
    rw [same]
    rfl

/-! ## Edges outside a window (R174, R175) -/

/-- A manual strike is reported and counted (R175). -/
theorem manualStrike_tells (hr : RingPlaced p.log) :
    Tells p (manualStrike k p) (wordBytes 0x224) 0 [.manualStrikes] ∧
      counterOf .manualStrikes (manualStrike k p) = min 65535 (counterOf .manualStrikes p + 1) := by
  have logged := tells_record (p := p) (manualRecord k (keyRec k p)) rfl hr
  unfold manualStrike
  generalize logRecord (manualRecord k (keyRec k p)) p = q at logged ⊢
  have counted := (tells_bump .manualStrikes q).weaken (narrowBytes (off := 0x224) (by decide) (by decide)) rfl (fun _ h => h)
  refine ⟨logged.after counted, ?_⟩
  rw [counterOf_bump_narrow (by decide), logged.counterOf (by simp) (by decide)]

/-- The records of a key after a depress edge (R174). -/
def depressHeard (k : Key) (p : Part) : Part :=
  putSense k { senseRec k p with depressHeard := true } (putKey k { keyRec k p with
    depressTrim := if (senseRec k p).depressHeard = true then (keyRec k p).depressTrim
      else max ((keyRec k p).depressTrim - 4) (16 - ((classOf k p).depressDuty : Int)) } p)

theorem putKey_keyRec (k : Key) (p : Part) : putKey k (keyRec k p) p = p := by
  have same : p.keys.set k (keyRec k p) = p.keys := Vector.set_getElem_self ..
  rw [putKey, same]

theorem putSense_senseRec (k : Key) (p : Part) : putSense k (senseRec k p) p = p := by
  have same : p.sense.set k (senseRec k p) = p.sense := Vector.set_getElem_self ..
  rw [putSense, same]

/-- A depress edge is reported, and the first of a depress lowers the trim (R174). -/
theorem depressEdge_tells (hr : RingPlaced p.log) : Tells (depressHeard k p) (depressEdge k p) (fun _ => False) 0 [] := by
  have heard : (if (senseRec k p).depressHeard then p
      else putSense k { senseRec k p with depressHeard := true }
        (putKey k { keyRec k p with depressTrim := loweredDepressTrim (keyRec k p).depressTrim (classOf k p).depressDuty } p))
        = depressHeard k p := by
    unfold depressHeard
    cases h : (senseRec k p).depressHeard with
    | false => rfl
    | true =>
      have sense : { senseRec k p with depressHeard := true } = senseRec k p := by rw [← h]
      rw [if_pos rfl, if_pos rfl]
      exact ((congrArg₂ (putSense k) sense (putKey_keyRec k p)).trans (putSense_senseRec k p)).symm
  unfold depressEdge
  dsimp only
  rw [heard]
  exact tells_record _ rfl hr

/-- Settles O50: the edge is of a key outside a window, and the key's state says what it is. -/
theorem senseScanManualStrike : Obligations.SenseScanManualStrike := by
  intro s k old levels hr ht ho closed quiet hb hl
  dsimp only
  have outcome := withPart_inTime ht (reachScan levels)
  rw [reachScan_edge ho (fun j => .inl (closed j)) quiet hb hl] at outcome
  have edge : senseEdge k (atScan s.part)
      = if (keyRec k (atScan s.part)).state = .depressing then depressEdge k (atScan s.part) else manualStrike k (atScan s.part) := by
    have window : (senseRec k (atScan s.part)).window = .closed := closed k
    unfold senseEdge
    rw [window]
  rw [edge] at outcome
  refine ⟨_, outcome, rfl, fun state => ?_, fun state => ?_⟩
  · have state : ¬ (keyRec k (atScan s.part)).state = .depressing := state
    obtain ⟨tells, count⟩ := manualStrike_tells (p := atScan s.part) (k := k) hr
    have told := tells.lift (levelsRead levels) fun _ _ _ _ => rfl
    dsimp only
    rw [if_neg state]
    exact ⟨told.shape, told.reports.congr rfl rfl, count⟩
  · have state : (keyRec k (atScan s.part)).state = .depressing := state
    have told := (depressEdge_tells (p := atScan s.part) (k := k) hr).lift (levelsRead levels) fun _ _ _ _ => rfl
    dsimp only
    rw [if_pos state]
    exact ⟨told.shape, told.reports.congr rfl rfl⟩

end Sys2Proof.Machine
end

section
/-! A BLANK line taken over a closed roll (R5 to R10, R13, R46, R50, R69). -/

namespace Sys2Proof.Machine

variable {p : Part} {f : Format} {n : Word32}

/-- Every track is closed, and was sampled so at the last line. -/
def RollClosed (p : Part) : Prop := ∀ t : Fin 104, p.strip.tracks[t].state = .closed ∧ p.strip.tracks[t].lastSample = false

theorem trackOpen_of_rollClosed (h : RollClosed p) (t : Nat) : trackOpen t p = false := by
  have state : (trackRec t p).state = .closed := by
    unfold trackRec
    by_cases ht : t < 104
    · rw [Vector.getElem?_eq_getElem ht]
      exact (h ⟨t, ht⟩).1
    · rw [Vector.getElem?_eq_none (Nat.not_lt.1 ht)]
      rfl
  rw [trackOpen, confirmedOpen, state]
  rfl

theorem rollPlan_of_rollClosed (h : RollClosed p) (d : Pedal) : rollPlan d f p = 0 := by
  have shut := trackOpen_of_rollClosed h
  cases d <;> simp [rollPlan, anyOpen, shut, largest]

/-- A roll that is closed plans no pedal change where none is planned (R148). -/
theorem planPedals_of_rollClosed (h : RollClosed p) (hp : ∀ d, (pedalRec d p).plannedTarget = 0) (events : List TrackEvent) :
    planPedals f n events p = p := by
  have each (d : Pedal) : planPedal f n events d p = p := if_pos ((rollPlan_of_rollClosed h d).trans (hp d).symm)
  unfold planPedals forPedals
  exact foldl_of_fixed fun d _ => each d

/-- A blank line repeats the last sample of a closed track, which changes nothing (R8, R18). -/
theorem runTrack_blank (h : RollClosed p) (events : List TrackEvent) (t : Fin 104) :
    runTrack f n .blank (p, events) t = (p, events) := by
  obtain ⟨state, sample⟩ := h t
  have quiet : stepTrack f n (lineSample f p.strip.drift .blank t.val p.strip.tracks[t]) p.strip.tracks[t] = quietStep p.strip.tracks[t] := by
    have record : { p.strip.tracks[t] with lastSample := false } = p.strip.tracks[t] := by rw [← sample]
    rw [lineSample, sample, stepTrack_closed_false state, record]
  have same : p.strip.tracks.set t p.strip.tracks[t] = p.strip.tracks := Vector.set_getElem_self ..
  unfold runTrack
  dsimp only
  rw [quiet]
  simp only [quietStep, putTrack, same, Bool.false_eq_true, if_false]

theorem runTracks_blank (h : RollClosed p) : runTracks f n .blank p = (p, []) :=
  foldl_of_fixed fun t _ => runTrack_blank h [] t

/-- A line with no event, no end line and no open END track ends nothing (R57). -/
theorem endTests_quiet (h : p.time.endLine = 0 ∨ n ≠ p.time.endLine) : endTests f n [] p = p := by
  have line : endLineReached n p = false := decide_eq_false fun e => h.elim e.1 fun ne => ne e.2
  have track : endTrackHeard f [] = false := by simp [endTrackHeard, onsetOn]
  rw [endTests, line, track, Bool.or_self, Bool.and_false]
  rfl

/-- A music line without events is closed and advanced, and planned (R69, R148). -/
theorem musicWork_quiet (f : Format) (n : Word32) (p : Part) : musicWork f n [] p
    = planPedals f n [] (advanceLine (closeLine f n (dueInt p.time.due) (linePeriod p.time) [] (countMusicLine p))) := rfl

/-- The part once a BLANK line has been counted, in LOCKED with a CoastLimit of 2 or more. -/
def blankCounted (p : Part) : Part :=
  bump .blankLines (bump .linesTaken (advanceTakeMark { p with strip := { p.strip with tracking := .coasting, invalidRun := 1 } }))

theorem blankCounted_shape (p : Part) : ∃ m c, blankCounted p = { p with
    mem := m
    log := { p.log with counters := c }
    strip := { p.strip with takeMark := p.strip.takeMark + 1, tracking := .coasting, invalidRun := 1 } } := by
  unfold blankCounted
  obtain ⟨m, e⟩ := bumpBy_shape .linesTaken 1 (advanceTakeMark { p with strip := { p.strip with tracking := .coasting, invalidRun := 1 } })
  rw [bump, bump, e]
  obtain ⟨m', e'⟩ := bumpBy_shape .blankLines 1 _
  rw [e']
  exact ⟨_, _, rfl⟩

/-- What a BLANK line counts and writes. -/
theorem blankCounted_reports (hm : Memory.wf p.mem = true) :
    wordAt Config.takeMarkOffset (blankCounted p) = p.strip.takeMark + 1 ∧
      counterOf .linesTaken (blankCounted p) = (counterOf .linesTaken p + 1) % 2 ^ 32 ∧
      counterOf .blankLines (blankCounted p) = min 65535 (counterOf .blankLines p + 1) ∧
      (∀ c : Counter, c ≠ .linesTaken → c ≠ .blankLines → counterOf c (blankCounted p) = counterOf c p) ∧
      ∀ a, ¬ wordBytes Config.takeMarkOffset a → ¬ (0x200 ≤ a ∧ a < 0x204) → ¬ wordBytes Counter.blankLines.offset a →
        Memory.read (blankCounted p).mem a = Memory.read p.mem a := by
  unfold blankCounted
  have word : wordAt Config.takeMarkOffset (advanceTakeMark { p with strip := { p.strip with tracking := .coasting, invalidRun := 1 } })
      = p.strip.takeMark + 1 := wordAt_putWord_same _ _ hm
  have lines : (∀ c, counterOf c (advanceTakeMark { p with strip := { p.strip with tracking := .coasting, invalidRun := 1 } }) = counterOf c p) :=
    fun _ => rfl
  have memory (a : Nat) (ha : ¬ wordBytes Config.takeMarkOffset a) :
      Memory.read (advanceTakeMark { p with strip := { p.strip with tracking := .coasting, invalidRun := 1 } }).mem a = Memory.read p.mem a :=
    read_putWord_other ha _ _
  generalize advanceTakeMark { p with strip := { p.strip with tracking := .coasting, invalidRun := 1 } } = q at word lines memory ⊢
  refine ⟨?_, ?_, ?_, fun c h1 h2 => ?_, fun a h1 h2 h3 => ?_⟩
  · rw [wordAt_bump_other _ _ (.inl (by decide)), wordAt_bump_other _ _ (.inl (by decide)), word]
  · rw [bump, counterOf_bumpBy_other (by decide), counterOf_bump_wide (by decide), lines]
  · rw [counterOf_bump_narrow (by decide), bump, counterOf_bumpBy_other (by decide), lines]
  · rw [bump, counterOf_bumpBy_other fun e => h2 (index_injective e).symm, bump,
      counterOf_bumpBy_other fun e => h1 (index_injective e).symm, lines]
  · have wide : Counter.linesTaken.wide = true := by decide
    have narrow : Counter.blankLines.wide = false := by decide
    have offset : Counter.linesTaken.offset = 0x200 := by decide
    rw [← counterBytes_iff narrow] at h3
    unfold counterBytes at h3
    rw [bump, read_bumpBy_other _ _ _ _ (by omega), bump, read_bumpBy_other _ _ _ _ (by rw [wide, offset, if_pos rfl]; omega),
      memory a h1]

theorem advanceLine_reportWanted (p : Part) : advanceLine (reportWanted p) = advanceLine p := by
  unfold advanceLine countInterval reportWanted
  dsimp only
  split <;> rfl

theorem invalidEdgeLine_locked (h : p.strip.tracking = .locked) (hc : 2 ≤ f.coastLimit) :
    invalidEdgeLine f n p = { p with strip := { p.strip with tracking := .coasting, invalidRun := 1 } } := by
  unfold invalidEdgeLine
  rw [h]
  exact if_neg (by omega)

/-- A BLANK line over a closed roll, from its slot to its advance. -/
theorem processLine_blank (hf : formatInForce p = f) (closed : RollClosed p) (locked : p.strip.tracking = .locked)
    (coast : 2 ≤ f.coastLimit) (he : p.time.engine = .running) (planned : ∀ d, (pedalRec d p).plannedTarget = 0)
    (hend : p.time.endLine = 0 ∨ p.time.nextLine ≠ p.time.endLine) :
    processLine .blank p = advanceLine (closeLine f p.time.nextLine (dueInt p.time.due) (linePeriod p.time) []
      (countMusicLine (blankCounted p))) := by
  have edges : trackEdges f p.time.nextLine .blank p = { p with strip := { p.strip with tracking := .coasting, invalidRun := 1 } } :=
    invalidEdgeLine_locked locked coast
  have taken : lineTaken .blank { p with strip := { p.strip with tracking := .coasting, invalidRun := 1 } } = blankCounted p := by
    simp only [lineTaken, blankCounted]
  unfold processLine
  rw [hf]
  dsimp only
  rw [edges, runTracks_blank (by exact closed)]
  dsimp only
  rw [taken]
  obtain ⟨m, c, shape⟩ := blankCounted_shape p
  rw [shape, if_neg (by exact fun e => EngineState.noConfusion (he.symm.trans e)), musicWork_quiet,
    planPedals_of_rollClosed (by exact closed) (by exact planned), endTests_quiet]
  unfold advanceLine countInterval
  dsimp only
  split
  · exact hend
  · exact hend

/-- The slot at the Take Mark is taken at once where it is BLANK with no SKIP. -/
theorem takeOne_blank (held : p.strip.held = none) (hr : lineRepeat (lineWord p.strip.takeMark p) = false)
    (hb : lineBlank (lineWord p.strip.takeMark p) = true) (hs : lineSkip (lineWord p.strip.takeMark p) = 0) :
    takeOne p = processLine .blank p := by
  have none : putHeld none p = p := by rw [putHeld, ← held]
  unfold takeOne
  rw [held]
  dsimp only
  rw [hr, hb, hs]
  simp only [Bool.false_eq_true, if_false, takeHeld, if_true, none]

/-- Settles O30: the line is takeable, it is taken, and the next one's lookahead has not come. -/
theorem lookaheadTakesBlankLine : Obligations.LookaheadTakesBlankLine := by
  intro s i f hm ht he hw hi hf held free fill hr hb hskip locked coast closed planned hend
  dsimp only
  intro later
  have takes : engineTakesLines s.part = true := engineTakesLines_iff.2 (.inr he)
  have reached := atOrAfter_planTo (lookaheadInstant s.part) (clockRuns_of_takes takes)
  obtain ⟨t, x, shape⟩ := planTo_shape (lookaheadInstant s.part) s.part
  have goal : planTo (minusTime (dueInt s.part.time.due) s.part.time.lookahead) s.part = planTo (lookaheadInstant s.part) s.part := rfl
  rw [goal] at later ⊢
  have outcome := withPart_inTime ht reachLookahead
  rw [reachLookahead, takes, hw, if_pos (by rfl)] at outcome
  rw [shape] at reached later outcome ⊢
  generalize hq : { s.part with clocks := x, time := { s.part.time with clock := t } } = q at reached later outcome
  have takes : engineTakesLines q = true := by rw [← hq]; exact takes
  have span : stripSpan q = 1 := by
    have one : fillMark q - q.strip.takeMark = 1 := by
      rw [← hq]
      exact (congrArg (· - s.part.strip.takeMark) fill).trans (by rw [BitVec.add_comm]; exact BitVec.add_sub_cancel ..)
    rw [stripSpan, one]
    rfl
  have reached : lookaheadReached q = true := by rw [← hq] at reached ⊢; exact reached
  have takeable : takeable q = true := by
    have pool : Config.poolForLine = 320 := rfl
    have entries : 320 ≤ q.wheel.free := by rw [← hq]; exact free
    simp [Machine.takeable, lineAtHand, markFault, span, reached, pool, entries]
  have format : formatInForce (reportWanted q) = f := by
    have inForce : formatInForce s.part = f := by
      rw [formatInForce, hi]
      exact congrArg (fun x : Option Format => x.getD emptyFormat) hf
    rw [← hq]
    exact inForce
  have line : takeOne (reportWanted q) = advanceLine (closeLine f q.time.nextLine (dueInt q.time.due) (linePeriod (reportWanted q).time) []
      (countMusicLine (blankCounted (reportWanted q)))) := by
    subst hq
    rw [takeOne_blank (by exact held) (by exact hr) (by exact hb) (by exact hskip)]
    exact processLine_blank format closed locked coast he planned hend
  rw [consider_takes (engineConsiders_of_takes takes) takeable, readyToTake_of_takes (by exact takes), line] at outcome
  obtain ⟨word, lines, blanks, counters, memory⟩ := blankCounted_reports (p := reportWanted q) (by rw [← hq]; exact hm)
  obtain ⟨m, c, counted⟩ := blankCounted_shape (reportWanted q)
  generalize blankCounted (reportWanted q) = b at word lines blanks counters memory counted outcome
  have time : (advanceLine (closeLine f q.time.nextLine (dueInt q.time.due) (linePeriod (reportWanted q).time) [] (countMusicLine b))).time
      = (advanceLine q).time := by
    rw [counted, ← advanceLine_reportWanted q]
    rfl
  rw [considerLines_of_not] at outcome
  · subst hq
    refine ⟨_, outcome, rfl, ?_, word, lines, blanks, counters, memory⟩
    rw [← time, counted]
    rfl
  · have same : lookaheadReached (advanceLine q) = false := later
    rw [lookaheadReached, lookaheadInstant] at same ⊢
    rw [time, same, Bool.and_false]

end Sys2Proof.Machine
end

section
/-! The rules of a pedal: its claim, its entry into a state, cover and capture with every key at rest (R131, R147 to R162). -/

namespace Sys2Proof.Machine

variable {p q : Part} {d : Pedal} {r r' : PedalRec} {own : Nat → Prop} {bits : BitVec 9} {counted : List Counter}

/-! ## A pedal's record replaced, the committed current with its claim -/

/-- The pedal's record is replaced, and the committed current follows its claim (R130). -/
def repedal (d : Pedal) (r : PedalRec) (p : Part) : Part :=
  { p with
    pedals := p.pedals.set (pedalIndex d) r
    budget := { p.budget with committed := p.budget.committed - (pedalRec d p).claim + r.claim } }

@[simp] theorem pedalRec_repedal_same : pedalRec d (repedal d r p) = r := Vector.getElem_set_self ..

theorem putPedal_putPedal : putPedal d r (putPedal d r' p) = putPedal d r p := by
  simp only [putPedal, Vector.set_set]

theorem putPedal_repedal (h : r.claim = r'.claim) : putPedal d r (repedal d r' p) = repedal d r p := by
  simp only [putPedal, repedal, Vector.set_set, h]

theorem repedal_putPedal (h : r'.claim = (pedalRec d p).claim) : repedal d r (putPedal d r' p) = repedal d r p := by
  rw [repedal, pedalRec_putPedal_same, h]
  simp only [putPedal, Vector.set_set]
  rfl

theorem setPedalClaim_eq {amount : Nat} (h : NobodyWaits p.budget ∨ (pedalRec d p).claim ≤ amount) :
    setPedalClaim d amount p = repedal d { pedalRec d p with claim := amount } p := by
  unfold setPedalClaim
  dsimp only
  split
  · next falls =>
    rw [noteCause_of_nobodyWaits (by exact h.resolve_right (Nat.not_le.2 falls))]
    rfl
  · rfl

theorem pedalClaimPasses_iff {amount : Nat} : pedalClaimPasses amount p.budget = true ↔
    p.budget.pedalQ = [] ∧ p.budget.committed + amount ≤ p.budget.inForce := by
  simp [pedalClaimPasses, fits]

theorem pedalClaimPasses_of_nobodyWaits (hn : NobodyWaits p.budget) (amount : Nat) :
    pedalClaimPasses amount p.budget = true ↔ p.budget.committed + amount ≤ p.budget.inForce := by
  simp [pedalClaimPasses_iff, hn.1]

theorem pedalQueued_of_nobodyWaits (hn : NobodyWaits p.budget) (d : Pedal) : pedalQueued d p = false := by
  simp [pedalQueued, pedalEntry, hn.1]

/-! ## Cover and relief where no key is down -/

/-- No key keeps a relief cover. -/
def NoCover (p : Part) : Prop := ∀ k, keepsCover (keyRec k p) = false

theorem coverUpdate_of_noCover (h : NoCover p) : coverUpdate d p = p :=
  forKeys_of_fixed fun k => if_neg (by rw [h k]; exact Bool.false_ne_true)

/-- A cover update that removes no pedal from a cover only sets the covers that are kept (R162). -/
theorem coverUpdate_of_uncovered (h : ∀ k, inCover d (keyRec k p) = false) :
    coverUpdate d p = { p with keys := (coverUpdate d p).keys } ∧ ∀ k, keyRec k (coverUpdate d p)
      = if keepsCover (keyRec k p) then setCover d (covers d k p) (keyRec k p) else keyRec k p := by
  refine forKeys_records _ fun k q hq hk => ?_
  have same : covers d k q = covers d k p := by rw [hq]; rfl
  unfold updateCover
  dsimp only
  rw [hk, same, h k]
  split
  · rw [Bool.false_and, Bool.false_and, Bool.false_and]
    rfl
  · rw [← hk, putKey_keyRec]

/-- Every key is in IDLE. -/
def KeysIdle (p : Part) : Prop := ∀ k, (keyRec k p).state = .idle

theorem KeysIdle.noCover (h : KeysIdle p) : NoCover p := fun k => by rw [keepsCover, h k]; rfl

theorem reliefTestAll_of_keysIdle (h : KeysIdle p) : reliefTestAll p = p :=
  forKeys_of_fixed fun k => reliefTest_of_not_ready (.inl (by rw [h k]; exact KeyState.noConfusion))

/-! ## What follows a pedal's entry into a state -/

/-- The Capture Set after an entry of a pedal that settles. -/
def captureFilled (d : Pedal) (settles : Bool) (p : Part) : Capture :=
  if d = .middle ∧ settles ∧ fillsCapture p then { keys := keysToCapture p, engaged := true } else p.capture

/-- A moving or settled pedal is not at rest, so the engine is not drained (R59). -/
theorem drainTest_of_pedal (h : pedalAtRest (pedalRec d p) = false) : drainTest p = p := by
  have moving : drained p = false := by
    have : allPedals.all (fun d => pedalAtRest (pedalRec d p)) = false :=
      List.all_eq_false.2 ⟨d, by cases d <;> decide, by rw [h]; exact Bool.false_ne_true⟩
    rw [drained, this, Bool.and_false]
  exact if_neg fun e => by rw [moving] at e; exact Bool.false_ne_true e.2

theorem reportPedal_tells (d : Pedal) (previous : PedalState) (hr : RingPlaced p.log) :
    Tells p (reportPedal d previous p) (fun _ => False) 0 [] := by
  unfold reportPedal
  dsimp only
  split
  · exact .refl p
  · exact tells_record _ rfl hr

/-- With every key idle, an entry only reports itself and may fill the Capture Set (R159, R164). -/
theorem pedalEntered_tells (previous : PedalState) (hr : RingPlaced p.log) (hk : KeysIdle p)
    (hd : p.time.engine ≠ .draining ∨ pedalAtRest (pedalRec d p) = false) :
    Tells { p with capture := captureFilled d (hasSettled d previous p) p } (pedalEntered d previous p) (fun _ => False) 0 [] := by
  have reported := reportPedal_tells (p := p) d previous hr
  have arrives : pedalArrives d previous p = { reportPedal d previous p with
      capture := captureFilled d (hasSettled d previous p) (reportPedal d previous p) } := by
    have idle : KeysIdle (reportPedal d previous p) := fun k => by rw [reported.keyRec]; exact hk k
    have drain : drainTest (reportPedal d previous p) = reportPedal d previous p :=
      hd.elim (fun h => drainTest_of_not_draining (by rw [reported.time]; exact h))
        fun h => drainTest_of_pedal (d := d) (by rw [reported.pedalRec]; exact h)
    unfold pedalArrives captureFilled
    dsimp only
    rw [drain, coverUpdate_of_noCover idle.noCover]
    split
    · exact coverUpdate_of_noCover idle.noCover
    · rfl
  have entered : pedalEntered d previous p = pedalArrives d previous p := by
    unfold pedalEntered
    dsimp only
    split
    · refine reliefTestAll_of_keysIdle fun k => ?_
      rw [arrives]
      exact (congrArg KeyRec.state (reported.keyRec k)).trans (hk k)
    · rfl
  have same : captureFilled d (hasSettled d previous p) (reportPedal d previous p) = captureFilled d (hasSettled d previous p) p := by
    rw [reported.shape]
    rfl
  rw [entered, arrives, same]
  exact reported.lift (fun x => { x with capture := captureFilled d (hasSettled d previous p) p }) fun _ _ _ _ => rfl

/-! ## Position samples (R132, R155, R159) -/

/-- The part at a conversion of a pedal's channel: drive time has come to it, and the next one is set. -/
def atConversion (d : Pedal) (sample : BitVec 10) (p : Part) : Part :=
  let q := driveTo p.clocks.nextPedal[pedalIndex d] p
  { q with
    clocks := { q.clocks with nextPedal := q.clocks.nextPedal.set (pedalIndex d) (p.clocks.nextPedal[pedalIndex d] + 1000) }
    pins := { q.pins with pedals := q.pins.pedals.set (pedalIndex d) sample } }

/-- The Capture Set after a sample of a pedal, with every key idle. -/
def sampledCapture (d : Pedal) (p : Part) : Capture :=
  if d = .middle then captureAfter p (pedalRec .middle p).position (decide ((pedalRec .middle p).state = .settled)) else p.capture

theorem keysToCapture_congr {x : Part} (hs : x.strikes = p.strikes) (hk : x.keys = p.keys)
    (hd : (pedalRec .damper x).position = (pedalRec .damper p).position) : keysToCapture x = keysToCapture p := by
  unfold keysToCapture keyRec voicing
  rw [hs, hk, hd]

/-- The capture after a sample is judged on the part before it, but for the pedal sampled. -/
theorem sampledCapture_eq {x : Part} (hs : x.strikes = p.strikes) (hk : x.keys = p.keys) (hc : x.capture = p.capture)
    (others : ∀ e, e ≠ d → pedalRec e x = pedalRec e p) : sampledCapture d x =
      if d = .middle then captureAfter p (pedalRec d x).position (decide ((pedalRec d x).state = .settled)) else p.capture := by
  unfold sampledCapture
  rw [hc]
  split
  · next middle =>
    have damper : pedalRec .damper x = pedalRec .damper p := others _ (by rw [middle]; exact Pedal.noConfusion)
    unfold captureAfter
    rw [hs, hc, keysToCapture_congr hs hk (by rw [damper]), middle]
  · rfl

theorem emptyCapture_idle (hk : KeysIdle p) : emptyCapture p = { p with capture := { keys := [], engaged := false } } := by
  unfold emptyCapture
  rw [coverUpdate_of_noCover]
  exact KeysIdle.noCover hk

theorem fillCapture_idle (hk : KeysIdle p) : fillCapture p = { p with capture := { keys := keysToCapture p, engaged := true } } := by
  unfold fillCapture
  rw [coverUpdate_of_noCover]
  exact KeysIdle.noCover hk

theorem sampleCapture_idle (hk : KeysIdle p) : sampleCapture d p = { p with capture := sampledCapture d p } := by
  unfold sampleCapture sampledCapture
  split
  · by_cases below : (pedalRec .middle p).position < p.strikes.voicing.engageLevel
    · rw [captureAfter, if_pos below]
      exact (if_pos below).trans (emptyCapture_idle hk)
    · have level : decide ((voicing p).engageLevel ≤ (pedalRec .middle p).position) = true := decide_eq_true (Nat.not_lt.1 below)
      have fills : fillsCapture p = (decide ((pedalRec .middle p).state = .settled) && !p.capture.engaged) := by
        rw [fillsCapture, level, Bool.and_true, Bool.and_comm]
      rw [captureAfter, if_neg below]
      refine (if_neg below).trans ?_
      rw [captureTest, fills]
      split
      · rw [fillCapture_idle hk]
        exact reliefTestAll_of_keysIdle hk
      · rfl
  · rfl

/-- A sample of a pedal with no wanted target, with every key idle and nobody waiting: position, arrival, Capture Set. -/
theorem pedalConversion_idle {sample : BitVec 10} {x : Part}
    (arrival : judgeArrival d (putPedal d { pedalRec d p with position := sample.toNat / 4 } p) = x)
    (hk : KeysIdle x) (hn : NobodyWaits x.budget) (hw : (pedalRec d x).wanted = none) :
    pedalConversion d sample p = calm { x with capture := sampledCapture d x } := by
  have retried : retryWanted d x = x := by rw [retryWanted, hw]
  unfold pedalConversion
  dsimp only
  rw [arrival, retried, coverUpdate_of_noCover hk.noCover, sampleCapture_idle hk]
  rw [reliefTestAll_of_keysIdle (by exact hk), ite_self]
  exact serve_eq_calm hn

/-- A sample at which the pedal does not arrive changes its position only (R155). -/
theorem judgeArrival_keeps (hr : (pedalRec d p).state = .raising → (pedalRec d p).position + (pedalVoicing d p).tol < (pedalRec d p).target)
    (h0 : (pedalRec d p).state = .lowering → (pedalRec d p).target = 0 → (pedalVoicing d p).tol < (pedalRec d p).position)
    (h1 : (pedalRec d p).state = .lowering → (pedalRec d p).target ≠ 0 →
      (pedalRec d p).target + (pedalVoicing d p).tol < (pedalRec d p).position) : judgeArrival d p = p := by
  unfold judgeArrival
  dsimp only
  cases e : (pedalRec d p).state with
  | raising => exact if_neg (Nat.not_le.2 (hr e))
  | lowering =>
    dsimp only
    split
    · next zero => exact if_neg (Nat.not_le.2 (h0 e zero))
    · next above => exact if_neg (Nat.not_le.2 (h1 e above))
  | rest => rfl
  | settled => rfl
  | stuck => rfl
  | off => rfl

/-- An arrival whose hold claim is an increase that does not fit stops the travel timer only (R155). -/
theorem judgeArrival_refused (hn : NobodyWaits p.budget) (state : (pedalRec d p).state = .raising)
    (near : (pedalRec d p).target ≤ (pedalRec d p).position + (pedalVoicing d p).tol)
    (rise : (pedalRec d p).claim < holdClaim (pedalVoicing d p) (pedalRec d p).target)
    (full : p.budget.inForce < p.budget.committed + (holdClaim (pedalVoicing d p) (pedalRec d p).target - (pedalRec d p).claim)) :
    judgeArrival d p = putPedal d { pedalRec d p with timer := none } p := by
  unfold judgeArrival
  dsimp only
  rw [state]
  dsimp only
  rw [if_pos near]
  refine (if_neg ?_)
  rintro (h | h)
  · exact absurd h (Nat.not_le.2 rise)
  · exact absurd ((pedalClaimPasses_of_nobodyWaits hn _).1 h) (Nat.not_le.2 full)

/-- Settles O46. -/
theorem pedalSampleKeeps : Obligations.PedalSampleKeeps := by
  intro s d sample hs hn hk
  dsimp only
  intro hw
  set p := atConversion d sample s.part with hp
  set moved := putPedal d { pedalRec d p with position := sample.toNat / 4 } p with hmoved
  have record : pedalRec d moved = { pedalRec d s.part with position := sample.toNat / 4 } := pedalRec_putPedal_same ..
  have outcome (x : Part) (arrival : judgeArrival d moved = x) (hk : KeysIdle x) (hn : NobodyWaits x.budget) (hw : (pedalRec d x).wanted = none) :
      exec (.pedalPositionSample d sample) s = .next { s with part := calm { x with capture := sampledCapture d x } } :=
    (withPart_inTime hs (reachPedal d sample)).trans
      (congrArg (fun q => Host.Outcome.next { s with part := q }) (pedalConversion_idle arrival hk hn hw))
  refine ⟨fun h1 h2 h3 => ?_, fun state near rise full => ?_⟩
  · have keeps : judgeArrival d moved = moved :=
      judgeArrival_keeps (by rw [record]; exact h1) (by rw [record]; exact h2) (by rw [record]; exact h3)
    refine (outcome moved keeps hk hn (by rw [record]; exact hw)).trans (congrArg (fun q => Host.Outcome.next { s with part := q }) ?_)
    rw [sampledCapture_eq (x := moved) (p := s.part) rfl rfl rfl fun e he => pedalRec_putPedal_other he _ p, record]
    rfl
  · have refused := judgeArrival_refused (p := moved) (d := d) hn (by rw [record]; exact state) (by rw [record]; exact near)
      (by rw [record]; exact rise) (by rw [record]; exact full)
    rw [record, hmoved, putPedal_putPedal] at refused
    refine (outcome _ refused hk hn (by rw [pedalRec_putPedal_same]; exact hw)).trans
      (congrArg (fun q => Host.Outcome.next { s with part := q }) ?_)
    rw [sampledCapture_eq (x := putPedal d _ p) (p := s.part) rfl rfl rfl fun e he => pedalRec_putPedal_other he _ p,
      pedalRec_putPedal_same]
    rfl

/-- The test at the end of a sample finds the Capture Set as the pedal's entry left it. -/
theorem sampledCapture_captureFilled (settles : Bool) (p : Part) :
    sampledCapture d { p with capture := captureFilled d settles p } = sampledCapture d p := by
  by_cases filled : d = .middle ∧ settles = true ∧ fillsCapture p = true
  · have set : captureFilled d settles p = { keys := keysToCapture p, engaged := true } := if_pos filled
    obtain ⟨middle, -, fills⟩ := filled
    simp only [fillsCapture, Bool.and_eq_true, Bool.not_eq_true', decide_eq_true_eq] at fills
    obtain ⟨⟨free, state⟩, level⟩ := fills
    have above : ¬ (pedalRec .middle p).position < p.strikes.voicing.engageLevel := Nat.not_lt.2 level
    have before : sampledCapture d p = { keys := keysToCapture p, engaged := true } := by
      rw [sampledCapture, if_pos middle, captureAfter, if_neg above, decide_eq_true state, free]
      rfl
    rw [set, before, sampledCapture, if_pos middle, captureAfter]
    refine (if_neg above).trans ?_
    rw [Bool.not_true, Bool.and_false]
    rfl
  · have unchanged : captureFilled d settles p = p.capture := if_neg filled
    rw [unchanged]

/-- A sample at which the pedal enters a state, with every key idle and nobody waiting. -/
theorem pedalConversion_arrives {sample : BitVec 10} {previous : PedalState} {y : Part}
    (arrival : judgeArrival d (putPedal d { pedalRec d p with position := sample.toNat / 4 } p) = serve (pedalEntered d previous y))
    (hr : RingPlaced y.log) (hk : KeysIdle y) (hn : NobodyWaits y.budget) (hw : (pedalRec d y).wanted = none)
    (hd : y.time.engine ≠ .draining ∨ pedalAtRest (pedalRec d y) = false) :
    Tells (calm { y with capture := sampledCapture d y }) (pedalConversion d sample p) (fun _ => False) 0 [] := by
  have entered := pedalEntered_tells previous hr hk hd
  generalize pedalEntered d previous y = e at entered arrival
  rw [serve_eq_calm (by rw [entered.budget]; exact hn)] at arrival
  rw [pedalConversion_idle arrival (fun k => (congrArg KeyRec.state (entered.keyRec k)).trans (hk k))
    (by exact (congrArg NobodyWaits entered.budget).mpr hn) (by exact (congrArg PedalRec.wanted (entered.pedalRec d)).trans hw)]
  have same : sampledCapture d (calm e) = sampledCapture d y := by
    rw [← sampledCapture_captureFilled (hasSettled d previous y) y, entered.shape]
    rfl
  rw [same]
  exact entered.lift (fun x => calm { x with capture := sampledCapture d y }) fun _ _ _ _ => rfl

/-- The record of a RAISING pedal that arrives (R155). -/
def raisedRecord (d : Pedal) (r : PedalRec) (p : Part) : PedalRec :=
  { r with
    state := .settled, output := some (pedalHoldDuty (pedalVoicing d p) r.target), timer := none
    claim := holdClaim (pedalVoicing d p) r.target }

theorem judgeArrival_raised (hn : NobodyWaits p.budget) (state : (pedalRec d p).state = .raising)
    (near : (pedalRec d p).target ≤ (pedalRec d p).position + (pedalVoicing d p).tol)
    (fits : holdClaim (pedalVoicing d p) (pedalRec d p).target ≤ (pedalRec d p).claim
      ∨ p.budget.committed + (holdClaim (pedalVoicing d p) (pedalRec d p).target - (pedalRec d p).claim) ≤ p.budget.inForce) :
    judgeArrival d p = serve (pedalEntered d .raising (repedal d (raisedRecord d (pedalRec d p) p) p)) := by
  unfold judgeArrival
  dsimp only
  rw [state]
  dsimp only
  rw [if_pos near, if_pos (fits.imp id (pedalClaimPasses_of_nobodyWaits hn _).2), setPedalClaim_eq (.inl hn), pedalRec_repedal_same,
    putPedal_repedal (by rfl)]
  rfl

theorem judgeArrival_lowered (state : (pedalRec d p).state = .lowering) (above : (pedalRec d p).target ≠ 0)
    (near : (pedalRec d p).position ≤ (pedalRec d p).target + (pedalVoicing d p).tol) : judgeArrival d p
      = serve (pedalEntered d .lowering (putPedal d { pedalRec d p with state := .settled, timer := none } p)) := by
  unfold judgeArrival
  dsimp only
  rw [state]
  exact (if_neg above).trans (if_pos near)

theorem judgeArrival_rested (state : (pedalRec d p).state = .lowering) (zero : (pedalRec d p).target = 0)
    (near : (pedalRec d p).position ≤ (pedalVoicing d p).tol) : judgeArrival d p
      = serve (pedalEntered d .lowering (putPedal d { pedalRec d p with state := .rest, timer := none } p)) := by
  unfold judgeArrival
  dsimp only
  rw [state]
  exact (if_pos zero).trans (if_pos near)

/-- Settles O45: at each of the three arrivals the pedal enters its state from the record with the position sampled. -/
theorem pedalSampleSettles : Obligations.PedalSampleSettles := by
  intro s d sample hr hs hn hk
  dsimp only
  intro hw
  set p := atConversion d sample s.part with hp
  set moved := putPedal d { pedalRec d p with position := sample.toNat / 4 } p with hmoved
  have record : pedalRec d moved = { pedalRec d s.part with position := sample.toNat / 4 } := pedalRec_putPedal_same ..
  have outcome : exec (.pedalPositionSample d sample) s = .next { s with part := pedalConversion d sample p } :=
    withPart_inTime hs (reachPedal d sample)
  refine ⟨fun state near fits => ?_, fun state above near => ?_, fun state zero near hd => ?_⟩
  · have arrival := judgeArrival_raised (d := d) (p := moved) hn (by rw [record]; exact state) (by rw [record]; exact near)
      (by rw [record]; exact fits)
    rw [record, hmoved, repedal_putPedal (by rfl)] at arrival
    have told := pedalConversion_arrives arrival hr hk hn (by rw [pedalRec_repedal_same]; exact hw)
      (.inr (by rw [pedalRec_repedal_same]; rfl))
    refine ⟨_, outcome, rfl, told.shape.trans ?_, told.reports.congr rfl rfl⟩
    rw [sampledCapture_eq (x := repedal d _ p) (p := s.part) rfl rfl rfl fun e he => pedalRec_putPedal_other he _ p, pedalRec_repedal_same]
    rfl
  · have arrival := judgeArrival_lowered (d := d) (p := moved) (by rw [record]; exact state) (by rw [record]; exact above)
      (by rw [record]; exact near)
    rw [record, hmoved, putPedal_putPedal] at arrival
    have told := pedalConversion_arrives arrival hr hk hn (by rw [pedalRec_putPedal_same]; exact hw)
      (.inr (by rw [pedalRec_putPedal_same]; rfl))
    refine ⟨_, outcome, rfl, told.shape.trans ?_, told.reports.congr rfl rfl⟩
    rw [sampledCapture_eq (x := putPedal d _ p) (p := s.part) rfl rfl rfl fun e he => pedalRec_putPedal_other he _ p, pedalRec_putPedal_same]
    rfl
  · have arrival := judgeArrival_rested (d := d) (p := moved) (by rw [record]; exact state) (by rw [record]; exact zero)
      (by rw [record]; exact near)
    rw [record, hmoved, putPedal_putPedal] at arrival
    have told := pedalConversion_arrives arrival hr hk hn (by rw [pedalRec_putPedal_same]; exact hw) (.inl hd)
    refine ⟨_, outcome, rfl, told.shape.trans ?_, told.reports.congr rfl rfl⟩
    rw [sampledCapture_eq (x := putPedal d _ p) (p := s.part) rfl rfl rfl fun e he => pedalRec_putPedal_other he _ p, pedalRec_putPedal_same]
    rfl

end Sys2Proof.Machine
end

section
/-! A pedal that sticks, and the PEDAL_OVERRIDE request (R151 to R154, R156, R158). -/

namespace Sys2Proof.Machine

variable {p q : Part} {d : Pedal} {r : PedalRec} {s : State}

/-! ## STUCK (R156) -/

/-- The record of a pedal that sticks, its claim freed. -/
def stuckRecord (r : PedalRec) : PedalRec :=
  { r with state := .stuck, output := none, wanted := none, timer := none, claim := 0 }

theorem becomeStuck_eq (hn : NobodyWaits p.budget) (hc : NoCover p) : becomeStuck d p
    = serve (drainTest (bump .pedalStuck (reportPedal d (pedalRec d p).state (raise .pedal (repedal d (stuckRecord (pedalRec d p)) p))))) := by
  unfold becomeStuck
  dsimp only
  rw [pedalQueued_of_nobodyWaits (by exact hn)]
  rw [if_neg Bool.false_ne_true, coverUpdate_of_noCover (by exact hc), setPedalClaim_eq (.inl (by exact hn)), pedalRec_putPedal_same,
    repedal_putPedal (by rfl)]
  rfl

/-- Settles O47. -/
theorem travelTimeoutSticks : Obligations.TravelTimeoutSticks := by
  intro s d t hr hs hn he hk
  dsimp only
  intro travelling timer
  set p := driveTo t s.part with hp
  have cover : NoCover p := fun k => decide_eq_false fun e => e.elim (hk k).1 (hk k).2
  have outcome : exec (.travelTimeout d) s = .next { s with part := becomeStuck d p } := by
    refine (withPart_inTime hs (reachTravelEnd d)).trans (congrArg (fun q => Host.Outcome.next { s with part := q }) ?_)
    unfold reachTravelEnd
    dsimp only
    rw [timer]
    exact if_pos (decide_eq_true travelling)
  rw [becomeStuck_eq (p := p) hn cover] at outcome
  set x := repedal d (stuckRecord (pedalRec d p)) p with hx
  have raised := tells_raise .pedal x
  have told := raised.plain (reportPedal_tells d (pedalRec d p).state (raised.ringPlaced hr))
  generalize reportPedal d (pedalRec d p).state (raise .pedal x) = y at told outcome
  have before := told.counterOf (c := .pedalStuck) (by simp) (by decide)
  have count := counterOf_bump_narrow (c := .pedalStuck) (by decide) y
  have told := (told.trans (tells_bump .pedalStuck y)).weaken
    (fun a ha => narrowBytes (c := .pedalStuck) (off := 0x228) (by decide) (by decide) a (ha.resolve_left id)) BitVec.or_zero (fun _ h => h)
  have drain : drainTest (bump .pedalStuck y) = bump .pedalStuck y :=
    drainTest_of_not_draining (by rw [told.time]; exact he)
  rw [drain, serve_eq_calm (by rw [told.budget]; exact hn)] at outcome
  have counted : counterOf .pedalStuck (bump .pedalStuck y) = min 65535 (counterOf .pedalStuck s.part + 1) := by
    rw [count, before]
    rfl
  refine ⟨_, outcome, rfl, told.calm.shape, told.calm.reports.congr rfl rfl, counted⟩

/-! ## Targets judged (R147, R151, R153) -/

/-- A pedal asks a new claim for a target above 0 from REST or from LOWERING to 0 (R154). -/
def Asks (r : PedalRec) : Prop := r.state = .rest ∨ (r.state = .lowering ∧ r.target = 0)

theorem judgeTarget_pos {w position tol : Nat} (hw : 0 < w) : judgeTarget w position tol =
    if position + tol < w then .raising else if w + tol < position then .lowering else .settled := by
  rw [judgeTarget, if_pos hw]

/-- A target above 0 draws the move claim while the pedal rises and the hold claim else (R147). -/
theorem stateClaim_judged {w : Nat} (hw : 0 < w) (v : PedalVoicing) (position tol : Nat) :
    stateClaim v (judgeTarget w position tol) w = if judgeTarget w position tol = .raising then v.ifull * v.moveDuty / 255
      else v.ifull * min 255 (v.holdBase + v.holdSlope * w / 255) / 255 := by
  have above : w ≠ 0 := Nat.pos_iff_ne_zero.1 hw
  rw [judgeTarget_pos hw]
  split
  · rfl
  · split
    · exact if_neg above
    · rfl

theorem stateOutput_judged {w : Nat} (hw : 0 < w) (v : PedalVoicing) (position tol : Nat) :
    stateOutput v (judgeTarget w position tol) w = some (if judgeTarget w position tol = .raising then v.moveDuty
      else min 255 (v.holdBase + v.holdSlope * w / 255)) := by
  have above : w ≠ 0 := Nat.pos_iff_ne_zero.1 hw
  rw [judgeTarget_pos hw]
  split
  · rfl
  · split
    · exact if_neg above
    · rfl

theorem travelTimer_judged {w : Nat} (hw : 0 < w) (position tol travelMax now : Nat) :
    travelTimer (judgeTarget w position tol) travelMax now
      = if judgeTarget w position tol = .settled then none else some (now + travelMax * 1000) := by
  rw [judgeTarget_pos hw]
  split
  · rfl
  · split <;> rfl

theorem pedalAtRest_judged {w position tol : Nat} (hw : 0 < w) {r : PedalRec} (h : r.state = judgeTarget w position tol) :
    pedalAtRest r = false := by
  rw [pedalAtRest, h, judgeTarget_pos hw]
  split
  · rfl
  · split <;> rfl

/-! ## A target applied, with every key idle and nobody waiting (R151 to R154) -/

/-- The target is dropped, or kept as wanted. -/
def targetKept (d : Pedal) (wanted : Option Nat) (p : Part) : Part :=
  calm (putPedal d { pedalRec d p with wanted := wanted } p)

/-- The pedal falls to rest, its claim freed. -/
def pedalFallen (d : Pedal) (p : Part) : Part :=
  calm (repedal d { fallToRest (pedalVoicing d p) p.clocks.drive (pedalRec d p) with wanted := none, claim := 0 } p)

/-- The record of a pedal that is driven to a target. -/
def drivenPedal (d : Pedal) (w : Nat) (p : Part) : PedalRec :=
  let v := pedalVoicing d p
  let judged := judgeTarget w (pedalRec d p).position v.tol
  { pedalRec d p with
    state := judged, target := w, wanted := none, output := stateOutput v judged w
    timer := travelTimer judged v.travelMax p.clocks.drive, claim := stateClaim v judged w }

/-- The pedal is driven to a target, which may fill the Capture Set. -/
def pedalDriven (d : Pedal) (w : Nat) (p : Part) : Part :=
  let x := repedal d (drivenPedal d w p) p
  calm { x with capture := captureFilled d (hasSettled d (pedalRec d p).state x) x }

variable {w : Nat}

theorem applyTarget_zero (hs : outOfService (pedalRec d p) = false) : applyTarget d 0 p = serve (applyZero d p) := by
  simp only [applyTarget, hs, Bool.false_eq_true, if_false, if_true]

theorem applyTarget_ask (h : Asks (pedalRec d p)) (hw : 0 < w) : applyTarget d w p = serve (applyAsk d w p) := by
  have above : w ≠ 0 := Nat.pos_iff_ne_zero.1 hw
  unfold applyTarget
  rcases h with h | ⟨h, zero⟩ <;> simp [outOfService, h, above]
  simp [zero]

theorem applyTarget_change (hs : outOfService (pedalRec d p) = false) (h : ¬ Asks (pedalRec d p)) (hw : 0 < w) :
    applyTarget d w p = serve (applyChange d w p) := by
  have above : w ≠ 0 := Nat.pos_iff_ne_zero.1 hw
  unfold applyTarget
  dsimp only
  rw [hs, if_neg Bool.false_ne_true, if_neg above]
  cases e : (pedalRec d p).state with
  | raising => rfl
  | settled => rfl
  | lowering =>
    dsimp only
    rw [if_neg fun zero => h (.inr ⟨e, zero⟩)]
  | rest => exact absurd (.inl e) h
  | stuck => simp [outOfService, e] at hs
  | off => simp [outOfService, e] at hs

theorem dropWanted_eq (hn : NobodyWaits p.budget) : dropWanted d p = putPedal d { pedalRec d p with wanted := none } p := by
  unfold dropWanted
  rw [pedalQueued_of_nobodyWaits hn]
  rfl

/-- A target of 0 leaves a pedal at rest, or falling to it, where it is (R152). -/
theorem applyTarget_zero_asks (hn : NobodyWaits p.budget) (h : Asks (pedalRec d p)) : applyTarget d 0 p = targetKept d none p := by
  have service : outOfService (pedalRec d p) = false := by rcases h with h | ⟨h, -⟩ <;> rw [outOfService, h] <;> rfl
  have stays : applyZero d p = putPedal d { pedalRec d p with wanted := none } p := by
    unfold applyZero
    dsimp only
    rw [dropWanted_eq hn, pedalRec_putPedal_same]
    rcases h with h | ⟨h, zero⟩ <;> simp [h]
    simp [zero]
  rw [applyTarget_zero service, stays]
  exact serve_eq_calm hn

/-- An entry into another state than SETTLED leaves the Capture Set. -/
theorem pedalEntered_unsettled (previous : PedalState) (hr : RingPlaced p.log) (hk : KeysIdle p) (he : p.time.engine ≠ .draining)
    (hs : (pedalRec d p).state ≠ .settled) : Tells p (pedalEntered d previous p) (fun _ => False) 0 [] := by
  have entered := pedalEntered_tells previous hr hk (.inl he) (d := d)
  have none : captureFilled d (hasSettled d previous p) p = p.capture :=
    if_neg fun e => hs (of_decide_eq_true e.2.1).1
  rw [none] at entered
  exact entered

theorem fallToRest_unsettled (v : PedalVoicing) (now : Nat) (r : PedalRec) : (fallToRest v now r).state ≠ .settled := by
  unfold fallToRest
  dsimp only
  split <;> exact PedalState.noConfusion

/-- A target of 0 lets any other pedal in service fall to rest (R152). -/
theorem applyTarget_zero_falls (hr : RingPlaced p.log) (hk : KeysIdle p) (hn : NobodyWaits p.budget) (he : p.time.engine ≠ .draining)
    (hs : outOfService (pedalRec d p) = false) (h : ¬ Asks (pedalRec d p)) :
    Tells (pedalFallen d p) (applyTarget d 0 p) (fun _ => False) 0 [] := by
  set fallen := { fallToRest (pedalVoicing d p) p.clocks.drive (pedalRec d p) with wanted := none } with hfallen
  have entered := pedalEntered_unsettled (p := putPedal d fallen p) (d := d) (pedalRec d p).state hr hk he
    (by rw [pedalRec_putPedal_same]; exact fallToRest_unsettled (pedalVoicing d p) p.clocks.drive (pedalRec d p))
  have falls : applyZero d p = setPedalClaim d 0 (pedalEntered d (pedalRec d p).state (putPedal d fallen p)) := by
    unfold applyZero
    dsimp only
    rw [dropWanted_eq hn, pedalRec_putPedal_same, putPedal_putPedal]
    refine (if_pos ?_).trans rfl
    dsimp only
    cases e : (pedalRec d p).state with
    | raising => rfl
    | settled => rfl
    | lowering => exact decide_eq_true fun zero => h (.inr ⟨e, zero⟩)
    | rest => exact absurd (.inl e) h
    | stuck => simp [outOfService, e] at hs
    | off => simp [outOfService, e] at hs
  rw [applyTarget_zero hs, falls]
  generalize pedalEntered d (pedalRec d p).state (putPedal d fallen p) = e at entered
  have nobody : NobodyWaits e.budget := by rw [entered.budget]; exact hn
  rw [setPedalClaim_eq (.inl nobody), serve_eq_calm (by exact nobody)]
  have freed := entered.lift (fun z => calm (repedal d { pedalRec d z with claim := 0 } z)) fun _ _ _ _ => rfl
  rw [pedalRec_putPedal_same, repedal_putPedal (by rfl)] at freed
  exact freed

theorem applyAsk_of_nobodyWaits (hn : NobodyWaits p.budget) : applyAsk d w p = askPedal d w p := by
  unfold applyAsk pedalEntry
  rw [hn.1]
  rfl

/-- The claim for a target is held, and the pedal enters the state judged for it. -/
def driveTarget (d : Pedal) (w : Nat) (p : Part) : Part :=
  pedalDrives d (drivenPedal d w p).state w (setPedalClaim d (drivenPedal d w p).claim p)

/-- A pedal whose claim is granted is driven to its target (R153, R154). -/
theorem driveTarget_tells (hr : RingPlaced p.log) (hk : KeysIdle p) (hn : NobodyWaits p.budget) (hw : 0 < w) :
    Tells (pedalDriven d w p) (serve (driveTarget d w p)) (fun _ => False) 0 [] := by
  have drives : driveTarget d w p = pedalEntered d (pedalRec d p).state (repedal d (drivenPedal d w p) p) := by
    unfold driveTarget pedalDrives putDriving
    rw [setPedalClaim_eq (.inl hn)]
    dsimp only
    rw [pedalRec_repedal_same, putPedal_repedal (by rfl)]
    rfl
  have entered := pedalEntered_tells (p := repedal d (drivenPedal d w p) p) (d := d) (pedalRec d p).state hr hk
    (.inr (by rw [pedalRec_repedal_same]; exact pedalAtRest_judged hw rfl))
  rw [drives]
  generalize pedalEntered d (pedalRec d p).state (repedal d (drivenPedal d w p) p) = e at entered ⊢
  rw [serve_eq_calm (by rw [entered.budget]; exact hn)]
  exact entered.calm

/-- An asked claim that fits drives the pedal to its target (R154). -/
theorem applyTarget_granted (hr : RingPlaced p.log) (hk : KeysIdle p) (hn : NobodyWaits p.budget) (h : Asks (pedalRec d p)) (hw : 0 < w)
    (hf : p.budget.committed + (drivenPedal d w p).claim ≤ p.budget.inForce) :
    Tells (pedalDriven d w p) (applyTarget d w p) (fun _ => False) 0 [] := by
  have granted : askPedal d w p = driveTarget d w p := if_pos ((pedalClaimPasses_of_nobodyWaits hn _).2 hf)
  rw [applyTarget_ask h hw, applyAsk_of_nobodyWaits hn, granted]
  exact driveTarget_tells hr hk hn hw

/-- The part with a pedal's claim for a target deferred, before the count. -/
def pedalDeferred (d : Pedal) (w : Nat) (p : Part) : Part :=
  let q := putPedal d { pedalRec d p with wanted := some w } p
  { q with budget := { q.budget with
    pedalQ := [{ pedal := d, amount := (drivenPedal d w p).claim, judged := (drivenPedal d w p).state }] } }

/-- An asked claim that does not fit waits in PEDAL (R137, R154). -/
theorem askPedal_deferred (hn : p.budget.pedalQ = [])
    (hf : p.budget.inForce < p.budget.committed + (drivenPedal d w p).claim) :
    Tells (pedalDeferred d w p) (askPedal d w p) (wordBytes 0x218) 0 [.deferrals] ∧
      counterOf .deferrals (askPedal d w p) = min 65535 (counterOf .deferrals p + 1) := by
  have refused : ¬ pedalClaimPasses (drivenPedal d w p).claim p.budget = true :=
    fun e => absurd (pedalClaimPasses_iff.1 e).2 (Nat.not_le.2 hf)
  have defers : askPedal d w p = putPedal d { pedalRec d p with wanted := some w } (bump .deferrals { p with
      budget := { p.budget with
        pedalQ := [{ pedal := d, amount := (drivenPedal d w p).claim, judged := (drivenPedal d w p).state }] } }) := by
    unfold askPedal
    refine (if_neg refused).trans ?_
    unfold deferPedal
    dsimp only
    rw [hn, pedalRec_bump]
    rfl
  have counted := (tells_bump .deferrals { p with
      budget := { p.budget with
        pedalQ := [{ pedal := d, amount := (drivenPedal d w p).claim, judged := (drivenPedal d w p).state }] } }).weaken
    (narrowBytes (off := 0x218) (by decide) (by decide)) rfl (fun _ h => h)
  rw [defers]
  exact ⟨counted.lift (putPedal d { pedalRec d p with wanted := some w }) fun _ _ _ _ => rfl, counterOf_bump_narrow (by decide) _⟩

/-- Serving where no head fits only puts the cause away (R139, R140). -/
theorem serve_of_no_round (h : serveRound p = none) : serve p = calm p := by
  have rounds (n : Nat) : serveRounds n p = p := by cases n <;> simp [serveRounds, h]
  have once : serveOnce p = calm p := by simp [serveOnce, rounds, calm]
  have unsettled : pedalSettled p (calm p) = false := by simp [pedalSettled, calm, pedalRec]
  cases cause : p.budget.serveCause with
  | false => rw [serve_of_no_cause cause, calm, ← cause]
  | true => simp [serve, servings, cause, once, unsettled]

/-- The pedal claim deferred waits on, as it does not fit. -/
theorem serveRound_deferred (hn : NobodyWaits p.budget) (hf : p.budget.inForce < p.budget.committed + (drivenPedal d w p).claim)
    {x : Part} (hb : x.budget = (pedalDeferred d w p).budget) : serveRound x = none := by
  have pedal : fittingPedal x.budget = none := by
    rw [hb]
    exact if_neg fun e => absurd (of_decide_eq_true e) (Nat.not_le.2 hf)
  have half (h : Half) : fittingHead h x.budget = none := by
    have empty : halfQueue h x.budget = [] := by rw [hb]; cases h; exact hn.2.1; exact hn.2.2
    rw [fittingHead, empty]
  rw [serveRound, pedal]
  simp only [half]

/-- A deferred claim makes no cause for serving. -/
theorem applyTarget_deferred (hn : NobodyWaits p.budget) (h : Asks (pedalRec d p)) (hw : 0 < w)
    (hf : p.budget.inForce < p.budget.committed + (drivenPedal d w p).claim) :
    Tells (calm (pedalDeferred d w p)) (applyTarget d w p) (wordBytes 0x218) 0 [.deferrals] ∧
      counterOf .deferrals (applyTarget d w p) = min 65535 (counterOf .deferrals p + 1) := by
  obtain ⟨tells, count⟩ := askPedal_deferred hn.1 hf
  rw [applyTarget_ask h hw, applyAsk_of_nobodyWaits hn]
  generalize askPedal d w p = e at tells count
  rw [serve_of_no_round (serveRound_deferred hn hf tells.budget)]
  exact ⟨tells.calm, count⟩

/-- The target and state that the pedal already has drop an older wanted target (R153). -/
theorem applyTarget_same (hn : NobodyWaits p.budget) (hs : outOfService (pedalRec d p) = false) (h : ¬ Asks (pedalRec d p)) (hw : 0 < w)
    (same : (drivenPedal d w p).state = (pedalRec d p).state ∧ w = (pedalRec d p).target) :
    applyTarget d w p = targetKept d none p := by
  have kept : applyChange d w p = putPedal d { pedalRec d p with wanted := none } p := if_pos same
  rw [applyTarget_change hs h hw, kept]
  exact serve_eq_calm hn

/-- A change of claim that passes drives the pedal to its new target (R153). -/
theorem applyTarget_changed (hr : RingPlaced p.log) (hk : KeysIdle p) (hn : NobodyWaits p.budget)
    (hs : outOfService (pedalRec d p) = false) (h : ¬ Asks (pedalRec d p)) (hw : 0 < w)
    (other : ¬ ((drivenPedal d w p).state = (pedalRec d p).state ∧ w = (pedalRec d p).target))
    (passes : (drivenPedal d w p).claim ≤ (pedalRec d p).claim
      ∨ p.budget.committed + ((drivenPedal d w p).claim - (pedalRec d p).claim) ≤ p.budget.inForce) :
    Tells (pedalDriven d w p) (applyTarget d w p) (fun _ => False) 0 [] := by
  have changed : applyChange d w p = driveTarget d w p :=
    (if_neg other).trans (if_pos (passes.imp id (pedalClaimPasses_of_nobodyWaits hn _).2))
  rw [applyTarget_change hs h hw, changed]
  exact driveTarget_tells hr hk hn hw

/-- A change of claim that does not pass keeps the target as wanted (R153). -/
theorem applyTarget_refused (hn : NobodyWaits p.budget) (hs : outOfService (pedalRec d p) = false) (h : ¬ Asks (pedalRec d p)) (hw : 0 < w)
    (other : ¬ ((drivenPedal d w p).state = (pedalRec d p).state ∧ w = (pedalRec d p).target))
    (refused : ¬ ((drivenPedal d w p).claim ≤ (pedalRec d p).claim
      ∨ p.budget.committed + ((drivenPedal d w p).claim - (pedalRec d p).claim) ≤ p.budget.inForce)) :
    applyTarget d w p = targetKept d (some w) p := by
  have kept : applyChange d w p = putPedal d { pedalRec d p with wanted := some w } p :=
    (if_neg other).trans (if_neg fun e => refused (e.imp id (pedalClaimPasses_of_nobodyWaits hn _).1))
  rw [applyTarget_change hs h hw, kept]
  exact serve_eq_calm hn

end Sys2Proof.Machine
end

section
/-! The PEDAL_OVERRIDE request, as it is taken (R158). -/

namespace Sys2Proof.Machine

variable {p q : Part} {d : Pedal} {r : PedalRec} {o : Override} {w : Nat}

/-! ## The record from which an override applies its target -/

theorem fallToRest_eq (v : PedalVoicing) (now : Nat) (r : PedalRec) : fallToRest v now r = { r with
    state := if r.position ≤ v.tol then .rest else .lowering, target := 0, output := none
    timer := if r.position ≤ v.tol then none else some (now + v.travelMax * 1000) } := by
  unfold fallToRest
  dsimp only
  split <;> rfl

/-- The record of a pedal that FOLLOW or FORCE brings back into service (R158). -/
def basedRecord (d : Pedal) (o : Override) (p : Part) : PedalRec :=
  let r := { pedalRec d p with override := o }
  if r.state = .stuck ∨ r.state = .off then fallToRest (pedalVoicing d p) p.clocks.drive r else r

theorem basedRecord_inService (d : Pedal) (o : Override) (p : Part) : outOfService (basedRecord d o p) = false := by
  unfold basedRecord
  dsimp only
  split
  · rw [fallToRest_eq, outOfService]
    dsimp only
    split <;> rfl
  · next h => exact decide_eq_false h

theorem basedRecord_claim (d : Pedal) (o : Override) (p : Part) : (basedRecord d o p).claim = (pedalRec d p).claim := by
  unfold basedRecord
  dsimp only
  split
  · rw [fallToRest_eq]
  · rfl

theorem basedRecord_position (d : Pedal) (o : Override) (p : Part) : (basedRecord d o p).position = (pedalRec d p).position := by
  unfold basedRecord
  dsimp only
  split
  · rw [fallToRest_eq]
  · rfl

/-- A pedal that keeps its claim as it comes back asks anew, so one that does not ask was in service. -/
theorem basedRecord_of_not_asks (h : ¬ Asks (basedRecord d o p)) : basedRecord d o p = { pedalRec d p with override := o } := by
  unfold basedRecord at h ⊢
  dsimp only at h ⊢
  split
  · next out =>
    rw [if_pos out, fallToRest_eq] at h
    refine absurd ?_ h
    unfold Asks
    dsimp only
    split
    · exact .inl rfl
    · exact .inr ⟨rfl, rfl⟩
  · rfl

/-- An override that gives a target reports the pedal's return to service and applies the target (R158). -/
theorem overrideOn_based (hr : RingPlaced p.log) (hk : KeysIdle p) (he : p.time.engine ≠ .draining)
    (ho : effectiveTarget { pedalRec d p with override := o } = some w) :
    ∃ y, Tells (putPedal d (basedRecord d o p) p) y (fun _ => False) 0 [] ∧ overrideOn d o p = applyTarget d w y := by
  unfold overrideOn
  dsimp only at ho ⊢
  rw [ho]
  refine ⟨_, ?_, rfl⟩
  unfold basedRecord outOfService
  simp only [decide_eq_true_eq]
  rw [putPedal_putPedal]
  split
  · exact pedalEntered_unsettled _ hr hk he (by rw [pedalRec_putPedal_same]; exact fallToRest_unsettled _ _ _)
  · exact .refl _

/-- The part with a pedal switched off, its claim freed. -/
def switchedOff (d : Pedal) (p : Part) : Part :=
  calm (repedal d { pedalRec d p with
    override := .off, state := .off, target := 0, wanted := none, output := none, timer := none, claim := 0 } p)

/-- Override OFF switches the pedal off, and is reported (R158). -/
theorem overrideOff_tells (hr : RingPlaced p.log) (hk : KeysIdle p) (hn : NobodyWaits p.budget) (he : p.time.engine ≠ .draining) :
    Tells (switchedOff d p) (overrideOff d p) (fun _ => False) 0 [] := by
  unfold overrideOff
  dsimp only
  rw [dropWanted_eq hn, pedalRec_putPedal_same, putPedal_putPedal, coverUpdate_of_noCover (KeysIdle.noCover (by exact hk)),
    setPedalClaim_eq (.inl (by exact hn)), pedalRec_putPedal_same, repedal_putPedal (by rfl)]
  dsimp only
  set x := repedal d { pedalRec d p with
    override := .off, state := .off, target := 0, wanted := none, output := none, timer := none, claim := 0 } p with hx
  have reported := reportPedal_tells (p := x) d (pedalRec d p).state hr
  generalize reportPedal d (pedalRec d p).state x = y at reported
  rw [drainTest_of_not_draining (by rw [reported.time]; exact he), serve_eq_calm (by rw [reported.budget]; exact hn)]
  exact reported.calm

/-- Where an entry of a pedal fills the Capture Set (R159). -/
theorem captureFilled_repedal (previous : PedalState) (r : PedalRec) (p : Part) :
    captureFilled d (hasSettled d previous (repedal d r p)) (repedal d r p)
      = if d = .middle ∧ r.state = .settled ∧ previous ≠ .settled ∧ p.capture.engaged = false
          ∧ p.strikes.voicing.engageLevel ≤ r.position
        then { keys := keysToCapture p, engaged := true } else p.capture := by
  unfold captureFilled
  by_cases middle : d = .middle
  · subst middle
    have keys : keysToCapture (repedal .middle r p) = keysToCapture p :=
      keysToCapture_congr rfl rfl (congrArg PedalRec.position (pedalRec_putPedal_other Pedal.noConfusion ..))
    have settles : hasSettled .middle previous (repedal .middle r p) = true ↔ r.state = .settled ∧ previous ≠ .settled := by
      rw [hasSettled, pedalRec_repedal_same, decide_eq_true_eq]
    have fills : fillsCapture (repedal .middle r p) = true ↔
        p.capture.engaged = false ∧ r.state = .settled ∧ p.strikes.voicing.engageLevel ≤ r.position := by
      simp only [fillsCapture, pedalRec_repedal_same, Bool.and_eq_true, Bool.not_eq_true', decide_eq_true_eq, and_assoc]
      rfl
    rw [keys]
    have same : (hasSettled .middle previous (repedal .middle r p) = true ∧ fillsCapture (repedal .middle r p) = true)
        ↔ (r.state = .settled ∧ previous ≠ .settled ∧ p.capture.engaged = false ∧ p.strikes.voicing.engageLevel ≤ r.position) := by
      rw [settles, fills]
      tauto
    simp only [true_and, same]
    rfl
  · rw [if_neg fun e => middle e.1, if_neg fun e => middle e.1]
    rfl

/-! ## The override applied, case by case (R151 to R154, R158) -/

/-- The part with the pedal back in service under its override. -/
def based (d : Pedal) (o : Override) (p : Part) : Part := putPedal d (basedRecord d o p) p

theorem pedalRec_based : pedalRec d (based d o p) = basedRecord d o p := pedalRec_putPedal_same ..

theorem pedalDriven_lift (d : Pedal) (w : Nat) (x : Part) (m : Memory) (u : Window) (l : LogWriter) :
    pedalDriven d w { x with mem := m, window := u, log := l }
      = { pedalDriven d w x with mem := m, window := u, log := l } := rfl

section Applied

variable (hr : RingPlaced p.log) (hk : KeysIdle p) (hn : NobodyWaits p.budget) (he : p.time.engine ≠ .draining)
  (ho : effectiveTarget { pedalRec d p with override := o } = some w)
include hr hk hn he ho

theorem overrideOn_zero_asks (h : Asks (basedRecord d o p)) (hw : w = 0) :
    Tells (targetKept d none (based d o p)) (overrideOn d o p) (fun _ => False) 0 [] := by
  obtain ⟨y, told, eq⟩ := overrideOn_based hr hk he ho
  rw [eq, hw, applyTarget_zero_asks (by rw [told.budget]; exact hn) (by rw [told.pedalRec, pedalRec_putPedal_same]; exact h)]
  exact told.lift (targetKept d none) fun _ _ _ _ => rfl

theorem overrideOn_zero_falls (h : ¬ Asks (basedRecord d o p)) (hw : w = 0) :
    Tells (pedalFallen d (based d o p)) (overrideOn d o p) (fun _ => False) 0 [] := by
  obtain ⟨y, told, eq⟩ := overrideOn_based hr hk he ho
  have record : pedalRec d y = basedRecord d o p := by rw [told.pedalRec, pedalRec_putPedal_same]
  have falls := applyTarget_zero_falls (p := y) (told.ringPlaced hr) (fun k => by rw [told.keyRec]; exact hk k)
    (by rw [told.budget]; exact hn) (by rw [told.time]; exact he) (by rw [record]; exact basedRecord_inService ..) (by rw [record]; exact h)
  rw [eq, hw]
  exact (told.lift (pedalFallen d) fun _ _ _ _ => rfl).plain falls

theorem overrideOn_granted (h : Asks (basedRecord d o p)) (hw : 0 < w)
    (hf : p.budget.committed + (drivenPedal d w (based d o p)).claim ≤ p.budget.inForce) :
    Tells (pedalDriven d w (based d o p)) (overrideOn d o p) (fun _ => False) 0 [] := by
  obtain ⟨y, told, eq⟩ := overrideOn_based hr hk he ho
  have record : pedalRec d y = basedRecord d o p := by rw [told.pedalRec, pedalRec_putPedal_same]
  have driven : drivenPedal d w y = drivenPedal d w (based d o p) := by rw [told.shape]; rfl
  have granted := applyTarget_granted (p := y) (told.ringPlaced hr) (fun k => by rw [told.keyRec]; exact hk k)
    (by rw [told.budget]; exact hn) (by rw [record]; exact h) hw (by rw [told.budget, driven]; exact hf)
  rw [eq]
  exact (told.lift (pedalDriven d w) (pedalDriven_lift d w)).plain granted

theorem overrideOn_deferred (h : Asks (basedRecord d o p)) (hw : 0 < w)
    (hf : p.budget.inForce < p.budget.committed + (drivenPedal d w (based d o p)).claim) :
    Tells (calm (pedalDeferred d w (based d o p))) (overrideOn d o p) (wordBytes 0x218) 0 [.deferrals] ∧
      counterOf .deferrals (overrideOn d o p) = min 65535 (counterOf .deferrals p + 1) := by
  obtain ⟨y, told, eq⟩ := overrideOn_based hr hk he ho
  have driven : drivenPedal d w y = drivenPedal d w (based d o p) := by rw [told.shape]; rfl
  obtain ⟨tells, count⟩ := applyTarget_deferred (p := y) (d := d) (w := w) (by rw [told.budget]; exact hn)
    (by rw [told.pedalRec, pedalRec_putPedal_same]; exact h) hw (by rw [told.budget, driven]; exact hf)
  rw [eq]
  refine ⟨(told.lift (fun x => calm (pedalDeferred d w x)) fun _ _ _ _ => rfl).after tells, ?_⟩
  rw [count, told.counterOf (by simp) (by decide)]
  rfl

theorem overrideOn_same (h : ¬ Asks (basedRecord d o p)) (hw : 0 < w)
    (same : (drivenPedal d w (based d o p)).state = (pedalRec d p).state ∧ w = (pedalRec d p).target) :
    Tells (targetKept d none (based d o p)) (overrideOn d o p) (fun _ => False) 0 [] := by
  obtain ⟨y, told, eq⟩ := overrideOn_based hr hk he ho
  have record : pedalRec d y = basedRecord d o p := by rw [told.pedalRec, pedalRec_putPedal_same]
  have driven : drivenPedal d w y = drivenPedal d w (based d o p) := by rw [told.shape]; rfl
  rw [eq, applyTarget_same (p := y) (by rw [told.budget]; exact hn) (by rw [record]; exact basedRecord_inService ..)
    (by rw [record]; exact h) hw (by rw [driven, record, basedRecord_of_not_asks h]; exact same)]
  exact told.lift (targetKept d none) fun _ _ _ _ => rfl

theorem overrideOn_changed (h : ¬ Asks (basedRecord d o p)) (hw : 0 < w)
    (other : ¬ ((drivenPedal d w (based d o p)).state = (pedalRec d p).state ∧ w = (pedalRec d p).target)) :
    let claim := (drivenPedal d w (based d o p)).claim
    let passes := claim ≤ (pedalRec d p).claim ∨ p.budget.committed + (claim - (pedalRec d p).claim) ≤ p.budget.inForce
    (passes → Tells (pedalDriven d w (based d o p)) (overrideOn d o p) (fun _ => False) 0 []) ∧
      (¬ passes → Tells (targetKept d (some w) (based d o p)) (overrideOn d o p) (fun _ => False) 0 []) := by
  obtain ⟨y, told, eq⟩ := overrideOn_based hr hk he ho
  have record : pedalRec d y = { pedalRec d p with override := o } := by
    rw [told.pedalRec, pedalRec_putPedal_same, basedRecord_of_not_asks h]
  have service : outOfService (pedalRec d y) = false := by
    rw [record, ← basedRecord_of_not_asks h]
    exact basedRecord_inService ..
  have asks : ¬ Asks (pedalRec d y) := by rw [record, ← basedRecord_of_not_asks h]; exact h
  have driven : drivenPedal d w y = drivenPedal d w (based d o p) := by rw [told.shape]; rfl
  have nobody : NobodyWaits y.budget := by rw [told.budget]; exact hn
  rw [eq]
  refine ⟨fun passes => ?_, fun refused => ?_⟩
  · exact (told.lift (pedalDriven d w) (pedalDriven_lift d w)).plain (applyTarget_changed (p := y) (told.ringPlaced hr)
      (fun k => by rw [told.keyRec]; exact hk k) nobody service asks hw (by rw [driven, record]; exact other)
      (by rw [driven, record, told.budget]; exact passes))
  · rw [applyTarget_refused nobody service asks hw (by rw [driven, record]; exact other)
      (by rw [driven, record, told.budget]; exact refused)]
    exact told.lift (targetKept d (some w)) fun _ _ _ _ => rfl

end Applied

/-- Where the pedal is judged to go, from its position (R153). -/
def judgedState (w position tol : Nat) : PedalState :=
  if position + tol < w then .raising else if w + tol < position then .lowering else .settled

theorem drivenPedal_based (hw : 0 < w) (d : Pedal) (o : Override) (p : Part) :
    let v := pedalVoicing d p
    let judged := judgedState w (pedalRec d p).position v.tol
    let duty := min 255 (v.holdBase + v.holdSlope * w / 255)
    drivenPedal d w (based d o p) = { basedRecord d o p with
      state := judged, target := w, wanted := none
      claim := if judged = .raising then v.ifull * v.moveDuty / 255 else v.ifull * duty / 255
      output := some (if judged = .raising then v.moveDuty else duty)
      timer := if judged = .settled then none else some (p.clocks.drive + v.travelMax * 1000) } := by
  unfold drivenPedal
  rw [pedalRec_based]
  dsimp only
  rw [stateClaim_judged hw, stateOutput_judged hw, travelTimer_judged hw, judgeTarget_pos hw, basedRecord_position]
  rfl

theorem pedalDriven_based (w : Nat) (d : Pedal) (o : Override) (p : Part) :
    let x := drivenPedal d w (based d o p)
    pedalDriven d w (based d o p) = { p with
      pedals := p.pedals.set (pedalIndex d) x
      budget := { p.budget with committed := p.budget.committed - (pedalRec d p).claim + x.claim, serveCause := false }
      capture := if d = .middle ∧ x.state = .settled ∧ (basedRecord d o p).state ≠ .settled ∧ p.capture.engaged = false
          ∧ p.strikes.voicing.engageLevel ≤ (pedalRec d p).position
        then { keys := keysToCapture p, engaged := true } else p.capture } := by
  dsimp only
  unfold pedalDriven
  dsimp only
  have position : (drivenPedal d w (based d o p)).position = (pedalRec d p).position :=
    (congrArg PedalRec.position pedalRec_based).trans (basedRecord_position ..)
  rw [pedalRec_based]
  generalize drivenPedal d w (based d o p) = x at position ⊢
  rw [based, repedal_putPedal (basedRecord_claim d o p), captureFilled_repedal, position]
  rfl

theorem pedalFallen_based (d : Pedal) (o : Override) (p : Part) :
    pedalFallen d (based d o p) = { p with
      pedals := p.pedals.set (pedalIndex d)
        { fallToRest (pedalVoicing d p) p.clocks.drive (basedRecord d o p) with wanted := none, claim := 0 }
      budget := { p.budget with committed := p.budget.committed - (pedalRec d p).claim, serveCause := false } } := by
  unfold pedalFallen
  rw [pedalRec_based, based, repedal_putPedal (basedRecord_claim d o p)]
  rfl

/-! ## The request -/

theorem requestPedalOverride_refused {slot : Nat} (h : 2 < (param slot 1 p).toNat ∨ 2 < (param slot 2 p).toNat) :
    requestPedalOverride slot p = { part := p, code := .range, detail := 0 } := by
  have differs (x : Word) (hx : 2 < x.toNat) : x ≠ 0 ∧ x ≠ 1 ∧ x ≠ 2 := by
    refine ⟨?_, ?_, ?_⟩ <;> rintro rfl <;> exact absurd hx (by decide)
  unfold requestPedalOverride
  split
  · rfl
  · next named =>
    rcases h with h | h
    · obtain ⟨h0, h1, h2⟩ := differs _ h
      rw [pedalOfParam, if_neg h0, if_neg h1, if_neg h2] at named
      cases named
    · obtain ⟨h0, h1, h2⟩ := differs _ h
      dsimp only
      rw [if_neg h0, if_neg h1, if_neg h2]
      rfl

theorem pedalOfParam_eq {x : Word} (h : x.toNat = (pedalIndex d).val) : pedalOfParam x = some d := by
  have named : x = BitVec.ofNat 16 (pedalIndex d).val := by rw [← h, BitVec.ofNat_toNat, BitVec.setWidth_eq]
  rw [named]
  cases d <;> rfl

theorem requestPedalOverride_eq {slot : Nat} (h : (param slot 1 p).toNat = (pedalIndex d).val) : requestPedalOverride slot p =
    if (param slot 2 p).toNat = 0 then carriedOut 0 (overrideOn d .follow p)
    else if (param slot 2 p).toNat = 1 then carriedOut (detailBit 0 (decide (255 < (param slot 3 p).toNat)))
      (overrideOn d (.force (min 255 (param slot 3 p).toNat)) p)
    else if (param slot 2 p).toNat = 2 then carriedOut 0 (overrideOff d p) else refuse .range p := by
  have words (n : Nat) (hn : n < 3) (x : Word) : x = BitVec.ofNat 16 n ↔ x.toNat = n := by
    rw [← BitVec.toNat_inj, BitVec.toNat_ofNat, Nat.mod_eq_of_lt (by omega)]
  unfold requestPedalOverride
  rw [pedalOfParam_eq h]
  dsimp only
  simp only [← words 0 (by decide), ← words 1 (by decide), ← words 2 (by decide)]
  rfl

theorem carriedOut_unchanged (p : Part) : carriedOut 0 p = { part := p, code := .ok, detail := 0 } := rfl

/-- What an override with a target does is told case by case, so the request's answer is a report of that case. -/
theorem answer_becomes {a : Part} {x : PedalRec} {c : Nat} {u : Part} (told : Tells u a own bits counted)
    (same : u = { p with
      pedals := p.pedals.set (pedalIndex d) x
      budget := { p.budget with committed := c, serveCause := false } }) :
    a = { p with
      mem := a.mem, window := a.window, log := a.log
      pedals := p.pedals.set (pedalIndex d) x
      budget := { p.budget with committed := c, serveCause := false } } := by
  have shape := told.shape
  rw [same] at shape
  exact shape

/-- Settles O26. -/
theorem pedalOverrideRequest : Obligations.PedalOverrideRequest := by
  refine ⟨fun slot p h => requestPedalOverride_refused h, ?_⟩
  intro slot p d named known hr hn he hk mode asked a r v travelEnd w fallen fall o base asks judged duty claim becomes enters fits
    passes deferred
  have answer : a = _ := requestPedalOverride_eq named
  have base_eq : base = basedRecord d o p := by
    simp only [basedRecord, fallToRest_eq]
    rfl
  by_cases off : mode = 2
  · have switched : a = carriedOut 0 (overrideOff d p) := by
      rw [answer, if_neg (by omega), if_neg (by omega), if_pos off]
    have part : a.part = overrideOff d p := by rw [switched, carriedOut_unchanged]
    have told : Tells (switchedOff d p) a.part (fun _ => False) 0 [] := part ▸ overrideOff_tells hr hk hn he
    have unclamped : ¬ (mode = 1 ∧ 255 < asked) := fun h => by omega
    exact ⟨by rw [if_neg unclamped, switched, carriedOut_unchanged], by rw [if_neg unclamped, switched, carriedOut_unchanged],
      fun _ => told.reports.congr rfl rfl, fun _ => answer_becomes told rfl, fun h => absurd off h, fun h => absurd off h,
      fun h => absurd off h.1, fun h => absurd off h, fun h => absurd off h, fun h => absurd off h⟩
  have target : effectiveTarget { pedalRec d p with override := o } = some w := by
    by_cases follow : mode = 0
    · simp only [effectiveTarget, o, w, if_pos follow]
      rfl
    · simp only [effectiveTarget, o, w, if_neg follow]
  obtain ⟨part, code, detail⟩ : a.part = overrideOn d o p ∧ a.code = (if mode = 1 ∧ 255 < asked then .clamped else .ok) ∧
      a.detail = (if mode = 1 ∧ 255 < asked then 1 else 0) := by
    by_cases follow : mode = 0
    · have unclamped : ¬ (mode = 1 ∧ 255 < asked) := fun h => by omega
      rw [answer, if_pos follow, if_neg unclamped, if_neg unclamped]
      simp only [o, if_pos follow, carriedOut_unchanged, and_self]
    · have force : mode = 1 := by omega
      rw [answer, if_neg follow, if_pos force, carriedOut_changed]
      simp only [o, if_neg follow, force, true_and, decide_eq_true_eq, asked]
  have driven (hw : 0 < w) : drivenPedal d w (based d o p) = { base with
      state := judged, target := w, wanted := none, claim := claim
      output := some (if judged = .raising then v.moveDuty else duty)
      timer := if judged = .settled then none else travelEnd } := by
    rw [base_eq]
    exact drivenPedal_based hw d o p
  have entered {bits : BitVec 9} {own : Nat → Prop} {counted : List Counter} (hw : 0 < w)
      (told : Tells (pedalDriven d w (based d o p)) a.part own bits counted) : enters := by
    have shape := told.shape
    rw [pedalDriven_based, driven hw, ← base_eq] at shape
    exact shape
  have kept {wanted : Option Nat} : targetKept d wanted (based d o p) = { p with
      pedals := p.pedals.set (pedalIndex d) { base with wanted := wanted }
      budget := { p.budget with committed := p.budget.committed, serveCause := false } } := by
    rw [targetKept, pedalRec_based, base_eq, based, putPedal_putPedal]
    rfl
  have asks_iff : Asks (basedRecord d o p) ↔ asks := by
    rw [← base_eq]
    rfl
  have claim_eq (hw : 0 < w) : (drivenPedal d w (based d o p)).claim = claim := by rw [driven hw]
  have judged_eq (hw : 0 < w) : (drivenPedal d w (based d o p)).state = judged := by rw [driven hw]
  have zeroAsks (h : asks) (hw : w = 0) := overrideOn_zero_asks hr hk hn he target (asks_iff.2 h) hw
  have zeroFalls (h : ¬ asks) (hw : w = 0) := overrideOn_zero_falls hr hk hn he target (h ∘ asks_iff.1) hw
  have granted (h : asks) (hw : 0 < w) (hf : fits) :=
    overrideOn_granted hr hk hn he target (asks_iff.2 h) hw (by rw [claim_eq hw]; exact hf)
  have deferral (h : asks) (hw : 0 < w) (hf : ¬ fits) :=
    overrideOn_deferred hr hk hn he target (asks_iff.2 h) hw (by rw [claim_eq hw]; exact Nat.lt_of_not_le hf)
  have same (h : ¬ asks) (hw : 0 < w) (hs : judged = r.state ∧ w = r.target) :=
    overrideOn_same hr hk hn he target (h ∘ asks_iff.1) hw (by rw [judged_eq hw]; exact hs)
  have other (h : ¬ asks) (hw : 0 < w) (hs : ¬ (judged = r.state ∧ w = r.target)) :
      (passes → Tells (pedalDriven d w (based d o p)) (overrideOn d o p) (fun _ => False) 0 []) ∧
      (¬ passes → Tells (targetKept d (some w) (based d o p)) (overrideOn d o p) (fun _ => False) 0 []) := by
    have changed := overrideOn_changed hr hk hn he target (h ∘ asks_iff.1) hw (by rw [judged_eq hw]; exact hs)
    simp only [claim_eq hw] at changed
    exact changed
  rw [← part] at zeroAsks zeroFalls granted deferral same other
  refine ⟨code, detail, ?_, fun h => absurd h off, ?_⟩
  · intro granted_or_else
    by_cases h : asks <;> rcases Nat.eq_zero_or_pos w with hw | hw
    · exact (zeroAsks h hw).reports.congr rfl rfl
    · by_cases hf : fits
      · exact (granted h hw hf).reports.congr rfl rfl
      · exact absurd ⟨off, h, hw, hf⟩ granted_or_else
    · exact (zeroFalls h hw).reports.congr rfl rfl
    · by_cases hs : judged = r.state ∧ w = r.target
      · exact (same h hw hs).reports.congr rfl rfl
      · obtain ⟨changes, keeps⟩ := other h hw hs
        by_cases hp : passes
        · exact (changes hp).reports.congr rfl rfl
        · exact (keeps hp).reports.congr rfl rfl
  · refine ⟨fun _ h hw => answer_becomes (zeroAsks h hw) kept, fun _ h hw hf => entered hw (granted h hw hf), ?_, ?_,
      fun _ h hw hj ht => answer_becomes (same h hw ⟨hj, ht⟩) kept, fun _ h hw hs => ?_⟩
    · rintro ⟨-, h, hw, hf⟩
      obtain ⟨told, count⟩ := deferral h hw hf
      refine ⟨?_, told.reports.congr rfl rfl, count⟩
      have shape := told.shape
      rw [pedalDeferred, driven hw, pedalRec_based, ← base_eq, based, putPedal_putPedal] at shape
      exact shape
    · intro _ h hw
      have position : r.position = (basedRecord d o p).position := (basedRecord_position d o p).symm
      have falls : fall base = fallToRest v p.clocks.drive (basedRecord d o p) := by
        simp only [fallToRest_eq, fall, fallen, position, base_eq]
        rfl
      refine answer_becomes (zeroFalls h hw) ?_
      rw [pedalFallen_based, falls]
    · obtain ⟨changes, keeps⟩ := other h hw hs
      exact ⟨fun hp => entered hw (changes hp), fun hp => answer_becomes (keeps hp) kept⟩

end Sys2Proof.Machine
end

section
/-! One round of serving, and what the holder it grants then enters (R116, R126, R138 to R141, R154). -/

namespace Sys2Proof.Machine

variable {p q : Part} {d : Pedal} {k : Key} {h : Half} {w : Nat}

/-! ## Which head is granted (R140) -/

theorem fittingPedal_eq_some {b : Budget} {e : PedalClaim} (head : b.pedalQ.head? = some e) (fit : b.committed + e.amount ≤ b.inForce) :
    fittingPedal b = some e := by
  unfold fittingPedal
  cases queue : b.pedalQ with
  | nil => rw [queue] at head; cases head
  | cons x rest =>
    rw [queue] at head
    cases head
    exact if_pos (decide_eq_true fit)

theorem fittingPedal_eq_none {b : Budget} (waits : ∀ e, b.pedalQ.head? = some e → ¬ b.committed + e.amount ≤ b.inForce) :
    fittingPedal b = none := by
  unfold fittingPedal
  cases queue : b.pedalQ with
  | nil => rfl
  | cons x rest => exact if_neg fun fit => waits x (by rw [queue]; rfl) (of_decide_eq_true fit)

theorem fittingHead_eq_some {b : Budget} {e : KeyClaim} (head : (halfQueue h b).head? = some e)
    (fit : b.committed + e.amount ≤ b.inForce) : fittingHead h b = some e := by
  unfold fittingHead
  cases queue : halfQueue h b with
  | nil => rw [queue] at head; cases head
  | cons x rest =>
    rw [queue] at head
    cases head
    exact if_pos (decide_eq_true fit)

theorem fittingHead_eq_none {b : Budget} (waits : ∀ e, (halfQueue h b).head? = some e → ¬ b.committed + e.amount ≤ b.inForce) :
    fittingHead h b = none := by
  unfold fittingHead
  cases queue : halfQueue h b with
  | nil => rfl
  | cons x rest => exact if_neg fun fit => waits x (by rw [queue]; rfl) (of_decide_eq_true fit)

theorem serveRound_pedal {e : PedalClaim} (first : fittingPedal p.budget = some e) : serveRound p = some (grantPedal e p) := by
  rw [serveRound, first]

theorem serveRound_preferred {e : KeyClaim} (pedal : fittingPedal p.budget = none)
    (first : fittingHead (preferredHalf p) p.budget = some e) : serveRound p = some (grantKey (preferredHalf p) e p) := by
  rw [serveRound, pedal]
  dsimp only
  rw [first]

theorem serveRound_other {e : KeyClaim} (pedal : fittingPedal p.budget = none) (preferred : fittingHead (preferredHalf p) p.budget = none)
    (first : fittingHead (otherHalf (preferredHalf p)) p.budget = some e) :
    serveRound p = some (grantKey (otherHalf (preferredHalf p)) e p) := by
  rw [serveRound, pedal]
  dsimp only
  rw [preferred]
  dsimp only
  rw [first]

theorem serveRound_none (pedal : fittingPedal p.budget = none) (preferred : fittingHead (preferredHalf p) p.budget = none)
    (other : fittingHead (otherHalf (preferredHalf p)) p.budget = none) : serveRound p = none := by
  rw [serveRound, pedal]
  dsimp only
  rw [preferred]
  dsimp only
  rw [other]

theorem otherHalf_eq (h : Half) : otherHalf h = if h = .bass then .treble else .bass := by cases h <;> rfl

/-! ## A key granted (R116, R126, R141) -/

/-- The budget as a grant to the head of a half's queue finds it, before the claim is held. -/
def dequeued (h : Half) (p : Part) : Part :=
  { p with budget := { putHalfQueue h (halfQueue h p.budget).tail p.budget with patternPos := p.budget.patternPos + 1 } }

theorem claimGranted_eq {e : KeyClaim} (free : (keyRec e.key p).claim = 0) :
    setKeyClaim e.key e.amount (dequeued h p) = rekey e.key { keyRec e.key p with claim := e.amount } (dequeued h p) :=
  setKeyClaim_eq (p := dequeued h p) (.inr (free.trans_le (Nat.zero_le _)))

theorem grantKey_launch {e : KeyClaim} (kind : e.kind = .launch) (free : (keyRec e.key p).claim = 0) :
    grantKey h e p = enterDrive e.key (rekey e.key { keyRec e.key p with claim := e.amount } (dequeued h p)) := by
  unfold grantKey
  dsimp only
  rw [kind]
  exact congrArg (enterDrive e.key) (claimGranted_eq free)

theorem grantKey_depress {e : KeyClaim} (kind : e.kind = .depress) (free : (keyRec e.key p).claim = 0) :
    grantKey h e p = enterDepressing e.key (rekey e.key { keyRec e.key p with claim := e.amount } (dequeued h p)) := by
  unfold grantKey
  dsimp only
  rw [kind]
  exact congrArg (enterDepressing e.key) (claimGranted_eq free)

/-- The record of a key that enters DEPRESSING. -/
def depressingRecord (k : Key) (p : Part) : KeyRec :=
  { keyRec k p with
    state := .depressing, output := some (depressDuty k p), coverDamper := false, coverMiddle := false
    timer := some (p.clocks.drive + (classOf k p).depressTime) }

theorem enterDepressing_eq (k : Key) (p : Part) : enterDepressing k p
    = bump .depresses (putSense k { senseRec k p with depressHeard := false } (putKey k (depressingRecord k p) p)) := rfl

/-- The budget after a grant of the head of a half's queue, of which `rest` stays. -/
def grantedBudget (h : Half) (amount : Nat) (rest : List KeyClaim) (b : Budget) : Budget :=
  { b with
    bassQ := if h = .bass then rest else b.bassQ
    trebleQ := if h = .treble then rest else b.trebleQ
    patternPos := b.patternPos + 1
    committed := b.committed + amount }

theorem rekey_dequeued {e : KeyClaim} {rest : List KeyClaim} {r : KeyRec} (queue : halfQueue h p.budget = e :: rest)
    (free : (keyRec e.key p).claim = 0) (amount : r.claim = e.amount) : rekey e.key r (dequeued h p)
      = { p with keys := p.keys.set e.key r, budget := grantedBudget h e.amount rest p.budget } := by
  have none : (keyRec e.key (dequeued h p)).claim = 0 := free
  rw [rekey, none, amount, dequeued, queue]
  cases h <;> rfl

section Granted

variable {e : KeyClaim} {rest : List KeyClaim} {st : Strike}

/-- A key granted its launch claim enters DRIVE (R116, R141). -/
theorem grantKey_launch_tells (hr : RingPlaced p.log) (queue : halfQueue h p.budget = e :: rest)
    (hc : (keyRec e.key p).current = some st) (free : (keyRec e.key p).claim = 0) (kind : e.kind = .launch)
    (hw : (senseRec e.key p).window ≠ .opened) :
    Tells { p with
        budget := grantedBudget h e.amount rest p.budget
        keys := p.keys.set e.key { drivenRecord (keyRec e.key p) st p with claim := e.amount }
        sense := p.sense.set e.key (launchWindow e.key st.lead p) } (grantKey h e p)
        (fun a => 0x204 ≤ a ∧ a < 0x208) 0 [.strikesMade] ∧
      counterOf .strikesMade (grantKey h e p) = (counterOf .strikesMade p + 1) % 2 ^ 32 := by
  set claimed : KeyRec := { keyRec e.key p with claim := e.amount } with hclaimed
  set x := rekey e.key claimed (dequeued h p) with hx
  obtain ⟨told, count⟩ := enterDrive_tells (p := x) (k := e.key) (st := st) hr hw (by rw [hx, keyRec_rekey_same]; exact hc)
  have drives : driven e.key st x = { p with
      budget := grantedBudget h e.amount rest p.budget
      keys := p.keys.set e.key { drivenRecord (keyRec e.key p) st p with claim := e.amount }
      sense := p.sense.set e.key (launchWindow e.key st.lead p) } := by
    have record : keyRec e.key x = claimed := by rw [hx, keyRec_rekey_same]
    have moved := putKey_rekey (k := e.key) (p := dequeued h p) (r := drivenRecord claimed st x) (r' := claimed) rfl
    rw [driven, record, moved, rekey_dequeued queue free rfl]
    rfl
  rw [drives] at told
  rw [grantKey_launch kind free]
  exact ⟨told, count⟩

theorem grantKey_budget (queue : halfQueue h p.budget = e :: rest) (hc : (keyRec e.key p).current = some st)
    (free : (keyRec e.key p).claim = 0) : (grantKey h e p).budget = grantedBudget h e.amount rest p.budget := by
  cases kind : e.kind with
  | launch =>
    obtain ⟨-, -, budget⟩ := enterDrive_enters (st := st) (p := rekey e.key { keyRec e.key p with claim := e.amount } (dequeued h p))
      (k := e.key) (by rw [keyRec_rekey_same]; exact hc)
    rw [grantKey_launch kind free, budget, rekey_dequeued queue free rfl]
  | depress =>
    rw [grantKey_depress kind free, enterDepressing_eq, bump_budget, rekey_dequeued queue free rfl]
    rfl

/-- A key granted its depress claim enters DEPRESSING (R126, R141). -/
theorem grantKey_depress_tells (queue : halfQueue h p.budget = e :: rest)
    (free : (keyRec e.key p).claim = 0) (kind : e.kind = .depress) :
    let x : Part := { p with
        budget := grantedBudget h e.amount rest p.budget
        keys := p.keys.set e.key { depressingRecord e.key p with claim := e.amount }
        sense := p.sense.set e.key { senseRec e.key p with depressHeard := false } }
    grantKey h e p = bump .depresses x := by
  have moved := putKey_rekey (k := e.key) (p := dequeued h p) (r := { depressingRecord e.key p with claim := e.amount })
    (r' := { keyRec e.key p with claim := e.amount }) rfl
  have duty : depressDuty e.key (rekey e.key { keyRec e.key p with claim := e.amount } (dequeued h p)) = depressDuty e.key p := by
    rw [depressDuty, keyRec_rekey_same]
    rfl
  dsimp only
  rw [grantKey_depress kind free, enterDepressing_eq, depressingRecord, keyRec_rekey_same, duty]
  refine congrArg (bump .depresses) ?_
  refine (congrArg (putSense e.key { senseRec e.key p with depressHeard := false }) moved).trans ?_
  rw [rekey_dequeued queue free rfl]
  rfl

end Granted

/-! ## A pedal granted (R141, R153, R154, R159, R162) -/

/-- The Capture Set takes keys by their states and numbers. -/
theorem keysToCapture_of_states {x : Part} (hs : x.strikes = p.strikes) (hd : (pedalRec .damper x).position = (pedalRec .damper p).position)
    (hk : ∀ k, (keyRec k x).state = (keyRec k p).state) : keysToCapture x = keysToCapture p := by
  unfold keysToCapture voicing
  dsimp only
  rw [hs, hd]
  refine congrArg (fun f => allKeys.filter f) (funext fun k => ?_)
  rw [keyIsDown, keyIsDown, hk]

theorem setCover_state (d : Pedal) (b : Bool) (r : KeyRec) : (setCover d b r).state = r.state := by cases d <;> rfl

theorem setCover_setCover (d : Pedal) (b c : Bool) (r : KeyRec) : setCover d b (setCover d c r) = setCover d b r := by cases d <;> rfl

theorem keepsCover_setCover (d : Pedal) (b : Bool) (r : KeyRec) : keepsCover (setCover d b r) = keepsCover r := by cases d <;> rfl

theorem covers_middle_of_empty (h : p.capture.keys = []) (k : Key) : covers .middle k p = false := by
  simp [covers, pedalLevel, h]

theorem covers_congr {x : Part} (hs : x.strikes = p.strikes) (hu : x.window.setup = p.window.setup) (hp : x.pedals = p.pedals)
    (hc : x.capture = p.capture) : covers d k x = covers d k p := by
  have level : pedalLevel d x = pedalLevel d p := by unfold pedalLevel voicing; rw [hs]
  have enabled : reliefEnabled d x = reliefEnabled d p := by unfold reliefEnabled; rw [hu]
  unfold covers pedalRec
  rw [level, enabled, hp, hc]

/-- An entry of a pedal that is in no cover reports itself, sets the covers that are kept, and may fill the Capture Set. -/
theorem pedalArrives_tells (previous : PedalState) (hr : RingPlaced p.log) (moves : pedalAtRest (pedalRec d p) = false)
    (uncovered : ∀ k, inCover d (keyRec k p) = false) (empty : p.capture.engaged = false → p.capture.keys = []) :
    let q := pedalArrives d previous p
    Tells { p with keys := q.keys, capture := captureFilled d (hasSettled d previous p) p } q (fun _ => False) 0 [] ∧
      ∀ k, keyRec k q = if keepsCover (keyRec k p) then setCover d (covers d k q) (keyRec k p) else keyRec k p := by
  have reported := reportPedal_tells (p := p) d previous hr
  unfold pedalArrives
  dsimp only
  generalize reportPedal d previous p = y at reported
  rw [drainTest_of_pedal (d := d) (by rw [reported.pedalRec]; exact moves)]
  obtain ⟨shape, records⟩ := coverUpdate_of_uncovered (p := y) (d := d) fun k => by rw [reported.keyRec]; exact uncovered k
  generalize coverUpdate d y = c at shape records
  have told : Tells { p with keys := c.keys } c (fun _ => False) 0 [] := by
    have lifted := reported.lift (fun x => { x with keys := c.keys }) fun _ _ _ _ => rfl
    rw [← shape] at lifted
    exact lifted
  have fills : fillsCapture c = fillsCapture p := by rw [told.shape]; rfl
  have record (k : Key) : keyRec k c = if keepsCover (keyRec k p) then setCover d (covers d k p) (keyRec k p) else keyRec k p := by
    have same : covers d k y = covers d k p := covers_congr reported.strikes reported.setup reported.pedals reported.capture
    rw [records, reported.keyRec, same]
  rw [fills]
  split
  · next filling =>
    obtain ⟨rfl, settled, free⟩ := filling
    have filled : captureFilled .middle (hasSettled .middle previous p) p = { keys := keysToCapture p, engaged := true } :=
      if_pos ⟨rfl, settled, free⟩
    have none : p.capture.keys = [] := empty (by simp [fillsCapture] at free; exact free.1.1)
    have taken : keysToCapture c = keysToCapture p := by
      refine keysToCapture_of_states told.strikes (congrArg PedalRec.position (told.pedalRec .damper)) fun k => ?_
      rw [record]
      split <;> simp only [setCover_state]
    set z : Part := { c with capture := { keys := keysToCapture p, engaged := true } } with hz
    have before (k : Key) : keyRec k z = if keepsCover (keyRec k p) then setCover .middle false (keyRec k p) else keyRec k p := by
      rw [← covers_middle_of_empty none k]
      exact record k
    obtain ⟨shape, after⟩ := coverUpdate_of_uncovered (p := z) (d := .middle) fun k => by
      rw [before]
      split
      · rfl
      · exact uncovered k
    rw [fillCapture, taken, ← hz, filled]
    generalize coverUpdate .middle z = f at shape after
    refine ⟨?_, fun k => ?_⟩
    · have lifted := told.lift (fun x => { x with keys := f.keys, capture := { keys := keysToCapture p, engaged := true } })
        fun _ _ _ _ => rfl
      have shape : f = { c with keys := f.keys, capture := { keys := keysToCapture p, engaged := true } } := shape
      rw [← shape] at lifted
      exact lifted
    · have same : covers .middle k f = covers .middle k z := by rw [shape]; rfl
      rw [after, before, same]
      split
      · rw [keepsCover_setCover, setCover_setCover, if_pos ‹_›]
      · rfl
  · next unfilled =>
    have kept : captureFilled d (hasSettled d previous p) p = p.capture := if_neg unfilled
    refine ⟨kept ▸ told, fun k => ?_⟩
    have same : covers d k c = covers d k p := covers_congr told.strikes told.setup told.pedals told.capture
    rw [record, same]

/-- The record of a pedal granted its claim for the target `w`. -/
def grantedPedal (e : PedalClaim) (w : Nat) (p : Part) : PedalRec :=
  { pedalRec e.pedal p with
    state := e.judged, target := w, wanted := none, claim := e.amount
    output := stateOutput (pedalVoicing e.pedal p) e.judged w
    timer := travelTimer e.judged (pedalVoicing e.pedal p).travelMax p.clocks.drive }

theorem grantPedal_eq {e : PedalClaim} (wanted : (pedalRec e.pedal p).wanted = some w) (free : (pedalRec e.pedal p).claim = 0) :
    grantPedal e p = pedalArrives e.pedal (pedalRec e.pedal p).state
      (repedal e.pedal (grantedPedal e w p) { p with budget := { p.budget with pedalQ := p.budget.pedalQ.tail } }) := by
  set x : Part := { p with budget := { p.budget with pedalQ := p.budget.pedalQ.tail } } with hx
  have claimed : setPedalClaim e.pedal e.amount x = repedal e.pedal { pedalRec e.pedal p with claim := e.amount } x :=
    setPedalClaim_eq (.inr (free.trans_le (Nat.zero_le _)))
  unfold grantPedal putDriving
  dsimp only
  rw [← hx, claimed, pedalRec_repedal_same]
  dsimp only
  rw [wanted, Option.getD_some, putPedal_repedal (by rfl)]
  rfl

/-- Settles O42. -/
theorem servingRound : Obligations.ServingRound := by
  refine ⟨fun p => ?_, ?_, ?_⟩
  · intro fitsNow h other pedalWaits halfWaits
    have preferred : preferredHalf p = h := rfl
    have unpreferred : otherHalf (preferredHalf p) = other := otherHalf_eq _
    refine ⟨fun e head fit => serveRound_pedal (fittingPedal_eq_some head fit), fun waits e head fit => ?_,
      fun waits first e head fit => ?_, fun waits first second => ?_⟩
    · exact serveRound_preferred (fittingPedal_eq_none waits) (fittingHead_eq_some head fit)
    · rw [← unpreferred] at head ⊢
      exact serveRound_other (fittingPedal_eq_none waits) (fittingHead_eq_none first) (fittingHead_eq_some head fit)
    · exact serveRound_none (fittingPedal_eq_none waits) (fittingHead_eq_none first)
        (fittingHead_eq_none (unpreferred ▸ second))
  · intro p h e rest st hr queue hc free
    dsimp only
    have budget := grantKey_budget queue hc free
    refine ⟨by rw [budget]; exact Fin.val_add .., fun kind hw => ?_, fun kind => ?_⟩
    · obtain ⟨told, count⟩ := grantKey_launch_tells hr queue hc free kind hw
      rw [budget]
      refine ⟨told.shape.trans ?_, told.reports.congr rfl rfl, count⟩
      rw [drivenRecord, grantedStrike_eq]
      rfl
    · have bumped := grantKey_depress_tells queue free kind
      dsimp only at bumped
      set x : Part := { p with
        budget := grantedBudget h e.amount rest p.budget
        keys := p.keys.set e.key { depressingRecord e.key p with claim := e.amount }
        sense := p.sense.set e.key { senseRec e.key p with depressHeard := false } } with hx
      have told := (tells_bump .depresses x).weaken (narrowBytes (off := 0x21E) (by decide) (by decide)) rfl (fun _ h => h)
      have count := counterOf_bump_narrow (c := .depresses) (by decide) x
      obtain ⟨m, shape⟩ := bumpBy_shape .depresses 1 x
      rw [← bump, ← bumped] at shape
      rw [← bumped] at told count
      refine ⟨?_, told.reports.congr rfl rfl, count⟩
      rw [budget]
      generalize grantKey h e p = q at shape
      subst shape
      rfl
  · intro p e rest w hr queue judged hw wanted free uncovered empty
    dsimp only
    rw [grantPedal_eq wanted free, queue, List.tail_cons]
    set y : Part := { p with budget := { p.budget with pedalQ := rest } } with hy
    have moves : pedalAtRest (grantedPedal e w p) = false := by
      rcases judged with state | state | state <;> rw [pedalAtRest, grantedPedal, state] <;> rfl
    have output : stateOutput (pedalVoicing e.pedal p) e.judged w = some (if e.judged = .raising then
        (pedalVoicing e.pedal p).moveDuty else min 255 ((pedalVoicing e.pedal p).holdBase + (pedalVoicing e.pedal p).holdSlope * w / 255)) := by
      rcases judged with state | state | state <;> rw [state]
      · rfl
      · exact if_neg (Nat.pos_iff_ne_zero.1 hw)
      · rfl
    have timer : travelTimer e.judged (pedalVoicing e.pedal p).travelMax p.clocks.drive
        = if e.judged = .settled then none else some (p.clocks.drive + (pedalVoicing e.pedal p).travelMax * 1000) := by
      rcases judged with state | state | state <;> rw [state] <;> rfl
    obtain ⟨told, records⟩ := pedalArrives_tells (p := repedal e.pedal (grantedPedal e w p) y) (pedalRec e.pedal p).state hr
      (by rw [pedalRec_repedal_same]; exact moves) uncovered empty
    rw [captureFilled_repedal] at told
    refine ⟨told.shape.trans ?_, told.reports.congr rfl rfl, fun k => ?_⟩
    · rw [repedal, show (pedalRec e.pedal y).claim = 0 from free]
      unfold grantedPedal
      rw [output, timer]
      rfl
    · rw [records]
      simp only [keepsCover, decide_eq_true_eq]
      rfl

end Sys2Proof.Machine
end

section
/-! The requests that set values: SET_TEMPO, SET_TRIM, SET_BUDGET, SENSE_RESET and SET_LOG (R64, R96, R143, R177, R191). -/

namespace Sys2Proof.Machine

variable {p : Part} {f : Key → Part → Part} {k : Key}

/-! ## Every key in turn, with what the keys done have become -/

theorem foldl_induct {α β : Type} {g : β → α → β} {I : List α → β → Prop} (step : ∀ done x b, x ∉ done → I done b → I (done ++ [x]) (g b x))
    (l done : List α) (b : β) (hn : (done ++ l).Nodup) (h : I done b) : I (done ++ l) (l.foldl g b) := by
  induction l generalizing done b with
  | nil => rwa [List.append_nil]
  | cons x xs ih =>
    have fresh : x ∉ done := fun hx => (List.nodup_append.1 hn).2.2 x hx x (List.mem_cons_self ..) rfl
    have split : done ++ x :: xs = done ++ [x] ++ xs := by rw [List.append_assoc, List.singleton_append]
    rw [split] at hn ⊢
    exact ih (done ++ [x]) (g b x) hn (step done x b fresh h)

/-- Work at every key, by what holds once the keys before have been done. -/
theorem forKeys_induct {I : List Key → Part → Prop} (start : I [] p)
    (step : ∀ done k q, k ∉ done → I done q → I (done ++ [k]) (f k q)) : I allKeys (forKeys f p) :=
  foldl_induct (g := fun q k => f k q) step allKeys [] p allKeys_nodup start

/-! ## SET_TEMPO, SET_TRIM, SET_BUDGET (R64, R96, R143) -/

/-- An item that was clamped sets its bit of the detail word, and the request is CLAMPED. -/
theorem carriedOut_clamped {c : Prop} [Decidable c] {bit : Nat} {changed : Bool} (h : changed = true ↔ ¬ c)
    (hb : (1#16 <<< bit : Word) ≠ 0) (p : Part) :
    (carriedOut (detailBit bit changed) p).code = (if c then .ok else .clamped) ∧
      (carriedOut (detailBit bit changed) p).detail = (if c then 0 else 1#16 <<< bit) := by
  cases changed with
  | true =>
    have changes : ¬ c := h.1 rfl
    rw [if_neg changes, if_neg changes]
    exact ⟨if_neg hb, rfl⟩
  | false =>
    have same : c := Decidable.not_not.1 fun hc => Bool.false_ne_true (h.2 hc)
    rw [if_pos same, if_pos same]
    exact ⟨rfl, rfl⟩

theorem setTempo_sets (slot : Nat) (p : Part) :
    let asked := (param slot 1 p).toNat
    let tempo := max 20 (min 200 asked)
    let a := requestSetTempo slot p
    a.code = (if tempo = asked then .ok else .clamped) ∧ a.detail = (if tempo = asked then 0 else 1) ∧
      a.part = { p with time :=
        if p.time.engine = .idle then { p.time with tempo := tempo }
        else { p.time with
          tempo := tempo, setTempoTaken := true
          p16 := 50000000 * 65536 / ((formatInForce p).linePitch * tempo) } } := by
  intro asked tempo a
  obtain ⟨code, detail⟩ := carriedOut_clamped (c := tempo = asked) (decide_eq_true_iff (p := tempo ≠ asked)) (bit := 0) (by decide) a.part
  exact ⟨code, detail, rfl⟩

theorem setTrim_sets (slot : Nat) (p : Part) :
    let bass := (param slot 1 p).toNat
    let treble := (param slot 2 p).toNat
    let a := requestSetTrim slot p
    a.code = (if bass ≤ 255 ∧ treble ≤ 255 then .ok else .clamped) ∧
      a.detail = (if 255 < bass then 1 else 0) + (if 255 < treble then 2 else 0) ∧
      a.part = { p with strikes := { p.strikes with volBass := min 255 bass, volTreble := min 255 treble } } := by
  intro bass treble a
  refine ⟨?_, ?_, rfl⟩
  · have code : a.code = if detailBit 0 (decide (255 < bass)) ||| detailBit 1 (decide (255 < treble)) = 0 then .ok else .clamped := rfl
    rw [code]
    simp only [← Nat.not_lt]
    by_cases hb : 255 < bass <;> by_cases ht : 255 < treble <;> simp only [hb, ht] <;> rfl
  · have detail : a.detail = detailBit 0 (decide (255 < bass)) ||| detailBit 1 (decide (255 < treble)) := rfl
    rw [detail]
    by_cases hb : 255 < bass <;> by_cases ht : 255 < treble <;> simp only [hb, ht] <;> rfl

theorem setBudget_sets (slot : Nat) (hn : NobodyWaits p.budget) :
    let asked := (param slot 1 p).toNat
    let ibud := min 4000 asked
    let a := requestSetBudget slot p
    a.code = (if asked ≤ 4000 then .ok else .clamped) ∧ a.detail = (if asked ≤ 4000 then 0 else 1) ∧
      a.part = { p with budget := { p.budget with
        ibud := ibud, serveCause := false
        inForce := if p.analog.rail = .normal then ibud else if p.analog.rail = .low then 0
          else min ibud (ibud * (p.analog.vrail - p.analog.judgedLow) / (p.analog.judgedSag - p.analog.judgedLow)) } } := by
  intro asked ibud a
  obtain ⟨code, detail⟩ := carriedOut_clamped (c := asked ≤ 4000) (changed := decide (4000 < asked)) (by simp) (bit := 0) (by decide) a.part
  have part : a.part = serve (formBudget { p with budget := { p.budget with ibud := ibud } }) := rfl
  refine ⟨code, detail, ?_⟩
  rw [part, formBudget_of_nobodyWaits (by exact hn), serve_eq_calm (by exact hn), budgetFor_eq]
  rfl

/-! ## SENSE_RESET (R177) -/

/-- The Key record of a key that is reset. -/
def resetRecord (zero : Bool) (r : KeyRec) : KeyRec :=
  { r with deaf := false, missCount := 0, trim := if zero then 0 else r.trim, depressTrim := if zero then 0 else r.depressTrim }

/-- The part with a key's sense reset, before the SENSE record of a key that was DEAF. -/
def senseReset (zero : Bool) (k : Key) (p : Part) : Part :=
  putSense k { senseRec k p with recovery := 0 } (putKey k (resetRecord zero (keyRec k p)) p)

theorem senseResetKey_tells (zero : Bool) (k : Key) (hr : RingPlaced p.log) :
    Tells (senseReset zero k p) (senseResetKey zero k p) (fun _ => False) 0 [] := by
  obtain ⟨y, r, told, hears, same, reset⟩ : ∃ y r, Tells (putKey k r p) y (fun _ => False) 0 [] ∧ r.deaf = false ∧
      resetRecord zero r = resetRecord zero (keyRec k p) ∧ senseResetKey zero k p
        = putKey k { keyRec k y with
            missCount := 0, trim := if zero then 0 else (keyRec k y).trim
            depressTrim := if zero then 0 else (keyRec k y).depressTrim } (putSense k { senseRec k y with recovery := 0 } y) := by
    unfold senseResetKey
    dsimp only
    cases deaf : (keyRec k p).deaf with
    | true => exact ⟨_, { keyRec k p with deaf := false, missCount := 0 }, tells_record _ rfl hr, rfl, rfl, rfl⟩
    | false => exact ⟨p, keyRec k p, by rw [putKey_keyRec]; exact .refl p, deaf, rfl, rfl⟩
  have record : keyRec k y = r := by rw [told.keyRec, keyRec_putKey_same]
  have sense : senseRec k y = senseRec k p := told.senseRec k
  have cleared : { r with
      missCount := 0, trim := if zero then 0 else r.trim
      depressTrim := if zero then 0 else r.depressTrim } = resetRecord zero (keyRec k p) := by
    rw [← same, resetRecord, ← hears]
  rw [reset, record, sense, cleared]
  have lifted := told.lift (fun x => putKey k (resetRecord zero (keyRec k p)) (putSense k { senseRec k p with recovery := 0 } x))
    fun _ _ _ _ => rfl
  have once : putKey k (resetRecord zero (keyRec k p)) (putSense k { senseRec k p with recovery := 0 } (putKey k r p)) = senseReset zero k p := by
    simp only [senseReset, putKey, putSense, Vector.set_set]
  rw [once] at lifted
  exact lifted

/-- SENSE_RESET of every key. -/
theorem senseResetAll_tells (zero : Bool) (hr : RingPlaced p.log) :
    let q := forKeys (senseResetKey zero) p
    Tells { p with keys := q.keys, sense := q.sense } q (fun _ => False) 0 [] ∧
      ∀ k, keyRec k q = resetRecord zero (keyRec k p) ∧ senseRec k q = { senseRec k p with recovery := 0 } := by
  let I (done : List Key) (q : Part) : Prop :=
    Tells { p with keys := q.keys, sense := q.sense } q (fun _ => False) 0 [] ∧
      ∀ k, (keyRec k q = if k ∈ done then resetRecord zero (keyRec k p) else keyRec k p) ∧
        senseRec k q = if k ∈ done then { senseRec k p with recovery := 0 } else senseRec k p
  have all : I allKeys (forKeys (senseResetKey zero) p) := by
    refine forKeys_induct ⟨.refl p, fun k => ⟨rfl, rfl⟩⟩ ?_
    rintro done k q fresh ⟨told, records⟩
    have reset := senseResetKey_tells (p := q) zero k (told.ringPlaced hr)
    refine ⟨?_, fun j => ?_⟩
    · have once := (told.lift (senseReset zero k) fun _ _ _ _ => rfl).plain reset
      rw [reset.keys, reset.sense]
      exact once
    · have notYet := (records k).1.trans (if_neg fresh)
      have notYetSense := (records k).2.trans (if_neg fresh)
      rw [reset.keyRec, reset.senseRec, senseReset]
      by_cases hj : j = k
      · subst hj
        simp [notYet, notYetSense]
      · simp [hj, keyRec_putKey_other, senseRec_putSense_other, records j]
  obtain ⟨told, records⟩ := all
  exact ⟨told, fun k => ⟨(records k).1.trans (if_pos (mem_allKeys k)), (records k).2.trans (if_pos (mem_allKeys k))⟩⟩

theorem keyOfNumber_eq_none {n : Nat} (h : 88 < n) : keyOfNumber n = none := by
  unfold keyOfNumber
  exact dif_neg fun e => absurd e.2 (Nat.not_le.2 h)

theorem requestSenseReset_sets (slot : Nat) (hr : RingPlaced p.log) :
    let n := (param slot 1 p).toNat
    let zero := (param slot 2 p).getLsbD 0
    let a := requestSenseReset slot p
    (88 < n → a = { part := p, code := .range, detail := 0 }) ∧
      (n ≤ 88 → a.code = .ok ∧ a.detail = 0 ∧
        Tells { p with keys := a.part.keys, sense := a.part.sense } a.part (fun _ => False) 0 [] ∧
        ∀ k : Key,
          (n = 0 ∨ n = k.val + 1 → keyRec k a.part = resetRecord zero (keyRec k p) ∧
            senseRec k a.part = { senseRec k p with recovery := 0 }) ∧
          (n ≠ 0 → n ≠ k.val + 1 → keyRec k a.part = keyRec k p ∧ senseRec k a.part = senseRec k p)) := by
  intro n zero a
  refine ⟨fun far => ?_, fun near => ?_⟩
  · have unknown : requestSenseReset slot p = refuse .range p := by
      unfold requestSenseReset
      dsimp only
      rw [if_neg (by omega), keyOfNumber_eq_none far]
    exact unknown
  · by_cases every : n = 0
    · have answer : a = carriedOut 0 (forKeys (senseResetKey zero) p) := if_pos every
      obtain ⟨told, records⟩ := senseResetAll_tells zero hr
      rw [answer, carriedOut_unchanged]
      exact ⟨rfl, rfl, told, fun k => ⟨fun _ => records k, fun h => absurd every h⟩⟩
    · obtain ⟨j, hj⟩ : ∃ j : Key, n = j.val + 1 := ⟨⟨n - 1, by omega⟩, by dsimp only; omega⟩
      have answer : a = carriedOut 0 (senseResetKey zero j p) := by
        refine (if_neg every).trans ?_
        rw [show (param slot 1 p).toNat = j.val + 1 from hj, keyOfNumber_succ]
      have reset := senseResetKey_tells (p := p) zero j hr
      rw [answer, carriedOut_unchanged]
      refine ⟨rfl, rfl, ?_, fun k => ⟨fun named => ?_, fun _ unnamed => ?_⟩⟩
      · dsimp only
        rw [reset.keys, reset.sense]
        exact reset
      · obtain rfl : k = j := Fin.ext (by omega)
        dsimp only
        rw [reset.keyRec, reset.senseRec, senseReset]
        simp
      · have other : k ≠ j := fun e => unnamed (e ▸ hj)
        dsimp only
        rw [reset.keyRec, reset.senseRec, senseReset]
        simp [other, keyRec_putKey_other, senseRec_putSense_other]

/-! ## SET_LOG (R191) -/

theorem requestSetLog_sets (slot : Nat) (idle : p.time.engine = .idle) (hm : Memory.wf p.mem = true) :
    let base := (param slot 1 p).toNat
    let slots := (param slot 2 p).toNat
    let filter := param slot 3 p
    let notify := (param slot 4 p).toNat
    let mark := p.window.sweptReadMark
    let inPlace := 0x5200 ≤ base ∧ base % 16 = 0
    let fitting := slots ∈ [64, 128, 256, 512, 1024, 2048] ∧ base + 16 * slots ≤ 65536
    let a := requestSetLog slot p
    (¬ inPlace → a = { part := p, code := .range, detail := 1 }) ∧
      (inPlace → ¬ fitting → a = { part := p, code := .range, detail := 2 }) ∧
      (inPlace → fitting →
        a.code = (if notify ≤ slots then .ok else .clamped) ∧ a.detail = (if notify ≤ slots then 0 else 8) ∧
        a.part = { p with
          mem := a.part.mem
          log := { p.log with
            configured := true, base := base, slots := slots, filter := if filter = 0 then 0x1FFB else filter
            notify := min slots notify, writeMark := mark, readMark := mark, dropped := 0, droppedKinds := 0 } } ∧
        wordAt Config.logWriteMarkOffset a.part = mark ∧
        ∀ x, ¬ wordBytes Config.logWriteMarkOffset x → Memory.read a.part.mem x = Memory.read p.mem x) := by
  intro base slots filter notify mark inPlace fitting a
  have placed : ¬ inPlace ↔ base < Config.freeAreaOffset ∨ base % 16 ≠ 0 := by
    simp only [inPlace, show Config.freeAreaOffset = 0x5200 from rfl]
    omega
  have fits : ¬ fitting ↔ ¬ logSlotCounts.contains slots = true ∨ 65536 < base + 16 * slots := by
    simp only [fitting, List.contains_iff_mem, logSlotCounts, not_and_or, Nat.not_le]
  have answer : a = if base < Config.freeAreaOffset ∨ base % 16 ≠ 0 then { part := p, code := .range, detail := 1 }
      else if ¬ logSlotCounts.contains slots ∨ 65536 < base + 16 * slots then { part := p, code := .range, detail := 2 }
      else carriedOut (detailBit 3 (decide (slots < notify))) (putLog base slots notify filter p) :=
    if_neg (fun e => e idle)
  refine ⟨fun out => answer.trans (if_pos (placed.1 out)), fun inside out => ?_, fun inside fit => ?_⟩
  · exact answer.trans ((if_neg fun e => placed.2 e inside).trans (if_pos (fits.1 out)))
  · have put : a = _ := answer.trans ((if_neg fun e => placed.2 e inside).trans (if_neg fun e => fits.2 e fit))
    obtain ⟨code, detail⟩ := carriedOut_clamped (c := notify ≤ slots) (changed := decide (slots < notify)) (by simp) (bit := 3)
      (by decide) (putLog base slots notify filter p)
    rw [put]
    refine ⟨code, detail, rfl, ?_, fun x hx => ?_⟩
    · exact wordAt_putWord_same _ _ hm
    · exact read_putWord_other hx _ _

/-- Settles O24. -/
theorem settingRequests : Obligations.SettingRequests := by
  refine ⟨setTempo_sets, setTrim_sets, fun slot p hn => setBudget_sets slot hn, fun slot p hr => ?_,
    fun slot p idle hm => requestSetLog_sets slot idle hm⟩
  obtain ⟨far, near⟩ := requestSenseReset_sets slot hr
  refine ⟨far, fun named => ?_⟩
  obtain ⟨code, detail, told, records⟩ := near named
  exact ⟨code, detail, told.shape, told.reports.congr rfl rfl, records⟩

end Sys2Proof.Machine
end

section
/-! RESTART_ENGINE, block by block (R25, R43, R60, R68, R104, R129, R144, R165, R176, R186). -/

namespace Sys2Proof.Machine

variable {p : Part} {s : State}

/-! ## The blocks of a restart -/

/-- The Key Sense record of a key after a restart (R176). -/
def cutRecord (k : Key) (p : Part) : SenseRec :=
  if (keyRec k p).state = .drive ∧ (senseRec k p).window = .opened then { senseRec k p with window := .cut } else senseRec k p

/-- The Key record of a key after a restart (R129). -/
def restartedKey (k : Key) (p : Part) : KeyRec :=
  { restartRest p k (keyRec k p) with
    current := none, queued := none, releasePending := false, reliefReady := false, coverDamper := false
    coverMiddle := false, output := none, claim := 0 }

/-- The Pedal record of a pedal after a restart, before its FORCE is applied anew (R165). -/
def restartedPedal (r : PedalRec) : PedalRec :=
  { r with
    state := if r.override = .off then .off else .rest
    target := 0, rollTarget := 0, plannedTarget := 0, wanted := none, dropPending := none, timer := none
    output := none, claim := 0 }

theorem cutWindow_eq (k : Key) (p : Part) : cutWindow k p = putSense k (cutRecord k p) p := by
  have same : p.sense.set k (senseRec k p) = p.sense := Vector.set_getElem_self ..
  unfold cutWindow cutRecord
  dsimp only
  split
  · rfl
  · rw [putSense, same]

/-- The windows of the keys in DRIVE are cut, and nothing else changes. -/
theorem cutWindows_spec (p : Part) : let q := forKeys cutWindow p
    q = { p with sense := q.sense } ∧ ∀ k, senseRec k q = cutRecord k p := by
  let I (done : List Key) (q : Part) : Prop :=
    q = { p with sense := q.sense } ∧ ∀ k, senseRec k q = if k ∈ done then cutRecord k p else senseRec k p
  have all : I allKeys (forKeys cutWindow p) := by
    refine forKeys_induct ⟨rfl, fun k => rfl⟩ ?_
    rintro done k q fresh ⟨shape, records⟩
    have sense : senseRec k q = senseRec k p := (records k).trans (if_neg fresh)
    have key : keyRec k q = keyRec k p := by rw [shape]; rfl
    have record : cutRecord k q = cutRecord k p := by rw [cutRecord, cutRecord, sense, key]
    rw [cutWindow_eq, record]
    refine ⟨?_, fun j => ?_⟩
    · generalize cutRecord k p = x
      conv_lhs => rw [shape]
      rfl
    · by_cases hj : j = k
      · subst hj
        simp
      · simp [hj, senseRec_putSense_other, records j]
  obtain ⟨shape, records⟩ := all
  exact ⟨shape, fun k => (records k).trans (if_pos (mem_allKeys k))⟩

/-- Every key is restarted, and nothing else changes. -/
theorem restartKeys_spec (p : Part) : let q := forKeys restartKey p
    q = { p with keys := q.keys } ∧ ∀ k, keyRec k q = restartedKey k p :=
  forKeys_records (fun k => restartedKey k p) fun k q shape record => by
    have rest : restartRest q k (keyRec k q) = restartRest p k (keyRec k p) := by
      rw [record, shape]
      rfl
    rw [restartKey, rest]
    rfl

/-- Work at every pedal that replaces its record by one that the record before gives. -/
theorem forPedals_records {f : Pedal → Part → Part} (g : PedalRec → PedalRec) (hf : ∀ d q, f d q = putPedal d (g (pedalRec d q)) q)
    (p : Part) : let q := forPedals f p
    q = { p with pedals := q.pedals } ∧ ∀ d, pedalRec d q = g (pedalRec d p) := by
  have turn : forPedals f p = f .middle (f .shift (f .damper p)) := rfl
  dsimp only
  rw [turn, hf, hf, hf]
  refine ⟨rfl, fun d => ?_⟩
  cases d
  · rw [pedalRec_putPedal_other (by decide), pedalRec_putPedal_other (by decide), pedalRec_putPedal_same]
  · rw [pedalRec_putPedal_other (by decide), pedalRec_putPedal_same, pedalRec_putPedal_other (by decide)]
  · rw [pedalRec_putPedal_same, pedalRec_putPedal_other (by decide), pedalRec_putPedal_other (by decide)]

/-- Every pedal is restarted, and nothing else changes. -/
theorem restartPedals_spec (p : Part) : let q := forPedals restartPedal p
    q = { p with pedals := q.pedals } ∧ ∀ d, pedalRec d q = restartedPedal (pedalRec d p) :=
  forPedals_records restartedPedal (fun _ _ => rfl) p

/-- A restart but for the report of the engine's state and the pedals under FORCE. -/
def restartBlocks (p : Part) : Part :=
  let q := forPedals restartPedal (restartBudget (emptyWheel (forKeys restartKey (forKeys cutWindow p))))
  putTakeMark (fillMark p) (prepareStrip { q with capture := Capture.reset, shading := Shading.reset })

/-- A restart but for the pedals under FORCE. -/
def restartBase (p : Part) : Part := restartEngineState (restartBlocks p)

theorem restartBlocks_spec (p : Part) : let q := restartBlocks p
    q = { p with
      mem := Memory.writeWord p.mem Config.takeMarkOffset (fillMark p)
      strip := { p.strip with
        takeMark := fillMark p, drift := 0, tracking := .locked, invalidRun := 0, validRun := 0
        tracks := Vector.replicate 104 TrackRec.reset, held := none }
      shading := Shading.reset
      wheel := { p.wheel with actions := [], free := 1024 }
      budget := { p.budget with committed := 0, pedalQ := [], bassQ := [], trebleQ := [], serveCause := false }
      capture := { keys := [], engaged := false }
      keys := q.keys, sense := q.sense, pedals := q.pedals } ∧
      (∀ k, keyRec k q = restartedKey k p) ∧ (∀ k, senseRec k q = cutRecord k p) ∧
      ∀ d, pedalRec d q = restartedPedal (pedalRec d p) := by
  obtain ⟨cut, senses⟩ := cutWindows_spec p
  unfold restartBlocks
  dsimp only
  generalize forKeys cutWindow p = a at cut senses ⊢
  obtain ⟨restarted, keys⟩ := restartKeys_spec a
  generalize forKeys restartKey a = b at restarted keys ⊢
  obtain ⟨rested, pedals⟩ := restartPedals_spec (restartBudget (emptyWheel b))
  generalize forPedals restartPedal (restartBudget (emptyWheel b)) = c at rested pedals ⊢
  rw [restarted, cut] at rested
  refine ⟨?_, fun k => ?_, fun k => ?_, fun d => ?_⟩
  · generalize c.pedals = x at rested
    subst rested
    rfl
  · have key : keyRec k c = keyRec k b := by rw [rested, keyRec, keyRec, restarted]; rfl
    have same : restartedKey k a = restartedKey k p := by rw [cut]; rfl
    exact key.trans ((keys k).trans same)
  · have sense : senseRec k c = senseRec k a := by rw [rested]; rfl
    exact sense.trans (senses k)
  · have before : pedalRec d (restartBudget (emptyWheel b)) = pedalRec d p := by rw [restarted, cut]; rfl
    exact (pedals d).trans (congrArg restartedPedal before)

/-- The work of a restart in the order in which the model makes it. -/
theorem restart_eq (p : Part) : restart p = forPedals reapplyForce (restartBase p) := by
  have memory : (forKeys restartKey (forKeys cutWindow p)).mem = p.mem := by
    obtain ⟨cut, -⟩ := cutWindows_spec p
    generalize forKeys cutWindow p = a at cut ⊢
    obtain ⟨restarted, -⟩ := restartKeys_spec a
    generalize forKeys restartKey a = b at restarted ⊢
    rw [restarted, cut]
  have mark : fillMark { forPedals restartPedal (restartBudget (emptyWheel (forKeys restartKey (forKeys cutWindow p)))) with
      capture := Capture.reset, shading := Shading.reset } = fillMark p := by
    generalize forKeys restartKey (forKeys cutWindow p) = b at memory ⊢
    rw [fillMark, fillMark, wordAt, wordAt, ← memory]
    rfl
  unfold restart restartBase restartBlocks
  rw [← mark]

/-! ## The engine's state (R60, R65) -/

/-- The part with the engine in IDLE and no slot in use, before the report. -/
def idled (p : Part) : Part :=
  { p with
    time := { p.time with engine := .idle, returnState := none, starveCause := none, wanted := false }
    leader := { p.leader with seq := .inactive }
    formats := { p.formats with inUse := none } }

theorem idled_of_idle (h : p.time.engine = .idle) : idled p = { p with
    time := { p.time with returnState := none, starveCause := none, wanted := false }
    leader := { p.leader with seq := .inactive }
    formats := { p.formats with inUse := none } } := by
  rw [idled, ← h]

theorem restartEngineState_shape (p : Part) :
    ∃ m w l, restartEngineState p = { idled p with mem := m, window := w, log := l } := by
  unfold restartEngineState
  dsimp only
  split
  · next idle => exact ⟨p.mem, p.window, p.log, by rw [idled_of_idle idle]⟩
  · obtain ⟨m, w, l, e⟩ := enterEngine_shape .idle 0 { p with
      time := { p.time with returnState := none, starveCause := none, wanted := false }
      leader := { p.leader with seq := .inactive }
      formats := { p.formats with inUse := none } }
    exact ⟨m, w, l, e⟩

/-- A restart reports the engine's return to IDLE from another state (R53, R60). -/
theorem restartEngineState_tells (hm : Memory.wf p.mem = true) (hr : RingPlaced p.log) :
    Tells (idled p) (restartEngineState p) (fun a => p.time.engine ≠ .idle ∧ wordBytes Config.engineStateOffset a)
      (if p.time.engine = .idle then 0 else Notice.engine.bit) [] ∧
      (p.time.engine ≠ .idle → wordAt Config.engineStateOffset (restartEngineState p) = 0) := by
  unfold restartEngineState
  dsimp only
  by_cases idle : p.time.engine = .idle
  · rw [if_pos idle, if_pos idle, ← idled_of_idle idle]
    exact ⟨(Tells.refl _).weaken (fun _ h => h.elim) rfl fun _ h => h, fun h => absurd idle h⟩
  · rw [if_neg idle, if_neg idle]
    obtain ⟨told, word⟩ := enterEngine_tells .idle 0 (p := { p with
      time := { p.time with returnState := none, starveCause := none, wanted := false }
      leader := { p.leader with seq := .inactive }
      formats := { p.formats with inUse := none } }) hm hr
    exact ⟨told.weaken (fun _ h => ⟨idle, h⟩) rfl fun _ h => h, fun _ => word⟩

/-! ## Pedals under FORCE (R165) -/

theorem pedalRec_restartBase (d : Pedal) (p : Part) : pedalRec d (restartBase p) = restartedPedal (pedalRec d p) := by
  obtain ⟨-, -, -, pedals⟩ := restartBlocks_spec p
  rw [restartBase]
  generalize restartBlocks p = q at pedals ⊢
  obtain ⟨m, w, l, shape⟩ := restartEngineState_shape q
  rw [shape]
  exact pedals d

theorem reapplyForce_of_unforced {d : Pedal} (h : ∀ w, (pedalRec d p).override = .force w → w = 0) : reapplyForce d p = p := by
  unfold reapplyForce
  cases e : (pedalRec d p).override with
  | follow => rfl
  | off => rfl
  | force w => exact if_pos (h w e)

/-- No pedal asks anew after a restart where none is under FORCE of a value above 0. -/
theorem restart_of_unforced (h : ∀ d w, (pedalRec d p).override = .force w → w = 0) : restart p = restartBase p := by
  have still (d : Pedal) : reapplyForce d (restartBase p) = restartBase p :=
    reapplyForce_of_unforced fun w e => h d w (by rw [pedalRec_restartBase] at e; exact e)
  have turn (q : Part) : forPedals reapplyForce q = reapplyForce .middle (reapplyForce .shift (reapplyForce .damper q)) := rfl
  rw [restart_eq, turn, still, still, still]

/-! ## A key after a restart, by its state (R129) -/

section KeyByState

variable {k : Key} {r : KeyRec}

theorem restartRest_of_driveOn (h : driveOn r = true) : restartRest p k r = { r with
    state := .lifting, gapEnd := some (p.clocks.drive + (classOf k p).repeatGap)
    timer := some (p.clocks.drive + (classOf k p).repeatGap), lastRelease := some p.time.clock } := by
  unfold restartRest
  rcases of_decide_eq_true h with e | e | e <;> rw [e]

theorem restartRest_of_relieved (h : r.state = .relieved ∨ r.state = .waiting .depress) :
    (∃ g, r.gapEnd = some g ∧ p.clocks.drive < g ∧ restartRest p k r = { r with state := .lifting, timer := some g })
      ∨ ((∀ g, r.gapEnd = some g → g ≤ p.clocks.drive) ∧ restartRest p k r = { r with state := .idle, timer := none }) := by
  cases gap : r.gapEnd with
  | none =>
    refine .inr ⟨fun g e => (nomatch e), ?_⟩
    rcases h with e | e <;> simp only [restartRest, e, gap]
  | some t =>
    by_cases late : p.clocks.drive < t
    · refine .inl ⟨t, rfl, late, ?_⟩
      rcases h with e | e <;> simp only [restartRest, e, gap, late, if_true]
    · refine .inr ⟨fun g e => ?_, ?_⟩
      · cases e
        exact Nat.not_lt.1 late
      · rcases h with e | e <;> simp only [restartRest, e, gap, late, if_false]

theorem restartRest_of_lifting (h : r.state = .lifting) : restartRest p k r = r := by rw [restartRest, h]

theorem restartRest_of_idle (h : r.state = .armed ∨ r.state = .waiting .launch ∨ r.state = .idle) :
    restartRest p k r = { r with state := .idle, timer := none } := by
  unfold restartRest
  rcases h with e | e | e <;> rw [e]

theorem restart_state_cases (r : KeyRec) : driveOn r = true ∨ (r.state = .relieved ∨ r.state = .waiting .depress) ∨ r.state = .lifting ∨
    (r.state = .armed ∨ r.state = .waiting .launch ∨ r.state = .idle) := by
  rw [driveOn, decide_eq_true_eq]
  cases r.state with
  | waiting kind => cases kind <;> simp
  | _ => simp

/-- The heat and the sense figures of a key outlast a restart (R129). -/
theorem restartRest_keeps (p : Part) (k : Key) (r : KeyRec) : let r' := restartRest p k r
    r'.heat = r.heat ∧ r'.cut = r.cut ∧ r'.trim = r.trim ∧ r'.depressTrim = r.depressTrim ∧ r'.deaf = r.deaf ∧
      r'.missCount = r.missCount := by
  dsimp only
  rcases restart_state_cases r with h | h | h | h
  · rw [restartRest_of_driveOn h]
    exact ⟨rfl, rfl, rfl, rfl, rfl, rfl⟩
  · rcases restartRest_of_relieved (p := p) (k := k) h with ⟨g, -, -, e⟩ | ⟨-, e⟩ <;> rw [e] <;> exact ⟨rfl, rfl, rfl, rfl, rfl, rfl⟩
  · rw [restartRest_of_lifting h]
    exact ⟨rfl, rfl, rfl, rfl, rfl, rfl⟩
  · rw [restartRest_of_idle h]
    exact ⟨rfl, rfl, rfl, rfl, rfl, rfl⟩

end KeyByState

/-! ## The whole effect -/

theorem Reports.setBusy {q : Part} {own : Nat → Prop} {bits : BitVec 9} {counted : List Counter} (h : Reports p q own bits counted)
    (op : BusyOp) : Reports (setBusy op p) (setBusy op q) own bits counted :=
  ⟨h.memory, h.notices, h.nstatKept, h.pendingKept, congrArg (fun w : Window => { w with busy := some op }) h.window, h.log, h.counters⟩

theorem exec_restartEngine (hs : portServed s.part = true) (hb : s.part.window.busy = none) :
    exec .restartEngine s = .next { s with part := setBusy .restart (restart s.part) } :=
  (withPart_atPort hs (cmdWrite Config.cmdRestart)).trans
    (congrArg (fun q => Host.Outcome.next { s with part := q }) (cmdWrite_restart hb))

/-- What a restart reports, from the part before it with the blocks as they are after it. -/
theorem restartBase_tells (hm : Memory.wf p.mem = true) (hr : RingPlaced p.log) :
    Tells { idled (restartBlocks p) with mem := p.mem } (restartBase p)
      (fun a => wordBytes Config.takeMarkOffset a ∨ (p.time.engine ≠ .idle ∧ wordBytes Config.engineStateOffset a))
      (if p.time.engine = .idle then 0 else Notice.engine.bit) [] ∧
      wordAt Config.takeMarkOffset (restartBase p) = fillMark p ∧
      (p.time.engine ≠ .idle → wordAt Config.engineStateOffset (restartBase p) = 0) := by
  obtain ⟨shape, -⟩ := restartBlocks_spec p
  rw [restartBase]
  generalize restartBlocks p = q at shape ⊢
  have log : q.log = p.log := by rw [shape]
  have time : q.time = p.time := by rw [shape]
  have memory : q.mem = Memory.writeWord p.mem Config.takeMarkOffset (fillMark p) := by rw [shape]
  have wf : Memory.wf q.mem = true := by
    rw [memory]
    exact Memory.wf_writeWord _ _ _ hm
  obtain ⟨told, word⟩ := restartEngineState_tells wf (log ▸ hr)
  rw [time] at told word
  have written : idled q = putWord Config.takeMarkOffset (fillMark p) { idled q with mem := p.mem } := by
    rw [putWord, ← memory]
    rfl
  have marked : Tells { idled q with mem := p.mem } (idled q) (wordBytes Config.takeMarkOffset) 0 [] := by
    refine ⟨rfl, ?_⟩
    have stored := reports_putWord Config.takeMarkOffset (fillMark p) { idled q with mem := p.mem }
    rw [← written] at stored
    exact stored
  refine ⟨(marked.trans told).weaken (fun _ h => h) BitVec.zero_or fun _ h => h, ?_, word⟩
  have low (x : Nat) (hx : x = 10 ∨ x = 11) : ¬ (p.time.engine ≠ .idle ∧ wordBytes Config.engineStateOffset x) ∧ ¬ logByte (idled q).log x := by
    have state : Config.engineStateOffset = 4 := rfl
    exact ⟨fun h => by have := h.2; unfold wordBytes at this; omega,
      not_logByte_of_low (log ▸ hr : RingPlaced q.log) (by omega) (by omega) (by omega)⟩
  refine (told.reports.wordAt_eq (low _ (.inl rfl)).1 (low _ (.inr rfl)).1 (low _ (.inl rfl)).2 (low _ (.inr rfl)).2).trans ?_
  rw [written]
  exact wordAt_putWord_same _ _ hm

/-- Settles O9. -/
theorem restartEffect : Obligations.RestartEffect := by
  intro s hm hr hs hb unforced
  obtain ⟨told, mark, word⟩ := restartBase_tells hm hr
  obtain ⟨shape, keys, senses, pedals⟩ := restartBlocks_spec s.part
  have outcome := exec_restartEngine hs hb
  rw [restart_of_unforced unforced] at outcome
  generalize restartBlocks s.part = q at told shape keys senses pedals
  generalize restartBase s.part = t at told mark word outcome
  have after : t = { idled q with mem := t.mem, window := t.window, log := t.log } := told.shape
  have whole := after
  rw [shape] at whole
  have block {α : Type} (f : Part → α) := congrArg f whole
  refine ⟨_, outcome, rfl, rfl, (told.reports.setBusy .restart).congr ?_ rfl, mark, word, block Part.clocks,
    block Part.analog, block Part.strikes, block Part.senseLevels, block Part.pins,
    block Part.strip, block Part.leader, block Part.formats, block Part.time,
    block Part.shading, block Part.wheel, block Part.budget, block Part.capture,
    fun d => (congrArg (pedalRec d) after).trans (pedals d), fun k => (congrArg (senseRec k) after).trans (senses k), fun k => ?_⟩
  · rw [shape]
    rfl
  · have key : keyRec k (setBusy .restart t) = restartedKey k s.part := (congrArg (keyRec k) after).trans (keys k)
    obtain ⟨heat, cut, trim, depressTrim, deaf, missCount⟩ := restartRest_keeps s.part k (keyRec k s.part)
    dsimp only
    rw [key]
    refine ⟨rfl, rfl, rfl, rfl, rfl, rfl, rfl, rfl, heat, cut, trim, depressTrim, deaf, missCount, fun h => ?_, fun h => ?_, fun h => ?_,
      fun h => ?_⟩
    · rw [restartedKey, restartRest_of_driveOn h]
      exact ⟨rfl, rfl, rfl, rfl⟩
    · rcases restartRest_of_relieved (p := s.part) (k := k) h with ⟨g, gap, late, rest⟩ | ⟨past, rest⟩
      · rw [restartedKey, rest]
        exact ⟨rfl, rfl, .inl ⟨g, gap, late, rfl, rfl⟩⟩
      · rw [restartedKey, rest]
        exact ⟨rfl, rfl, .inr ⟨past, rfl⟩⟩
    · rw [restartedKey, restartRest_of_lifting h]
      exact ⟨h, rfl, rfl, rfl⟩
    · rw [restartedKey, restartRest_of_idle h]
      exact ⟨rfl, rfl, rfl⟩

end Sys2Proof.Machine
end

section
/-! A restart of a part with a pedal under FORCE of a value above 0, and STOP IMMEDIATE (R60, R137, R151, R153, R154, R165). -/

namespace Sys2Proof.Machine

variable {p : Part} {s : State} {d : Pedal}

/-! ## Reports leave the pedals alone, whatever they are -/

/-- The part with other Pedal records. -/
def withPedals (x : Vector PedalRec 3) (p : Part) : Part := { p with pedals := x }

theorem bumpBy_withPedals (c : Counter) (n : Nat) (x : Vector PedalRec 3) (p : Part) :
    bumpBy c n (withPedals x p) = withPedals x (bumpBy c n p) := by
  have same : counterOf c (withPedals x p) = counterOf c p := rfl
  unfold bumpBy
  dsimp only
  rw [same, apply_ite (withPedals x)]
  rfl

theorem raise_withPedals (n : Notice) (x : Vector PedalRec 3) (p : Part) : raise n (withPedals x p) = withPedals x (raise n p) := by
  rw [raise_shape, raise_shape]
  rfl

theorem storeRecord_withPedals (r : Record) (x : Vector PedalRec 3) (p : Part) :
    storeRecord r (withPedals x p) = withPedals x (storeRecord r p) := by
  unfold storeRecord
  cases r.extension <;> rfl

theorem advanceWriteMark_withPedals (n : Nat) (x : Vector PedalRec 3) (p : Part) :
    advanceWriteMark n (withPedals x p) = withPedals x (advanceWriteMark n p) := by
  unfold advanceWriteMark
  dsimp only
  rw [apply_ite (withPedals x), ← raise_withPedals]
  rfl

theorem logRecord_withPedals (r : Record) (x : Vector PedalRec 3) (p : Part) :
    logRecord r (withPedals x p) = withPedals x (logRecord r p) := by
  have drop : dropRecord r (withPedals x p) = withPedals x (dropRecord r p) := bumpBy_withPedals .logDropped 1 x { p with
    log := { p.log with
      dropped := min 65535 (p.log.dropped + 1), droppedKinds := p.log.droppedKinds ||| (1#16 <<< (r.kind - 1)) } }
  have write : writeRecord r (withPedals x p) = withPedals x (writeRecord r p) := by
    rw [writeRecord, writeRecord, storeRecord_withPedals, advanceWriteMark_withPedals]
  unfold logRecord
  rw [apply_ite (withPedals x), apply_ite (withPedals x), ← drop, ← write]
  rfl

theorem enterEngine_withPedals (e : EngineState) (c : Nat) (x : Vector PedalRec 3) (p : Part) :
    enterEngine e c (withPedals x p) = withPedals x (enterEngine e c p) := by
  unfold enterEngine
  dsimp only
  rw [← logRecord_withPedals, ← raise_withPedals]
  rfl

theorem restartEngineState_withPedals (x : Vector PedalRec 3) (p : Part) :
    restartEngineState (withPedals x p) = withPedals x (restartEngineState p) := by
  unfold restartEngineState
  dsimp only
  rw [apply_ite (withPedals x), ← enterEngine_withPedals]
  rfl

/-! ## A restart does not depend on what pedals stand in -/

/-- The restarts of two parts that differ in their pedals differ in their pedals. -/
theorem restartBase_withPedals (x : Vector PedalRec 3) (p : Part) :
    restartBase (withPedals x p) = withPedals (restartBase (withPedals x p)).pedals (restartBase p) := by
  obtain ⟨shape, keys, senses, -⟩ := restartBlocks_spec p
  obtain ⟨shape', keys', senses', -⟩ := restartBlocks_spec (withPedals x p)
  rw [restartBase, restartBase]
  generalize restartBlocks p = q at shape keys senses ⊢
  generalize restartBlocks (withPedals x p) = q' at shape' keys' senses' ⊢
  have sameKeys : q'.keys = q.keys := Vector.ext fun i h => (keys' ⟨i, h⟩).trans (keys ⟨i, h⟩).symm
  have sameSense : q'.sense = q.sense := Vector.ext fun i h => (senses' ⟨i, h⟩).trans (senses ⟨i, h⟩).symm
  have differs : q' = withPedals q'.pedals q := by
    rw [sameKeys, sameSense] at shape'
    rw [shape]
    exact shape'
  rw [differs, restartEngineState_withPedals]
  rfl

/-- What a restart leaves, read by the rules of a pedal that asks anew. -/
theorem restartBase_blocks (p : Part) : let q := restartBase p
    q.budget = { p.budget with committed := 0, pedalQ := [], bassQ := [], trebleQ := [], serveCause := false } ∧
      q.clocks = p.clocks ∧ q.strikes = p.strikes ∧ q.capture = { keys := [], engaged := false } ∧
      ∀ k, keyRec k q = restartedKey k p := by
  obtain ⟨shape, keys, -, -⟩ := restartBlocks_spec p
  dsimp only
  rw [restartBase]
  generalize restartBlocks p = q at shape keys ⊢
  obtain ⟨m, w, l, whole⟩ := restartEngineState_shape q
  rw [shape] at whole keys ⊢
  exact ⟨by rw [whole]; rfl, by rw [whole]; rfl, by rw [whole]; rfl, by rw [whole]; rfl,
    fun k => (congrArg (keyRec k) whole).trans (keys k)⟩

theorem restartedKey_state (k : Key) (p : Part) : (restartedKey k p).state = .idle ∨ (restartedKey k p).state = .lifting := by
  unfold restartedKey
  rcases restart_state_cases (keyRec k p) with h | h | h | h
  · rw [restartRest_of_driveOn h]
    exact .inr rfl
  · rcases restartRest_of_relieved (p := p) (k := k) h with ⟨g, -, -, e⟩ | ⟨-, e⟩ <;> rw [e]
    · exact .inr rfl
    · exact .inl rfl
  · rw [restartRest_of_lifting h]
    exact .inr h
  · rw [restartRest_of_idle h]
    exact .inl rfl

/-- With no key in HOLD and none in cover the filling of the Capture Set brings nothing else. -/
theorem captureTest_eq (h : ∀ k, (keyRec k p).state = .idle ∨ (keyRec k p).state = .lifting) : captureTest p
    = if fillsCapture p then { p with capture := { keys := keysToCapture p, engaged := true } } else p := by
  unfold captureTest fillCapture
  refine if_congr Iff.rfl ?_ rfl
  have cover : NoCover { p with capture := { keys := keysToCapture p, engaged := true } } := fun k => by
    have state := h k
    rw [keepsCover, decide_eq_false_iff_not]
    rintro (e | e) <;> rcases state with i | i <;> exact KeyState.noConfusion (e.symm.trans i)
  rw [coverUpdate_of_noCover cover]
  refine forKeys_of_fixed fun k => reliefTest_of_not_ready (.inl fun e => ?_)
  rcases h k with i | i <;> exact KeyState.noConfusion (i.symm.trans e)

/-! ## A pedal under FORCE asks anew (R165) -/

section Asking

variable {w : Nat} (ho : (pedalRec d p).override = .force w) (hw : 0 < w) (hn : NobodyWaits p.budget)
include ho hw hn

theorem reapplyForce_granted (fits : p.budget.committed + (drivenPedal d w p).claim ≤ p.budget.inForce)
    (hk : ∀ k, (keyRec k p).state = .idle ∨ (keyRec k p).state = .lifting) (free : p.capture.engaged = false) :
    reapplyForce d p = { repedal d (drivenPedal d w p) p with
      capture := if d = .middle ∧ (drivenPedal d w p).state = .settled ∧ p.strikes.voicing.engageLevel ≤ (pedalRec d p).position
        then { keys := keysToCapture p, engaged := true } else p.capture } := by
  set x := repedal d (drivenPedal d w p) p with hx
  have drives : putDriving d (drivenPedal d w p).state w (setPedalClaim d (drivenPedal d w p).claim p) = x := by
    rw [setPedalClaim_eq (.inl hn)]
    unfold putDriving
    dsimp only
    rw [pedalRec_repedal_same, putPedal_repedal (by rfl)]
    rfl
  have asks : reapplyForce d p = if d = .middle ∧ (drivenPedal d w p).state = .settled then captureTest x else x := by
    unfold reapplyForce
    rw [ho]
    dsimp only
    rw [if_neg (Nat.pos_iff_ne_zero.1 hw)]
    refine (if_pos ((pedalClaimPasses_of_nobodyWaits hn _).2 fits)).trans ?_
    exact if_congr Iff.rfl (congrArg captureTest drives) drives
  rw [asks]
  by_cases middle : d = .middle ∧ (drivenPedal d w p).state = .settled
  · obtain ⟨rfl, settled⟩ := middle
    have fills : fillsCapture x = true ↔ p.strikes.voicing.engageLevel ≤ (pedalRec .middle p).position := by
      have record : pedalRec .middle x = drivenPedal .middle w p := pedalRec_repedal_same
      rw [fillsCapture, record, settled, show x.capture.engaged = false from free]
      simp only [Bool.not_false, decide_true, Bool.true_and, decide_eq_true_eq]
      rfl
    have keys : keysToCapture x = keysToCapture p :=
      keysToCapture_congr rfl rfl (congrArg PedalRec.position (pedalRec_putPedal_other Pedal.noConfusion ..))
    rw [if_pos ⟨rfl, settled⟩, captureTest_eq (by exact hk), keys]
    simp only [fills, settled, true_and]
    split <;> rfl
  · rw [if_neg middle, if_neg fun h => middle ⟨h.1, h.2.1⟩]
    rfl

theorem reapplyForce_deferred (short : p.budget.inForce < p.budget.committed + (drivenPedal d w p).claim) :
    reapplyForce d p = putPedal d { pedalRec d p with wanted := some w } (bump .deferrals { p with
      budget := { p.budget with
        pedalQ := [{ pedal := d, amount := (drivenPedal d w p).claim, judged := (drivenPedal d w p).state }] } }) := by
  unfold reapplyForce
  rw [ho]
  dsimp only
  rw [if_neg (Nat.pos_iff_ne_zero.1 hw)]
  refine (if_neg fun passes => absurd ((pedalClaimPasses_of_nobodyWaits hn _).1 passes) (Nat.not_le.2 short)).trans ?_
  unfold deferPedal
  dsimp only
  rw [hn.1, pedalRec_bump]
  rfl

end Asking

/-! ## The restart of a part with one pedal under FORCE of a value above 0 -/

section Forced

variable {v : Nat} (ho : (pedalRec d p).override = .force v) (hv : 0 < v)
include ho hv

/-- Another pedal's record after the pedal under FORCE has asked anew. -/
theorem pedalRec_reapplyForce_other {x : Pedal} (hx : x ≠ d) :
    pedalRec x (reapplyForce d (restartBase p)) = restartedPedal (pedalRec x p) := by
  obtain ⟨budget, -, -, capture, keys⟩ := restartBase_blocks p
  have record (y : Pedal) := pedalRec_restartBase y p
  have force : (pedalRec d (restartBase p)).override = .force v := by rw [record]; exact ho
  generalize restartBase p = q at budget capture keys record force ⊢
  have nobody : NobodyWaits q.budget := by rw [budget]; exact ⟨rfl, rfl, rfl⟩
  have states (k : Key) : (keyRec k q).state = .idle ∨ (keyRec k q).state = .lifting := by rw [keys]; exact restartedKey_state k p
  rcases Nat.lt_or_ge q.budget.inForce (q.budget.committed + (drivenPedal d v q).claim) with short | fits
  · rw [reapplyForce_deferred force hv nobody short, pedalRec_putPedal_other hx, pedalRec_bump]
    exact record x
  · rw [reapplyForce_granted force hv nobody fits states (by rw [capture])]
    exact (pedalRec_putPedal_other hx _ q).trans (record x)

/-- Of the pedals only the one under FORCE of a value above 0 asks anew. -/
theorem restart_of_forced (h : ∀ x w, x ≠ d → (pedalRec x p).override = .force w → w = 0) :
    restart p = reapplyForce d (restartBase p) := by
  have turn (q : Part) : forPedals reapplyForce q = reapplyForce .middle (reapplyForce .shift (reapplyForce .damper q)) := rfl
  have before (x : Pedal) (hx : x ≠ d) : reapplyForce x (restartBase p) = restartBase p :=
    reapplyForce_of_unforced fun w e => h x w hx (by rw [pedalRec_restartBase] at e; exact e)
  have after (x : Pedal) (hx : x ≠ d) : reapplyForce x (reapplyForce d (restartBase p)) = reapplyForce d (restartBase p) :=
    reapplyForce_of_unforced fun w e => h x w hx (by rw [pedalRec_reapplyForce_other ho hv hx] at e; exact e)
  rw [restart_eq, turn]
  cases d
  · rw [after .shift (by decide), after .middle (by decide)]
  · rw [before .damper (by decide), after .middle (by decide)]
  · rw [before .damper (by decide), before .shift (by decide)]

end Forced

theorem pedals_ext {q : Part} (h : ∀ d, pedalRec d p = pedalRec d q) : p.pedals = q.pedals :=
  Vector.ext fun i hi => match i, hi with
    | 0, _ => h .damper
    | 1, _ => h .shift
    | 2, _ => h .middle

/-- A restart leaves a pedal under FORCE as it leaves the same pedal under FOLLOW, but for the override. -/
theorem restartBase_follow {v : Nat} (ho : (pedalRec d p).override = .force v) :
    let b := restartBase (putPedal d { pedalRec d p with override := .follow } p)
    restartBase p = putPedal d { pedalRec d b with override := .force v } b ∧
      pedalRec d b = { restartedPedal (pedalRec d p) with override := .follow } := by
  have differs := restartBase_withPedals (putPedal d { pedalRec d p with override := .follow } p).pedals p
  have records (e : Pedal) := pedalRec_restartBase e (putPedal d { pedalRec d p with override := .follow } p)
  have before (e : Pedal) := pedalRec_restartBase e p
  have same : withPedals (putPedal d { pedalRec d p with override := .follow } p).pedals p
      = putPedal d { pedalRec d p with override := .follow } p := rfl
  rw [same] at differs
  dsimp only
  generalize restartBase (putPedal d { pedalRec d p with override := .follow } p) = b at differs records ⊢
  generalize restartBase p = a at differs before ⊢
  have record : pedalRec d b = { restartedPedal (pedalRec d p) with override := .follow } := by
    rw [records, pedalRec_putPedal_same]
    simp only [restartedPedal, ho]
    rfl
  refine ⟨?_, record⟩
  have pedals : a.pedals = (putPedal d { pedalRec d b with override := .force v } b).pedals := pedals_ext fun e => by
    by_cases here : e = d
    · subst here
      rw [before, pedalRec_putPedal_same, record]
      simp only [restartedPedal, ho]
    · rw [before, pedalRec_putPedal_other here, records, pedalRec_putPedal_other here]
  have back : a = withPedals a.pedals b := by rw [differs]; rfl
  rw [back, pedals]
  rfl

/-- The record of a pedal under FORCE of a value above 0 that is granted its claim after a restart. -/
theorem drivenPedal_restarted {b : Part} {v : Nat} (hv : 0 < v) (strikes : b.strikes = p.strikes) (clocks : b.clocks = p.clocks)
    (record : pedalRec d b = { restartedPedal (pedalRec d p) with override := .force v }) :
    let x := pedalVoicing d p
    let judged := judgedState v (pedalRec d p).position x.tol
    let duty := min 255 (x.holdBase + x.holdSlope * v / 255)
    drivenPedal d v b = { restartedPedal (pedalRec d p) with
      override := .force v, state := judged, target := v
      claim := if judged = .raising then x.ifull * x.moveDuty / 255 else x.ifull * duty / 255
      output := some (if judged = .raising then x.moveDuty else duty)
      timer := if judged = .settled then none else some (p.clocks.drive + x.travelMax * 1000) } := by
  have voicing : pedalVoicing d b = pedalVoicing d p := by rw [pedalVoicing, pedalVoicing, voicing, voicing, strikes]
  unfold drivenPedal
  rw [record, voicing, clocks]
  dsimp only
  rw [stateClaim_judged hv, stateOutput_judged hv, travelTimer_judged hv, judgeTarget_pos hv]
  rfl

/-- Settles O10. -/
theorem restartReappliesForce : Obligations.RestartReappliesForce := by
  intro s d v hm hs hb hv ho others follow x position judged duty claim
  have unforced : ∀ e w, (pedalRec e follow.part).override = .force w → w = 0 := by
    intro e w he
    by_cases same : e = d
    · subst same
      have follows : (pedalRec e follow.part).override = .follow := congrArg PedalRec.override (pedalRec_putPedal_same ..)
      rw [follows] at he
      cases he
    · exact others e w same ((congrArg PedalRec.override (pedalRec_putPedal_other same _ s.part)).symm.trans he)
  have outcome := exec_restartEngine hs hb
  have outcome0 := exec_restartEngine (s := follow) hs hb
  rw [restart_of_forced ho hv others] at outcome
  rw [restart_of_unforced unforced] at outcome0
  obtain ⟨back, record⟩ := restartBase_follow ho
  obtain ⟨budget, clocks, strikes, capture, keys⟩ := restartBase_blocks s.part
  have follow_eq : restartBase follow.part = restartBase (putPedal d { pedalRec d s.part with override := .follow } s.part) := rfl
  rw [follow_eq] at outcome0
  generalize restartBase (putPedal d { pedalRec d s.part with override := .follow } s.part) = b0 at outcome0 back record
  generalize restartBase s.part = b at outcome back budget clocks strikes capture keys
  have forced : pedalRec d b = { restartedPedal (pedalRec d s.part) with override := .force v } := by
    rw [back, pedalRec_putPedal_same, record]
  have force : (pedalRec d b).override = .force v := by rw [forced]
  have nobody : NobodyWaits b.budget := by rw [budget]; exact ⟨rfl, rfl, rfl⟩
  have states (k : Key) : (keyRec k b).state = .idle ∨ (keyRec k b).state = .lifting := by rw [keys]; exact restartedKey_state k s.part
  have driven := drivenPedal_restarted hv strikes clocks forced
  have amount : (drivenPedal d v b).claim = claim := by rw [driven]; rfl
  refine ⟨_, _, outcome, outcome0, rfl, fun fits => ?_, fun short => ?_⟩
  · have granted := reapplyForce_granted force hv nobody
      (by rw [amount, budget]; exact (Nat.zero_add claim).symm ▸ fits) states (by rw [capture])
    have position : (pedalRec .damper b).position = (pedalRec .damper b0).position := by
      rw [back]
      by_cases damper : .damper = d
      · rw [← damper, pedalRec_putPedal_same]
      · rw [pedalRec_putPedal_other damper]
    have captured : keysToCapture b = keysToCapture b0 := keysToCapture_congr (by rw [back]; rfl) (by rw [back]; rfl) position
    have nothing : b0.budget.committed = 0 := (congrArg (fun q : Part => q.budget.committed) back).symm.trans (by rw [budget])
    have held (r : PedalRec) (h : r.claim = claim) : repedal d r b = { b0 with
        pedals := b0.pedals.set (pedalIndex d) r, budget := { b0.budget with committed := claim } } := by
      rw [back, repedal_putPedal (by rfl), repedal, nothing, h, Nat.zero_sub, Nat.zero_add]
    have emptied : b.capture = b0.capture := by rw [back]; rfl
    have written : drivenPedal d v b = { pedalRec d b0 with
        override := .force v, state := judged, target := v, claim := claim
        output := some (if judged = .raising then x.moveDuty else duty)
        timer := if judged = .settled then none else some (s.part.clocks.drive + x.travelMax * 1000) } := by
      rw [driven, record]
      rfl
    rw [granted, captured, held _ amount, written, forced, strikes, emptied]
    rfl
  · have deferred := reapplyForce_deferred force hv nobody (by rw [amount, budget]; exact (Nat.zero_add claim).symm ▸ short)
    have state : (drivenPedal d v b).state = judged := by rw [driven]; rfl
    rw [amount, state] at deferred
    set waiting : Part := { b with budget := { b.budget with pedalQ := [{ pedal := d, amount := claim, judged := judged }] } } with hwaiting
    obtain ⟨m, shape⟩ := bumpBy_shape .deferrals 1 waiting
    have count := counterOf_bump_narrow (c := .deferrals) (by decide) waiting
    have others' (c : Counter) (h : c ≠ .deferrals) : counterOf c (bump .deferrals waiting) = counterOf c waiting :=
      counterOf_bumpBy_other (fun e => h (index_injective e.symm)) 1 waiting
    have memory (a : Nat) (h : ¬ wordBytes 0x218 a) : Memory.read (bump .deferrals waiting).mem a = Memory.read waiting.mem a :=
      read_bumpBy_other .deferrals 1 a waiting (by
        have offset : Counter.deferrals.offset = 0x218 := by decide
        have narrow : (if Counter.deferrals.wide then 4 else 2) = 2 := rfl
        rw [offset, narrow]
        unfold wordBytes at h
        omega)
    rw [deferred]
    rw [← bump] at shape
    generalize bump .deferrals waiting = z at shape count others' memory ⊢
    refine ⟨?_, count.trans (by rw [hwaiting, back]; rfl), fun c h => (others' c h).trans (by rw [hwaiting, back]; rfl),
      fun a h => (memory a h).trans (by rw [hwaiting, back]; rfl)⟩
    have written : { pedalRec d b with wanted := some v } = { pedalRec d b0 with override := .force v, wanted := some v } := by
      rw [back, pedalRec_putPedal_same]
    rw [written, shape, hwaiting, back]
    simp only [putPedal, Vector.set_set]
    rfl

end Sys2Proof.Machine
end

section
/-! PAUSE with RELEASE_HELD while a key waits for its launch claim (R61, R123, R139, R140). -/

namespace Sys2Proof.Machine

/-- A strike of a key at 150,000 µs whose launch claim is 100 mA. -/
def strikeAtKey (k : Key) (tag : Word) : Strike :=
  { tag := tag, key := k, cls := 0, half := .bass, datedLine := 1, due := 200000, v := 500, w := 4000, d := 40000, u := 200
    lead := 45000, planned := 155000, launchAt := 155000, iLaunch := 100, iHold := 78, wEff := none, late := false
    derated := false, deferred := false, stolen := false, compensated := false, lateness := 0, release := none
    releaseTaken := false }

/-- A PAUSE with RELEASE_HELD is POSTED in slot 0; key 5 is in HOLD with a claim of 78 mA, and key 6 waits for a launch claim of
100 mA, which the 150 mA in force leave no room for until key 5 is released. -/
def pauseWithWaitingKey : Part :=
  let p := putWords (slotWordOffset 0 0) [1, 3, 1] State.reset.part
  let p := putKey 4 { KeyRec.reset with state := .hold, current := some (strikeAtKey 4 1), claim := 78 } p
  let p := putKey 5 { KeyRec.reset with state := .waiting .launch, current := some (strikeAtKey 5 2) } p
  { p with
    time := { p.time with engine := .running }
    budget := { p.budget with committed := 78, inForce := 150, bassQ := [{ key := 5, kind := .launch, amount := 100 }] } }

/-- The release of key 5 serves the queue within the request: key 6 is launched, and StrikesMade counts. -/
theorem pauseWithWaitingKey_launches :
    (keyRec 5 (dispatchRequest 3 0 pauseWithWaitingKey).part).state = .drive ∧
      counterOf .strikesMade pauseWithWaitingKey = 0 ∧
      counterOf .strikesMade (dispatchRequest 3 0 pauseWithWaitingKey).part = 1 := by decide +kernel

/-- Refutes O25: its first clause says of every PAUSE, also of one with RELEASE_HELD while holders wait, that no counter
changes; but the current that the released keys free launches a waiting key. -/
theorem not_engineRequests : ¬ Obligations.EngineRequests := by
  rintro ⟨pause, -⟩
  obtain ⟨-, -, -, reports, -⟩ := pause 0 pauseWithWaitingKey (fun h => absurd h (by decide +kernel)) (by decide +kernel)
    (.inr (.inl (by decide +kernel)))
  obtain ⟨-, before, after⟩ := pauseWithWaitingKey_launches
  have same : counterOf .strikesMade (dispatchRequest 3 0 pauseWithWaitingKey).part = counterOf .strikesMade pauseWithWaitingKey :=
    reports.counters .strikesMade (List.not_mem_nil) (by decide)
  rw [before, after] at same
  exact absurd same (by decide)

end Sys2Proof.Machine
end

section
/-! The START request (R25, R32, R40, R46, R49, R54, R55, R68, R104, R144, R166, R181). -/

namespace Sys2Proof.Machine

variable {p : Part} {slot : Nat} {i : Fin 4} {f : Format}

/-! ## The detail word (R54) -/

theorem getLsbD_detailBit {n : Nat} (hn : n < 16) (c : Bool) (b : Nat) : (detailBit n c).getLsbD b = (c && decide (b = n)) := by
  cases c with
  | false => simp [detailBit]
  | true =>
    rw [detailBit, if_pos rfl, Bool.true_and]
    by_cases h : b = n
    · subst h
      simp [hn]
    · rw [decide_eq_false h]
      simp only [BitVec.getLsbD_shiftLeft, BitVec.getLsbD_one]
      by_cases below : b < n
      · simp [below]
      · simp only [decide_eq_false below]
        have : b - n ≠ 0 := by omega
        simp [this]

theorem startOverride_ne (slot : Nat) (p : Part) : startOverride slot p ≠ (param slot 3 p).toNat
    ↔ param slot 3 p ≠ 0 ∧ ((param slot 3 p).toNat < 20 ∨ 200 < (param slot 3 p).toNat) := by
  unfold startOverride clampTo
  by_cases zero : param slot 3 p = 0
  · simp [zero]
  · rw [if_neg zero]
    simp only [ne_eq, zero, not_false_eq_true, true_and]
    omega

theorem startLines_ne (slot : Nat) (p : Part) : startLines slot p ≠ (param slot 2 p).toNat ↔ 8192 < (param slot 2 p).toNat := by
  unfold startLines
  omega

/-- The bits of START's detail word: LeaderLines, the tempo override, and the fields of the Setup Block (R54). -/
theorem startDetail_bits (slot : Nat) (p : Part) :
    (startDetail slot p).getLsbD 0 = decide (8192 < (param slot 2 p).toNat) ∧
      (startDetail slot p).getLsbD 1
        = decide (param slot 3 p ≠ 0 ∧ ((param slot 3 p).toNat < 20 ∨ 200 < (param slot 3 p).toNat)) ∧
      ∀ b, 2 ≤ b → (startDetail slot p).getLsbD b = (setupDetail (readSetup p) p.strikes.guardTime p).getLsbD b := by
  have setup (b : Nat) (h : b < 2) : (setupDetail (readSetup p) p.strikes.guardTime p).getLsbD b = false := by
    unfold setupDetail
    have (n : Nat) (hn : 2 ≤ n) : decide (b = n) = false := decide_eq_false (by omega)
    simp [getLsbD_detailBit, this]
  unfold startDetail
  refine ⟨?_, ?_, fun b hb => ?_⟩
  · simp only [BitVec.getLsbD_or, getLsbD_detailBit (show 0 < 16 by decide), getLsbD_detailBit (show 1 < 16 by decide), setup 0 (by decide),
      startLines_ne]
    simp
  · have other := startOverride_ne slot p
    simp only [BitVec.getLsbD_or, getLsbD_detailBit (show 0 < 16 by decide), getLsbD_detailBit (show 1 < 16 by decide), setup 1 (by decide), other]
    simp
  · have h0 : decide (b = 0) = false := decide_eq_false (by omega)
    have h1 : decide (b = 1) = false := decide_eq_false (by omega)
    simp [getLsbD_detailBit, h0, h1]

/-! ## The Setup Block copy (R181) -/

theorem readSetup_ranges (p : Part) : 20 ≤ (readSetup p).lookahead ∧ (readSetup p).lookahead ≤ 300 ∧
    (readSetup p).lowLevel < (readSetup p).sagLevel ∧ (readSetup p).sagLevel ≤ (readSetup p).vnom := by
  unfold readSetup clampTo
  dsimp only
  refine ⟨by omega, by omega, ?_, by omega⟩
  split <;> omega

/-! ## The Leader Record (R40) -/

/-- The bytes of the Leader Record. -/
def leaderBytes (a : Nat) : Prop := Config.leaderRecordOffset ≤ a ∧ a < Config.leaderRecordOffset + 36

theorem writeLeaderRecord_tells (h : p.leader.texts.length ≤ 8) : Tells p (writeLeaderRecord p) leaderBytes 0 [] := by
  have length : (leaderWords p.leader).length = 17 := by
    simp [leaderWords]
    omega
  refine ⟨rfl, fun a ha _ => ?_, ⟨0, .inl rfl, by simp [writeLeaderRecord]⟩, by simp [writeLeaderRecord], by simp [writeLeaderRecord],
    rfl, ⟨rfl, rfl, rfl, rfl, rfl, rfl⟩, fun _ _ _ => rfl⟩
  unfold leaderBytes at ha
  unfold writeLeaderRecord
  rw [read_putWord_other (by unfold wordBytes; omega), putWords, Memory.read_writeWords_other _ _ _ _ (by omega)]

theorem getElem_preparedWords (a b c : Word) (j : Nat) (hj : j < ([0, a, b, c] ++ List.replicate 13 (0 : Word)).length) :
    ([0, a, b, c] ++ List.replicate 13 (0 : Word))[j]
      = if j + 1 = 2 then a else if j + 1 = 3 then b else if j + 1 = 4 then c else 0 := by
  match j, hj with
  | 0, _ => rfl
  | 1, _ => rfl
  | 2, _ => rfl
  | 3, _ => rfl
  | n + 4, hj =>
    rw [if_neg (by omega), if_neg (by omega), if_neg (by omega), List.getElem_append_right (by simp), List.getElem_replicate]

/-- The Leader Record as a START writes it. -/
theorem wordAt_writeLeaderRecord_prepared {lines slot tempo : Nat} {spool : Int} (hm : Memory.wf p.mem = true)
    (hl : p.leader = preparedLeader lines slot tempo spool) {w : Nat} (hw : w < 18) :
    wordAt (Config.leaderRecordOffset + 2 * w) (writeLeaderRecord p)
      = if w = 2 then BitVec.ofNat 16 slot else if w = 3 then BitVec.ofNat 16 tempo
        else if w = 4 then BitVec.ofInt 16 spool else 0 := by
  have wf : Memory.wf (putWords (Config.leaderRecordOffset + 2) (leaderWords p.leader) p).mem = true := by
    rw [putWords]
    dsimp only
    exact Memory.wf_writeWords (leaderWords p.leader) p.mem (Config.leaderRecordOffset + 2) hm
  have words : leaderWords p.leader = [0, natWord slot, natWord tempo, intWord spool] ++ List.replicate 13 0 := by
    rw [hl]
    rfl
  have outcome : p.leader.outcome = .none := by rw [hl]; rfl
  unfold writeLeaderRecord
  rw [outcome]
  generalize stored : putWords (Config.leaderRecordOffset + 2) (leaderWords p.leader) p = q at wf ⊢
  cases w with
  | zero =>
    rw [Nat.mul_zero, Nat.add_zero, wordAt_putWord_same _ _ wf, if_neg (by decide), if_neg (by decide), if_neg (by decide)]
    rfl
  | succ j =>
    have place : Config.leaderRecordOffset + 2 * (j + 1) = Config.leaderRecordOffset + 2 + 2 * j := by omega
    rw [wordAt_putWord_other (.inr (by omega)), place, ← stored, wordAt, putWords, words]
    have length : j < ([0, natWord slot, natWord tempo, intWord spool] ++ List.replicate 13 (0 : Word)).length := by
      simp
      omega
    dsimp only
    rw [Memory.readWord_writeWords_same _ _ _ _ hm length]
    exact getElem_preparedWords (natWord slot) (natWord tempo) (intWord spool) j length

theorem wf_writeLeaderRecord (hm : Memory.wf p.mem = true) : Memory.wf (writeLeaderRecord p).mem = true := by
  have words := Memory.wf_writeWords (leaderWords p.leader) p.mem (Config.leaderRecordOffset + 2) hm
  unfold writeLeaderRecord putWord putWords
  dsimp only
  generalize Memory.writeWords p.mem (Config.leaderRecordOffset + 2) (leaderWords p.leader) = m at words ⊢
  exact Memory.wf_writeWord m _ _ words

/-! ## The performance prepared (R55, R144, R166) -/

/-- The Budget Arbiter as a START forms it. -/
def startedBudget (p : Part) : Budget :=
  { p.budget with ibud := (readSetup p).ibud, patternPos := 0, inForce := budgetFor (readSetup p).ibud p.analog }

/-- The part as a START prepares it, before the Leader Record and the engine's state are written. -/
def startPrepared (slot : Nat) (i : Fin 4) (p : Part) : Part :=
  let t := startTimebase slot (formatAt i p) p
  prepareStrip (forKeys startKey (forPedals startPedal (startBudget (readSetup p) { p with
    window := { p.window with setup := readSetup p }
    formats := { p.formats with inUse := some i }
    time := t
    shading := Shading.reset
    wheel := { p.wheel with position := 0 }
    leader := preparedLeader (startLines slot p) i.val t.tempo t.spoolStep })))

theorem startPerformance_eq (slot : Nat) (i : Fin 4) (p : Part) : startPerformance slot i p
    = serve (enterEngine (if startLines slot p = 0 then .running else .leader) 0 (writeLeaderRecord (startPrepared slot i p))) := rfl

/-- The Strip Reader, the keys and the pedals are prepared, and nothing else changes (R25, R166). -/
theorem startRecords_spec (b : Part) : let q := prepareStrip (forKeys startKey (forPedals startPedal b))
    q = { b with
      strip := { b.strip with
        drift := 0, tracking := .locked, invalidRun := 0, validRun := 0, held := none
        tracks := Vector.replicate 104 TrackRec.reset }
      keys := q.keys, pedals := q.pedals } ∧
      (∀ k, keyRec k q = { keyRec k b with lastRelease := none }) ∧
      ∀ d, pedalRec d q = { pedalRec d b with plannedTarget := 0, rollTarget := 0, dropPending := none } := by
  obtain ⟨rested, pedals⟩ := forPedals_records (f := startPedal)
    (fun r => { r with plannedTarget := 0, rollTarget := 0, dropPending := none }) (fun _ _ => rfl) b
  dsimp only
  generalize forPedals startPedal b = x at rested pedals ⊢
  obtain ⟨shape, keys⟩ := forKeys_records (p := x) (f := startKey) (fun k => { keyRec k x with lastRelease := none })
    fun k q _ record => by rw [startKey, record]
  generalize forKeys startKey x = y at shape keys ⊢
  have whole := shape
  rw [rested] at whole
  have record (k : Key) : keyRec k x = keyRec k b := by rw [keyRec, keyRec, rested]
  have same (d : Pedal) : pedalRec d y = pedalRec d x := by rw [pedalRec, pedalRec, shape]
  refine ⟨?_, fun k => (keys k).trans (by rw [record]), fun d => (same d).trans (pedals d)⟩
  clear shape keys same
  generalize y.keys = k at whole
  generalize x.pedals = d at whole
  subst whole
  rfl

theorem startPrepared_spec (slot : Nat) (i : Fin 4) (hn : NobodyWaits p.budget) :
    let q := startPrepared slot i p
    let t := startTimebase slot (formatAt i p) p
    q = { p with
      window := { p.window with setup := readSetup p }
      formats := { p.formats with inUse := some i }
      time := t
      shading := Shading.reset
      wheel := { p.wheel with position := 0 }
      leader := preparedLeader (startLines slot p) i.val t.tempo t.spoolStep
      strikes := { p.strikes with volBass := (readSetup p).volBass, volTreble := (readSetup p).volTreble }
      budget := startedBudget p
      strip := { p.strip with
        drift := 0, tracking := .locked, invalidRun := 0, validRun := 0, held := none
        tracks := Vector.replicate 104 TrackRec.reset }
      keys := q.keys, pedals := q.pedals } ∧
      (∀ k, keyRec k q = { keyRec k p with lastRelease := none }) ∧
      ∀ d, pedalRec d q = { pedalRec d p with plannedTarget := 0, rollTarget := 0, dropPending := none } := by
  unfold startPrepared startBudget
  dsimp only
  rw [formBudget_of_nobodyWaits (by exact hn)]
  exact startRecords_spec _

/-! ## The request (R54, R55) -/

theorem logRecord_setup (r : Record) (p : Part) : (logRecord r p).window.setup = p.window.setup := by
  have write : (writeRecord r p).window.setup = p.window.setup := by
    unfold writeRecord advanceWriteMark
    dsimp only
    split
    · rw [raise_shape]
      dsimp only
      rw [putWord_window]
      exact congrArg Window.setup (storeRecord_window r p)
    · rw [putWord_window]
      exact congrArg Window.setup (storeRecord_window r p)
  unfold logRecord
  split
  · split
    · rw [dropRecord_window]
    · exact write
  · rfl

theorem enterEngine_setup (e : EngineState) (c : Nat) (p : Part) : (enterEngine e c p).window.setup = p.window.setup := by
  unfold enterEngine
  dsimp only
  rw [logRecord_setup, raise_shape]
  rfl

theorem startTimebase_tempo (slot : Nat) (f : Format) (p : Part) : (startTimebase slot f p).tempo
    = if param slot 3 p = 0 then f.defaultTempo else max 20 (min 200 (param slot 3 p).toNat) := by
  unfold startTimebase startOverride
  dsimp only
  by_cases zero : param slot 3 p = 0
  · rw [if_pos zero, if_pos zero, if_pos rfl]
  · rw [if_neg zero, if_neg zero]
    exact if_neg (by unfold clampTo; omega)

theorem requestStart_proceeds (idle : p.time.engine = .idle) (named : (param slot 1 p).toNat = i.val)
    (loaded : p.formats.slots[i] = some f) :
    requestStart slot p = carriedOut (startDetail slot p) (startPerformance slot i p) := by
  have here : (param slot 1 p).toNat < 4 := by omega
  have same : (⟨(param slot 1 p).toNat, here⟩ : Fin 4) = i := Fin.ext named
  have some : ¬ (p.formats.slots[(param slot 1 p).toNat].isNone = true) := by
    simp only [named]
    rw [show p.formats.slots[i.val] = some f from loaded]
    exact Bool.false_ne_true
  unfold requestStart
  rw [if_neg (fun e => e idle), dif_pos here, if_neg some, same]

/-- The part that a START leaves is the one prepared, with the engine's state and what it reports. -/
theorem startPerformance_shape (slot : Nat) (i : Fin 4) (hn : NobodyWaits p.budget) : let q := startPerformance slot i p
    q = { startPrepared slot i p with
      mem := q.mem, window := q.window, log := q.log
      time := { (startPrepared slot i p).time with engine := if startLines slot p = 0 then .running else .leader }
      budget := { startedBudget p with serveCause := false } } ∧ q.window.setup = readSetup p := by
  obtain ⟨shape, -, -⟩ := startPrepared_spec slot i hn
  dsimp only
  rw [startPerformance_eq]
  generalize (if startLines slot p = 0 then EngineState.running else .leader) = e
  generalize startPrepared slot i p = y at shape ⊢
  obtain ⟨m, w, l, entered⟩ := enterEngine_shape e 0 (writeLeaderRecord y)
  have setup : (enterEngine e 0 (writeLeaderRecord y)).window.setup = readSetup p := by
    rw [enterEngine_setup, shape]
    rfl
  generalize enterEngine e 0 (writeLeaderRecord y) = z at entered setup ⊢
  have budget : y.budget = startedBudget p := by rw [shape]
  have nobody : NobodyWaits z.budget := by
    rw [entered]
    exact budget ▸ hn
  rw [serve_eq_calm nobody]
  refine ⟨?_, setup⟩
  rw [← budget, entered]
  rfl

/-- What a START reports, from the part with the Setup Block copied (R40, R53, R54). -/
theorem startPerformance_reports (slot : Nat) (i : Fin 4) (hn : NobodyWaits p.budget) (hm : Memory.wf p.mem = true)
    (hr : RingPlaced p.log) : let q := startPerformance slot i p
    let t := startTimebase slot (formatAt i p) p
    (∀ w, w < 18 → wordAt (Config.leaderRecordOffset + 2 * w) q
      = if w = 2 then BitVec.ofNat 16 i.val else if w = 3 then BitVec.ofNat 16 t.tempo
        else if w = 4 then BitVec.ofInt 16 t.spoolStep else 0) ∧
      wordAt Config.engineStateOffset q = (if startLines slot p = 0 then 2 else 1) ∧
      Reports { p with window := { p.window with setup := readSetup p } } q
        (fun a => wordBytes Config.engineStateOffset a ∨ leaderBytes a) Notice.engine.bit [] := by
  obtain ⟨shape, -, -⟩ := startPrepared_spec slot i hn
  dsimp only
  rw [startPerformance_eq]
  generalize startPrepared slot i p = y at shape ⊢
  have leader : y.leader = preparedLeader (startLines slot p) i.val (startTimebase slot (formatAt i p) p).tempo
      (startTimebase slot (formatAt i p) p).spoolStep := by rw [shape]
  have wf : Memory.wf y.mem = true := by rw [shape]; exact hm
  have recorded := writeLeaderRecord_tells (p := y) (by rw [leader]; exact Nat.zero_le _)
  have words (w : Nat) (hw : w < 18) := wordAt_writeLeaderRecord_prepared (p := y) wf leader hw
  have wf : Memory.wf (writeLeaderRecord y).mem = true := wf_writeLeaderRecord wf
  have ring : RingPlaced (writeLeaderRecord y).log := recorded.ringPlaced (by rw [shape]; exact hr)
  obtain ⟨entered, word⟩ := enterEngine_tells (if startLines slot p = 0 then .running else .leader) 0 wf ring
  have front_eq : front y = front { p with window := { p.window with setup := readSetup p } } := by rw [shape]; rfl
  have nobody : NobodyWaits (enterEngine (if startLines slot p = 0 then .running else .leader) 0 (writeLeaderRecord y)).budget := by
    have budget : (writeLeaderRecord y).budget = startedBudget p := recorded.budget.trans (by rw [shape])
    rw [entered.budget]
    dsimp only
    rw [budget]
    exact hn
  rw [serve_eq_calm nobody]
  generalize enterEngine (if startLines slot p = 0 then .running else .leader) 0 (writeLeaderRecord y) = z at entered word ⊢
  generalize writeLeaderRecord y = x at recorded words entered ring
  have base : Config.leaderRecordOffset = 0x80 := rfl
  have state : Config.engineStateOffset = 4 := rfl
  refine ⟨fun w hw => ?_, ?_, ?_⟩
  · have apart (b : Nat) (hb : b < 2) : ¬ wordBytes Config.engineStateOffset (Config.leaderRecordOffset + 2 * w + b)
        ∧ ¬ logByte x.log (Config.leaderRecordOffset + 2 * w + b) :=
      ⟨by unfold wordBytes; omega, not_logByte_of_low ring (by omega) (by omega) (by omega)⟩
    exact (entered.reports.wordAt_eq (q := z) (apart 0 (by decide)).1 (apart 1 (by decide)).1 (apart 0 (by decide)).2
      (apart 1 (by decide)).2).trans (words w hw)
  · refine word.trans ?_
    split <;> rfl
  · have told := recorded.reports.trans (entered.reports.congr (p' := x) rfl rfl)
    exact (told.congr (q' := calm z) front_eq.symm rfl).weaken (fun _ h => h.symm) BitVec.zero_or fun _ h => h

/-- Settles O27. -/
theorem startPrepares : Obligations.StartPrepares := by
  intro slot p i f idle hn named loaded a q lines tempo
  have answer : a = carriedOut (startDetail slot p) (startPerformance slot i p) := requestStart_proceeds idle named loaded
  have format : formatAt i p = f := by rw [formatAt, loaded]; rfl
  obtain ⟨lines_bit, tempo_bit, setup_bits⟩ := startDetail_bits slot p
  obtain ⟨shape, setup⟩ := startPerformance_shape slot i hn
  obtain ⟨prepared, keys, pedals⟩ := startPrepared_spec slot i hn
  obtain ⟨low, high, below, nominal⟩ := readSetup_ranges p
  have tempo_eq : (startTimebase slot f p).tempo = tempo := startTimebase_tempo slot f p
  have reports (hm : Memory.wf p.mem = true) (hr : RingPlaced p.log) := startPerformance_reports slot i hn hm hr
  have part : q = startPerformance slot i p := by rw [show q = a.part from rfl, answer]; rfl
  have detail : a.detail = startDetail slot p := by rw [answer]; rfl
  have code : a.code = if a.detail = 0 then .ok else .clamped := by rw [answer]; rfl
  rw [← part] at shape setup
  rw [format] at prepared
  simp only [← part, format] at reports
  clear_value q a
  generalize startPrepared slot i p = y at shape prepared keys pedals
  have whole := shape
  rw [prepared] at whole
  have block {α : Type} (f : Part → α) := congrArg f whole
  have time : q.time = { startTimebase slot f p with engine := if startLines slot p = 0 then .running else .leader } := block Part.time
  refine ⟨code, detail ▸ lines_bit, detail ▸ tempo_bit, fun b hb => detail ▸ setup_bits b hb, by rw [time]; rfl, by rw [time]; rfl, by rw [time]; rfl,
    by rw [time]; rfl, by rw [time, setup]; rfl, by rw [time]; rfl, by rw [time]; exact tempo_eq, by rw [time]; rfl, by rw [time]; rfl,
    by rw [time]; rfl, by rw [time]; rfl, by rw [time]; rfl, by rw [time]; rfl, block Part.formats, block Part.strip, ?_, fun hm hr => ?_,
    block Part.shading, block Part.wheel, setup, by rw [setup]; exact low, by rw [setup]; exact high, by rw [setup]; exact below,
    by rw [setup]; exact nominal, ?_, ?_, ?_, ?_, block Part.clocks, block Part.sense, block Part.senseLevels, block Part.capture,
    block Part.analog, ?_, block Part.pins, fun d => ?_, fun k => ?_⟩
  · rw [← tempo_eq]
    exact block Part.leader
  · obtain ⟨words, word, told⟩ := reports hm hr
    rw [setup]
    refine ⟨fun w hw => (words w hw).trans ?_, word, told⟩
    rw [tempo_eq]
    rfl
  · rw [setup]
    exact congrArg Budget.ibud (block Part.budget)
  · exact congrArg Budget.patternPos (block Part.budget)
  · rw [setup]
    exact congrArg StrikeCalc.volBass (block Part.strikes)
  · rw [setup]
    exact congrArg StrikeCalc.volTreble (block Part.strikes)
  · exact block fun x => x.budget.committed
  · exact (congrArg (pedalRec d) shape).trans (pedals d)
  · exact (congrArg (keyRec k) shape).trans (keys k)

end Sys2Proof.Machine
end
